-- ==== Sys2Proof/Word.lean ====
section
/-! DEFINITION. The widths of rule R9 (00_scope.md): CPU address 16 bits, PPU address 14 bits, data
8 bits; and of the 27-bit transaction word of rule R101 (30_encoding.md). -/

namespace Sys2Proof

/-- A byte of data, of a register or of the store (R9, R15). -/
abbrev Byte := BitVec 8

/-- A CPU bus address (R9, R70 a). -/
abbrev CpuAddr := BitVec 16

/-- A PPU bus address: 14 bits by type (R9, R70 b, R103). -/
abbrev PpuAddr := BitVec 14

/-- The 27-bit transaction word (R101). -/
abbrev TxWord := BitVec 27

end Sys2Proof
end

