-- ==== Sys2Proof/Config.lean ====
section
/-! DEFINITION. What is fixed for one constructed block: the configuration record `CFG` of rules R5
to R7 (00_scope.md), the errors of its check (R10, R281), and the one free value of the block, the
open-bus draw (41_bus_operations.md R143). -/

namespace Sys2Proof

/-- The five mirroring modes (R7, R126); `fourScreen` is the spec's `NONE`. -/
inductive Mirroring where
  | horizontal
  | vertical
  | oneScreenLow
  | oneScreenHigh
  | fourScreen
deriving DecidableEq, Repr

/-- The closed set of nine personalities (R1, R5). -/
inductive Variant where
  | nrom
  | uxrom
  | cnrom
  | axrom
  | gxrom
  | unrom512
  | shift
  | irq
  | latch
deriving DecidableEq, Repr

/-- The variant tag of a configuration as the loader presents it: one of the nine, or any other tag,
which `POWERON` rejects (R5, R281). -/
inductive VariantTag where
  | known (v : Variant)
  | other (tag : Nat)
deriving DecidableEq, Repr

/-- A byte string of a configuration (`prg_bytes`, `chr_bytes`, `trainer`): its length and the bytes
that differ from zero, at their indices. -/
structure Image where
  len : Nat
  cells : List Host.Cell
deriving DecidableEq, Repr

/-- The fields of `CFG` other than the variant (R7). -/
structure Geometry where
  /-- PRG size in 16 KiB units -/
  nPrg16 : Nat
  /-- CHR size in 8 KiB units -/
  nChr8 : Nat
  /-- true when CHR is ROM -/
  chrReadOnly : Bool
  /-- `prg_bytes` -/
  prg : Image
  /-- `chr_bytes`, or absent -/
  chr : Option Image
  /-- `trainer`, or absent -/
  trainer : Option Image
  /-- the initial mirroring mode -/
  mirroring0 : Mirroring
  /-- CPU-visible RAM in 1 KiB banks -/
  banksCpuRam : Nat
  /-- PPU-visible RAM in 1 KiB banks -/
  banksPpuRam : Nat
  /-- `LATCH` only: size of the switchable PRG window in KiB -/
  split : Nat
  /-- `IRQ` only: the OPEN parameter `irq_low_min` -/
  irqLowMin : Byte
deriving DecidableEq, Repr

/-- The configuration a `POWERON` presents (R7), its tag not yet checked. -/
structure CfgIn extends Geometry where
  tag : VariantTag
deriving DecidableEq, Repr

/-- The configuration of a constructed block (R6, R7): the tag is one of the nine. -/
structure Cfg extends Geometry where
  variant : Variant
deriving DecidableEq, Repr

/-- Which constraint a `ConfigError` reports (R281), in the order of the checks of R293: the variant
tag, then R10 (a) to (g). -/
inductive ConfigError where
  /-- R5: a variant outside the nine -/
  | unknownVariant
  /-- R10 (a): a size that is not a power of two -/
  | sizeNotPowerOfTwo
  /-- R10 (b): a payload whose length is not the declared size -/
  | payloadLength
  /-- R10 (c): `NROM` or `CNROM` with more than two 16 KiB units -/
  | prgAboveTwoUnits
  /-- R10 (d): `AXROM`, `GXROM`, `SHIFT`, `LATCH` with fewer than two 16 KiB units -/
  | prgBelowTwoUnits
  /-- R10 (e): too little PPU RAM -/
  | ppuRamTooSmall
  /-- R10 (f): a trainer whose length is not 512 -/
  | trainerLength
  /-- R10 (g): a `LATCH` split other than 8 or 16 -/
  | splitValue
deriving DecidableEq, Repr

/-- The open-bus draws (R143, D9, U1): the byte the n-th read of an unmapped page returns. A free
value: no body, nothing constrains it. Assumption log 1. -/
opaque Config.openBus : Nat → Byte

/-- The geometry of the launch configuration: the start state of section 2 of 95_test_vectors.md with
payload bytes of zero. It meets R10 for every variant. DESIGN CHOICE, assumption log 2. -/
def Config.launchGeometry : Geometry where
  nPrg16 := 2
  nChr8 := 1
  chrReadOnly := true
  prg := ⟨32768, []⟩
  chr := some ⟨8192, []⟩
  trainer := none
  mirroring0 := .vertical
  banksCpuRam := 10
  banksPpuRam := 2
  split := 8
  irqLowMin := 0

/-- The configuration `State.reset` was powered on with. DESIGN CHOICE, assumption log 2. -/
def Config.launch : Cfg := { toGeometry := Config.launchGeometry, variant := .nrom }

/-- The launch configuration as the operand of a `POWERON`. -/
def Config.launchIn : CfgIn := { toGeometry := Config.launchGeometry, tag := .known .nrom }

end Sys2Proof
end

