-- ==== Sys2Proof/Machine/Memory.lean ====
section
/-! DEFINITION. The backing store as data (R12, R23): the bytes that differ from zero, by rising
offset. RAM is zero after `POWERON` (R38), so zero is what an unlisted offset reads as. -/

namespace Sys2Proof.Machine

/-- The bytes of `STORE` that are not zero, as (offset, byte) pairs with rising offsets. -/
abbrev Memory := List Host.Cell

/-- What an offset that is not listed reads as (R38: the RAM regions and an absent CHR payload are
0x00 after `POWERON`). -/
def Memory.unlisted : Byte := 0#8

/-- `MemRead(i, 1)` (R12). -/
def Memory.read (m : Memory) (i : Nat) : Byte :=
  match m with
  | [] => Memory.unlisted
  | (j, b) :: rest => if j = i then b else Memory.read rest i

/-- `MemWrite(i, 1, v)` (R12), keeping the canonical form. -/
def Memory.write (m : Memory) (i : Nat) (v : Byte) : Memory :=
  match m with
  | [] => if v = Memory.unlisted then [] else [(i, v)]
  | (j, b) :: rest =>
    if i < j then
      if v = Memory.unlisted then (j, b) :: rest else (i, v) :: (j, b) :: rest
    else if i = j then
      if v = Memory.unlisted then rest else (i, v) :: rest
    else (j, b) :: Memory.write rest i v

/-- Every listed offset is at least `lo`, offsets rise, and no listed byte is the unlisted one. -/
def Memory.wfFrom (lo : Nat) (m : Memory) : Bool :=
  match m with
  | [] => true
  | (j, b) :: rest => decide (lo ≤ j) && decide (b ≠ Memory.unlisted) && Memory.wfFrom (j + 1) rest

/-- The canonical form: rising offsets, no listed byte equal to the unlisted one. -/
def Memory.wf (m : Memory) : Bool := Memory.wfFrom 0 m

/-- Every listed offset is below `len`. -/
def Memory.below (m : Memory) (len : Nat) : Bool := m.all fun c => decide (c.1 < len)

/-- The bytes at the offsets a test picks; every other offset unlisted. -/
def Memory.keep (p : Nat → Bool) (m : Memory) : Memory := m.filter fun c => p c.1

/-- Write consecutive bytes from `base` up. -/
def Memory.writeBytes (m : Memory) (base : Nat) (bytes : List Byte) : Memory :=
  match bytes with
  | [] => m
  | b :: rest => Memory.writeBytes (Memory.write m base b) (base + 1) rest

/-- The `len` bytes from `base` up. -/
def Memory.readBytes (m : Memory) (base len : Nat) : List Byte :=
  (List.range len).map fun k => Memory.read m (base + k)

/-- Byte `i` of a configuration's byte string (R7). -/
def imageByte (img : Image) (i : Nat) : Byte := Memory.read img.cells i

/-- Write the cells of a byte string that lie inside its length, at `base`. -/
def Memory.loadCells (m : Memory) (base len : Nat) (cells : List Host.Cell) : Memory :=
  match cells with
  | [] => m
  | (j, b) :: rest =>
    if j < len then Memory.write (Memory.loadCells m base len rest) (base + j) b
    else Memory.loadCells m base len rest

/-- Copy a configuration's byte string into a zeroed part of the store at `base` (R261, R313). -/
def Memory.load (m : Memory) (base : Nat) (img : Image) : Memory :=
  Memory.loadCells m base img.len img.cells

end Sys2Proof.Machine
end

