-- ==== Sys2Proof/Syntax.lean ====
section
/-! DEFINITION. The operations of the block, one constructor per row of `opcode_table.json` (R118):
the eight bus and host operations, the register and trigger operations of the nine variants, and the
internal procedures no transaction word selects (R115). Operands are those each rule names. -/

namespace Sys2Proof

/-- The two bank tables (R22): `CPUTAB` and `PPUTAB`. -/
inductive BankTable where
  | cpu
  | ppu
deriving DecidableEq, Repr

/-- One operation of the block (R100, R118). -/
inductive Instr where
  -- bus and host operations (R100, R141 to R146, R261, R262, R266)
  | tick
  | rdcpu (a : CpuAddr)
  | wrcpu (a : CpuAddr) (v : Byte)
  | rdppu (a : PpuAddr)
  | wrppu (a : PpuAddr) (v : Byte)
  | poweron (cfg : CfgIn)
  | save
  | restore (buf : List Byte)
  -- direct-mapped family (R164, R168, R172, R176, R180)
  | uxromSel (v : Byte)
  | cnromSel (v : Byte)
  | axromSel (v : Byte)
  | gxromSel (v : Byte)
  | unrom512Sel (v : Byte)
  -- serial-protocol variant (R193 to R198)
  | shiftReset
  | shiftBit (target : BitVec 2) (bit : Bool)
  | shiftLdCtrl (v : BitVec 5)
  | shiftLdChr0 (v : BitVec 5)
  | shiftLdChr1 (v : BitVec 5)
  | shiftLdPrg (v : BitVec 5)
  -- scanline-IRQ variant (R212, R213, R216, R217, R219 to R223, R227, R228)
  | irqBanksel (v : Byte)
  | irqBankdata (v : Byte)
  | irqMirror (horizontal : Bool)
  | irqRamprot
  | irqReloadval (v : Byte)
  | irqReload
  | irqDisable
  | irqEnable
  | irqRdppu (a : PpuAddr)
  | irqWrppu (a : PpuAddr) (v : Byte)
  | irqTick
  -- latch variant (R242 to R249); a trigger's operand is the low three address bits
  | latchPrg (v : Byte)
  | latchChr0 (v : Byte)
  | latchChr1 (v : Byte)
  | latchChr2 (v : Byte)
  | latchChr3 (v : Byte)
  | latchMirror (horizontal : Bool)
  | latchRdppu (a : PpuAddr)
  | latchTrig0Clr (low : BitVec 3)
  | latchTrig0Set (low : BitVec 3)
  | latchTrig1Clr (low : BitVec 3)
  | latchTrig1Set (low : BitVec 3)
  -- internal procedures (R115, R120 to R130, R199, R214, R224, R226, R246)
  | map (t : BankTable) (page size absOff : Nat) (ro : Bool)
  | unmap (t : BankTable) (page size : Nat)
  | mirror (t : BankTable) (page size stride : Nat)
  | setmirror (mode : Mirroring)
  | mapcpuram (page size bank : Nat) (ro : Bool)
  | mapppuram (page size bank : Nat) (ro : Bool)
  | mapprg (page size bank : Nat)
  | mapchr (page size bank : Nat)
  | shiftRemap
  | irqRemap
  | irqObserve (h : Bool)
  | irqClock
  | latchRemap
deriving DecidableEq, Repr

/-- One transaction presented to the block (R101, R102): the word, and the two side operands that are
not in the word, the configuration a `POWERON` takes and the buffer a `RESTORE` takes. The other
operations do not look at them. -/
structure Txn where
  word : TxWord
  cfg : CfgIn
  buf : List Byte
deriving DecidableEq, Repr

end Sys2Proof
end

