-- ==== Sys2Proof/Machine/State.lean ====
section
/-! DEFINITION. All the state of the block (10_state.md): the bank tables, the store, the registers of
the variants, the fault mark; the transactions the orchestrator has presented and not yet seen
performed; and, as records of the model's own, the outputs of the last operation and the number of
open-bus draws taken. The state right after reset, and the reasons a step can stop. -/

namespace Sys2Proof.Machine

/-- A bank descriptor, the source's MemoryBank (R21). -/
structure Bank where
  /-- offset in the store of the window's first byte -/
  off : Nat
  /-- writes through this descriptor are discarded -/
  ro : Bool
  /-- false when the window is open bus -/
  mapped : Bool
deriving DecidableEq, Repr

/-- The registers of the direct-mapped family (R26). -/
structure DirectRegs where
  selPrg : Byte
  selChr : Byte
deriving DecidableEq, Repr

/-- The registers of the serial-protocol variant (R27), in declared order. -/
structure ShiftRegs where
  sr : BitVec 5
  cnt : BitVec 3
  ctrl : BitVec 5
  chr0 : BitVec 5
  chr1 : BitVec 5
  prg : BitVec 5
deriving DecidableEq, Repr

/-- The registers of the scanline-IRQ variant (R29), in declared order. -/
structure IrqRegs where
  /-- `R[0]` to `R[7]` -/
  bank : Vector Byte 8
  bankSelect : BitVec 3
  prgMode : Bool
  chrMode : Bool
  counter : Byte
  reload : Byte
  enable : Bool
  reloadPending : Bool
  a12Low : Bool
  lowTicks : Byte
deriving DecidableEq, Repr

/-- The registers of the latch variant (R31), in declared order. -/
structure LatchRegs where
  prgSel : Byte
  /-- `selected_banks[0]` to `[3]` -/
  selected : Vector Byte 4
  /-- `latch[0]`, `latch[1]` -/
  latch : Vector Bool 2
deriving DecidableEq, Repr

/-- One constructed block (R20) with the configuration it was constructed from (R6). The registers of
the variants other than `cfg.variant` do not exist in it (R25): they stay at their values of R38 and
no operation of the configured variant reads or writes them. -/
structure Mapper where
  cfg : Cfg
  /-- `STORE` (R23) -/
  store : Memory
  /-- `CPUTAB` (R22) -/
  cputab : Vector Bank 64
  /-- `PPUTAB` (R22) -/
  pputab : Vector Bank 16
  direct : DirectRegs
  shift : ShiftRegs
  irq : IrqRegs
  latch : LatchRegs
  /-- the fault mark (R36) -/
  faulted : Bool
deriving DecidableEq, Repr

/-- The kinds of `ContractViolation` (R282). -/
inductive Bounds where
  | tableBounds
  | storeBounds
deriving DecidableEq, Repr

/-- The three errors an operation reports to its caller (R280 to R285, R294). -/
inductive OpError where
  /-- `ConfigError(which)` (R281) -/
  | config (which : ConfigError)
  /-- `ContractViolation(kind)` (R282) -/
  | contract (kind : Bounds)
  /-- `RestoreSizeMismatch(got, want)` (R285) -/
  | restoreSize (got want : Nat)
deriving DecidableEq, Repr

/-- The outputs of an operation (R13, R262, R290, R294). -/
structure Output where
  /-- the byte a read returns -/
  data : Option Byte
  /-- the interrupt output -/
  irq : Bool
  /-- the buffer a `SAVE` returns -/
  buffer : Option (List Byte)
  /-- the error the operation ended with -/
  error : Option OpError
deriving DecidableEq, Repr

/-- The outputs of an operation that returns nothing and raises nothing: `irq = false`. -/
def Output.quiet : Output := ⟨none, false, none, none⟩

/-- The state of the machine. -/
structure State where
  /-- the block, when a successful `POWERON` has constructed one (R20, R281, R330 a) -/
  inst : Option Mapper
  /-- the transactions the orchestrator has issued, the next one first (R100) -/
  port : List Txn
  /-- the outputs of the last operation (R13); the model's own record -/
  out : Output
  /-- how many open-bus draws have been taken (R143); the model's own counter -/
  draws : Nat
deriving DecidableEq, Repr

/-- Why the machine stops with a fault. -/
inductive Fault where
  /-- Raised by every operation on a block whose fault mark is set: no operation is defined on it (R36,
  R283, U5). Safe: the model stops. -/
  | faultedBlock
  /-- Raised by a bus operation whose descriptor leads to an offset the store does not have (R15, R70 c).
  R35 keeps every reachable state from it. Safe: the model stops. -/
  | outsideStore
deriving DecidableEq, Repr

/-- Why the machine gives an operation no meaning. -/
inductive Refusal where
  /-- Raised by `exec` for an operation that has no meaning yet. Safe: the model stops. -/
  | notModelled (mnemonic : String)
  /-- Raised by every operation but `POWERON` when there is no block to act on (U6, R281, R330 a). Safe:
  the model stops. -/
  | noBlock
  /-- Raised by a variant's operation on a block of another variant, where its registers do not exist
  (R25); decode never selects one. Safe: the model stops. -/
  | otherVariant
  /-- Raised by `RESTORE` of a buffer of the right length that no `SAVE` of a block with this
  configuration produced (R268, U3). Safe: the model stops. -/
  | foreignBuffer
  /-- Raised by the decode of a PPU word with address bit 14 or 15 set (R103, R113 f). Safe: the model
  stops. -/
  | ppuAddressTooWide (addr : CpuAddr)
deriving DecidableEq, Repr

/-- The content of a table entry nothing has been mapped to (R312). -/
def Bank.unmapped : Bank := ⟨0, false, false⟩

/-- `CPUTAB` after the launch `POWERON` (R314, R315): `CPURAM_BASE` is 40960. -/
def resetCpuBank (p : Nat) : Bank :=
  if p < 8 then ⟨40960 + 1024 * (p % 2), false, true⟩
  else if p < 24 then Bank.unmapped
  else if p < 32 then ⟨40960 + 2048 + 1024 * (p - 24), false, true⟩
  else ⟨1024 * (p - 32), true, true⟩

/-- `PPUTAB` after the launch `POWERON` (R314, R315): `CHR_BASE` is 32768, `PPURAM_BASE` is 51200,
mirroring is vertical. -/
def resetPpuBank (p : Nat) : Bank :=
  if p < 8 then ⟨32768 + 1024 * p, true, true⟩
  else ⟨51200 + 1024 * (p % 2), false, true⟩

/-- The register values of R38. -/
def DirectRegs.reset : DirectRegs := ⟨0#8, 0#8⟩

/-- The register values of R38; `ctrl` is 0x0C. -/
def ShiftRegs.reset : ShiftRegs := ⟨0#5, 0#3, 0x0C#5, 0#5, 0#5, 0#5⟩

/-- The register values of R38. -/
def IrqRegs.reset : IrqRegs :=
  ⟨Vector.replicate 8 0#8, 0#3, false, false, 0#8, 0#8, false, false, false, 0#8⟩

/-- The register values of R38. -/
def LatchRegs.reset : LatchRegs := ⟨0#8, Vector.replicate 4 0#8, Vector.replicate 2 false⟩

/-- The block of the launch configuration right after its `POWERON` (R38). -/
def Mapper.launch : Mapper where
  cfg := Config.launch
  store := []
  cputab := Vector.ofFn fun p => resetCpuBank p.val
  pputab := Vector.ofFn fun p => resetPpuBank p.val
  direct := DirectRegs.reset
  shift := ShiftRegs.reset
  irq := IrqRegs.reset
  latch := LatchRegs.reset
  faulted := false

/-- The machine right after reset: the block's one reset is the power-on construction (R39, R310), here
of the launch configuration (DESIGN CHOICE, assumption log 2); nothing issued, no output, no draw. -/
def State.reset : State where
  inst := some Mapper.launch
  port := []
  out := Output.quiet
  draws := 0

end Sys2Proof.Machine
end

