-- ==== Sys2Proof/Machine/Flags.lean ====
section
/-! DEFINITION. The single-bit state and the counters (R33, R297): the transition detector and the
counter of the scanline-IRQ variant, the serial register of the shift variant, the latches. Each
function is over the variant's registers alone. -/

namespace Sys2Proof.Machine

/-- `IRQ.CLOCK` (R226): the registers after one counter step, and whether the step raises the
interrupt. -/
def IrqRegs.clock (q : IrqRegs) : IrqRegs × Bool :=
  if q.reloadPending = true ∨ q.counter = 0#8 then
    ({ q with counter := q.reload, reloadPending := false }, false)
  else
    ({ q with counter := q.counter - 1#8 }, decide (q.counter - 1#8 = 0#8) && q.enable)

/-- `IRQ.OBSERVE(h)` (R224), with `irq_low_min`: the registers after observing address bit 12, and
whether the interrupt is raised. -/
def IrqRegs.observe (q : IrqRegs) (lowMin : Byte) (h : Bool) : IrqRegs × Bool :=
  if h then
    if q.a12Low then
      if lowMin ≤ q.lowTicks then
        ({ q.clock.1 with a12Low := false }, q.clock.2)
      else ({ q with a12Low := false }, false)
    else (q, false)
  else
    if q.a12Low then (q, false)
    else ({ q with a12Low := true, lowTicks := 0#8 }, false)

/-- The tick half of the detector (R224, R227): `low_ticks` counts while the line is low, saturating. -/
def IrqRegs.tick (q : IrqRegs) (lowMin : Byte) : IrqRegs :=
  if q.a12Low = true ∧ q.lowTicks < lowMin then { q with lowTicks := q.lowTicks + 1#8 } else q

/-- The serial register after one bit: `(sr >> 1) OR (V[0] << 4)` (R194). -/
def shiftIn (sr : BitVec 5) (bit : Bool) : BitVec 5 := (sr >>> 1) ||| (if bit then 0x10#5 else 0#5)

/-- The reset write's registers (R193). -/
def ShiftRegs.resetWrite (q : ShiftRegs) : ShiftRegs :=
  { q with sr := 0#5, cnt := 0#3, ctrl := q.ctrl ||| 0x0C#5 }

/-- The load a fifth write performs, by `A[14:13]` (R194 to R198). -/
def ShiftRegs.load (q : ShiftRegs) (target : BitVec 2) (v : BitVec 5) : ShiftRegs :=
  match target.toNat with
  | 0 => { q with ctrl := v }
  | 1 => { q with chr0 := v }
  | 2 => { q with chr1 := v }
  | _ => { q with prg := v }

/-- The registers after a fifth write: the load, then `sr` and `cnt` cleared (R194). -/
def ShiftRegs.fifth (q : ShiftRegs) (target : BitVec 2) (bit : Bool) : ShiftRegs :=
  { q.load target (shiftIn q.sr bit) with sr := 0#5, cnt := 0#3 }

/-- The registers after one of the first four writes of a group (R194). -/
def ShiftRegs.collect (q : ShiftRegs) (bit : Bool) : ShiftRegs :=
  { q with sr := shiftIn q.sr bit, cnt := q.cnt + 1#3 }

/-- The latches after a read at a PPU address: a trigger window sets or clears one (R249); `none`
outside the windows. -/
def triggeredLatches (latch : Vector Bool 2) (a : PpuAddr) : Option (Vector Bool 2) :=
  if a &&& 0x3FF8#14 = 0x0FD8#14 then some (latch.set 0 false)
  else if a &&& 0x3FF8#14 = 0x0FE8#14 then some (latch.set 0 true)
  else if a &&& 0x3FF8#14 = 0x1FD8#14 then some (latch.set 1 false)
  else if a &&& 0x3FF8#14 = 0x1FE8#14 then some (latch.set 1 true)
  else none

end Sys2Proof.Machine
end

