-- ==== Sys2Proof/Machine/Geometry.lean ====
section
/-! DEFINITION. The constants a configuration fixes (R8, R10, 00_scope.md) and the check of a
configuration at construction (R5, R10, R281, R293). -/

namespace Sys2Proof

/-- `banks_prg = 16 * n_prg16` (R8). -/
def Geometry.banksPrg (g : Geometry) : Nat := 16 * g.nPrg16

/-- `banks_chr = 8 * n_chr8` (R8). -/
def Geometry.banksChr (g : Geometry) : Nat := 8 * g.nChr8

/-- `SIZE_PRG` (R8). -/
def Geometry.sizePrg (g : Geometry) : Nat := 1024 * g.banksPrg

/-- `SIZE_CHR` (R8). -/
def Geometry.sizeChr (g : Geometry) : Nat := 1024 * g.banksChr

/-- `SIZE_CPURAM` (R8). -/
def Geometry.sizeCpuRam (g : Geometry) : Nat := 1024 * g.banksCpuRam

/-- `SIZE_PPURAM` (R8). -/
def Geometry.sizePpuRam (g : Geometry) : Nat := 1024 * g.banksPpuRam

/-- `PRG_BASE` (R8). -/
def Geometry.prgBase (_g : Geometry) : Nat := 0

/-- `CHR_BASE` (R8). -/
def Geometry.chrBase (g : Geometry) : Nat := g.sizePrg

/-- `CPURAM_BASE` (R8). -/
def Geometry.cpuRamBase (g : Geometry) : Nat := g.sizePrg + g.sizeChr

/-- `PPURAM_BASE` (R8). -/
def Geometry.ppuRamBase (g : Geometry) : Nat := g.sizePrg + g.sizeChr + g.sizeCpuRam

/-- `LEN`, the length of the backing store (R8). -/
def Geometry.storeLen (g : Geometry) : Nat := g.sizePrg + g.sizeChr + g.sizeCpuRam + g.sizePpuRam

/-- A power of two (R10 a): not 0, one bit set. -/
def isPowerOfTwo (n : Nat) : Bool := decide (n ≠ 0) && decide (n &&& (n - 1) = 0)

/-- R10 (a): `n_prg16` and `n_chr8` are powers of two. -/
def Geometry.sizesOk (g : Geometry) : Bool := isPowerOfTwo g.nPrg16 && isPowerOfTwo g.nChr8

/-- R10 (b): the payload lengths are the declared sizes; CHR may be absent only when it is RAM. -/
def Geometry.payloadsOk (g : Geometry) : Bool :=
  decide (g.prg.len = g.sizePrg) &&
  match g.chr with
  | some c => decide (c.len = g.sizeChr)
  | none => !g.chrReadOnly

/-- R10 (c): `NROM` and `CNROM` have one or two 16 KiB units of PRG. -/
def Geometry.prgMaxOk (v : Variant) (g : Geometry) : Bool :=
  match v with
  | .nrom | .cnrom => decide (g.nPrg16 = 1) || decide (g.nPrg16 = 2)
  | .uxrom | .axrom | .gxrom | .unrom512 | .shift | .irq | .latch => true

/-- R10 (d): `AXROM`, `GXROM`, `SHIFT` and `LATCH` have at least two 16 KiB units of PRG. -/
def Geometry.prgMinOk (v : Variant) (g : Geometry) : Bool :=
  match v with
  | .axrom | .gxrom | .shift | .latch => decide (2 ≤ g.nPrg16)
  | .nrom | .uxrom | .cnrom | .unrom512 | .irq => true

/-- R10 (e): at least 2 banks of PPU RAM, at least 4 when the initial mirroring is `NONE`. -/
def Geometry.ppuRamOk (g : Geometry) : Bool :=
  decide (2 ≤ g.banksPpuRam) && (decide (g.mirroring0 ≠ .fourScreen) || decide (4 ≤ g.banksPpuRam))

/-- R10 (f): a trainer, when present, has 512 bytes. -/
def Geometry.trainerOk (g : Geometry) : Bool :=
  match g.trainer with
  | some t => decide (t.len = 512)
  | none => true

/-- R10 (g): `split` is 8 or 16 for `LATCH`. -/
def Geometry.splitOk (v : Variant) (g : Geometry) : Bool :=
  match v with
  | .latch => decide (g.split = 8) || decide (g.split = 16)
  | .nrom | .uxrom | .cnrom | .axrom | .gxrom | .unrom512 | .shift | .irq => true

/-- The first constraint of R10 that a geometry breaks under a variant, in the order (a) to (g)
(R293). -/
def Geometry.broken (v : Variant) (g : Geometry) : Option ConfigError :=
  if !g.sizesOk then some .sizeNotPowerOfTwo
  else if !g.payloadsOk then some .payloadLength
  else if !g.prgMaxOk v then some .prgAboveTwoUnits
  else if !g.prgMinOk v then some .prgBelowTwoUnits
  else if !g.ppuRamOk then some .ppuRamTooSmall
  else if !g.trainerOk then some .trainerLength
  else if !g.splitOk v then some .splitValue
  else none

/-- The check of `POWERON` (R261, R281, R293): the variant tag first, then R10. -/
def checkCfg (c : CfgIn) : Except ConfigError Cfg :=
  match c.tag with
  | .other _ => .error .unknownVariant
  | .known v =>
    match c.toGeometry.broken v with
    | some e => .error e
    | none => .ok { toGeometry := c.toGeometry, variant := v }

/-- The configuration meets R10. -/
def Cfg.legal (c : Cfg) : Bool := decide (c.toGeometry.broken c.variant = none)

end Sys2Proof
end

