-- ==== Sys2Proof/Machine/Operands.lean ====
section
/-! DEFINITION. Operand forms: the page and offset of an address (R14), the fields of a written byte
(R28, R30, R108), the masking law (R16) and the bank numbers the remaps compute from registers. -/

namespace Sys2Proof.Machine

/-- The page `A[15:10]` of a CPU address (R14). -/
def cpuPage (a : CpuAddr) : Fin 64 := (a.extractLsb' 10 6).toFin

/-- The page `A[13:10]` of a PPU address (R14). -/
def ppuPage (a : PpuAddr) : Fin 16 := (a.extractLsb' 10 4).toFin

/-- `intra = A[9:0]` of a CPU address (R14). -/
def cpuIntra (a : CpuAddr) : Nat := (a.extractLsb' 0 10).toNat

/-- `intra = A[9:0]` of a PPU address (R14). -/
def ppuIntra (a : PpuAddr) : Nat := (a.extractLsb' 0 10).toNat

/-- The field `v[lo + width - 1 : lo]` as an unsigned number (R11). -/
def field (v : Byte) (lo width : Nat) : Nat := (v.extractLsb' lo width).toNat

/-- The masking law: `v AND (count - 1)` (R16). -/
def maskTo (v count : Nat) : Nat := v &&& (count - 1)

/-- A masked selection kept in an 8-bit register (R26, R31). -/
def maskReg (v count : Nat) : Byte := BitVec.ofNat 8 (maskTo v count)

/-- One-screen high for 1, low for 0 (R108, R172, R180). -/
def oneScreen (high : Bool) : Mirroring := if high then .oneScreenHigh else .oneScreenLow

/-- Horizontal for 1, vertical for 0 (R216, R248). -/
def horizontalOr (horizontal : Bool) : Mirroring := if horizontal then .horizontal else .vertical

/-- The mirroring field `ctrl[1:0]` (R28). -/
def ctrlMirroring (ctrl : BitVec 5) : Mirroring :=
  match (ctrl.extractLsb' 0 2).toNat with
  | 0 => .oneScreenLow
  | 1 => .oneScreenHigh
  | 2 => .vertical
  | _ => .horizontal

/-- The PRG mode field `ctrl[3:2]` (R28). -/
def ctrlPrgMode (ctrl : BitVec 5) : Nat := (ctrl.extractLsb' 2 2).toNat

/-- The CHR mode bit `ctrl[4]` (R28). -/
def ctrlChrMode (ctrl : BitVec 5) : Bool := ctrl.getLsbD 4

/-- `n4`, the number of 4 KiB CHR banks (R199, 45_latch.md). -/
def chrBanks4 (g : Geometry) : Nat := 2 * g.nChr8

/-- `n8`, the number of 8 KiB PRG banks (R214). -/
def prgBanks8 (g : Geometry) : Nat := 2 * g.nPrg16

/-- `nS = banks_prg / S`, the number of switchable PRG units (45_latch.md). -/
def prgUnits (g : Geometry) : Nat := g.banksPrg / g.split

/-- The bank of a 2 KiB CHR window, `c2(i)` (R215). -/
def chrPair (g : Geometry) (q : IrqRegs) (i : Fin 8) : Nat := maskTo (q.bank[i] &&& 0xFE#8).toNat g.banksChr

/-- The bank of a 1 KiB CHR window, `c1(i)` (R215). -/
def chrSingle (g : Geometry) (q : IrqRegs) (i : Fin 8) : Nat := maskTo q.bank[i].toNat g.banksChr

/-- `R[6] AND (n8 - 1)` and `R[7] AND (n8 - 1)` (R214). -/
def prgSingle (g : Geometry) (q : IrqRegs) (i : Fin 8) : Nat := maskTo q.bank[i].toNat (prgBanks8 g)

/-- The bank a 4 KiB CHR half shows: `selected_banks[2*half + (latch[half] ? 0 : 1)]` (R240, R246). -/
def latchBank0 (q : LatchRegs) : Nat := (if q.latch[0] then q.selected[0] else q.selected[1]).toNat

/-- The same for the second half (R246). -/
def latchBank1 (q : LatchRegs) : Nat := (if q.latch[1] then q.selected[2] else q.selected[3]).toNat

end Sys2Proof.Machine
end

