-- ==== Sys2Proof/Machine/Ops.lean ====
section
/-! DEFINITION. The named operations every meaning is built from: writing the bank tables with their
checks (R120 to R130), translation and the byte access behind it (R74, R75, R141 to R145), the outcome
of an operation with its outputs (R13), and the three errors (R281, R282, R285). -/

namespace Sys2Proof.Machine

/-! ### The bank tables -/

/-- The loop of `MAP` (R120): entries `page .. page+size-1` name consecutive windows from `off`. -/
def mapRange {n : Nat} (t : Vector Bank n) (page size off : Nat) (ro : Bool) : Vector Bank n :=
  Vector.ofFn fun i =>
    if page ≤ i.val ∧ i.val < page + size then ⟨off + 1024 * (i.val - page), ro, true⟩ else t[i]

/-- The loop of `UNMAP` (R123): `mapped` becomes false, `off` and `ro` stay. -/
def unmapRange {n : Nat} (t : Vector Bank n) (page size : Nat) : Vector Bank n :=
  Vector.ofFn fun i =>
    if page ≤ i.val ∧ i.val < page + size then { t[i] with mapped := false } else t[i]

/-- The copy of `MIRROR` (R125): destination `(page + stride + k) mod n` takes source `page + k`, from a
snapshot, for `k < size`. -/
def mirrorRange {n : Nat} (t : Vector Bank n) (page size stride : Nat) : Vector Bank n :=
  Vector.ofFn fun i =>
    let k := (i.val + n - (page + stride) % n) % n
    if h : k < size ∧ page + k < n then t[page + k] else t[i]

/-- `len(T)` (R22). -/
def tableLen (t : BankTable) : Nat :=
  match t with
  | .cpu => 64
  | .ppu => 16

/-- Replace the store. -/
def Mapper.setStore (m : Mapper) (x : Memory) : Mapper := { m with store := x }

/-- Replace `CPUTAB`. -/
def Mapper.setCputab (m : Mapper) (x : Vector Bank 64) : Mapper := { m with cputab := x }

/-- Replace `PPUTAB`. -/
def Mapper.setPputab (m : Mapper) (x : Vector Bank 16) : Mapper := { m with pputab := x }

/-- Replace the direct-mapped registers. -/
def Mapper.setDirect (m : Mapper) (x : DirectRegs) : Mapper := { m with direct := x }

/-- Replace the shift registers. -/
def Mapper.setShift (m : Mapper) (x : ShiftRegs) : Mapper := { m with shift := x }

/-- Replace the scanline-IRQ registers. -/
def Mapper.setIrq (m : Mapper) (x : IrqRegs) : Mapper := { m with irq := x }

/-- Replace the latch registers. -/
def Mapper.setLatch (m : Mapper) (x : LatchRegs) : Mapper := { m with latch := x }

/-- Replace the fault mark. -/
def Mapper.setFaulted (m : Mapper) (x : Bool) : Mapper := { m with faulted := x }

/-- Rewrite one table by its own loop. -/
def Mapper.onTable (m : Mapper) (t : BankTable) (f : {n : Nat} → Vector Bank n → Vector Bank n) : Mapper :=
  match t with
  | .cpu => m.setCputab (f m.cputab)
  | .ppu => m.setPputab (f m.pputab)

/-! ### Procedures that may end in a contract violation -/

/-- The outcome of an internal procedure: it completes, or a check fails; then what was written before
the failing call stays written (R282). -/
inductive ProcResult where
  | done (m : Mapper)
  | violation (kind : Bounds) (m : Mapper)
deriving DecidableEq, Repr

/-- Run one procedure after another; a violation ends the sequence (R12, R282). -/
def ProcResult.andThen (r : ProcResult) (f : Mapper → ProcResult) : ProcResult :=
  match r with
  | .done m => f m
  | .violation kind m => .violation kind m

/-- `MAP(T, page, size, abs_off, ro)` (R120), the table check (R121) before the store check (R122). With `size = 0`
the store check is made too, so an `abs_off` past `LEN` is fatal: R120's pseudocode and R122 against R120's corner
case, which says that such a call raises nothing. DESIGN CHOICE, assumption log 20. -/
def mapProc (t : BankTable) (page size absOff : Nat) (ro : Bool) (m : Mapper) : ProcResult :=
  if tableLen t < page + size then .violation .tableBounds m
  else if m.cfg.storeLen < absOff + 1024 * size then .violation .storeBounds m
  else .done (m.onTable t fun x => mapRange x page size absOff ro)

/-- `UNMAP(T, page, size)` (R123). -/
def unmapProc (t : BankTable) (page size : Nat) (m : Mapper) : ProcResult :=
  if tableLen t < page + size then .violation .tableBounds m
  else .done (m.onTable t fun x => unmapRange x page size)

/-- `MIRROR(T, page, size, stride)` (R125). -/
def mirrorProc (t : BankTable) (page size stride : Nat) (m : Mapper) : ProcResult :=
  if tableLen t < page + size then .violation .tableBounds m
  else .done (m.onTable t fun x => mirrorRange x page size stride)

/-- `MAPCPURAM(page, size, bank, ro)` (R127): the region check first. -/
def mapCpuRam (page size bank : Nat) (ro : Bool) (m : Mapper) : ProcResult :=
  if m.cfg.banksCpuRam < bank + size then .violation .storeBounds m
  else mapProc .cpu page size (m.cfg.cpuRamBase + 1024 * bank) ro m

/-- `MAPPPURAM(page, size, bank, ro)` (R128). -/
def mapPpuRam (page size bank : Nat) (ro : Bool) (m : Mapper) : ProcResult :=
  if m.cfg.banksPpuRam < bank + size then .violation .storeBounds m
  else mapProc .ppu page size (m.cfg.ppuRamBase + 1024 * bank) ro m

/-- `MAPPRG(page, size, bank)` (R129): always read-only. -/
def mapPrg (page size bank : Nat) (m : Mapper) : ProcResult :=
  if m.cfg.banksPrg < bank + size then .violation .storeBounds m
  else mapProc .cpu page size (m.cfg.prgBase + 1024 * bank) true m

/-- `MAPCHR(page, size, bank)` (R130): read-only exactly when CHR is ROM. -/
def mapChr (page size bank : Nat) (m : Mapper) : ProcResult :=
  if m.cfg.banksChr < bank + size then .violation .storeBounds m
  else mapProc .ppu page size (m.cfg.chrBase + 1024 * bank) m.cfg.chrReadOnly m

/-- The PPU RAM banks of the four nametable pages in a mirroring mode (R126, R131). -/
def nametableBank (mode : Mirroring) (i : Fin 4) : Nat :=
  match mode with
  | .horizontal => #v[0, 0, 1, 1][i]
  | .vertical => #v[0, 1, 0, 1][i]
  | .oneScreenLow => #v[0, 0, 0, 0][i]
  | .oneScreenHigh => #v[1, 1, 1, 1][i]
  | .fourScreen => #v[0, 1, 2, 3][i]

/-- `SETMIRROR(mode)` (R126). -/
def setMirror (mode : Mirroring) (m : Mapper) : ProcResult :=
  (mapPpuRam 8 1 (nametableBank mode 0) false m).andThen fun m =>
  (mapPpuRam 9 1 (nametableBank mode 1) false m).andThen fun m =>
  (mapPpuRam 10 1 (nametableBank mode 2) false m).andThen fun m =>
  (mapPpuRam 11 1 (nametableBank mode 3) false m).andThen fun m =>
  mirrorProc .ppu 8 4 4 m

/-! ### Outcomes -/

/-- The state after an operation that leaves block `m` and outputs `o`. -/
def State.reply (s : State) (m : Mapper) (o : Output) : State := { s with inst := some m, out := o }

/-- The state after an operation that also leaves the draw counter at `d`. -/
def State.replyDraw (s : State) (m : Mapper) (o : Output) (d : Nat) : State :=
  { s with inst := some m, out := o, draws := d }

/-- Taking an error: the operation ends and reports it (R294). `inst` is the block that is left: none
after a `ConfigError` (R281), the unchanged block after a `RestoreSizeMismatch` (R285), the block with
what was already written after a `ContractViolation` (R282). -/
def State.raise (s : State) (inst : Option Mapper) (e : OpError) : State :=
  { s with inst := inst, out := { Output.quiet with error := some e } }

/-- Taking a `ContractViolation` (R282): the fault mark is set, and what was written before the failing
call stays written. -/
def State.raiseContract (s : State) (m : Mapper) (kind : Bounds) : State :=
  s.raise (some (m.setFaulted true)) (.contract kind)

/-- End an operation with the result of a procedure and the outputs of its completion. -/
def finishWith (s : State) (o : Output) (r : ProcResult) : Host.Outcome State Fault Refusal :=
  match r with
  | .done m => .next (s.reply m o)
  | .violation kind m => .next (s.raiseContract m kind)

/-- End an operation that outputs nothing and does not raise the interrupt. -/
def finish (s : State) (r : ProcResult) : Host.Outcome State Fault Refusal := finishWith s Output.quiet r

/-- An operation acts on the constructed block (U6), which must not be faulted (R36, R140, R283). -/
def withBlock (s : State) (k : Mapper → Host.Outcome State Fault Refusal) : Host.Outcome State Fault Refusal :=
  match s.inst with
  | none => .refused .noBlock
  | some m => if m.faulted then .fault .faultedBlock else k m

/-- A variant's operation acts on a block of that variant, where its registers exist (R25). -/
def withVariant (v : Variant) (s : State) (k : Mapper → Host.Outcome State Fault Refusal) :
    Host.Outcome State Fault Refusal :=
  withBlock s fun m => if m.cfg.variant = v then k m else .refused .otherVariant

/-! ### Bus accesses -/

/-- The store offset of a bus access, none when the page is open bus (R74). -/
def translate (e : Bank) (intra : Nat) : Option Nat := if e.mapped then some (e.off + intra) else none

/-- The descriptor of a CPU address (R14, R74). -/
def cpuBank (m : Mapper) (a : CpuAddr) : Bank := m.cputab[cpuPage a]

/-- The descriptor of a PPU address (R14, R74). -/
def ppuBank (m : Mapper) (a : PpuAddr) : Bank := m.pputab[ppuPage a]

/-- What a read through a descriptor gives, with the draw counter after it: the store byte, or the
open-bus draw when the page is unmapped (R75, R141, R143, R144). -/
inductive ReadResult where
  | byte (b : Byte) (draws : Nat)
  | outside
deriving DecidableEq, Repr

/-- A read through a descriptor (R75, R143). -/
def readThrough (m : Mapper) (e : Bank) (intra draws : Nat) : ReadResult :=
  match translate e intra with
  | some i => if i < m.cfg.storeLen then .byte (Memory.read m.store i) draws else .outside
  | none => .byte (Config.openBus draws) (draws + 1)

/-- The block after a write through a descriptor; none when the offset is outside the store. A write to
a read-only or unmapped page is discarded (R75, R142, R145). -/
def writeThrough (m : Mapper) (e : Bank) (intra : Nat) (v : Byte) : Option Mapper :=
  match translate e intra with
  | some i =>
    if e.ro then some m
    else if i < m.cfg.storeLen then some (m.setStore (Memory.write m.store i v)) else none
  | none => some m

/-- A read operation: `k` continues with the byte and the draw counter. -/
def withRead (m : Mapper) (e : Bank) (intra draws : Nat)
    (k : Byte → Nat → Host.Outcome State Fault Refusal) : Host.Outcome State Fault Refusal :=
  match readThrough m e intra draws with
  | .byte b d => k b d
  | .outside => .fault .outsideStore

/-- A write operation: `k` continues with the block after the write. -/
def withWrite (m : Mapper) (e : Bank) (intra : Nat) (v : Byte)
    (k : Mapper → Host.Outcome State Fault Refusal) : Host.Outcome State Fault Refusal :=
  match writeThrough m e intra v with
  | some m' => k m'
  | none => .fault .outsideStore

/-- The outputs of a read: the byte, and whether the interrupt was raised (R13, R223). -/
def Output.ofRead (b : Byte) (irq : Bool) : Output := { Output.quiet with data := some b, irq := irq }

/-- The outputs of an operation that may raise the interrupt (R290). -/
def Output.ofIrq (irq : Bool) : Output := { Output.quiet with irq := irq }

end Sys2Proof.Machine
end

