-- ==== Sys2Proof/Machine/Bus.lean ====
section
/-! DEFINITION. The default bus operations, common to all variants (41_bus_operations.md R141 to
R146). -/

namespace Sys2Proof.Machine

/-- The default read of a CPU address as a step: `k` continues with the byte and the draw counter
(R141). -/
def cpuRead (m : Mapper) (a : CpuAddr) (draws : Nat) (k : Byte → Nat → Host.Outcome State Fault Refusal) :
    Host.Outcome State Fault Refusal :=
  withRead m (cpuBank m a) (cpuIntra a) draws k

/-- The default read of a PPU address as a step (R144). -/
def ppuRead (m : Mapper) (a : PpuAddr) (draws : Nat) (k : Byte → Nat → Host.Outcome State Fault Refusal) :
    Host.Outcome State Fault Refusal :=
  withRead m (ppuBank m a) (ppuIntra a) draws k

/-- The default write of a PPU address as a step (R145). -/
def ppuWrite (m : Mapper) (a : PpuAddr) (v : Byte) (k : Mapper → Host.Outcome State Fault Refusal) :
    Host.Outcome State Fault Refusal :=
  withWrite m (ppuBank m a) (ppuIntra a) v k

/-- `TICK` (R146): nothing but `irq = false`. -/
def execTick (s : State) : Host.Outcome State Fault Refusal :=
  withBlock s fun m => .next (s.reply m Output.quiet)

/-- `RDCPU A` (R141): the block is unchanged. -/
def execRdcpu (a : CpuAddr) (s : State) : Host.Outcome State Fault Refusal :=
  withBlock s fun m => cpuRead m a s.draws fun b d => .next (s.replyDraw m (Output.ofRead b false) d)

/-- `WRCPU A,V` (R142). -/
def execWrcpu (a : CpuAddr) (v : Byte) (s : State) : Host.Outcome State Fault Refusal :=
  withBlock s fun m => withWrite m (cpuBank m a) (cpuIntra a) v fun m' => .next (s.reply m' Output.quiet)

/-- `RDPPU A` (R144): the block is unchanged. -/
def execRdppu (a : PpuAddr) (s : State) : Host.Outcome State Fault Refusal :=
  withBlock s fun m => ppuRead m a s.draws fun b d => .next (s.replyDraw m (Output.ofRead b false) d)

/-- `WRPPU A,V` (R145). -/
def execWrppu (a : PpuAddr) (v : Byte) (s : State) : Host.Outcome State Fault Refusal :=
  withBlock s fun m => ppuWrite m a v fun m' => .next (s.reply m' Output.quiet)

end Sys2Proof.Machine
end

