-- ==== Sys2Proof/Machine/Direct.lean ====
section
/-! DEFINITION. The select operations of the direct-mapped variants (42_direct_mapped.md R164, R168,
R172, R176, R180); the bit fields are those of R108. -/

namespace Sys2Proof.Machine

/-- `UXROM.SEL` (R164). -/
def execUxromSel (v : Byte) (s : State) : Host.Outcome State Fault Refusal :=
  withVariant .uxrom s fun m =>
    let sel := maskReg v.toNat m.cfg.nPrg16
    finish s (mapPrg 32 16 (16 * sel.toNat) (m.setDirect { m.direct with selPrg := sel }))

/-- `CNROM.SEL` (R168). -/
def execCnromSel (v : Byte) (s : State) : Host.Outcome State Fault Refusal :=
  withVariant .cnrom s fun m =>
    let sel := maskReg v.toNat m.cfg.nChr8
    finish s (mapChr 0 8 (8 * sel.toNat) (m.setDirect { m.direct with selChr := sel }))

/-- `AXROM.SEL` (R172). -/
def execAxromSel (v : Byte) (s : State) : Host.Outcome State Fault Refusal :=
  withVariant .axrom s fun m =>
    let sel := maskReg (field v 0 3) (m.cfg.nPrg16 / 2)
    finish s
      ((mapPrg 32 32 (32 * sel.toNat) (m.setDirect { m.direct with selPrg := sel })).andThen
        (setMirror (oneScreen (v.getLsbD 4))))

/-- `GXROM.SEL` (R176). -/
def execGxromSel (v : Byte) (s : State) : Host.Outcome State Fault Refusal :=
  withVariant .gxrom s fun m =>
    let selPrg := maskReg (field v 4 2) (m.cfg.nPrg16 / 2)
    let selChr := maskReg (field v 0 2) m.cfg.nChr8
    finish s
      ((mapPrg 32 32 (32 * selPrg.toNat) (m.setDirect ⟨selPrg, selChr⟩)).andThen
        (mapChr 0 8 (8 * selChr.toNat)))

/-- `UNROM512.SEL` (R180). -/
def execUnrom512Sel (v : Byte) (s : State) : Host.Outcome State Fault Refusal :=
  withVariant .unrom512 s fun m =>
    let selPrg := maskReg (field v 0 5) m.cfg.nPrg16
    let selChr := maskReg (field v 5 2) m.cfg.nChr8
    finish s
      ((mapPrg 32 16 (16 * selPrg.toNat) (m.setDirect ⟨selPrg, selChr⟩)).andThen fun m =>
        (mapChr 0 8 (8 * selChr.toNat) m).andThen (setMirror (oneScreen (v.getLsbD 7))))

end Sys2Proof.Machine
end

