-- ==== Sys2Proof/Machine/Layout.lean ====
section
/-! DEFINITION. The bank layouts: the remap procedures of the variants (R199, R214, R215, R246), the
power-on layout (R312, R315 to R323), and which tables and registers a block of a configuration can
hold. -/

namespace Sys2Proof.Machine

/-- `SHIFT.REMAP`, the PRG part (R199). -/
def shiftRemapPrg (m : Mapper) : ProcResult :=
  let p := (m.shift.prg.extractLsb' 0 4).toNat
  match ctrlPrgMode m.shift.ctrl with
  | 0 => mapPrg 32 32 (32 * maskTo (p / 2) (m.cfg.nPrg16 / 2)) m
  | 1 => mapPrg 32 32 (32 * maskTo (p / 2) (m.cfg.nPrg16 / 2)) m
  | 2 =>
    (mapPrg 32 16 0 m).andThen fun m' => mapPrg 48 16 (16 * maskTo p m.cfg.nPrg16) m'
  | _ =>
    (mapPrg 32 16 (16 * maskTo p m.cfg.nPrg16) m).andThen fun m' =>
    mapPrg 48 16 (16 * (m.cfg.nPrg16 - 1)) m'

/-- `SHIFT.REMAP`, the CHR part (R199). -/
def shiftRemapChr (m : Mapper) : ProcResult :=
  if ctrlChrMode m.shift.ctrl then
    (mapChr 0 4 (4 * maskTo m.shift.chr0.toNat (chrBanks4 m.cfg.toGeometry)) m).andThen fun m' =>
    mapChr 4 4 (4 * maskTo m.shift.chr1.toNat (chrBanks4 m.cfg.toGeometry)) m'
  else mapChr 0 8 (8 * maskTo (m.shift.chr0.toNat / 2) m.cfg.nChr8) m

/-- `SHIFT.REMAP` (R199). -/
def shiftRemap (m : Mapper) : ProcResult :=
  (shiftRemapPrg m).andThen fun m =>
  (shiftRemapChr m).andThen fun m =>
  setMirror (ctrlMirroring m.shift.ctrl) m

/-- `IRQ.REMAP`, the PRG half (R214). -/
def irqRemapPrg (m : Mapper) : ProcResult :=
  let g := m.cfg.toGeometry
  let r6 := prgSingle g m.irq 6
  let r7 := prgSingle g m.irq 7
  let fixed := prgBanks8 g - 2
  let low := if m.irq.prgMode then fixed else r6
  let high := if m.irq.prgMode then r6 else fixed
  (mapPrg 32 8 (8 * low) m).andThen fun m =>
  (mapPrg 40 8 (8 * r7) m).andThen fun m =>
  (mapPrg 48 8 (8 * high) m).andThen fun m =>
  mapPrg 56 8 (8 * (prgBanks8 g - 1)) m

/-- `IRQ.REMAP`, the CHR half (R215). -/
def irqRemapChr (m : Mapper) : ProcResult :=
  let g := m.cfg.toGeometry
  let q := m.irq
  if m.irq.chrMode then
    (mapChr 0 1 (chrSingle g q 2) m).andThen fun m =>
    (mapChr 1 1 (chrSingle g q 3) m).andThen fun m =>
    (mapChr 2 1 (chrSingle g q 4) m).andThen fun m =>
    (mapChr 3 1 (chrSingle g q 5) m).andThen fun m =>
    (mapChr 4 2 (chrPair g q 0) m).andThen fun m =>
    mapChr 6 2 (chrPair g q 1) m
  else
    (mapChr 0 2 (chrPair g q 0) m).andThen fun m =>
    (mapChr 2 2 (chrPair g q 1) m).andThen fun m =>
    (mapChr 4 1 (chrSingle g q 2) m).andThen fun m =>
    (mapChr 5 1 (chrSingle g q 3) m).andThen fun m =>
    (mapChr 6 1 (chrSingle g q 4) m).andThen fun m =>
    mapChr 7 1 (chrSingle g q 5) m

/-- `IRQ.REMAP` (R214, then R215). -/
def irqRemap (m : Mapper) : ProcResult := (irqRemapPrg m).andThen irqRemapChr

/-- `LATCH.REMAP` (R246). -/
def latchRemap (m : Mapper) : ProcResult :=
  let split := m.cfg.split
  let q := m.latch
  (mapPrg 32 split (split * q.prgSel.toNat) m).andThen fun m1 =>
  (mapPrg (32 + split) (32 - split) (m.cfg.banksPrg - (32 - split)) m1).andThen fun m2 =>
  (mapChr 0 4 (4 * latchBank0 q) m2).andThen fun m3 =>
  mapChr 4 4 (4 * latchBank1 q) m3

/-- The whole PRG at CPU pages 32 to 63, a single 16 KiB unit appearing twice (R161, R315). -/
def wholePrg (m : Mapper) : ProcResult :=
  if m.cfg.nPrg16 = 2 then mapPrg 32 32 0 m
  else (mapPrg 32 16 0 m).andThen fun m => mapPrg 48 16 0 m

/-- A selected 16 KiB unit at 0x8000 and the last one fixed at 0xC000 (R164, R180, R316, R320). -/
def selectedAndLast (m : Mapper) : ProcResult :=
  (mapPrg 32 16 (16 * m.direct.selPrg.toNat) m).andThen fun m' =>
  mapPrg 48 16 (16 * (m.cfg.nPrg16 - 1)) m'

/-- The windows of the configured variant as its registers select them: at the registers of R38 the
variant's reset rule (R315 to R323). -/
def variantLayout (m : Mapper) : ProcResult :=
  match m.cfg.variant with
  | .nrom => (mapChr 0 8 0 m).andThen wholePrg
  | .uxrom => (mapChr 0 8 0 m).andThen selectedAndLast
  | .cnrom => (mapChr 0 8 (8 * m.direct.selChr.toNat) m).andThen wholePrg
  | .axrom => (mapChr 0 8 0 m).andThen fun m => mapPrg 32 32 (32 * m.direct.selPrg.toNat) m
  | .gxrom =>
    (mapChr 0 8 (8 * m.direct.selChr.toNat) m).andThen fun m => mapPrg 32 32 (32 * m.direct.selPrg.toNat) m
  | .unrom512 => (mapChr 0 8 (8 * m.direct.selChr.toNat) m).andThen selectedAndLast
  | .shift => shiftRemap m
  | .irq => irqRemap m
  | .latch => latchRemap m

/-- Every entry of both tables as R312 first writes it. -/
def blankTables (m : Mapper) : Mapper :=
  (m.setCputab (Vector.replicate 64 Bank.unmapped)).setPputab (Vector.replicate 16 Bank.unmapped)

/-- System RAM at 0x0000 and its three copies, when there are two banks for it (R312). -/
def systemRam (m : Mapper) : ProcResult :=
  if 2 ≤ m.cfg.banksCpuRam then
    (mapCpuRam 0 2 0 false m).andThen fun m =>
    (mirrorProc .cpu 0 2 2 m).andThen fun m =>
    (mirrorProc .cpu 0 2 4 m).andThen fun m =>
    mirrorProc .cpu 0 2 6 m
  else .done m

/-- Work RAM at 0x6000, when there are ten banks (R312). -/
def workRam (m : Mapper) : ProcResult :=
  if 10 ≤ m.cfg.banksCpuRam then mapCpuRam 24 8 2 false m else .done m

/-- The tables from nothing: the core steps of R312 with a mirroring mode, then the variant's windows
(R311). -/
def layout (mode : Mirroring) (m : Mapper) : ProcResult :=
  (systemRam (blankTables m)).andThen fun m =>
  (workRam m).andThen fun m =>
  (setMirror mode m).andThen variantLayout

/-- The store at construction: the payloads, RAM zero, and the trainer when there is work RAM for it
(R261, R313). -/
def freshStore (g : Geometry) : Memory :=
  let roms :=
    match g.chr with
    | some c => Memory.load (Memory.load [] g.prgBase g.prg) g.chrBase c
    | none => Memory.load [] g.prgBase g.prg
  match g.trainer with
  | some t => if 10 ≤ g.banksCpuRam then Memory.load roms (g.cpuRamBase + 2048 + 4096) t else roms
  | none => roms

/-- The block `POWERON` starts from: the filled store and the registers of R38; its tables are then laid
out (R261, R311). -/
def freshMapper (cfg : Cfg) : Mapper where
  cfg := cfg
  store := freshStore cfg.toGeometry
  cputab := Vector.replicate 64 Bank.unmapped
  pputab := Vector.replicate 16 Bank.unmapped
  direct := DirectRegs.reset
  shift := ShiftRegs.reset
  irq := IrqRegs.reset
  latch := LatchRegs.reset
  faulted := false

/-! ### Which blocks a configuration can reach -/

/-- The mirroring modes the nametable pages can show: `mirroring0`, and those the variant's operations
set (R126, R172, R180, R216, R248). Under `SHIFT` the registers determine the mode (R199). -/
def reachableModes (c : Cfg) : List Mirroring :=
  match c.variant with
  | .nrom | .uxrom | .cnrom | .gxrom | .shift => [c.mirroring0]
  | .axrom | .unrom512 => [c.mirroring0, .oneScreenLow, .oneScreenHigh]
  | .irq | .latch =>
    if c.mirroring0 = .fourScreen then [.fourScreen] else [c.mirroring0, .horizontal, .vertical]

/-- The direct-mapped registers hold masked values; the one a variant lacks stays 0 (R26). -/
def directLegal (c : Cfg) (q : DirectRegs) : Bool :=
  match c.variant with
  | .uxrom => decide (q.selPrg.toNat < c.nPrg16) && decide (q.selChr = 0#8)
  | .cnrom => decide (q.selPrg = 0#8) && decide (q.selChr.toNat < c.nChr8)
  | .axrom =>
    decide (q.selPrg.toNat < c.nPrg16 / 2) && decide (q.selPrg.toNat < 8) && decide (q.selChr = 0#8)
  | .gxrom =>
    decide (q.selPrg.toNat < c.nPrg16 / 2) && decide (q.selPrg.toNat < 4) &&
    decide (q.selChr.toNat < c.nChr8) && decide (q.selChr.toNat < 4)
  | .unrom512 =>
    decide (q.selPrg.toNat < c.nPrg16) && decide (q.selPrg.toNat < 32) &&
    decide (q.selChr.toNat < c.nChr8) && decide (q.selChr.toNat < 4)
  | .nrom | .shift | .irq | .latch => decide (q = DirectRegs.reset)

/-- `cnt` is 0 to 4, and the bits of `sr` not yet shifted in are 0 (R27, R194). -/
def shiftLegal (c : Cfg) (q : ShiftRegs) : Bool :=
  match c.variant with
  | .shift =>
    decide (q.cnt.toNat ≤ 4) && decide (q.sr.toNat % 2 ^ (5 - q.cnt.toNat) = 0)
  | .nrom | .uxrom | .cnrom | .axrom | .gxrom | .unrom512 | .irq | .latch => decide (q = ShiftRegs.reset)

/-- `low_ticks` is at most `irq_low_min` (R29, R227), and the counter is 0 while a reload is pending
(R220, R226). -/
def irqLegal (c : Cfg) (q : IrqRegs) : Bool :=
  match c.variant with
  | .irq => decide (q.lowTicks ≤ c.irqLowMin) && (!q.reloadPending || decide (q.counter = 0#8))
  | .nrom | .uxrom | .cnrom | .axrom | .gxrom | .unrom512 | .shift | .latch => decide (q = IrqRegs.reset)

/-- The latch variant's selections hold masked values (R31). -/
def latchLegal (c : Cfg) (q : LatchRegs) : Bool :=
  match c.variant with
  | .latch =>
    decide (q.prgSel.toNat < prgUnits c.toGeometry) &&
    decide (q.selected[0].toNat < chrBanks4 c.toGeometry) &&
    decide (q.selected[1].toNat < chrBanks4 c.toGeometry) &&
    decide (q.selected[2].toNat < chrBanks4 c.toGeometry) &&
    decide (q.selected[3].toNat < chrBanks4 c.toGeometry)
  | .nrom | .uxrom | .cnrom | .axrom | .gxrom | .unrom512 | .shift | .irq => decide (q = LatchRegs.reset)

/-- The registers hold values the configured variant can reach. -/
def Mapper.regsLegal (m : Mapper) : Bool :=
  directLegal m.cfg m.direct && shiftLegal m.cfg m.shift && irqLegal m.cfg m.irq && latchLegal m.cfg m.latch

/-- The tables are those the block's own procedures make from its registers in mirroring mode `mode`. -/
def Mapper.tablesOf (mode : Mirroring) (m : Mapper) : Bool :=
  match layout mode m with
  | .done m' => decide (m'.cputab = m.cputab) && decide (m'.pputab = m.pputab)
  | .violation _ _ => false

/-- A select of `AXROM` and `UNROM512` sets a one-screen mode with its registers (R172, R180): where the tables
still show another mode no select has happened, and the registers are those of R38. -/
def modeFits (c : Cfg) (mode : Mirroring) (q : DirectRegs) : Bool :=
  match c.variant with
  | .axrom | .unrom512 => decide (mode = .oneScreenLow) || decide (mode = .oneScreenHigh) || decide (q = DirectRegs.reset)
  | .nrom | .uxrom | .cnrom | .gxrom | .shift | .irq | .latch => true

/-- The 1 KiB CHR banks a block can have shown when its tables show a mode: those its registers can select (R108,
R199, R215, R246), under `UNROM512` before its first select the first eight alone. -/
def chrShown (c : Cfg) (mode : Mirroring) : Nat :=
  match c.variant with
  | .nrom | .uxrom | .axrom => 8
  | .cnrom => 8 * min 256 c.nChr8
  | .gxrom => 8 * min 4 c.nChr8
  | .unrom512 => if mode = .oneScreenLow ∨ mode = .oneScreenHigh then 8 * min 4 c.nChr8 else 8
  | .shift => 4 * min 32 (chrBanks4 c.toGeometry)
  | .irq => min 256 c.banksChr
  | .latch => 4 * min 256 (chrBanks4 c.toGeometry)

/-- The CPU RAM banks the tables show (R312). -/
def cpuRamShown (c : Cfg) : Nat := if 10 ≤ c.banksCpuRam then 10 else if 2 ≤ c.banksCpuRam then 2 else 0

/-- A mirroring mode aliases a PPU RAM bank to a nametable page (R126). -/
def nametableUses (mode : Mirroring) (bank : Nat) : Bool := decide (∃ k : Fin 4, nametableBank mode k = bank)

/-- The PPU RAM banks a block can have shown when its tables show a mode: those of the modes it can have been in. -/
def ppuRamShown (c : Cfg) (mode : Mirroring) (bank : Nat) : Bool :=
  match c.variant with
  | .nrom | .uxrom | .cnrom | .gxrom => nametableUses c.mirroring0 bank
  | .axrom | .unrom512 => nametableUses c.mirroring0 bank || decide (bank < 2)
  | .shift => decide (bank < 2)
  | .irq | .latch => nametableUses c.mirroring0 bank || nametableUses mode bank

/-- The store bytes a bus write can have reached when the tables show a mode: RAM that some page has shown (R142,
R145). -/
def everWritten (c : Cfg) (mode : Mirroring) (i : Nat) : Bool :=
  (!c.chrReadOnly && decide (c.chrBase ≤ i) && decide (i < c.chrBase + 1024 * chrShown c mode) &&
    decide (i < c.cpuRamBase)) ||
  (decide (c.cpuRamBase ≤ i) && decide (i < c.cpuRamBase + 1024 * cpuRamShown c)) ||
  (decide (c.ppuRamBase ≤ i) && ppuRamShown c mode ((i - c.ppuRamBase) / 1024))

/-- Every byte no bus write can have reached holds its value of R38. -/
def Mapper.restUntouched (mode : Mirroring) (m : Mapper) : Bool :=
  decide (Memory.keep (fun i => !everWritten m.cfg mode i) m.store =
    Memory.keep (fun i => !everWritten m.cfg mode i) (freshStore m.cfg.toGeometry))

/-- The block is one that transactions reach from the `POWERON` of its configuration: its registers hold values
they can reach, and in one mirroring mode the tables are those the registers select, the mode fits the registers,
and the bytes no write can have reached are as at `POWERON` (R185, R199, R214, R246, R312). Assumption log 4. -/
def Mapper.coherent (m : Mapper) : Bool :=
  m.regsLegal && (reachableModes m.cfg).any fun mode =>
    modeFits m.cfg mode m.direct && m.tablesOf mode && m.restUntouched mode

end Sys2Proof.Machine
end

