-- ==== Sys2Proof/Machine/HostOps.lean ====
section
/-! DEFINITION. The host operations `POWERON`, `SAVE` and `RESTORE` (46_save_restore.md R261 to
R268). -/

namespace Sys2Proof.Machine

/-! ### POWERON -/

/-- The construction of a block from a checked configuration (R261, R311). -/
def powerOn (cfg : Cfg) : ProcResult := layout cfg.mirroring0 (freshMapper cfg)

/-- `POWERON cfg` (R261): the configuration is checked before anything is created (R281). A block whose
fault mark is set stays as it is (R36, R283). -/
def execPoweron (c : CfgIn) (s : State) : Host.Outcome State Fault Refusal :=
  let construct : Host.Outcome State Fault Refusal :=
    match checkCfg c with
    | .error e => .next (s.raise none (.config e))
    | .ok cfg => finish s (powerOn cfg)
  match s.inst with
  | none => construct
  | some m => if m.faulted then .fault .faultedBlock else construct

/-! ### SAVE -/

/-- An offset as an unsigned 64-bit number, least significant byte first (R263). -/
def offsetBytes (n : Nat) : List Byte := (List.range 8).map fun k => BitVec.ofNat 8 (n / 256 ^ k)

/-- A Boolean in the buffer: 0x01 for true, 0x00 for false (R263). -/
def flagByte (b : Bool) : Byte := if b then 1#8 else 0#8

/-- `enc_bank(e)`, ten bytes (R263). -/
def bankBytes (e : Bank) : List Byte := offsetBytes e.off ++ [flagByte e.ro, flagByte e.mapped]

/-- A table's entries in order (R262). -/
def tableBytes {n : Nat} (t : Vector Bank n) : List Byte := t.toList.flatMap bankBytes

/-- A register narrower than a byte, zero-extended (R263). -/
def regByte {w : Nat} (x : BitVec w) : Byte := x.setWidth 8

/-- The variant's registers in declared order, one byte each (R262, R264). -/
def regBytes (m : Mapper) : List Byte :=
  match m.cfg.variant with
  | .nrom => []
  | .uxrom => [m.direct.selPrg]
  | .cnrom => [m.direct.selChr]
  | .axrom => [m.direct.selPrg]
  | .gxrom => [m.direct.selPrg, m.direct.selChr]
  | .unrom512 => [m.direct.selPrg, m.direct.selChr]
  | .shift =>
    [regByte m.shift.sr, regByte m.shift.cnt, regByte m.shift.ctrl, regByte m.shift.chr0, regByte m.shift.chr1,
     regByte m.shift.prg]
  | .irq =>
    m.irq.bank.toList ++
    [regByte m.irq.bankSelect, flagByte m.irq.prgMode, flagByte m.irq.chrMode, m.irq.counter, m.irq.reload,
     flagByte m.irq.enable, flagByte m.irq.reloadPending, flagByte m.irq.a12Low, m.irq.lowTicks]
  | .latch =>
    [m.latch.prgSel] ++ m.latch.selected.toList ++ [flagByte m.latch.latch[0], flagByte m.latch.latch[1]]

/-- How many bytes of CHR the buffer holds: all of it when writable, else none (R262). -/
def savedChr (g : Geometry) : Nat := if g.chrReadOnly then 0 else g.sizeChr

/-- The buffer `SAVE` returns (R262). -/
def saveBuffer (m : Mapper) : List Byte :=
  tableBytes m.cputab ++ tableBytes m.pputab ++
  Memory.readBytes m.store m.cfg.chrBase (savedChr m.cfg.toGeometry) ++
  Memory.readBytes m.store m.cfg.cpuRamBase m.cfg.sizeCpuRam ++
  Memory.readBytes m.store m.cfg.ppuRamBase m.cfg.sizePpuRam ++ regBytes m

/-- `NREG`, the byte count of the variant's registers (R264). -/
def regCount (v : Variant) : Nat :=
  match v with
  | .nrom => 0
  | .uxrom => 1
  | .cnrom => 1
  | .axrom => 1
  | .gxrom => 2
  | .unrom512 => 2
  | .shift => 6
  | .irq => 17
  | .latch => 7

/-- `SAVESIZE` (R265). -/
def saveSize (c : Cfg) : Nat :=
  800 + savedChr c.toGeometry + c.sizeCpuRam + c.sizePpuRam + regCount c.variant

/-- `SAVE` (R262): the block is unchanged. -/
def execSave (s : State) : Host.Outcome State Fault Refusal :=
  withBlock s fun m => .next (s.reply m { Output.quiet with buffer := some (saveBuffer m) })

/-! ### RESTORE -/

/-- Byte `i` of a buffer. -/
def byteAt (buf : List Byte) (i : Nat) : Byte := buf.getD i 0#8

/-- The number eight bytes from `i` hold, least significant first (R263). -/
def offsetAt (buf : List Byte) (i : Nat) : Nat :=
  ((List.range 8).map fun k => (byteAt buf (i + k)).toNat * 256 ^ k).sum

/-- A flag of a buffer: any byte but 0x00 reads as true. -/
def flagAt (buf : List Byte) (i : Nat) : Bool := decide (byteAt buf i ≠ 0#8)

/-- The descriptor ten bytes from `i` hold (R263). -/
def bankAt (buf : List Byte) (i : Nat) : Bank := ⟨offsetAt buf i, flagAt buf (i + 8), flagAt buf (i + 9)⟩

/-- The block with the register bytes from `i` in the registers of its variant (R264, R266). -/
def withRegsAt (buf : List Byte) (i : Nat) (m : Mapper) : Mapper :=
  match m.cfg.variant with
  | .nrom => m
  | .uxrom => m.setDirect { m.direct with selPrg := byteAt buf i }
  | .cnrom => m.setDirect { m.direct with selChr := byteAt buf i }
  | .axrom => m.setDirect { m.direct with selPrg := byteAt buf i }
  | .gxrom => m.setDirect ⟨byteAt buf i, byteAt buf (i + 1)⟩
  | .unrom512 => m.setDirect ⟨byteAt buf i, byteAt buf (i + 1)⟩
  | .shift =>
    m.setShift
      ⟨(byteAt buf i).setWidth 5, (byteAt buf (i + 1)).setWidth 3, (byteAt buf (i + 2)).setWidth 5,
       (byteAt buf (i + 3)).setWidth 5, (byteAt buf (i + 4)).setWidth 5, (byteAt buf (i + 5)).setWidth 5⟩
  | .irq =>
    m.setIrq
      ⟨Vector.ofFn fun k : Fin 8 => byteAt buf (i + k.val), (byteAt buf (i + 8)).setWidth 3, flagAt buf (i + 9),
       flagAt buf (i + 10), byteAt buf (i + 11), byteAt buf (i + 12), flagAt buf (i + 13), flagAt buf (i + 14),
       flagAt buf (i + 15), byteAt buf (i + 16)⟩
  | .latch =>
    m.setLatch
      ⟨byteAt buf i, Vector.ofFn fun k : Fin 4 => byteAt buf (i + 1 + k.val),
       Vector.ofFn fun k : Fin 2 => flagAt buf (i + 5 + k.val)⟩

/-- The `len` bytes of a buffer from `i`. -/
def segment (buf : List Byte) (i len : Nat) : List Byte := (buf.drop i).take len

/-- The store with the CHR region (when writable) and the RAM regions of a buffer (R266). -/
def storeFrom (buf : List Byte) (g : Geometry) (store : Memory) : Memory :=
  let chr := Memory.writeBytes store g.chrBase (segment buf 800 (savedChr g))
  let cpu := Memory.writeBytes chr g.cpuRamBase (segment buf (800 + savedChr g) g.sizeCpuRam)
  Memory.writeBytes cpu g.ppuRamBase (segment buf (800 + savedChr g + g.sizeCpuRam) g.sizePpuRam)

/-- The block a buffer of the right length describes: everything `SAVE` copies is read from it, the rest
stays (R266). -/
def restored (buf : List Byte) (m : Mapper) : Mapper :=
  withRegsAt buf (800 + savedChr m.cfg.toGeometry + m.cfg.sizeCpuRam + m.cfg.sizePpuRam)
    { m with
      cputab := Vector.ofFn fun p : Fin 64 => bankAt buf (10 * p.val)
      pputab := Vector.ofFn fun p : Fin 16 => bankAt buf (640 + 10 * p.val)
      store := storeFrom buf m.cfg.toGeometry m.store }

/-- The buffer is one that a `SAVE` of a block with this configuration produces (R268, U3): read back it
gives a block that saves as the same bytes and whose tables and registers agree as a reached block's
do. Assumption log 4. -/
def ownBuffer (buf : List Byte) (m : Mapper) : Bool :=
  decide (saveBuffer (restored buf m) = buf) && (restored buf m).coherent

/-- `RESTORE buf` (R266): the size is tested before anything is written; a right-sized buffer that no
`SAVE` of a block with this configuration produced is refused (R268). -/
def execRestore (buf : List Byte) (s : State) : Host.Outcome State Fault Refusal :=
  withBlock s fun m =>
    if buf.length = saveSize m.cfg then
      if ownBuffer buf m then .next (s.reply (restored buf m) Output.quiet) else .refused .foreignBuffer
    else .next (s.raise (some m) (.restoreSize buf.length (saveSize m.cfg)))

end Sys2Proof.Machine
end

