-- ==== Sys2Proof/Machine/Irq.lean ====
section
/-! DEFINITION. The scanline-IRQ variant (44_scanline_irq.md R212 to R228). -/

namespace Sys2Proof.Machine

/-- The registers after a bank-select write: bits 2:0, 6 and 7 of the byte (R30, R212). -/
def IrqRegs.select (q : IrqRegs) (v : Byte) : IrqRegs :=
  { q with bankSelect := v.extractLsb' 0 3, prgMode := v.getLsbD 6, chrMode := v.getLsbD 7 }

/-- The registers after a bank-data write: `R[bank_select] <- V` (R213). -/
def IrqRegs.setBank (q : IrqRegs) (v : Byte) : IrqRegs :=
  { q with bank := q.bank.set q.bankSelect.toNat v q.bankSelect.isLt }

/-- `IRQ.BANKSEL` (R212). -/
def execIrqBanksel (v : Byte) (s : State) : Host.Outcome State Fault Refusal :=
  withVariant .irq s fun m => finish s (irqRemap (m.setIrq (m.irq.select v)))

/-- `IRQ.BANKDATA` (R213). -/
def execIrqBankdata (v : Byte) (s : State) : Host.Outcome State Fault Refusal :=
  withVariant .irq s fun m => finish s (irqRemap (m.setIrq (m.irq.setBank v)))

/-- `IRQ.MIRROR` (R216): nothing on a four-screen cartridge. -/
def execIrqMirror (horizontal : Bool) (s : State) : Host.Outcome State Fault Refusal :=
  withVariant .irq s fun m =>
    if m.cfg.mirroring0 = .fourScreen then finish s (.done m)
    else finish s (setMirror (horizontalOr horizontal) m)

/-- `IRQ.RAMPROT` (R217): no effect on any state. -/
def execIrqRamprot (s : State) : Host.Outcome State Fault Refusal :=
  withVariant .irq s fun m => finish s (.done m)

/-- `IRQ.RELOADVAL` (R219). -/
def execIrqReloadval (v : Byte) (s : State) : Host.Outcome State Fault Refusal :=
  withVariant .irq s fun m => finish s (.done (m.setIrq { m.irq with reload := v }))

/-- `IRQ.RELOAD` (R220). -/
def execIrqReload (s : State) : Host.Outcome State Fault Refusal :=
  withVariant .irq s fun m => finish s (.done (m.setIrq { m.irq with counter := 0#8, reloadPending := true }))

/-- `IRQ.DISABLE` (R221). -/
def execIrqDisable (s : State) : Host.Outcome State Fault Refusal :=
  withVariant .irq s fun m => finish s (.done (m.setIrq { m.irq with enable := false }))

/-- `IRQ.ENABLE` (R222). -/
def execIrqEnable (s : State) : Host.Outcome State Fault Refusal :=
  withVariant .irq s fun m => finish s (.done (m.setIrq { m.irq with enable := true }))

/-- The block and the interrupt output after observing an address bit 12 (R224). -/
def observeBlock (m : Mapper) (h : Bool) : Mapper × Bool :=
  let r := m.irq.observe m.cfg.irqLowMin h
  (m.setIrq r.1, r.2)

/-- `IRQ.RDPPU` (R223): the observation, then the default read. -/
def execIrqRdppu (a : PpuAddr) (s : State) : Host.Outcome State Fault Refusal :=
  withVariant .irq s fun m =>
    let r := observeBlock m (a.getLsbD 12)
    ppuRead r.1 a s.draws fun b d => .next (s.replyDraw r.1 (Output.ofRead b r.2) d)

/-- `IRQ.WRPPU` (R228): the observation, then the default write. -/
def execIrqWrppu (a : PpuAddr) (v : Byte) (s : State) : Host.Outcome State Fault Refusal :=
  withVariant .irq s fun m =>
    let r := observeBlock m (a.getLsbD 12)
    ppuWrite r.1 a v fun m' => .next (s.reply m' (Output.ofIrq r.2))

/-- `IRQ.TICK` (R227). -/
def execIrqTick (s : State) : Host.Outcome State Fault Refusal :=
  withVariant .irq s fun m => finish s (.done (m.setIrq (m.irq.tick m.cfg.irqLowMin)))

/-- `IRQ.OBSERVE(h)` (R224). -/
def execIrqObserve (h : Bool) (s : State) : Host.Outcome State Fault Refusal :=
  withVariant .irq s fun m =>
    let r := observeBlock m h
    finishWith s (Output.ofIrq r.2) (.done r.1)

/-- `IRQ.CLOCK` (R226). -/
def execIrqClock (s : State) : Host.Outcome State Fault Refusal :=
  withVariant .irq s fun m => finishWith s (Output.ofIrq m.irq.clock.2) (.done (m.setIrq m.irq.clock.1))

/-- `IRQ.REMAP` (R214, R215). -/
def execIrqRemap (s : State) : Host.Outcome State Fault Refusal :=
  withVariant .irq s fun m => finish s (irqRemap m)

end Sys2Proof.Machine
end

