-- ==== Sys2Proof/Machine/Latch.lean ====
section
/-! DEFINITION. The latch-based variant (45_latch.md R242 to R251). -/

namespace Sys2Proof.Machine

/-- `LATCH.PRG` (R242). -/
def execLatchPrg (v : Byte) (s : State) : Host.Outcome State Fault Refusal :=
  withVariant .latch s fun m =>
    finish s (latchRemap (m.setLatch { m.latch with prgSel := maskReg v.toNat (prgUnits m.cfg.toGeometry) }))

/-- The registers after a CHR select: `selected_banks[i] <- V AND (n4 - 1)` (R243 to R245, R247). -/
def LatchRegs.select (q : LatchRegs) (g : Geometry) (i : Fin 4) (v : Byte) : LatchRegs :=
  { q with selected := q.selected.set i.val (maskReg v.toNat (chrBanks4 g)) i.isLt }

/-- `LATCH.CHR0` (R243). -/
def execLatchChr0 (v : Byte) (s : State) : Host.Outcome State Fault Refusal :=
  withVariant .latch s fun m => finish s (latchRemap (m.setLatch (m.latch.select m.cfg.toGeometry 0 v)))

/-- `LATCH.CHR1` (R244). -/
def execLatchChr1 (v : Byte) (s : State) : Host.Outcome State Fault Refusal :=
  withVariant .latch s fun m => finish s (latchRemap (m.setLatch (m.latch.select m.cfg.toGeometry 1 v)))

/-- `LATCH.CHR2` (R245). -/
def execLatchChr2 (v : Byte) (s : State) : Host.Outcome State Fault Refusal :=
  withVariant .latch s fun m => finish s (latchRemap (m.setLatch (m.latch.select m.cfg.toGeometry 2 v)))

/-- `LATCH.CHR3` (R247). -/
def execLatchChr3 (v : Byte) (s : State) : Host.Outcome State Fault Refusal :=
  withVariant .latch s fun m => finish s (latchRemap (m.setLatch (m.latch.select m.cfg.toGeometry 3 v)))

/-- `LATCH.MIRROR` (R248): nothing on a four-screen cartridge. -/
def execLatchMirror (horizontal : Bool) (s : State) : Host.Outcome State Fault Refusal :=
  withVariant .latch s fun m =>
    if m.cfg.mirroring0 = .fourScreen then finish s (.done m)
    else finish s (setMirror (horizontalOr horizontal) m)

/-- The trigger half of `LATCH.RDPPU` (R249): the block after the read at `a`. -/
def triggerRemap (m : Mapper) (a : PpuAddr) : ProcResult :=
  match triggeredLatches m.latch.latch a with
  | some l => latchRemap (m.setLatch { m.latch with latch := l })
  | none => .done m

/-- A read and its trigger (R249, R251): the byte comes through the mapping the operation starts with. -/
def latchRead (a : PpuAddr) (s : State) : Host.Outcome State Fault Refusal :=
  withVariant .latch s fun m =>
    ppuRead m a s.draws fun b d =>
      match triggerRemap m a with
      | .done m' => .next (s.replyDraw m' (Output.ofRead b false) d)
      | .violation kind m' => .next (s.raiseContract m' kind)

/-- `LATCH.RDPPU` (R249). -/
def execLatchRdppu (a : PpuAddr) (s : State) : Host.Outcome State Fault Refusal := latchRead a s

/-- `LATCH.TRIG0.CLR`: a read at 0x0FD8 to 0x0FDF (R249). -/
def execLatchTrig0Clr (low : BitVec 3) (s : State) : Host.Outcome State Fault Refusal :=
  latchRead (0x1FB#11 ++ low) s

/-- `LATCH.TRIG0.SET`: a read at 0x0FE8 to 0x0FEF (R249). -/
def execLatchTrig0Set (low : BitVec 3) (s : State) : Host.Outcome State Fault Refusal :=
  latchRead (0x1FD#11 ++ low) s

/-- `LATCH.TRIG1.CLR`: a read at 0x1FD8 to 0x1FDF (R249). -/
def execLatchTrig1Clr (low : BitVec 3) (s : State) : Host.Outcome State Fault Refusal :=
  latchRead (0x3FB#11 ++ low) s

/-- `LATCH.TRIG1.SET`: a read at 0x1FE8 to 0x1FEF (R249). -/
def execLatchTrig1Set (low : BitVec 3) (s : State) : Host.Outcome State Fault Refusal :=
  latchRead (0x3FD#11 ++ low) s

/-- `LATCH.REMAP` (R246). -/
def execLatchRemap (s : State) : Host.Outcome State Fault Refusal :=
  withVariant .latch s fun m => finish s (latchRemap m)

end Sys2Proof.Machine
end

