-- ==== Sys2Proof/Machine/Mapping.lean ====
section
/-! DEFINITION. The AddressSpace mapping operations as operations on the machine
(40_mapping_operations.md R120 to R130). No transaction word selects one (R115). -/

namespace Sys2Proof.Machine

/-- `MAP` (R120). -/
def execMap (t : BankTable) (page size absOff : Nat) (ro : Bool) (s : State) : Host.Outcome State Fault Refusal :=
  withBlock s fun m => finish s (mapProc t page size absOff ro m)

/-- `UNMAP` (R123). -/
def execUnmap (t : BankTable) (page size : Nat) (s : State) : Host.Outcome State Fault Refusal :=
  withBlock s fun m => finish s (unmapProc t page size m)

/-- `MIRROR` (R125). -/
def execMirror (t : BankTable) (page size stride : Nat) (s : State) : Host.Outcome State Fault Refusal :=
  withBlock s fun m => finish s (mirrorProc t page size stride m)

/-- `SETMIRROR` (R126). -/
def execSetmirror (mode : Mirroring) (s : State) : Host.Outcome State Fault Refusal :=
  withBlock s fun m => finish s (setMirror mode m)

/-- `MAPCPURAM` (R127). -/
def execMapcpuram (page size bank : Nat) (ro : Bool) (s : State) : Host.Outcome State Fault Refusal :=
  withBlock s fun m => finish s (mapCpuRam page size bank ro m)

/-- `MAPPPURAM` (R128). -/
def execMapppuram (page size bank : Nat) (ro : Bool) (s : State) : Host.Outcome State Fault Refusal :=
  withBlock s fun m => finish s (mapPpuRam page size bank ro m)

/-- `MAPPRG` (R129). -/
def execMapprg (page size bank : Nat) (s : State) : Host.Outcome State Fault Refusal :=
  withBlock s fun m => finish s (mapPrg page size bank m)

/-- `MAPCHR` (R130). -/
def execMapchr (page size bank : Nat) (s : State) : Host.Outcome State Fault Refusal :=
  withBlock s fun m => finish s (mapChr page size bank m)

end Sys2Proof.Machine
end

