-- ==== Sys2Proof/Machine/Shift.lean ====
section
/-! DEFINITION. The serial-protocol variant (43_shift_register.md R193 to R199). -/

namespace Sys2Proof.Machine

/-- `SHIFT.RESET` (R193). -/
def execShiftReset (s : State) : Host.Outcome State Fault Refusal :=
  withVariant .shift s fun m => finish s (shiftRemap (m.setShift m.shift.resetWrite))

/-- `SHIFT.BIT` (R194): the fifth write of a group loads the register `A[14:13]` names and remaps. -/
def execShiftBit (target : BitVec 2) (bit : Bool) (s : State) : Host.Outcome State Fault Refusal :=
  withVariant .shift s fun m =>
    if m.shift.cnt < 4#3 then finish s (.done (m.setShift (m.shift.collect bit)))
    else finish s (shiftRemap (m.setShift (m.shift.fifth target bit)))

/-- `SHIFT.LD.CTRL(v)` (R195), the load alone: `SHIFT.BIT` clears `sr` and `cnt` and remaps. -/
def execShiftLdCtrl (v : BitVec 5) (s : State) : Host.Outcome State Fault Refusal :=
  withVariant .shift s fun m => finish s (.done (m.setShift (m.shift.load 0#2 v)))

/-- `SHIFT.LD.CHR0(v)` (R196), the load alone. -/
def execShiftLdChr0 (v : BitVec 5) (s : State) : Host.Outcome State Fault Refusal :=
  withVariant .shift s fun m => finish s (.done (m.setShift (m.shift.load 1#2 v)))

/-- `SHIFT.LD.CHR1(v)` (R197), the load alone. -/
def execShiftLdChr1 (v : BitVec 5) (s : State) : Host.Outcome State Fault Refusal :=
  withVariant .shift s fun m => finish s (.done (m.setShift (m.shift.load 2#2 v)))

/-- `SHIFT.LD.PRG(v)` (R198), the load alone. -/
def execShiftLdPrg (v : BitVec 5) (s : State) : Host.Outcome State Fault Refusal :=
  withVariant .shift s fun m => finish s (.done (m.setShift (m.shift.load 3#2 v)))

/-- `SHIFT.REMAP` (R199). -/
def execShiftRemap (s : State) : Host.Outcome State Fault Refusal :=
  withVariant .shift s fun m => finish s (shiftRemap m)

end Sys2Proof.Machine
end

