-- ==== Sys2Proof/Machine/Dispatch.lean ====
section
/-! DEFINITION. The meaning of every operation, one arm each. -/

namespace Sys2Proof.Machine

def exec (i : Instr) (s : State) : Host.Outcome State Fault Refusal :=
  match i with
  | .tick => Sys2Proof.Machine.execTick s
  | .rdcpu a => Sys2Proof.Machine.execRdcpu a s
  | .wrcpu a v => Sys2Proof.Machine.execWrcpu a v s
  | .rdppu a => Sys2Proof.Machine.execRdppu a s
  | .wrppu a v => Sys2Proof.Machine.execWrppu a v s
  | .poweron cfg => Sys2Proof.Machine.execPoweron cfg s
  | .save => Sys2Proof.Machine.execSave s
  | .restore buf => Sys2Proof.Machine.execRestore buf s
  | .uxromSel v => Sys2Proof.Machine.execUxromSel v s
  | .cnromSel v => Sys2Proof.Machine.execCnromSel v s
  | .axromSel v => Sys2Proof.Machine.execAxromSel v s
  | .gxromSel v => Sys2Proof.Machine.execGxromSel v s
  | .unrom512Sel v => Sys2Proof.Machine.execUnrom512Sel v s
  | .shiftReset => Sys2Proof.Machine.execShiftReset s
  | .shiftBit target bit => Sys2Proof.Machine.execShiftBit target bit s
  | .shiftLdCtrl v => Sys2Proof.Machine.execShiftLdCtrl v s
  | .shiftLdChr0 v => Sys2Proof.Machine.execShiftLdChr0 v s
  | .shiftLdChr1 v => Sys2Proof.Machine.execShiftLdChr1 v s
  | .shiftLdPrg v => Sys2Proof.Machine.execShiftLdPrg v s
  | .irqBanksel v => Sys2Proof.Machine.execIrqBanksel v s
  | .irqBankdata v => Sys2Proof.Machine.execIrqBankdata v s
  | .irqMirror horizontal => Sys2Proof.Machine.execIrqMirror horizontal s
  | .irqRamprot => Sys2Proof.Machine.execIrqRamprot s
  | .irqReloadval v => Sys2Proof.Machine.execIrqReloadval v s
  | .irqReload => Sys2Proof.Machine.execIrqReload s
  | .irqDisable => Sys2Proof.Machine.execIrqDisable s
  | .irqEnable => Sys2Proof.Machine.execIrqEnable s
  | .irqRdppu a => Sys2Proof.Machine.execIrqRdppu a s
  | .irqWrppu a v => Sys2Proof.Machine.execIrqWrppu a v s
  | .irqTick => Sys2Proof.Machine.execIrqTick s
  | .latchPrg v => Sys2Proof.Machine.execLatchPrg v s
  | .latchChr0 v => Sys2Proof.Machine.execLatchChr0 v s
  | .latchChr1 v => Sys2Proof.Machine.execLatchChr1 v s
  | .latchChr2 v => Sys2Proof.Machine.execLatchChr2 v s
  | .latchChr3 v => Sys2Proof.Machine.execLatchChr3 v s
  | .latchMirror horizontal => Sys2Proof.Machine.execLatchMirror horizontal s
  | .latchRdppu a => Sys2Proof.Machine.execLatchRdppu a s
  | .latchTrig0Clr low => Sys2Proof.Machine.execLatchTrig0Clr low s
  | .latchTrig0Set low => Sys2Proof.Machine.execLatchTrig0Set low s
  | .latchTrig1Clr low => Sys2Proof.Machine.execLatchTrig1Clr low s
  | .latchTrig1Set low => Sys2Proof.Machine.execLatchTrig1Set low s
  | .map t page size absOff ro => Sys2Proof.Machine.execMap t page size absOff ro s
  | .unmap t page size => Sys2Proof.Machine.execUnmap t page size s
  | .mirror t page size stride => Sys2Proof.Machine.execMirror t page size stride s
  | .setmirror mode => Sys2Proof.Machine.execSetmirror mode s
  | .mapcpuram page size bank ro => Sys2Proof.Machine.execMapcpuram page size bank ro s
  | .mapppuram page size bank ro => Sys2Proof.Machine.execMapppuram page size bank ro s
  | .mapprg page size bank => Sys2Proof.Machine.execMapprg page size bank s
  | .mapchr page size bank => Sys2Proof.Machine.execMapchr page size bank s
  | .shiftRemap => Sys2Proof.Machine.execShiftRemap s
  | .irqRemap => Sys2Proof.Machine.execIrqRemap s
  | .irqObserve h => Sys2Proof.Machine.execIrqObserve h s
  | .irqClock => Sys2Proof.Machine.execIrqClock s
  | .latchRemap => Sys2Proof.Machine.execLatchRemap s

end Sys2Proof.Machine
end

