-- ==== Sys2Proof/WellFormed.lean ====
section
/-! DEFINITION. Which operations a transaction can present to a block of a given variant (R104 to
R115, 30_encoding.md): the variant's own register and trigger operations, and the default operations
at the addresses no register row of the variant claims. -/

namespace Sys2Proof

/-- The CPU addresses whose writes the variant's decoder takes as register writes (R106, R107, R109,
R110, R112). -/
def claimsWrite (v : Variant) (a : CpuAddr) : Bool :=
  match v with
  | .nrom => false
  | .uxrom | .cnrom | .axrom | .gxrom | .unrom512 | .shift | .irq => a.getLsbD 15
  | .latch => decide (0xA000#16 ≤ a)

/-- The PPU addresses of the four trigger windows (R111, R249). -/
def isTrigger (a : PpuAddr) : Bool :=
  decide (a &&& 0x3FF8#14 = 0x0FD8#14) || decide (a &&& 0x3FF8#14 = 0x0FE8#14) ||
  decide (a &&& 0x3FF8#14 = 0x1FD8#14) || decide (a &&& 0x3FF8#14 = 0x1FE8#14)

/-- The operation is one that some transaction presents to a block of variant `v`. An internal
procedure never is (R115), nor is a `SHIFT.LD` load, which a `SHIFT.BIT` performs (R109). -/
def wellFormed (v : Variant) (i : Instr) : Bool :=
  match i with
  | .tick => decide (v ≠ .irq)
  | .rdcpu _ => true
  | .wrcpu a _ => !claimsWrite v a
  | .rdppu _ => decide (v ≠ .irq) && decide (v ≠ .latch)
  | .wrppu _ _ => decide (v ≠ .irq)
  | .poweron _ => true
  | .save => true
  | .restore _ => true
  | .uxromSel _ => decide (v = .uxrom)
  | .cnromSel _ => decide (v = .cnrom)
  | .axromSel _ => decide (v = .axrom)
  | .gxromSel _ => decide (v = .gxrom)
  | .unrom512Sel _ => decide (v = .unrom512)
  | .shiftReset => decide (v = .shift)
  | .shiftBit _ _ => decide (v = .shift)
  | .shiftLdCtrl _ => false
  | .shiftLdChr0 _ => false
  | .shiftLdChr1 _ => false
  | .shiftLdPrg _ => false
  | .irqBanksel _ => decide (v = .irq)
  | .irqBankdata _ => decide (v = .irq)
  | .irqMirror _ => decide (v = .irq)
  | .irqRamprot => decide (v = .irq)
  | .irqReloadval _ => decide (v = .irq)
  | .irqReload => decide (v = .irq)
  | .irqDisable => decide (v = .irq)
  | .irqEnable => decide (v = .irq)
  | .irqRdppu _ => decide (v = .irq)
  | .irqWrppu _ _ => decide (v = .irq)
  | .irqTick => decide (v = .irq)
  | .latchPrg _ => decide (v = .latch)
  | .latchChr0 _ => decide (v = .latch)
  | .latchChr1 _ => decide (v = .latch)
  | .latchChr2 _ => decide (v = .latch)
  | .latchChr3 _ => decide (v = .latch)
  | .latchMirror _ => decide (v = .latch)
  | .latchRdppu a => decide (v = .latch) && !isTrigger a
  | .latchTrig0Clr _ => decide (v = .latch)
  | .latchTrig0Set _ => decide (v = .latch)
  | .latchTrig1Clr _ => decide (v = .latch)
  | .latchTrig1Set _ => decide (v = .latch)
  | .map _ _ _ _ _ => false
  | .unmap _ _ _ => false
  | .mirror _ _ _ _ => false
  | .setmirror _ => false
  | .mapcpuram _ _ _ _ => false
  | .mapppuram _ _ _ _ => false
  | .mapprg _ _ _ => false
  | .mapchr _ _ _ => false
  | .shiftRemap => false
  | .irqRemap => false
  | .irqObserve _ => false
  | .irqClock => false
  | .latchRemap => false

end Sys2Proof
end

