-- ==== Sys2Proof/Decode.lean ====
section
/-! DEFINITION. The transaction word and its decode under a variant (R101 to R113, 30_encoding.md),
the encoder of the operations a word can present, and the opcode table with the matching rule R105. -/

namespace Sys2Proof

/-- `word = (kind << 24) OR (addr << 8) OR data` (R101). -/
def makeWord (kind : BitVec 3) (addr : CpuAddr) (data : Byte) : TxWord := kind ++ addr ++ data

/-- `word[26:24]`, the operation kind (R101, R102). -/
def wordKind (w : TxWord) : BitVec 3 := w.extractLsb' 24 3

/-- `word[23:8]`, the address field (R101). -/
def wordAddr (w : TxWord) : CpuAddr := w.extractLsb' 8 16

/-- `word[7:0]`, the data field (R101). -/
def wordData (w : TxWord) : Byte := w.extractLsb' 0 8

/-- Why a word is not a transaction. -/
inductive DecodeError where
  /-- R103, R113 (f): a PPU operation with address bit 14 or 15 set -/
  | ppuAddressTooWide (addr : CpuAddr)
deriving DecidableEq, Repr

/-- The 14-bit PPU address of an address field, when bits 15 and 14 are 0 (R101, R103). -/
def ppuAddr (a : CpuAddr) : Option PpuAddr :=
  if a.extractLsb' 14 2 = 0#2 then some (a.extractLsb' 0 14) else none

/-- `TICK` under a variant (R106, R111). -/
def decodeTick (v : Variant) : Instr :=
  if v = .irq then .irqTick else .tick

/-- `IRQ` decode of a write with address bit 15 set, by address bits 14:13 and 0 (R110). -/
def decodeIrqWrite (a : CpuAddr) (d : Byte) : Instr :=
  match (a.extractLsb' 13 2).toNat, a.getLsbD 0 with
  | 0, false => .irqBanksel d
  | 0, true => .irqBankdata d
  | 1, false => .irqMirror (d.getLsbD 0)
  | 1, true => .irqRamprot
  | 2, false => .irqReloadval d
  | 2, true => .irqReload
  | _, false => .irqDisable
  | _, true => .irqEnable

/-- `LATCH` decode of a write by address bits 15:12 (R112). -/
def decodeLatchWrite (a : CpuAddr) (d : Byte) : Instr :=
  match (a.extractLsb' 12 4).toNat with
  | 0xA => .latchPrg d
  | 0xB => .latchChr0 d
  | 0xC => .latchChr1 d
  | 0xD => .latchChr2 d
  | 0xE => .latchChr3 d
  | 0xF => .latchMirror (d.getLsbD 0)
  | _ => .wrcpu a d

/-- `WRCPU` under a variant (R106, R107, R109, R110, R112). -/
def decodeWrcpu (v : Variant) (a : CpuAddr) (d : Byte) : Instr :=
  match v with
  | .nrom => .wrcpu a d
  | .uxrom => if a.getLsbD 15 then .uxromSel d else .wrcpu a d
  | .cnrom => if a.getLsbD 15 then .cnromSel d else .wrcpu a d
  | .axrom => if a.getLsbD 15 then .axromSel d else .wrcpu a d
  | .gxrom => if a.getLsbD 15 then .gxromSel d else .wrcpu a d
  | .unrom512 => if a.getLsbD 15 then .unrom512Sel d else .wrcpu a d
  | .shift =>
    if a.getLsbD 15 then
      if d.getLsbD 7 then .shiftReset else .shiftBit (a.extractLsb' 13 2) (d.getLsbD 0)
    else .wrcpu a d
  | .irq => if a.getLsbD 15 then decodeIrqWrite a d else .wrcpu a d
  | .latch => decodeLatchWrite a d

/-- `LATCH` decode of a read: the four trigger windows, eight addresses each (R111). -/
def decodeLatchRead (a : PpuAddr) : Instr :=
  if a &&& 0x3FF8#14 = 0x0FD8#14 then .latchTrig0Clr (a.extractLsb' 0 3)
  else if a &&& 0x3FF8#14 = 0x0FE8#14 then .latchTrig0Set (a.extractLsb' 0 3)
  else if a &&& 0x3FF8#14 = 0x1FD8#14 then .latchTrig1Clr (a.extractLsb' 0 3)
  else if a &&& 0x3FF8#14 = 0x1FE8#14 then .latchTrig1Set (a.extractLsb' 0 3)
  else .latchRdppu a

/-- `RDPPU` under a variant (R106, R111). -/
def decodeRdppu (v : Variant) (a : PpuAddr) : Instr :=
  if v = .irq then .irqRdppu a else if v = .latch then decodeLatchRead a else .rdppu a

/-- `WRPPU` under a variant (R106, R111). -/
def decodeWrppu (v : Variant) (a : PpuAddr) (d : Byte) : Instr :=
  if v = .irq then .irqWrppu a d else .wrppu a d

/-- The operation a transaction presents to a block of variant `v` (R104): the kind codes of R102,
then the variant's decode. Total; the one refusal is R103's. -/
def decode (v : Variant) (t : Txn) : Except DecodeError Instr :=
  let a := wordAddr t.word
  let d := wordData t.word
  match (wordKind t.word).toNat with
  | 0 => .ok (decodeTick v)
  | 1 => .ok (.rdcpu a)
  | 2 => .ok (decodeWrcpu v a d)
  | 3 =>
    match ppuAddr a with
    | some p => .ok (decodeRdppu v p)
    | none => .error (.ppuAddressTooWide a)
  | 4 =>
    match ppuAddr a with
    | some p => .ok (decodeWrppu v p d)
    | none => .error (.ppuAddressTooWide a)
  | 5 => .ok (.poweron t.cfg)
  | 6 => .ok .save
  | _ => .ok (.restore t.buf)

/-! ### Encoder -/

/-- A transaction without side operands; the side ports carry values nothing looks at. -/
def plainTxn (kind : BitVec 3) (addr : CpuAddr) (data : Byte) : Txn where
  word := makeWord kind addr data
  cfg := Config.launchIn
  buf := []

/-- The byte of a one-bit data field. -/
def bitByte (b : Bool) : Byte := if b then 1#8 else 0#8

/-- A PPU address in the address field: bits 15 and 14 are 0 (R101). -/
def ppuField (a : PpuAddr) : CpuAddr := 0#2 ++ a

/-- The trigger address with window bits 13:3 and the given low bits (R111). -/
def triggerAddr (window : BitVec 11) (low : BitVec 3) : PpuAddr := window ++ low

/-- The transaction that presents an operation, its ignored bits 0; `none` for the operations no word
selects (R109, R115). -/
def encode (i : Instr) : Option Txn :=
  match i with
  | .tick => some (plainTxn 0#3 0#16 0#8)
  | .rdcpu a => some (plainTxn 1#3 a 0#8)
  | .wrcpu a v => some (plainTxn 2#3 a v)
  | .rdppu a => some (plainTxn 3#3 (ppuField a) 0#8)
  | .wrppu a v => some (plainTxn 4#3 (ppuField a) v)
  | .poweron cfg => some ⟨makeWord 5#3 0#16 0#8, cfg, []⟩
  | .save => some (plainTxn 6#3 0#16 0#8)
  | .restore buf => some ⟨makeWord 7#3 0#16 0#8, Config.launchIn, buf⟩
  | .uxromSel v => some (plainTxn 2#3 0x8000#16 v)
  | .cnromSel v => some (plainTxn 2#3 0x8000#16 v)
  | .axromSel v => some (plainTxn 2#3 0x8000#16 v)
  | .gxromSel v => some (plainTxn 2#3 0x8000#16 v)
  | .unrom512Sel v => some (plainTxn 2#3 0x8000#16 v)
  | .shiftReset => some (plainTxn 2#3 0x8000#16 0x80#8)
  | .shiftBit target bit => some (plainTxn 2#3 (1#1 ++ target ++ 0#13) (bitByte bit))
  | .shiftLdCtrl _ => none
  | .shiftLdChr0 _ => none
  | .shiftLdChr1 _ => none
  | .shiftLdPrg _ => none
  | .irqBanksel v => some (plainTxn 2#3 0x8000#16 v)
  | .irqBankdata v => some (plainTxn 2#3 0x8001#16 v)
  | .irqMirror h => some (plainTxn 2#3 0xA000#16 (bitByte h))
  | .irqRamprot => some (plainTxn 2#3 0xA001#16 0#8)
  | .irqReloadval v => some (plainTxn 2#3 0xC000#16 v)
  | .irqReload => some (plainTxn 2#3 0xC001#16 0#8)
  | .irqDisable => some (plainTxn 2#3 0xE000#16 0#8)
  | .irqEnable => some (plainTxn 2#3 0xE001#16 0#8)
  | .irqRdppu a => some (plainTxn 3#3 (ppuField a) 0#8)
  | .irqWrppu a v => some (plainTxn 4#3 (ppuField a) v)
  | .irqTick => some (plainTxn 0#3 0#16 0#8)
  | .latchPrg v => some (plainTxn 2#3 0xA000#16 v)
  | .latchChr0 v => some (plainTxn 2#3 0xB000#16 v)
  | .latchChr1 v => some (plainTxn 2#3 0xC000#16 v)
  | .latchChr2 v => some (plainTxn 2#3 0xD000#16 v)
  | .latchChr3 v => some (plainTxn 2#3 0xE000#16 v)
  | .latchMirror h => some (plainTxn 2#3 0xF000#16 (bitByte h))
  | .latchRdppu a => some (plainTxn 3#3 (ppuField a) 0#8)
  | .latchTrig0Clr low => some (plainTxn 3#3 (ppuField (triggerAddr 0x1FB#11 low)) 0#8)
  | .latchTrig0Set low => some (plainTxn 3#3 (ppuField (triggerAddr 0x1FD#11 low)) 0#8)
  | .latchTrig1Clr low => some (plainTxn 3#3 (ppuField (triggerAddr 0x3FB#11 low)) 0#8)
  | .latchTrig1Set low => some (plainTxn 3#3 (ppuField (triggerAddr 0x3FD#11 low)) 0#8)
  | .map _ _ _ _ _ => none
  | .unmap _ _ _ => none
  | .mirror _ _ _ _ => none
  | .setmirror _ => none
  | .mapcpuram _ _ _ _ => none
  | .mapppuram _ _ _ _ => none
  | .mapprg _ _ _ => none
  | .mapchr _ _ _ => none
  | .shiftRemap => none
  | .irqRemap => none
  | .irqObserve _ => none
  | .irqClock => none
  | .latchRemap => none

/-! ### The opcode table and its matching rule (R105, R118) -/

/-- The mnemonic of an operation in `opcode_table.json`. -/
def mnemonic (i : Instr) : String :=
  match i with
  | .tick => "TICK"
  | .rdcpu _ => "RDCPU"
  | .wrcpu _ _ => "WRCPU"
  | .rdppu _ => "RDPPU"
  | .wrppu _ _ => "WRPPU"
  | .poweron _ => "POWERON"
  | .save => "SAVE"
  | .restore _ => "RESTORE"
  | .uxromSel _ => "UXROM.SEL"
  | .cnromSel _ => "CNROM.SEL"
  | .axromSel _ => "AXROM.SEL"
  | .gxromSel _ => "GXROM.SEL"
  | .unrom512Sel _ => "UNROM512.SEL"
  | .shiftReset => "SHIFT.RESET"
  | .shiftBit _ _ => "SHIFT.BIT"
  | .shiftLdCtrl _ => "SHIFT.LD.CTRL"
  | .shiftLdChr0 _ => "SHIFT.LD.CHR0"
  | .shiftLdChr1 _ => "SHIFT.LD.CHR1"
  | .shiftLdPrg _ => "SHIFT.LD.PRG"
  | .irqBanksel _ => "IRQ.BANKSEL"
  | .irqBankdata _ => "IRQ.BANKDATA"
  | .irqMirror _ => "IRQ.MIRROR"
  | .irqRamprot => "IRQ.RAMPROT"
  | .irqReloadval _ => "IRQ.RELOADVAL"
  | .irqReload => "IRQ.RELOAD"
  | .irqDisable => "IRQ.DISABLE"
  | .irqEnable => "IRQ.ENABLE"
  | .irqRdppu _ => "IRQ.RDPPU"
  | .irqWrppu _ _ => "IRQ.WRPPU"
  | .irqTick => "IRQ.TICK"
  | .latchPrg _ => "LATCH.PRG"
  | .latchChr0 _ => "LATCH.CHR0"
  | .latchChr1 _ => "LATCH.CHR1"
  | .latchChr2 _ => "LATCH.CHR2"
  | .latchChr3 _ => "LATCH.CHR3"
  | .latchMirror _ => "LATCH.MIRROR"
  | .latchRdppu _ => "LATCH.RDPPU"
  | .latchTrig0Clr _ => "LATCH.TRIG0.CLR"
  | .latchTrig0Set _ => "LATCH.TRIG0.SET"
  | .latchTrig1Clr _ => "LATCH.TRIG1.CLR"
  | .latchTrig1Set _ => "LATCH.TRIG1.SET"
  | .map _ _ _ _ _ => "MAP"
  | .unmap _ _ _ => "UNMAP"
  | .mirror _ _ _ _ => "MIRROR"
  | .setmirror _ => "SETMIRROR"
  | .mapcpuram _ _ _ _ => "MAPCPURAM"
  | .mapppuram _ _ _ _ => "MAPPPURAM"
  | .mapprg _ _ _ => "MAPPRG"
  | .mapchr _ _ _ => "MAPCHR"
  | .shiftRemap => "SHIFT.REMAP"
  | .irqRemap => "IRQ.REMAP"
  | .irqObserve _ => "IRQ.OBSERVE"
  | .irqClock => "IRQ.CLOCK"
  | .latchRemap => "LATCH.REMAP"

/-- A row of `opcode_table.json` that has a match: its name, its format (`none` is `any`), its match
and mask, and whether a `cond` on the state goes with it. -/
structure OpcodeRow where
  name : String
  format : Option Variant
  pattern : TxWord
  mask : TxWord
  cond : Bool
deriving DecidableEq, Repr

/-- The rows of format `any`. -/
def anyRows : List OpcodeRow := [
  ⟨"TICK", none, 0x0000000#27, 0x7000000#27, false⟩,
  ⟨"RDCPU", none, 0x1000000#27, 0x7000000#27, false⟩,
  ⟨"WRCPU", none, 0x2000000#27, 0x7000000#27, false⟩,
  ⟨"RDPPU", none, 0x3000000#27, 0x7000000#27, false⟩,
  ⟨"WRPPU", none, 0x4000000#27, 0x7000000#27, false⟩,
  ⟨"POWERON", none, 0x5000000#27, 0x7000000#27, false⟩,
  ⟨"SAVE", none, 0x6000000#27, 0x7000000#27, false⟩,
  ⟨"RESTORE", none, 0x7000000#27, 0x7000000#27, false⟩]

/-- The rows of the direct-mapped variants. -/
def directRows : List OpcodeRow := [
  ⟨"UXROM.SEL", some .uxrom, 0x2800000#27, 0x7800000#27, false⟩,
  ⟨"CNROM.SEL", some .cnrom, 0x2800000#27, 0x7800000#27, false⟩,
  ⟨"AXROM.SEL", some .axrom, 0x2800000#27, 0x7800000#27, false⟩,
  ⟨"GXROM.SEL", some .gxrom, 0x2800000#27, 0x7800000#27, false⟩,
  ⟨"UNROM512.SEL", some .unrom512, 0x2800000#27, 0x7800000#27, false⟩]

/-- The rows of the serial-protocol variant; the load rows carry the condition `cnt = 4`. -/
def shiftRows : List OpcodeRow := [
  ⟨"SHIFT.RESET", some .shift, 0x2800080#27, 0x7800080#27, false⟩,
  ⟨"SHIFT.BIT", some .shift, 0x2800000#27, 0x7800080#27, false⟩,
  ⟨"SHIFT.LD.CTRL", some .shift, 0x2800000#27, 0x7E00080#27, true⟩,
  ⟨"SHIFT.LD.CHR0", some .shift, 0x2A00000#27, 0x7E00080#27, true⟩,
  ⟨"SHIFT.LD.CHR1", some .shift, 0x2C00000#27, 0x7E00080#27, true⟩,
  ⟨"SHIFT.LD.PRG", some .shift, 0x2E00000#27, 0x7E00080#27, true⟩]

/-- The rows of the scanline-IRQ variant. -/
def irqRows : List OpcodeRow := [
  ⟨"IRQ.BANKSEL", some .irq, 0x2800000#27, 0x7E00100#27, false⟩,
  ⟨"IRQ.BANKDATA", some .irq, 0x2800100#27, 0x7E00100#27, false⟩,
  ⟨"IRQ.MIRROR", some .irq, 0x2A00000#27, 0x7E00100#27, false⟩,
  ⟨"IRQ.RAMPROT", some .irq, 0x2A00100#27, 0x7E00100#27, false⟩,
  ⟨"IRQ.RELOADVAL", some .irq, 0x2C00000#27, 0x7E00100#27, false⟩,
  ⟨"IRQ.RELOAD", some .irq, 0x2C00100#27, 0x7E00100#27, false⟩,
  ⟨"IRQ.DISABLE", some .irq, 0x2E00000#27, 0x7E00100#27, false⟩,
  ⟨"IRQ.ENABLE", some .irq, 0x2E00100#27, 0x7E00100#27, false⟩,
  ⟨"IRQ.RDPPU", some .irq, 0x3000000#27, 0x7000000#27, false⟩,
  ⟨"IRQ.WRPPU", some .irq, 0x4000000#27, 0x7000000#27, false⟩,
  ⟨"IRQ.TICK", some .irq, 0x0000000#27, 0x7000000#27, false⟩]

/-- The rows of the latch variant. -/
def latchRows : List OpcodeRow := [
  ⟨"LATCH.PRG", some .latch, 0x2A00000#27, 0x7F00000#27, false⟩,
  ⟨"LATCH.CHR0", some .latch, 0x2B00000#27, 0x7F00000#27, false⟩,
  ⟨"LATCH.CHR1", some .latch, 0x2C00000#27, 0x7F00000#27, false⟩,
  ⟨"LATCH.CHR2", some .latch, 0x2D00000#27, 0x7F00000#27, false⟩,
  ⟨"LATCH.CHR3", some .latch, 0x2E00000#27, 0x7F00000#27, false⟩,
  ⟨"LATCH.MIRROR", some .latch, 0x2F00000#27, 0x7F00000#27, false⟩,
  ⟨"LATCH.RDPPU", some .latch, 0x3000000#27, 0x7000000#27, false⟩,
  ⟨"LATCH.TRIG0.CLR", some .latch, 0x30FD800#27, 0x7FFF800#27, false⟩,
  ⟨"LATCH.TRIG0.SET", some .latch, 0x30FE800#27, 0x7FFF800#27, false⟩,
  ⟨"LATCH.TRIG1.CLR", some .latch, 0x31FD800#27, 0x7FFF800#27, false⟩,
  ⟨"LATCH.TRIG1.SET", some .latch, 0x31FE800#27, 0x7FFF800#27, false⟩]

/-- The 41 rows with a match, in the table's order; the 13 internal rows have none (R105, R115). -/
def opcodeRows : List OpcodeRow := anyRows ++ directRows ++ shiftRows ++ irqRows ++ latchRows

/-- A row applies to a word under a variant when its format is the variant's or `any` and the word
matches under its mask (R105). The rows with a state condition take no part in decode, which has no
state (R104, R114). -/
def rowApplies (v : Variant) (w : TxWord) (r : OpcodeRow) : Bool :=
  !r.cond && (decide (r.format = none) || decide (r.format = some v)) && decide (w &&& r.mask = r.pattern)

/-- The precedence of R105: a row of the variant's format before one of format `any`, then the number
of bits set in the mask. -/
def rowRank (r : OpcodeRow) : Nat :=
  (if r.format = none then 0 else 28) + (List.range 27).countP (fun k => r.mask.getLsbD k)

/-- The row R105 selects: the applying row of the highest precedence. -/
def selectRow (v : Variant) (w : TxWord) : Option OpcodeRow :=
  (opcodeRows.filter (rowApplies v w)).foldl
    (fun best r =>
      match best with
      | none => some r
      | some b => if rowRank b < rowRank r then some r else some b) none

/-! ### The host's two readings of a table word

A table row's word says which operation it is only together with the row's format, which these two
signatures do not carry. Assumption log 3. -/

/-- The variant under which a bare word is read: the one in which the word has its most specific row,
`NROM` where only the default rows apply. DESIGN CHOICE, assumption log 3. -/
def tableVariant (w : TxWord) : Variant :=
  let a := wordAddr w
  match (wordKind w).toNat with
  | 2 =>
    if a.getLsbD 15 then
      if (wordData w).getLsbD 7 then .shift
      else
        match (a.extractLsb' 12 4).toNat with
        | 0xB => .latch
        | 0xD => .latch
        | 0xF => .latch
        | _ => .irq
    else .nrom
  | 3 =>
    match ppuAddr a with
    | some p => if isTrigger p then .latch else .nrom
    | none => .nrom
  | _ => .nrom

/-- The transaction with the word of the given bits; its side operands are the launch configuration
and the empty buffer. `none` when a bit above the word's 27 is set. -/
def tableTxn (nbits w : Nat) : Option Txn :=
  if w % 2 ^ nbits < 2 ^ 27 then some ⟨BitVec.ofNat 27 (w % 2 ^ nbits), Config.launchIn, []⟩ else none

/-- The operation the decoder reads from a word numbered as `opcode_table.json` numbers it. -/
def decodeTableWord (nbits w : Nat) : Option Instr :=
  match tableTxn nbits w with
  | none => none
  | some t =>
    match decode (tableVariant t.word) t with
    | .ok i => some i
    | .error _ => none

end Sys2Proof
end

