-- ==== Sys2Proof/Machine/Fetch.lean ====
section
/-! DEFINITION. Taking the next transaction (R100, R104): the block runs no program (R24); what it does
next is the next transaction the orchestrator has issued. -/

namespace Sys2Proof.Machine

/-- The variant whose decode applies (R104): the block's; with no block only `POWERON` has a meaning,
and its decode is the same under every variant. -/
def State.variant (s : State) : Variant :=
  match s.inst with
  | some m => m.cfg.variant
  | none => .nrom

/-- What the next step has to do. -/
inductive Fetched where
  /-- no transaction is waiting -/
  | idle
  /-- the next transaction is not valid -/
  | invalid (r : Refusal)
  /-- the operation to run, on the state in which its transaction has been taken -/
  | ready (i : Instr) (s : State)
deriving DecidableEq, Repr

/-- Take the next transaction and decode it under the block's variant (R100, R104). -/
def fetch (s : State) : Fetched :=
  match s.port with
  | [] => .idle
  | t :: rest =>
    match decode s.variant t with
    | .error (.ppuAddressTooWide a) => .invalid (.ppuAddressTooWide a)
    | .ok i => .ready i { s with port := rest }

/-- The block with another variant tag, where the word is read differently under its own (log 3). -/
def retag (t : Txn) (m : Mapper) : Mapper :=
  if (decode m.cfg.variant t).toOption = (decode (tableVariant t.word) t).toOption then m
  else { m with cfg := { m.cfg with variant := tableVariant t.word } }

/-- The state in which the transaction of a table word is the one waiting (log 3). -/
def placeWord (s : State) (nbits w : Nat) : State :=
  match tableTxn nbits w with
  | some t => { s with port := [t], inst := s.inst.map (retag t) }
  | none => s

end Sys2Proof.Machine
end

