-- ==== Sys2Proof/Machine/Step.lean ====
section
/-! DEFINITION. One step: the next transaction, whole (R80, R85, R86). -/

namespace Sys2Proof.Machine

/-- Perform the next transaction as one indivisible step (R80); with none waiting nothing happens
(R24). -/
def step (s : State) : Host.Outcome State Fault Refusal :=
  match fetch s with
  | .idle => .next s
  | .invalid r => .refused r
  | .ready i s' => exec i s'

/-- `s` with the transaction of a table word waiting, and nothing else waiting; the block's variant tag
is changed only where the word is read differently under it. DESIGN CHOICE, assumption log 3. -/
def State.withFetchWord (s : State) (nbits w : Nat) : State := placeWord s nbits w

end Sys2Proof.Machine
end

