-- ==== Sys2Proof/Safety.lean ====
section
/-! DEFINITION. What counts as a safe state, in the terms the statements use: the block can act, what
each page of the two tables shows as a function of the configuration and the registers, and the
invariant of every state a run reaches (R23, R35, R71, R72). -/

namespace Sys2Proof.Machine

/-- `m` is the constructed block of `s` and its fault mark is clear. -/
def State.Live (s : State) (m : Mapper) : Prop := s.inst = some m ∧ m.faulted = false

/-- The same, and the block is of variant `v`. -/
def State.LiveAs (v : Variant) (s : State) (m : Mapper) : Prop := s.Live m ∧ m.cfg.variant = v

/-- The variant an operation belongs to; none for the operations every variant has (R25, R118). -/
def ownerOf (i : Instr) : Option Variant :=
  match i with
  | .tick | .rdcpu _ | .wrcpu _ _ | .rdppu _ | .wrppu _ _ | .poweron _ | .save | .restore _ => none
  | .uxromSel _ => some .uxrom
  | .cnromSel _ => some .cnrom
  | .axromSel _ => some .axrom
  | .gxromSel _ => some .gxrom
  | .unrom512Sel _ => some .unrom512
  | .shiftReset | .shiftBit _ _ | .shiftLdCtrl _ | .shiftLdChr0 _ | .shiftLdChr1 _ | .shiftLdPrg _ | .shiftRemap =>
    some .shift
  | .irqBanksel _ | .irqBankdata _ | .irqMirror _ | .irqRamprot | .irqReloadval _ | .irqReload | .irqDisable
  | .irqEnable | .irqRdppu _ | .irqWrppu _ _ | .irqTick | .irqRemap | .irqObserve _ | .irqClock => some .irq
  | .latchPrg _ | .latchChr0 _ | .latchChr1 _ | .latchChr2 _ | .latchChr3 _ | .latchMirror _ | .latchRdppu _
  | .latchTrig0Clr _ | .latchTrig0Set _ | .latchTrig1Clr _ | .latchTrig1Set _ | .latchRemap => some .latch
  | .map _ _ _ _ _ | .unmap _ _ _ | .mirror _ _ _ _ | .setmirror _ | .mapcpuram _ _ _ _ | .mapppuram _ _ _ _
  | .mapprg _ _ _ | .mapchr _ _ _ => none

/-! ### The parts of an access, in arithmetic (R14, R74, R143) -/

/-- The descriptor of a CPU address: `page = A[15:10]` (R14). -/
def Mapper.cpuPageAt (m : Mapper) (a : CpuAddr) : Bank := m.cputab[a.toNat / 1024]'(by have := a.isLt; omega)

/-- The descriptor of a PPU address: `page = A[13:10]` (R14). -/
def Mapper.ppuPageAt (m : Mapper) (a : PpuAddr) : Bank := m.pputab[a.toNat / 1024]'(by have := a.isLt; omega)

/-- A descriptor is unmapped or lies inside the store (R35). -/
def Mapper.holds (m : Mapper) (e : Bank) : Prop := e.mapped = true → e.off + 1024 ≤ m.cfg.storeLen

/-- The byte a read of offset `k` of a page returns: the store byte, or the open-bus draw (R141, R143). -/
def Mapper.pageByte (m : Mapper) (e : Bank) (k draws : Nat) : Byte :=
  if e.mapped then Memory.read m.store (e.off + k) else Config.openBus draws

/-- The draw counter after a read of a page: an unmapped page takes one draw (R143). -/
def drawsAfter (e : Bank) (draws : Nat) : Nat := if e.mapped then draws else draws + 1

/-- `st` is the store after a write of `v` at offset `k` of a page: that one byte is written when the page
is mapped and writable, none is otherwise (R142, R145); the canonical form is kept. -/
def Mapper.StoreAfter (m : Mapper) (e : Bank) (k : Nat) (v : Byte) (st : Memory) : Prop :=
  (Memory.wf m.store = true → Memory.wf st = true) ∧
  (e.mapped = true ∧ e.ro = false →
    ∀ i, Memory.read st i = if i = e.off + k then v else Memory.read m.store i) ∧
  (¬ (e.mapped = true ∧ e.ro = false) → st = m.store)

/-! ### The counter and the detector, case by case (R224, R226) -/

/-- One `IRQ.CLOCK` takes the registers from `q` to `q'`, and raises or not (R226). -/
def IrqRegs.Clocks (q q' : IrqRegs) (raised : Bool) : Prop :=
  (q.reloadPending = true ∨ q.counter = 0#8 →
    q' = { q with counter := q.reload, reloadPending := false } ∧ raised = false) ∧
  (q.reloadPending = false → ∀ n, q.counter.toNat = n + 1 →
    q' = { q with counter := BitVec.ofNat 8 n } ∧ raised = (decide (n = 0) && q.enable))

/-- One `IRQ.OBSERVE(h)` with threshold `lowMin` takes the registers from `q` to `q'`, and raises or not
(R224). -/
def IrqRegs.Observes (lowMin : Byte) (h : Bool) (q q' : IrqRegs) (raised : Bool) : Prop :=
  (h = false → q.a12Low = false → q' = { q with a12Low := true, lowTicks := 0#8 } ∧ raised = false) ∧
  (h = false → q.a12Low = true → q' = q ∧ raised = false) ∧
  (h = true → q.a12Low = false → q' = q ∧ raised = false) ∧
  (h = true → q.a12Low = true → q.lowTicks.toNat < lowMin.toNat →
    q' = { q with a12Low := false } ∧ raised = false) ∧
  (h = true → q.a12Low = true → lowMin.toNat ≤ q.lowTicks.toNat →
    ∃ c, q.Clocks c raised ∧ q' = { c with a12Low := false })

/-! ### The constraints of a configuration, in the spec's words (R10) -/

/-- The constraint a `ConfigError` is about holds (R10). -/
def Geometry.Meets (v : Variant) (g : Geometry) (e : ConfigError) : Prop :=
  match e with
  | .unknownVariant => True
  | .sizeNotPowerOfTwo => (∃ k, g.nPrg16 = 2 ^ k) ∧ ∃ k, g.nChr8 = 2 ^ k
  | .payloadLength =>
    g.prg.len = 16384 * g.nPrg16 ∧ (∀ c, g.chr = some c → c.len = 8192 * g.nChr8) ∧
      (g.chr = none → g.chrReadOnly = false)
  | .prgAboveTwoUnits => v = .nrom ∨ v = .cnrom → g.nPrg16 = 1 ∨ g.nPrg16 = 2
  | .prgBelowTwoUnits => v = .axrom ∨ v = .gxrom ∨ v = .shift ∨ v = .latch → 2 ≤ g.nPrg16
  | .ppuRamTooSmall => 2 ≤ g.banksPpuRam ∧ (g.mirroring0 = .fourScreen → 4 ≤ g.banksPpuRam)
  | .trainerLength => ∀ t, g.trainer = some t → t.len = 512
  | .splitValue => v = .latch → g.split = 8 ∨ g.split = 16

/-- R10 (a) to (g), the order of the checks (R293). -/
def configOrder : List ConfigError :=
  [.sizeNotPowerOfTwo, .payloadLength, .prgAboveTwoUnits, .prgBelowTwoUnits, .ppuRamTooSmall, .trainerLength,
   .splitValue]

/-! ### What the pages show -/

/-- The 1 KiB PRG bank a CPU page from 32 up shows under `SHIFT`, for the value `x = prg[3:0]` (R199). -/
def shiftPrgBank (g : Geometry) (mode x p : Nat) : Nat :=
  if mode < 2 then 32 * maskTo (x / 2) (g.nPrg16 / 2) + (p - 32)
  else if mode = 2 then
    if p < 48 then p - 32 else 16 * maskTo x g.nPrg16 + (p - 48)
  else if p < 48 then 16 * maskTo x g.nPrg16 + (p - 32) else 16 * (g.nPrg16 - 1) + (p - 48)

/-- The 8 KiB PRG bank a CPU window (0 to 3 from 0x8000) shows under `IRQ` (R214). -/
def irqPrgUnit (g : Geometry) (q : IrqRegs) (w : Nat) : Nat :=
  if w = 0 then (if q.prgMode then 2 * g.nPrg16 - 2 else maskTo q.bank[6].toNat (2 * g.nPrg16))
  else if w = 1 then maskTo q.bank[7].toNat (2 * g.nPrg16)
  else if w = 2 then (if q.prgMode then maskTo q.bank[6].toNat (2 * g.nPrg16) else 2 * g.nPrg16 - 2)
  else 2 * g.nPrg16 - 1

/-- The 1 KiB CHR bank a PPU page below 8 shows under `IRQ` when CHR mode is 0 (R215). -/
def irqChrBank (g : Geometry) (q : IrqRegs) (w : Nat) : Nat :=
  if w < 2 then maskTo (q.bank[0] &&& 0xFE#8).toNat g.banksChr + w
  else if w < 4 then maskTo (q.bank[1] &&& 0xFE#8).toNat g.banksChr + (w - 2)
  else if w = 4 then maskTo q.bank[2].toNat g.banksChr
  else if w = 5 then maskTo q.bank[3].toNat g.banksChr
  else if w = 6 then maskTo q.bank[4].toNat g.banksChr
  else maskTo q.bank[5].toNat g.banksChr

/-- The 1 KiB PRG bank that CPU page `p`, 32 to 63, shows (R161 to R180, R199, R214, R246). -/
def shownPrg (m : Mapper) (p : Nat) : Nat :=
  match m.cfg.variant with
  | .nrom | .cnrom => if m.cfg.nPrg16 = 2 then p - 32 else (p - 32) % 16
  | .uxrom | .unrom512 =>
    if p < 48 then 16 * m.direct.selPrg.toNat + (p - 32) else 16 * (m.cfg.nPrg16 - 1) + (p - 48)
  | .axrom | .gxrom => 32 * m.direct.selPrg.toNat + (p - 32)
  | .shift =>
    shiftPrgBank m.cfg.toGeometry (ctrlPrgMode m.shift.ctrl) (m.shift.prg.extractLsb' 0 4).toNat p
  | .irq => 8 * irqPrgUnit m.cfg.toGeometry m.irq ((p - 32) / 8) + p % 8
  | .latch =>
    if p < 32 + m.cfg.split then m.cfg.split * m.latch.prgSel.toNat + (p - 32)
    else m.cfg.banksPrg - (32 - m.cfg.split) + (p - (32 + m.cfg.split))

/-- The 1 KiB CHR bank that PPU page `p`, 0 to 7, shows (R161 to R180, R199, R215, R246). -/
def shownChr (m : Mapper) (p : Nat) : Nat :=
  match m.cfg.variant with
  | .nrom | .uxrom | .axrom => p
  | .cnrom | .gxrom | .unrom512 => 8 * m.direct.selChr.toNat + p
  | .shift =>
    if ctrlChrMode m.shift.ctrl then
      if p < 4 then 4 * maskTo m.shift.chr0.toNat (2 * m.cfg.nChr8) + p
      else 4 * maskTo m.shift.chr1.toNat (2 * m.cfg.nChr8) + (p - 4)
    else 8 * maskTo (m.shift.chr0.toNat / 2) m.cfg.nChr8 + p
  | .irq => irqChrBank m.cfg.toGeometry m.irq (if m.irq.chrMode then (p + 4) % 8 else p)
  | .latch => if p < 4 then 4 * latchBank0 m.latch + p else 4 * latchBank1 m.latch + (p - 4)

/-- The PPU RAM bank nametable quadrant `k` (0 top-left, 1 top-right, 2 bottom-left, 3 bottom-right)
aliases in a mirroring mode (R126, R131). -/
def shownNametable (mode : Mirroring) (k : Nat) : Nat :=
  match mode with
  | .horizontal => k / 2
  | .vertical => k % 2
  | .oneScreenLow => 0
  | .oneScreenHigh => 1
  | .fourScreen => k

/-- The descriptor of CPU page `p` (R71). -/
def cpuEntry (m : Mapper) (p : Nat) : Bank :=
  if p < 8 then
    if 2 ≤ m.cfg.banksCpuRam then ⟨m.cfg.cpuRamBase + 1024 * (p % 2), false, true⟩ else Bank.unmapped
  else if p < 24 then Bank.unmapped
  else if p < 32 then
    if 10 ≤ m.cfg.banksCpuRam then ⟨m.cfg.cpuRamBase + 2048 + 1024 * (p - 24), false, true⟩ else Bank.unmapped
  else ⟨1024 * shownPrg m p, true, true⟩

/-- The descriptor of PPU page `p` in a mirroring mode (R72). -/
def ppuEntry (mode : Mirroring) (m : Mapper) (p : Nat) : Bank :=
  if p < 8 then ⟨m.cfg.chrBase + 1024 * shownChr m p, m.cfg.chrReadOnly, true⟩
  else ⟨m.cfg.ppuRamBase + 1024 * shownNametable mode (p % 4), false, true⟩

/-- The mirroring mode in force: under `SHIFT` the control register's (R199), else the last one set. -/
def shownMode (mode : Mirroring) (m : Mapper) : Mirroring :=
  if m.cfg.variant = .shift then ctrlMirroring m.shift.ctrl else mode

/-- The block with its PRG and CHR windows laid out as its registers select them: CPU pages 32 to 63 and
PPU pages 0 to 7 (R161 to R180, R199, R214, R215, R246). -/
def Mapper.laidOut (m : Mapper) : Mapper :=
  { m with
    cputab := Vector.ofFn fun p : Fin 64 => if p.val < 32 then m.cputab[p] else cpuEntry m p.val
    pputab := Vector.ofFn fun p : Fin 16 => if p.val < 8 then ppuEntry .vertical m p.val else m.pputab[p] }

/-- The block with its nametable pages, PPU pages 8 to 15, in a mirroring mode (R126). -/
def Mapper.showing (mode : Mirroring) (m : Mapper) : Mapper :=
  { m with pputab := Vector.ofFn fun p : Fin 16 => if p.val < 8 then m.pputab[p] else ppuEntry mode m p.val }

/-- The block with both tables whole, as its configuration, its registers and a mirroring mode show them
(R71, R72). -/
def Mapper.tabled (mode : Mirroring) (m : Mapper) : Mapper :=
  { m with
    cputab := Vector.ofFn fun p : Fin 64 => cpuEntry m p.val
    pputab := Vector.ofFn fun p : Fin 16 => ppuEntry mode m p.val }

/-! ### Runs -/

/-- Run operations one after another; the first fault or refusal ends the run (R13, R85). -/
def execAll (is : List Instr) (s : State) : Host.Outcome State Fault Refusal :=
  match is with
  | [] => .next s
  | i :: rest =>
    match exec i s with
    | .next t => execAll rest t
    | .fault f => .fault f
    | .refused r => .refused r

/-- The default operations of R141 to R146 and `SAVE`: they leave every register of the block alone. -/
def IsDefault (i : Instr) : Prop :=
  i = .tick ∨ i = .save ∨ (∃ a, i = .rdcpu a) ∨ (∃ a v, i = .wrcpu a v) ∨ (∃ a, i = .rdppu a) ∨ ∃ a v, i = .wrppu a v

/-! ### The invariant -/

/-- R35: every mapped descriptor lies inside the store. -/
def Mapper.TablesInStore (m : Mapper) : Prop :=
  (∀ p : Fin 64, m.cputab[p].mapped = true → m.cputab[p].off + 1024 ≤ m.cfg.storeLen) ∧
  (∀ p : Fin 16, m.pputab[p].mapped = true → m.pputab[p].off + 1024 ≤ m.cfg.storeLen)

/-- R23: the PRG region holds the PRG payload, and a read-only CHR region the CHR payload. -/
def Mapper.RomsIntact (m : Mapper) : Prop :=
  (∀ i, i < m.cfg.sizePrg → Memory.read m.store i = imageByte m.cfg.prg i) ∧
  (m.cfg.chrReadOnly = true → ∀ c, m.cfg.chr = some c → ∀ i, i < m.cfg.sizeChr →
    Memory.read m.store (m.cfg.chrBase + i) = imageByte c i)

/-- The invariant of a block: its configuration meets R10, its fault mark is clear, it is one transactions reach as
far as registers, tables and RAM tell (`Mapper.coherent`), its store is in canonical form inside `LEN`, and its ROM is
intact. -/
def Mapper.Inv (m : Mapper) : Prop :=
  m.cfg.legal = true ∧ m.faulted = false ∧ m.coherent = true ∧
  Memory.wf m.store = true ∧ Memory.below m.store m.cfg.storeLen = true ∧ m.RomsIntact

/-- The invariant of the machine: a block, when there is one, meets its own. -/
def State.Inv (s : State) : Prop := ∀ m, s.inst = some m → m.Inv

end Sys2Proof.Machine
end

