-- ==== Sys2Proof/Certificates/Slice0/Obligations.lean ====
section
/-! DEFINITION. The statements for the provers. Where a statement gives the state after an operation it gives
all of it: `s.reply m o` is `s` with block `m` and outputs `o`, `s.replyDraw m o d` also sets the draw counter,
so the transactions still waiting, and the draw counter where no draw is taken, are as before. -/

section

open Sys2Proof Sys2Proof.Machine

/-! ### Encoding and decode -/

/-- Every operation a transaction can present to a variant is encoded, and its transaction decodes back to it,
operands included (R101 to R112). -/
def Obligations.DecodeOfEncodeIsIdentity : Prop :=
  ∀ (v : Variant) (i : Instr), wellFormed v i = true → ∃ t, encode i = some t ∧ decode v t = .ok i

/-- What decode answers is an operation of that variant: never an internal procedure, never another variant's
operation, never a default operation at an address the variant claims (R104 to R115). -/
def Obligations.DecodedOperationIsWellFormed : Prop :=
  ∀ (v : Variant) (t : Txn) (i : Instr), decode v t = .ok i → wellFormed v i = true

/-- Decode agrees with the rows of `opcode_table.json` under the matching rule: the row of the decoded operation
applies, and every other applying row has lower precedence, so the choice is unique (R105). That the rows with a state
condition take no part, decode having no state (R104, R114), is the model's reading, assumption log 13: without it
`SHIFT.LD.CTRL` would have more mask bits than `SHIFT.BIT`. -/
def Obligations.DecodeSelectsTheMatchingRow : Prop :=
  ∀ (v : Variant) (t : Txn) (i : Instr), decode v t = .ok i →
    ∃ row ∈ opcodeRows, row.name = mnemonic i ∧ rowApplies v t.word row = true ∧
      ∀ r ∈ opcodeRows, rowApplies v t.word r = true → r ≠ row →
        (r.format = none ∧ row.format = some v) ∨
        (r.format = row.format ∧
          (List.range 27).countP (fun k => r.mask.getLsbD k) < (List.range 27).countP (fun k => row.mask.getLsbD k))

/-- The only words refused are PPU reads and writes with address bit 14 or 15 set, and decode ignores the fields
an operation does not use (R103). -/
def Obligations.OnlyWidePpuWordsAreRefused : Prop :=
  (∀ (v : Variant) (t : Txn) (e : DecodeError), decode v t = .error e ↔
    ((t.word.extractLsb' 24 3 = 3#3 ∨ t.word.extractLsb' 24 3 = 4#3) ∧ t.word.extractLsb' 22 2 ≠ 0#2 ∧
      e = .ppuAddressTooWide (t.word.extractLsb' 8 16))) ∧
  (∀ (v : Variant) (k : BitVec 3) (a a' : CpuAddr) (d d' : Byte) (cfg : CfgIn) (buf : List Byte),
    k = 0#3 ∨ k = 5#3 ∨ k = 6#3 ∨ k = 7#3 →
      decode v ⟨makeWord k a d, cfg, buf⟩ = decode v ⟨makeWord k a' d', cfg, buf⟩) ∧
  (∀ (v : Variant) (k : BitVec 3) (a : CpuAddr) (d d' : Byte) (cfg : CfgIn) (buf : List Byte),
    k = 1#3 ∨ k = 3#3 → decode v ⟨makeWord k a d, cfg, buf⟩ = decode v ⟨makeWord k a d', cfg, buf⟩)

/-- Words of 95_test_vectors.md decode to the operations they stand for, one for each family. -/
def Obligations.SampleWordsDecode : Prop :=
  decode .nrom ⟨0x26000AB#27, Config.launchIn, []⟩ = .ok (.wrcpu 0x6000#16 0xAB#8) ∧
  decode .uxrom ⟨0x280000B#27, Config.launchIn, []⟩ = .ok (.uxromSel 0x0B#8) ∧
  decode .unrom512 ⟨0x2C000A5#27, Config.launchIn, []⟩ = .ok (.unrom512Sel 0xA5#8) ∧
  decode .shift ⟨0x2800080#27, Config.launchIn, []⟩ = .ok .shiftReset ∧
  decode .shift ⟨0x2E00001#27, Config.launchIn, []⟩ = .ok (.shiftBit 3#2 true) ∧
  decode .irq ⟨0x2800113#27, Config.launchIn, []⟩ = .ok (.irqBankdata 0x13#8) ∧
  decode .irq ⟨0x2E00100#27, Config.launchIn, []⟩ = .ok .irqEnable ∧
  decode .irq ⟨0x3100000#27, Config.launchIn, []⟩ = .ok (.irqRdppu 0x1000#14) ∧
  decode .latch ⟨0x2B00025#27, Config.launchIn, []⟩ = .ok (.latchChr0 0x25#8) ∧
  decode .latch ⟨0x30FE800#27, Config.launchIn, []⟩ = .ok (.latchTrig0Set 0#3) ∧
  decode .latch ⟨0x30FE000#27, Config.launchIn, []⟩ = .ok (.latchRdppu 0x0FE0#14) ∧
  decode .gxrom ⟨0x5000000#27, Config.launchIn, []⟩ = .ok (.poweron Config.launchIn)

/-- A step takes the next transaction, decodes it under the variant of the block (with no block every variant
decodes the one meaningful operation, `POWERON`, alike), and runs exactly that operation on the state in which the
transaction has been taken; an invalid word is refused; with no transaction waiting nothing happens (R100, R104). -/
def Obligations.StepRunsTheNextTransaction : Prop :=
  (∀ (s : State) (m : Mapper) (t : Txn) (rest : List Txn) (i : Instr), s.inst = some m → s.port = t :: rest →
    decode m.cfg.variant t = .ok i → step s = exec i { s with port := rest }) ∧
  (∀ (s : State) (m : Mapper) (t : Txn) (rest : List Txn) (a : CpuAddr), s.inst = some m → s.port = t :: rest →
    decode m.cfg.variant t = .error (.ppuAddressTooWide a) → step s = .refused (.ppuAddressTooWide a)) ∧
  (∀ (s : State) (t : Txn) (rest : List Txn) (v : Variant) (c : CfgIn), s.inst = none → s.port = t :: rest →
    decode v t = .ok (.poweron c) → step s = exec (.poweron c) { s with port := rest }) ∧
  (∀ s : State, s.port = [] → step s = .next s)

/-! ### Power-on, errors, the fault mark -/

/-- The machine's reset state is what `POWERON` of the launch configuration leaves from a machine with no block
(R39, R310; the launch configuration is the model's choice, assumption log 2). -/
def Obligations.ResetIsTheLaunchPowerOn : Prop :=
  exec (.poweron Config.launchIn) { inst := none, port := [], out := Output.quiet, draws := 0 } =
    .next State.reset

/-- `POWERON` of a configuration that meets R10 constructs the block whose registers, store and tables have the
values of R38: registers 0 or false but `ctrl = 0x0C`, the payloads in the store, RAM zero but for the trainer, the
tables of R314 to R323 (R38, R313). -/
def Obligations.PowerOnConstructsTheBlock : Prop :=
  ∀ (s : State) (cfg : Cfg), cfg.legal = true → (∀ m0, s.inst = some m0 → m0.faulted = false) →
    ∃ m : Mapper, exec (.poweron { toGeometry := cfg.toGeometry, tag := .known cfg.variant }) s =
        .next (s.reply m Output.quiet) ∧
      m.cfg = cfg ∧ m.faulted = false ∧
      m.direct = ⟨0#8, 0#8⟩ ∧ m.shift = ⟨0#5, 0#3, 0x0C#5, 0#5, 0#5, 0#5⟩ ∧
      m.irq = ⟨Vector.replicate 8 0#8, 0#3, false, false, 0#8, 0#8, false, false, false, 0#8⟩ ∧
      m.latch = ⟨0#8, Vector.replicate 4 0#8, Vector.replicate 2 false⟩ ∧
      (∀ i, i < cfg.sizePrg → Memory.read m.store i = imageByte cfg.prg i) ∧
      (∀ i, i < cfg.sizeChr → Memory.read m.store (cfg.chrBase + i) =
        match cfg.chr with
        | some c => imageByte c i
        | none => 0#8) ∧
      (∀ i, i < cfg.sizeCpuRam → Memory.read m.store (cfg.cpuRamBase + i) =
        match cfg.trainer with
        | some t =>
          if 10 ≤ cfg.banksCpuRam ∧ 2048 + 4096 ≤ i ∧ i < 2048 + 4096 + 512 then imageByte t (i - (2048 + 4096))
          else 0#8
        | none => 0#8) ∧
      (∀ i, i < cfg.sizePpuRam → Memory.read m.store (cfg.ppuRamBase + i) = 0#8) ∧
      Memory.wf m.store = true ∧ Memory.below m.store cfg.storeLen = true ∧
      (∀ p : Fin 64, m.cputab[p] = cpuEntry m p.val) ∧
      (∀ p : Fin 16, m.pputab[p] =
        ppuEntry (if cfg.variant = .shift then .oneScreenLow else cfg.mirroring0) m p.val)

/-- The registers and the tables right after `POWERON`, variant by variant: the core pages of R314 and the results of
the reset rules R315 to R323. `C` is `CPURAM_BASE`, `P` is `PPURAM_BASE`. -/
def Obligations.PowerOnTablesByVariant : Prop :=
  ∀ (s t : State) (cfg : Cfg) (m : Mapper), cfg.legal = true →
    exec (.poweron { toGeometry := cfg.toGeometry, tag := .known cfg.variant }) s = .next t → t.inst = some m →
    -- the registers
    m.direct = ⟨0#8, 0#8⟩ ∧ m.shift = ⟨0#5, 0#3, 0x0C#5, 0#5, 0#5, 0#5⟩ ∧
    m.irq = ⟨Vector.replicate 8 0#8, 0#3, false, false, 0#8, 0#8, false, false, false, 0#8⟩ ∧
    m.latch = ⟨0#8, Vector.replicate 4 0#8, Vector.replicate 2 false⟩ ∧
    -- R314
    (cfg.banksCpuRam = 10 → ∀ p : Fin 64, p.val < 32 → m.cputab[p] =
      if p.val < 8 then ⟨cfg.cpuRamBase + 1024 * (p.val % 2), false, true⟩
      else if p.val < 24 then ⟨0, false, false⟩
      else ⟨cfg.cpuRamBase + 2048 + 1024 * (p.val - 24), false, true⟩) ∧
    (cfg.variant ≠ .shift → ∀ p : Fin 16, 8 ≤ p.val → m.pputab[p] =
      ⟨cfg.ppuRamBase + 1024 * (match cfg.mirroring0 with
        | .horizontal => p.val % 4 / 2
        | .vertical => p.val % 2
        | .oneScreenLow => 0
        | .oneScreenHigh => 1
        | .fourScreen => p.val % 4), false, true⟩) ∧
    -- R315 to R323: the 1 KiB PRG bank of CPU page 32 + k
    (∀ k, (h : k < 32) → m.cputab[32 + k] = ⟨1024 * (match cfg.variant with
      | .nrom | .cnrom => if cfg.nPrg16 = 2 then k else k % 16
      | .uxrom | .unrom512 | .shift => if k < 16 then k else 16 * (cfg.nPrg16 - 1) + (k - 16)
      | .axrom | .gxrom => k
      | .irq =>
        if k < 8 then k else if k < 16 then k - 8
        else if k < 24 then 8 * (2 * cfg.nPrg16 - 2) + (k - 16)
        else 8 * (2 * cfg.nPrg16 - 1) + (k - 24)
      | .latch => if k < cfg.split then k else cfg.banksPrg - (32 - cfg.split) + (k - cfg.split)), true, true⟩) ∧
    -- R315 to R323: the 1 KiB CHR bank of PPU page k
    (∀ k, (h : k < 8) → m.pputab[k] = ⟨cfg.chrBase + 1024 * (match cfg.variant with
      | .nrom | .uxrom | .cnrom | .axrom | .gxrom | .unrom512 | .shift => k
      | .irq => if k < 4 then k % 2 else 0
      | .latch => k % 4), cfg.chrReadOnly, true⟩) ∧
    -- R321: one-screen low replaces the initial mirroring
    (cfg.variant = .shift → ∀ p : Fin 16, 8 ≤ p.val → m.pputab[p] = ⟨cfg.ppuRamBase, false, true⟩)

/-- `POWERON` of a configuration that breaks a constraint reports the first broken one, in the order variant, then
R10 (a) to (g), which is R293's, and leaves no block; nothing else raises a `ConfigError` (R281; R10 in the spec's words
is `Geometry.Meets`). That no block is left also where one stood before is the model's reading, assumption log 6. -/
def Obligations.PowerOnReportsTheFirstBrokenConstraint : Prop :=
  (∀ (s : State) (g : Geometry) (tag : Nat), (∀ m0, s.inst = some m0 → m0.faulted = false) →
    exec (.poweron { toGeometry := g, tag := .other tag }) s =
      .next { s with inst := none, out := ⟨none, false, none, some (.config .unknownVariant)⟩ }) ∧
  (∀ (s : State) (g : Geometry) (v : Variant) (before after : List ConfigError) (e : ConfigError),
    (∀ m0, s.inst = some m0 → m0.faulted = false) → configOrder = before ++ e :: after →
    (∀ x ∈ before, Geometry.Meets v g x) → ¬ Geometry.Meets v g e →
    exec (.poweron { toGeometry := g, tag := .known v }) s =
      .next { s with inst := none, out := ⟨none, false, none, some (.config e)⟩ }) ∧
  (∀ (s t : State) (i : Instr) (e : ConfigError), exec i s = .next t → t.out.error = some (.config e) →
    ∃ c, i = .poweron c)

/-- With no block there is nothing to act on: every operation but `POWERON` is refused (R281, R330 a). -/
def Obligations.NoBlockNoOperation : Prop :=
  ∀ (s : State) (i : Instr), s.inst = none → (∀ c, i ≠ .poweron c) → exec i s = .refused .noBlock

/-- Where the model stops off the rules, by name: an operation of a variant that is not the block's, whose registers
do not exist there (R25), and an access whose descriptor leads past the store, which R35 keeps every reachable state
from. The two stops are the model's own (assumption log 7 and 8). -/
def Obligations.OffRuleAccessesStop : Prop :=
  ∀ (s : State) (m : Mapper), s.Live m →
    (∀ (i : Instr) (v : Variant), ownerOf i = some v → m.cfg.variant ≠ v → exec i s = .refused .otherVariant) ∧
    (∀ a : CpuAddr, (m.cpuPageAt a).mapped = true → m.cfg.storeLen ≤ (m.cpuPageAt a).off + a.toNat % 1024 →
      exec (.rdcpu a) s = .fault .outsideStore ∧
      ((m.cpuPageAt a).ro = false → ∀ v, exec (.wrcpu a v) s = .fault .outsideStore)) ∧
    ∀ a : PpuAddr, (m.ppuPageAt a).mapped = true → m.cfg.storeLen ≤ (m.ppuPageAt a).off + a.toNat % 1024 →
      exec (.rdppu a) s = .fault .outsideStore ∧
      (m.cfg.variant = .irq → exec (.irqRdppu a) s = .fault .outsideStore) ∧
      (m.cfg.variant = .latch → exec (.latchRdppu a) s = .fault .outsideStore) ∧
      ((m.ppuPageAt a).ro = false → ∀ v, exec (.wrppu a v) s = .fault .outsideStore ∧
        (m.cfg.variant = .irq → exec (.irqWrppu a v) s = .fault .outsideStore))

/-- The fault mark: an operation sets it exactly when it ends in a `ContractViolation`; on a faulted block no
operation is defined; a `ConfigError` leaves no block and a `RestoreSizeMismatch` leaves the block as it was
(R36, R283, R285). That `POWERON` stops on a faulted block with the rest, and that a `ConfigError` leaves no block where
one stood, are the model's readings, assumption logs 5 and 6. -/
def Obligations.FaultMarkIsTerminal : Prop :=
  (∀ (s : State) (m : Mapper) (i : Instr), s.inst = some m → m.faulted = true →
    exec i s = .fault .faultedBlock) ∧
  (∀ (s t : State) (i : Instr), exec i s = .next t →
    ((∃ m, t.inst = some m ∧ m.faulted = true) ↔ ∃ kind, t.out.error = some (.contract kind))) ∧
  (∀ (s t : State) (i : Instr) (e : ConfigError), exec i s = .next t → t.out.error = some (.config e) →
    t.inst = none) ∧
  (∀ (s t : State) (i : Instr) (got want : Nat), exec i s = .next t →
    t.out.error = some (.restoreSize got want) → t.inst = s.inst)

/-! ### The mapping operations -/

/-- `MAP` inside its table and the store writes `size` consecutive descriptors and nothing else (R120). -/
def Obligations.MapWritesConsecutiveDescriptors : Prop :=
  ∀ (s : State) (m : Mapper) (page size off : Nat) (ro : Bool), s.Live m →
    off + 1024 * size ≤ m.cfg.storeLen →
    (page + size ≤ 64 → ∃ tab : Vector Bank 64,
      (∀ p : Fin 64, tab[p] =
        if page ≤ p.val ∧ p.val < page + size then ⟨off + 1024 * (p.val - page), ro, true⟩ else m.cputab[p]) ∧
      exec (.map .cpu page size off ro) s = .next (s.reply { m with cputab := tab } Output.quiet)) ∧
    (page + size ≤ 16 → ∃ tab : Vector Bank 16,
      (∀ p : Fin 16, tab[p] =
        if page ≤ p.val ∧ p.val < page + size then ⟨off + 1024 * (p.val - page), ro, true⟩ else m.pputab[p]) ∧
      exec (.map .ppu page size off ro) s = .next (s.reply { m with pputab := tab } Output.quiet))

/-- `UNMAP` inside its table clears `mapped` of its entries and keeps their `off` and `ro` (R123). -/
def Obligations.UnmapClearsMappedOnly : Prop :=
  ∀ (s : State) (m : Mapper) (page size : Nat), s.Live m →
    (page + size ≤ 64 → ∃ tab : Vector Bank 64,
      (∀ p : Fin 64, tab[p] =
        if page ≤ p.val ∧ p.val < page + size then ⟨m.cputab[p].off, m.cputab[p].ro, false⟩ else m.cputab[p]) ∧
      exec (.unmap .cpu page size) s = .next (s.reply { m with cputab := tab } Output.quiet)) ∧
    (page + size ≤ 16 → ∃ tab : Vector Bank 16,
      (∀ p : Fin 16, tab[p] =
        if page ≤ p.val ∧ p.val < page + size then ⟨m.pputab[p].off, m.pputab[p].ro, false⟩ else m.pputab[p]) ∧
      exec (.unmap .ppu page size) s = .next (s.reply { m with pputab := tab } Output.quiet))

/-- `MIRROR` copies whole descriptors from a snapshot of its source range to the range `stride` pages on, the
destination reduced modulo the table length; every other entry is unchanged (R125). -/
def Obligations.MirrorCopiesTheSnapshot : Prop :=
  ∀ (s : State) (m : Mapper) (page size stride : Nat), s.Live m →
    (page + size ≤ 64 → ∃ tab : Vector Bank 64,
      (∀ k, (h : k < size) → (h' : page + size ≤ 64) →
        tab[(page + stride + k) % 64]'(Nat.mod_lt _ (by omega)) = m.cputab[page + k]'(by omega)) ∧
      (∀ p : Fin 64, (∀ k, k < size → (page + stride + k) % 64 ≠ p.val) → tab[p] = m.cputab[p]) ∧
      exec (.mirror .cpu page size stride) s = .next (s.reply { m with cputab := tab } Output.quiet)) ∧
    (page + size ≤ 16 → ∃ tab : Vector Bank 16,
      (∀ k, (h : k < size) → (h' : page + size ≤ 16) →
        tab[(page + stride + k) % 16]'(Nat.mod_lt _ (by omega)) = m.pputab[page + k]'(by omega)) ∧
      (∀ p : Fin 16, (∀ k, k < size → (page + stride + k) % 16 ≠ p.val) → tab[p] = m.pputab[p]) ∧
      exec (.mirror .ppu page size stride) s = .next (s.reply { m with pputab := tab } Output.quiet))

/-- `SETMIRROR` points the four nametable pages 8 to 11, and their copies 12 to 15, at the PPU RAM banks of the
mode, writable; pages 0 to 7 and everything else are unchanged. `SETMIRROR(NONE)` with fewer than four banks is a
`ContractViolation` at the first page whose bank does not exist, and the pages written before it stay written (R126,
R131; what stays written is R282). -/
def Obligations.SetMirrorPointsTheNametablePages : Prop :=
  (∀ (s : State) (m : Mapper) (mode : Mirroring) (b : Vector Nat 4), s.Live m →
    b = (match mode with
      | .horizontal => #v[0, 0, 1, 1]
      | .vertical => #v[0, 1, 0, 1]
      | .oneScreenLow => #v[0, 0, 0, 0]
      | .oneScreenHigh => #v[1, 1, 1, 1]
      | .fourScreen => #v[0, 1, 2, 3]) →
    (∀ k : Fin 4, b[k] < m.cfg.banksPpuRam) →
    ∃ tab : Vector Bank 16,
      (∀ p : Fin 16, p.val < 8 → tab[p] = m.pputab[p]) ∧
      (∀ k : Fin 4, tab[8 + k.val] = ⟨m.cfg.ppuRamBase + 1024 * b[k], false, true⟩ ∧
        tab[12 + k.val] = ⟨m.cfg.ppuRamBase + 1024 * b[k], false, true⟩) ∧
      exec (.setmirror mode) s = .next (s.reply { m with pputab := tab } Output.quiet)) ∧
  (∀ (s : State) (m : Mapper), s.Live m → m.cfg.banksPpuRam < 4 → ∃ tab : Vector Bank 16,
    (∀ p : Fin 16, tab[p] = if 8 ≤ p.val ∧ p.val < 8 + m.cfg.banksPpuRam then
      ⟨m.cfg.ppuRamBase + 1024 * (p.val - 8), false, true⟩ else m.pputab[p]) ∧
    exec (.setmirror .fourScreen) s =
      .next { s with
        inst := some { m with pputab := tab, faulted := true }
        out := ⟨none, false, none, some (.contract .storeBounds)⟩ })

/-- The region helpers convert a region-relative bank number and map it: CPU RAM and PPU RAM with the protection
given, PRG always read-only, CHR read-only exactly when it is ROM. A bank range that leaves the region is a
`ContractViolation(StoreBounds)`, checked before the page range, which is `MAP`'s check; nothing is written then (R127
to R130). -/
def Obligations.RegionHelpersMapTheirRegion : Prop :=
  ∀ (s : State) (m : Mapper) (page size bank : Nat) (ro : Bool), s.Live m →
    let fatal (kind : Bounds) : Host.Outcome State Fault Refusal :=
      .next { s with inst := some { m with faulted := true }, out := ⟨none, false, none, some (.contract kind)⟩ }
    (page + size ≤ 64 → bank + size ≤ m.cfg.banksCpuRam → ∃ tab : Vector Bank 64,
      (∀ p : Fin 64, tab[p] = if page ≤ p.val ∧ p.val < page + size then
        ⟨m.cfg.sizePrg + m.cfg.sizeChr + 1024 * (bank + (p.val - page)), ro, true⟩ else m.cputab[p]) ∧
      exec (.mapcpuram page size bank ro) s = .next (s.reply { m with cputab := tab } Output.quiet)) ∧
    (page + size ≤ 16 → bank + size ≤ m.cfg.banksPpuRam → ∃ tab : Vector Bank 16,
      (∀ p : Fin 16, tab[p] = if page ≤ p.val ∧ p.val < page + size then
        ⟨m.cfg.sizePrg + m.cfg.sizeChr + m.cfg.sizeCpuRam + 1024 * (bank + (p.val - page)), ro, true⟩
        else m.pputab[p]) ∧
      exec (.mapppuram page size bank ro) s = .next (s.reply { m with pputab := tab } Output.quiet)) ∧
    (page + size ≤ 64 → bank + size ≤ 16 * m.cfg.nPrg16 → ∃ tab : Vector Bank 64,
      (∀ p : Fin 64, tab[p] = if page ≤ p.val ∧ p.val < page + size then
        ⟨1024 * (bank + (p.val - page)), true, true⟩ else m.cputab[p]) ∧
      exec (.mapprg page size bank) s = .next (s.reply { m with cputab := tab } Output.quiet)) ∧
    (page + size ≤ 16 → bank + size ≤ 8 * m.cfg.nChr8 → ∃ tab : Vector Bank 16,
      (∀ p : Fin 16, tab[p] = if page ≤ p.val ∧ p.val < page + size then
        ⟨m.cfg.sizePrg + 1024 * (bank + (p.val - page)), m.cfg.chrReadOnly, true⟩ else m.pputab[p]) ∧
      exec (.mapchr page size bank) s = .next (s.reply { m with pputab := tab } Output.quiet)) ∧
    (bank + size > m.cfg.banksCpuRam → exec (.mapcpuram page size bank ro) s = fatal .storeBounds) ∧
    (bank + size ≤ m.cfg.banksCpuRam → page + size > 64 →
      exec (.mapcpuram page size bank ro) s = fatal .tableBounds) ∧
    (bank + size > m.cfg.banksPpuRam → exec (.mapppuram page size bank ro) s = fatal .storeBounds) ∧
    (bank + size ≤ m.cfg.banksPpuRam → page + size > 16 →
      exec (.mapppuram page size bank ro) s = fatal .tableBounds) ∧
    (bank + size > 16 * m.cfg.nPrg16 → exec (.mapprg page size bank) s = fatal .storeBounds) ∧
    (bank + size ≤ 16 * m.cfg.nPrg16 → page + size > 64 → exec (.mapprg page size bank) s = fatal .tableBounds) ∧
    (bank + size > 8 * m.cfg.nChr8 → exec (.mapchr page size bank) s = fatal .storeBounds) ∧
    (bank + size ≤ 8 * m.cfg.nChr8 → page + size > 16 → exec (.mapchr page size bank) s = fatal .tableBounds)

/-- A page range that leaves its table is a `ContractViolation(TableBounds)` of `MAP`, `UNMAP` and `MIRROR`, and then
a byte range that leaves the store one of `MAP` with kind `StoreBounds`, before any entry is written: the block is
marked faulted and is otherwise as it was (R121, R122). That the store check holds for `size = 0` too is the model's
choice, assumption log 20. -/
def Obligations.MappingBoundsAreFatal : Prop :=
  ∀ (s : State) (m : Mapper) (tb : BankTable) (page size off stride : Nat) (ro : Bool), s.Live m →
    let len := match tb with
      | .cpu => 64
      | .ppu => 16
    let fatal (kind : Bounds) : Host.Outcome State Fault Refusal :=
      .next { s with inst := some { m with faulted := true }, out := ⟨none, false, none, some (.contract kind)⟩ }
    (page + size > len → exec (.map tb page size off ro) s = fatal .tableBounds) ∧
    (page + size ≤ len → off + 1024 * size > m.cfg.storeLen →
      exec (.map tb page size off ro) s = fatal .storeBounds) ∧
    (page + size > len → exec (.unmap tb page size) s = fatal .tableBounds) ∧
    (page + size > len → exec (.mirror tb page size stride) s = fatal .tableBounds)

/-- The mapping operations and the remaps never touch the store, a variant register or the configuration, return
no byte and never raise the interrupt, whether they complete or not (R132). -/
def Obligations.MappingOperationsTouchOnlyTheTables : Prop :=
  ∀ (s t : State) (m : Mapper) (i : Instr), s.inst = some m → exec i s = .next t →
    ((∃ tb page size off ro, i = .map tb page size off ro) ∨ (∃ tb page size, i = .unmap tb page size) ∨
     (∃ tb page size stride, i = .mirror tb page size stride) ∨ (∃ mode, i = .setmirror mode) ∨
     (∃ page size bank ro, i = .mapcpuram page size bank ro) ∨
     (∃ page size bank ro, i = .mapppuram page size bank ro) ∨ (∃ page size bank, i = .mapprg page size bank) ∨
     (∃ page size bank, i = .mapchr page size bank) ∨ i = .shiftRemap ∨ i = .irqRemap ∨ i = .latchRemap) →
    t.out.data = none ∧ t.out.irq = false ∧ t.port = s.port ∧ t.draws = s.draws ∧
    ∃ m' : Mapper, t.inst = some m' ∧ m'.cfg = m.cfg ∧ m'.store = m.store ∧ m'.direct = m.direct ∧
      m'.shift = m.shift ∧ m'.irq = m.irq ∧ m'.latch = m.latch

/-! ### The default bus operations -/

/-- A default read returns the store byte its page leads to, or the open-bus draw of an unmapped page, and leaves
the block unchanged (R141, R143, R144). -/
def Obligations.ReadsReturnTheStoreByteOrTheDraw : Prop :=
  (∀ (s : State) (m : Mapper) (a : CpuAddr), s.Live m → m.holds (m.cpuPageAt a) →
    exec (.rdcpu a) s = .next { s with
      out := ⟨some (m.pageByte (m.cpuPageAt a) (a.toNat % 1024) s.draws), false, none, none⟩
      draws := drawsAfter (m.cpuPageAt a) s.draws }) ∧
  (∀ (s : State) (m : Mapper) (a : PpuAddr), s.Live m → m.holds (m.ppuPageAt a) →
    exec (.rdppu a) s = .next { s with
      out := ⟨some (m.pageByte (m.ppuPageAt a) (a.toNat % 1024) s.draws), false, none, none⟩
      draws := drawsAfter (m.ppuPageAt a) s.draws })

/-- A default write stores one byte when its page is mapped and writable, and is discarded otherwise: no other
byte, register or table entry changes (R142, R145). -/
def Obligations.WritesStoreOneByteOrNothing : Prop :=
  (∀ (s : State) (m : Mapper) (a : CpuAddr) (v : Byte), s.Live m → Memory.wf m.store = true →
    m.holds (m.cpuPageAt a) →
    ∃ st, m.StoreAfter (m.cpuPageAt a) (a.toNat % 1024) v st ∧
      exec (.wrcpu a v) s = .next (s.reply { m with store := st } Output.quiet)) ∧
  (∀ (s : State) (m : Mapper) (a : PpuAddr) (v : Byte), s.Live m → Memory.wf m.store = true →
    m.holds (m.ppuPageAt a) →
    ∃ st, m.StoreAfter (m.ppuPageAt a) (a.toNat % 1024) v st ∧
      exec (.wrppu a v) s = .next (s.reply { m with store := st } Output.quiet))

/-- A write to a writable page is returned by the next read at the same address, by the default accesses and by those
of `IRQ` and `LATCH`; after a default write to a read-only page every operation, the reads of both buses among them,
does what it did before the write, and after an `IRQ.WRPPU` to one every read returns the byte it returned before
(R147). -/
def Obligations.ReadBackAfterWrite : Prop :=
  (∀ (s t u : State) (m : Mapper) (a : CpuAddr) (v : Byte), s.Live m → Memory.wf m.store = true →
    exec (.wrcpu a v) s = .next t → (m.cpuPageAt a).mapped = true → (m.cpuPageAt a).ro = false →
    exec (.rdcpu a) t = .next u → u.out.data = some v) ∧
  (∀ (s t u : State) (m : Mapper) (a : PpuAddr) (v : Byte), s.Live m → Memory.wf m.store = true →
    exec (.wrppu a v) s = .next t → (m.ppuPageAt a).mapped = true → (m.ppuPageAt a).ro = false →
    exec (.rdppu a) t = .next u → u.out.data = some v) ∧
  (∀ (s t u : State) (m : Mapper) (a : PpuAddr) (v : Byte), s.LiveAs .irq m → Memory.wf m.store = true →
    exec (.irqWrppu a v) s = .next t → (m.ppuPageAt a).mapped = true → (m.ppuPageAt a).ro = false →
    exec (.irqRdppu a) t = .next u → u.out.data = some v) ∧
  (∀ (s t u : State) (m : Mapper) (a : PpuAddr) (v : Byte), s.LiveAs .latch m → m.cfg.legal = true →
    m.regsLegal = true → Memory.wf m.store = true →
    exec (.wrppu a v) s = .next t → (m.ppuPageAt a).mapped = true → (m.ppuPageAt a).ro = false →
    exec (.latchRdppu a) t = .next u → u.out.data = some v) ∧
  (∀ (s t : State) (m : Mapper) (a : CpuAddr) (v : Byte) (i : Instr), s.Live m →
    exec (.wrcpu a v) s = .next t → (m.cpuPageAt a).ro = true → exec i t = exec i s) ∧
  (∀ (s t : State) (m : Mapper) (a : PpuAddr) (v : Byte) (i : Instr), s.Live m →
    exec (.wrppu a v) s = .next t → (m.ppuPageAt a).ro = true → exec i t = exec i s) ∧
  (∀ (s t : State) (m : Mapper) (a : PpuAddr) (v : Byte) (i : Instr), s.LiveAs .irq m →
    exec (.irqWrppu a v) s = .next t → (m.ppuPageAt a).ro = true →
    (∃ b, i = .rdcpu b) ∨ (∃ b, i = .rdppu b) ∨ (∃ b, i = .irqRdppu b) →
    ∀ u w : State, exec i t = .next u → exec i s = .next w → u.out.data = w.out.data)

/-- Pages with equal offsets name the same bytes: a write through one is returned by the next read through any of
them. Under `VERTICAL` the nametable addresses `X` and `X + 0x800` share bytes, under `HORIZONTAL` `X` and
`X + 0x400` within each 0x800 half (R83). -/
def Obligations.AliasedPagesShareBytes : Prop :=
  (∀ (s t u : State) (m : Mapper) (a b : CpuAddr) (v : Byte), s.Live m → Memory.wf m.store = true →
    exec (.wrcpu a v) s = .next t → (m.cpuPageAt a).mapped = true → (m.cpuPageAt a).ro = false →
    (m.cpuPageAt b).mapped = true → (m.cpuPageAt b).off = (m.cpuPageAt a).off → a.toNat % 1024 = b.toNat % 1024 →
    exec (.rdcpu b) t = .next u → u.out.data = some v) ∧
  (∀ (s t u : State) (m : Mapper) (a b : PpuAddr) (v : Byte), s.Live m → Memory.wf m.store = true →
    exec (.wrppu a v) s = .next t → (m.ppuPageAt a).mapped = true → (m.ppuPageAt a).ro = false →
    (m.ppuPageAt b).mapped = true → (m.ppuPageAt b).off = (m.ppuPageAt a).off → a.toNat % 1024 = b.toNat % 1024 →
    exec (.rdppu b) t = .next u → u.out.data = some v) ∧
  (∀ (s t u w : State) (m : Mapper) (x : Nat) (v : Byte), s.Live m → 2 ≤ m.cfg.banksPpuRam →
    Memory.wf m.store = true → exec (.setmirror .vertical) s = .next t → x < 0x800 →
    ((exec (.wrppu (BitVec.ofNat 14 (0x2000 + x)) v) t = .next u →
        exec (.rdppu (BitVec.ofNat 14 (0x2000 + x + 0x800))) u = .next w → w.out.data = some v) ∧
     (exec (.wrppu (BitVec.ofNat 14 (0x2000 + x + 0x800)) v) t = .next u →
        exec (.rdppu (BitVec.ofNat 14 (0x2000 + x))) u = .next w → w.out.data = some v))) ∧
  (∀ (s t u w : State) (m : Mapper) (half x : Nat) (v : Byte), s.Live m → 2 ≤ m.cfg.banksPpuRam →
    Memory.wf m.store = true → exec (.setmirror .horizontal) s = .next t → half < 2 → x < 0x400 →
    ((exec (.wrppu (BitVec.ofNat 14 (0x2000 + 0x800 * half + x)) v) t = .next u →
        exec (.rdppu (BitVec.ofNat 14 (0x2000 + 0x800 * half + x + 0x400))) u = .next w → w.out.data = some v) ∧
     (exec (.wrppu (BitVec.ofNat 14 (0x2000 + 0x800 * half + x + 0x400)) v) t = .next u →
        exec (.rdppu (BitVec.ofNat 14 (0x2000 + 0x800 * half + x))) u = .next w → w.out.data = some v)))

/-- The default `TICK` does nothing but output `irq = false` (R146). -/
def Obligations.TickDoesNothing : Prop :=
  ∀ (s : State) (m : Mapper), s.Live m → exec .tick s = .next { s with out := ⟨none, false, none, none⟩ }

/-! ### The direct-mapped family -/

/-- `UXROM.SEL` (R164). -/
def Obligations.UxromSelectSwitchesTheLowWindow : Prop :=
  ∀ (s : State) (m : Mapper) (v : Byte), s.LiveAs .uxrom m → m.cfg.legal = true → ∃ tab : Vector Bank 64,
    (∀ p : Fin 64, tab[p] = if 32 ≤ p.val ∧ p.val < 48 then
      ⟨1024 * (16 * (v.toNat &&& (m.cfg.nPrg16 - 1)) + (p.val - 32)), true, true⟩ else m.cputab[p]) ∧
    exec (.uxromSel v) s = .next (s.reply
      { m with
        direct := { m.direct with selPrg := BitVec.ofNat 8 (v.toNat &&& (m.cfg.nPrg16 - 1)) }
        cputab := tab } Output.quiet)

/-- `CNROM.SEL` (R168). -/
def Obligations.CnromSelectSwitchesChr : Prop :=
  ∀ (s : State) (m : Mapper) (v : Byte), s.LiveAs .cnrom m → m.cfg.legal = true → ∃ tab : Vector Bank 16,
    (∀ p : Fin 16, tab[p] = if p.val < 8 then
      ⟨m.cfg.chrBase + 1024 * (8 * (v.toNat &&& (m.cfg.nChr8 - 1)) + p.val), m.cfg.chrReadOnly, true⟩
      else m.pputab[p]) ∧
    exec (.cnromSel v) s = .next (s.reply
      { m with
        direct := { m.direct with selChr := BitVec.ofNat 8 (v.toNat &&& (m.cfg.nChr8 - 1)) }
        pputab := tab } Output.quiet)

/-- `AXROM.SEL` (R172): bits 2:0 select the 32 KiB bank, bit 4 the one-screen bank. -/
def Obligations.AxromSelectSwitchesPrgAndScreen : Prop :=
  ∀ (s : State) (m : Mapper) (v : Byte), s.LiveAs .axrom m → m.cfg.legal = true →
    ∃ (ct : Vector Bank 64) (pt : Vector Bank 16),
    (∀ p : Fin 64, ct[p] = if 32 ≤ p.val then
      ⟨1024 * (32 * (v.toNat % 8 &&& (m.cfg.nPrg16 / 2 - 1)) + (p.val - 32)), true, true⟩ else m.cputab[p]) ∧
    (∀ p : Fin 16, pt[p] = if 8 ≤ p.val then
      ⟨m.cfg.ppuRamBase + 1024 * (if v.getLsbD 4 then 1 else 0), false, true⟩ else m.pputab[p]) ∧
    exec (.axromSel v) s = .next (s.reply
      { m with
        direct := { m.direct with selPrg := BitVec.ofNat 8 (v.toNat % 8 &&& (m.cfg.nPrg16 / 2 - 1)) }
        cputab := ct
        pputab := pt } Output.quiet)

/-- `GXROM.SEL` (R176): bits 5:4 select the 32 KiB PRG bank, bits 1:0 the 8 KiB CHR bank. -/
def Obligations.GxromSelectSwitchesPrgAndChr : Prop :=
  ∀ (s : State) (m : Mapper) (v : Byte), s.LiveAs .gxrom m → m.cfg.legal = true →
    ∃ (ct : Vector Bank 64) (pt : Vector Bank 16),
    (∀ p : Fin 64, ct[p] = if 32 ≤ p.val then
      ⟨1024 * (32 * (v.toNat / 16 % 4 &&& (m.cfg.nPrg16 / 2 - 1)) + (p.val - 32)), true, true⟩ else m.cputab[p]) ∧
    (∀ p : Fin 16, pt[p] = if p.val < 8 then
      ⟨m.cfg.chrBase + 1024 * (8 * (v.toNat % 4 &&& (m.cfg.nChr8 - 1)) + p.val), m.cfg.chrReadOnly, true⟩
      else m.pputab[p]) ∧
    exec (.gxromSel v) s = .next (s.reply
      { m with
        direct := ⟨BitVec.ofNat 8 (v.toNat / 16 % 4 &&& (m.cfg.nPrg16 / 2 - 1)),
          BitVec.ofNat 8 (v.toNat % 4 &&& (m.cfg.nChr8 - 1))⟩
        cputab := ct
        pputab := pt } Output.quiet)

/-- `UNROM512.SEL` (R180): bits 4:0 select the 16 KiB PRG bank, bits 6:5 the 8 KiB CHR bank, bit 7 the one-screen
bank. -/
def Obligations.Unrom512SelectSwitchesAll : Prop :=
  ∀ (s : State) (m : Mapper) (v : Byte), s.LiveAs .unrom512 m → m.cfg.legal = true →
    ∃ (ct : Vector Bank 64) (pt : Vector Bank 16),
    (∀ p : Fin 64, ct[p] = if 32 ≤ p.val ∧ p.val < 48 then
      ⟨1024 * (16 * (v.toNat % 32 &&& (m.cfg.nPrg16 - 1)) + (p.val - 32)), true, true⟩ else m.cputab[p]) ∧
    (∀ p : Fin 16, pt[p] = if p.val < 8 then
      ⟨m.cfg.chrBase + 1024 * (8 * (v.toNat / 32 % 4 &&& (m.cfg.nChr8 - 1)) + p.val), m.cfg.chrReadOnly, true⟩
      else ⟨m.cfg.ppuRamBase + 1024 * (if v.getLsbD 7 then 1 else 0), false, true⟩) ∧
    exec (.unrom512Sel v) s = .next (s.reply
      { m with
        direct := ⟨BitVec.ofNat 8 (v.toNat % 32 &&& (m.cfg.nPrg16 - 1)),
          BitVec.ofNat 8 (v.toNat / 32 % 4 &&& (m.cfg.nChr8 - 1))⟩
        cputab := ct
        pputab := pt } Output.quiet)

/-- Under `NROM` no transaction but `POWERON` and `RESTORE` changes a table, and from 0x8000 up a CPU write
changes nothing at all, since the pages there are read-only (R161). -/
def Obligations.NromMappingIsFixed : Prop :=
  (∀ (s t : State) (m : Mapper) (x : Txn) (rest : List Txn), s.Live m → m.cfg.variant = .nrom →
    s.port = x :: rest → wordKind x.word ≠ 5#3 → wordKind x.word ≠ 7#3 → step s = .next t →
    ∃ m', t.inst = some m' ∧ m'.cputab = m.cputab ∧ m'.pputab = m.pputab) ∧
  (∀ (s : State) (m : Mapper) (x : Txn) (rest : List Txn) (a : CpuAddr) (v : Byte), s.inst = some m → m.Inv →
    m.cfg.variant = .nrom → s.port = x :: rest → x.word = makeWord 2#3 a v → 0x8000 ≤ a.toNat →
    step s = .next { s with port := rest, out := ⟨none, false, none, none⟩ })

/-! ### The serial-protocol variant -/

/-- `SHIFT.RESET` clears `sr` and `cnt`, sets `ctrl[3:2]` and remaps (R193; the remap is R199). -/
def Obligations.ShiftResetWrite : Prop :=
  ∀ (s : State) (m : Mapper), s.LiveAs .shift m → m.cfg.legal = true →
    exec .shiftReset s = .next (s.reply
      (({ m with shift := { m.shift with sr := 0#5, cnt := 0#3, ctrl := m.shift.ctrl ||| 0x0C#5 } }).laidOut.showing
        (ctrlMirroring (m.shift.ctrl ||| 0x0C#5))) Output.quiet)

/-- `SHIFT.BIT`: each of the first four writes of a group shifts its bit in at the top and counts; the fifth loads
the register its own address names with the assembled value, clears `sr` and `cnt` and remaps (R194). -/
def Obligations.ShiftBitCollectsAndLoads : Prop :=
  ∀ (s : State) (m : Mapper) (target : BitVec 2) (bit : Bool), s.LiveAs .shift m →
    (m.shift.cnt.toNat < 4 →
      exec (.shiftBit target bit) s = .next (s.reply
        { m with shift := { m.shift with
          sr := BitVec.ofNat 5 (m.shift.sr.toNat / 2 + if bit then 16 else 0)
          cnt := BitVec.ofNat 3 (m.shift.cnt.toNat + 1) } } Output.quiet)) ∧
    (4 ≤ m.shift.cnt.toNat → m.cfg.legal = true →
      ∀ (value : BitVec 5) (q : ShiftRegs), value = BitVec.ofNat 5 (m.shift.sr.toNat / 2 + if bit then 16 else 0) →
        q = (match target.toNat with
          | 0 => { m.shift with sr := 0#5, cnt := 0#3, ctrl := value }
          | 1 => { m.shift with sr := 0#5, cnt := 0#3, chr0 := value }
          | 2 => { m.shift with sr := 0#5, cnt := 0#3, chr1 := value }
          | _ => { m.shift with sr := 0#5, cnt := 0#3, prg := value }) →
        exec (.shiftBit target bit) s =
          .next (s.reply (({ m with shift := q }).laidOut.showing (ctrlMirroring q.ctrl)) Output.quiet))

/-- The four loads write their register with all five bits, and nothing else (R195 to R198). That a load is the write
alone, with `sr`, `cnt` and the tables as they were, is the model's reading, assumption log 12. -/
def Obligations.ShiftLoadsWriteTheirRegister : Prop :=
  ∀ (s : State) (m : Mapper) (v : BitVec 5), s.LiveAs .shift m →
    exec (.shiftLdCtrl v) s = .next (s.reply { m with shift := { m.shift with ctrl := v } } Output.quiet) ∧
    exec (.shiftLdChr0 v) s = .next (s.reply { m with shift := { m.shift with chr0 := v } } Output.quiet) ∧
    exec (.shiftLdChr1 v) s = .next (s.reply { m with shift := { m.shift with chr1 := v } } Output.quiet) ∧
    exec (.shiftLdPrg v) s = .next (s.reply { m with shift := { m.shift with prg := v } } Output.quiet)

/-- `SHIFT.REMAP` recomputes CPU pages 32 to 63 and all PPU pages from the four registers, in every PRG, CHR and
mirroring mode (R199). -/
def Obligations.ShiftRemapFollowsTheRegisters : Prop :=
  ∀ (s : State) (m : Mapper) (p pm cm mm n4 : Nat), s.LiveAs .shift m → m.cfg.legal = true →
    p = m.shift.prg.toNat % 16 → mm = m.shift.ctrl.toNat % 4 → pm = m.shift.ctrl.toNat / 4 % 4 →
    cm = m.shift.ctrl.toNat / 16 → n4 = 2 * m.cfg.nChr8 →
    ∃ (ct : Vector Bank 64) (pt : Vector Bank 16),
      (∀ k : Fin 64, k.val < 32 → ct[k] = m.cputab[k]) ∧
      (∀ k, (h : k < 32) → ct[32 + k] = ⟨1024 *
        (if pm < 2 then 32 * (p / 2 &&& (m.cfg.nPrg16 / 2 - 1)) + k
         else if pm = 2 then (if k < 16 then k else 16 * (p &&& (m.cfg.nPrg16 - 1)) + (k - 16))
         else (if k < 16 then 16 * (p &&& (m.cfg.nPrg16 - 1)) + k else 16 * (m.cfg.nPrg16 - 1) + (k - 16))),
        true, true⟩) ∧
      (∀ k, (h : k < 8) → pt[k] = ⟨m.cfg.chrBase + 1024 *
        (if cm = 0 then 8 * (m.shift.chr0.toNat / 2 &&& (m.cfg.nChr8 - 1)) + k
         else if k < 4 then 4 * (m.shift.chr0.toNat &&& (n4 - 1)) + k
         else 4 * (m.shift.chr1.toNat &&& (n4 - 1)) + (k - 4)), m.cfg.chrReadOnly, true⟩) ∧
      (∀ k, (h : k < 8) → pt[8 + k] = ⟨m.cfg.ppuRamBase + 1024 *
        (if mm = 0 then 0 else if mm = 1 then 1 else if mm = 2 then k % 2 else k % 4 / 2), false, true⟩) ∧
      exec .shiftRemap s = .next (s.reply { m with cputab := ct, pputab := pt } Output.quiet)

/-- Five `SHIFT.BIT` writes from `cnt = 0`, at any addresses and with any default operations between them, ticks, reads,
writes and saves, complete: the fifth loads the register its address names with
`(v4<<4)|(v3<<3)|(v2<<2)|(v1<<1)|v0`, whatever the earlier addresses were, clears `sr` and `cnt`, and the tables are those
the new registers show; the store is as before unless a write stood between (R191, R194, R200). -/
def Obligations.FiveWritesLoadOneRegister : Prop :=
  ∀ (s : State) (m : Mapper) (a0 a1 a2 a3 a4 : BitVec 2) (v0 v1 v2 v3 v4 : Bool) (g1 g2 g3 g4 : List Instr)
    (value : BitVec 5) (q : ShiftRegs), s.LiveAs .shift m → m.cfg.legal = true → m.TablesInStore →
    m.shift.cnt = 0#3 → (∀ i ∈ g1 ++ g2 ++ g3 ++ g4, IsDefault i) →
    value = BitVec.ofNat 5 (16 * v4.toNat + 8 * v3.toNat + 4 * v2.toNat + 2 * v1.toNat + v0.toNat) →
    q = (match a4.toNat with
      | 0 => { m.shift with sr := 0#5, cnt := 0#3, ctrl := value }
      | 1 => { m.shift with sr := 0#5, cnt := 0#3, chr0 := value }
      | 2 => { m.shift with sr := 0#5, cnt := 0#3, chr1 := value }
      | _ => { m.shift with sr := 0#5, cnt := 0#3, prg := value }) →
    ∃ (t : State) (st : Memory),
      execAll ([.shiftBit a0 v0] ++ g1 ++ [.shiftBit a1 v1] ++ g2 ++ [.shiftBit a2 v2] ++ g3 ++ [.shiftBit a3 v3] ++ g4 ++
        [.shiftBit a4 v4]) s = .next t ∧
      t.inst = some (({ m with store := st, shift := q }).laidOut.showing (ctrlMirroring q.ctrl)) ∧
      ((∀ i ∈ g1 ++ g2 ++ g3 ++ g4, (∀ a v, i ≠ .wrcpu a v) ∧ ∀ a v, i ≠ .wrppu a v) → st = m.store)

/-! ### The scanline-IRQ variant -/

/-- `IRQ.BANKSEL` writes the target and both modes, `IRQ.BANKDATA` the register the target names; both remap
(R212, R213; the remap is R214 and R215). -/
def Obligations.IrqBankWrites : Prop :=
  ∀ (s : State) (m : Mapper) (v : Byte), s.LiveAs .irq m → m.cfg.legal = true →
    exec (.irqBanksel v) s = .next (s.reply
      ({ m with irq := { m.irq with
        bankSelect := BitVec.ofNat 3 (v.toNat % 8)
        prgMode := v.getLsbD 6
        chrMode := v.getLsbD 7 } }).laidOut Output.quiet) ∧
    ∃ bank : Vector Byte 8,
      (∀ k : Fin 8, bank[k] = if k.val = m.irq.bankSelect.toNat then v else m.irq.bank[k]) ∧
      exec (.irqBankdata v) s = .next (s.reply ({ m with irq := { m.irq with bank := bank } }).laidOut Output.quiet)

/-- `IRQ.REMAP` recomputes the four PRG windows and the CHR windows from the bank registers and the two modes; the
nametable pages and the RAM pages are untouched (R214, R215). -/
def Obligations.IrqRemapFollowsTheRegisters : Prop :=
  ∀ (s : State) (m : Mapper) (n8 nc r6 r7 : Nat) (c1 c2 : Nat → Nat), s.LiveAs .irq m → m.cfg.legal = true →
    n8 = 2 * m.cfg.nPrg16 → nc = 8 * m.cfg.nChr8 →
    r6 = m.irq.bank[6].toNat &&& (n8 - 1) → r7 = m.irq.bank[7].toNat &&& (n8 - 1) →
    (∀ i : Fin 8, c1 i.val = m.irq.bank[i].toNat &&& (nc - 1)) →
    (∀ i : Fin 8, c2 i.val = (m.irq.bank[i].toNat &&& 0xFE) &&& (nc - 1)) →
    ∃ (ct : Vector Bank 64) (pt : Vector Bank 16),
      (∀ k : Fin 64, k.val < 32 → ct[k] = m.cputab[k]) ∧
      (∀ k, (h : k < 8) →
        ct[32 + k] = ⟨1024 * (8 * (if m.irq.prgMode then n8 - 2 else r6) + k), true, true⟩ ∧
        ct[40 + k] = ⟨1024 * (8 * r7 + k), true, true⟩ ∧
        ct[48 + k] = ⟨1024 * (8 * (if m.irq.prgMode then r6 else n8 - 2) + k), true, true⟩ ∧
        ct[56 + k] = ⟨1024 * (8 * (n8 - 1) + k), true, true⟩) ∧
      (∀ k, (h : k < 8) → pt[k] = ⟨m.cfg.chrBase + 1024 *
        (match (if m.irq.chrMode then (k + 4) % 8 else k) with
          | 0 => c2 0
          | 1 => c2 0 + 1
          | 2 => c2 1
          | 3 => c2 1 + 1
          | 4 => c1 2
          | 5 => c1 3
          | 6 => c1 4
          | _ => c1 5), m.cfg.chrReadOnly, true⟩) ∧
      (∀ k : Fin 16, 8 ≤ k.val → pt[k] = m.pputab[k]) ∧
      exec .irqRemap s = .next (s.reply { m with cputab := ct, pputab := pt } Output.quiet)

/-- The mirroring writes of the two variants that have one: bit 0 selects horizontal or vertical; on a four-screen
cartridge nothing happens (R216, R248). -/
def Obligations.MirroringWrites : Prop :=
  ∀ (s : State) (m : Mapper) (h : Bool), m.cfg.legal = true →
    (s.LiveAs .irq m → exec (.irqMirror h) s = .next (s.reply
      (if m.cfg.mirroring0 = .fourScreen then m else m.showing (if h then .horizontal else .vertical))
      Output.quiet)) ∧
    (s.LiveAs .latch m → exec (.latchMirror h) s = .next (s.reply
      (if m.cfg.mirroring0 = .fourScreen then m else m.showing (if h then .horizontal else .vertical))
      Output.quiet))

/-- The interrupt registers' writes: each changes exactly what its rule names, and none raises; the RAM-protect
write changes nothing (R217, R219 to R222). -/
def Obligations.IrqControlWrites : Prop :=
  ∀ (s : State) (m : Mapper) (v : Byte), s.LiveAs .irq m →
    exec .irqRamprot s = .next (s.reply m Output.quiet) ∧
    exec (.irqReloadval v) s = .next (s.reply { m with irq := { m.irq with reload := v } } Output.quiet) ∧
    exec .irqReload s =
      .next (s.reply { m with irq := { m.irq with counter := 0#8, reloadPending := true } } Output.quiet) ∧
    exec .irqDisable s = .next (s.reply { m with irq := { m.irq with enable := false } } Output.quiet) ∧
    exec .irqEnable s = .next (s.reply { m with irq := { m.irq with enable := true } } Output.quiet)

/-- `IRQ.CLOCK` reloads when a reload is pending or the counter is 0, decrements otherwise, and raises exactly on
the step from 1 to 0 with the enable flag set (R226). -/
def Obligations.IrqClockStep : Prop :=
  ∀ (s : State) (m : Mapper), s.LiveAs .irq m → ∃ (q : IrqRegs) (raised : Bool), m.irq.Clocks q raised ∧
    exec .irqClock s = .next (s.reply { m with irq := q } ⟨none, raised, none, none⟩)

/-- `IRQ.OBSERVE` is the detector: a low observation starts a low period, a high one ends it and clocks the counter
when the period lasted `irq_low_min` ticks; `IRQ.TICK` counts the ticks of a low period, saturating there (R224,
R227). -/
def Obligations.IrqDetector : Prop :=
  ∀ (s : State) (m : Mapper), s.LiveAs .irq m →
    (∀ h : Bool, ∃ (q : IrqRegs) (raised : Bool), m.irq.Observes m.cfg.irqLowMin h q raised ∧
      exec (.irqObserve h) s = .next (s.reply { m with irq := q } ⟨none, raised, none, none⟩)) ∧
    (m.irq.a12Low = true → m.irq.lowTicks.toNat < m.cfg.irqLowMin.toNat → exec .irqTick s = .next (s.reply
      { m with irq := { m.irq with lowTicks := BitVec.ofNat 8 (m.irq.lowTicks.toNat + 1) } } Output.quiet)) ∧
    (m.irq.a12Low = false ∨ m.cfg.irqLowMin.toNat ≤ m.irq.lowTicks.toNat →
      exec .irqTick s = .next (s.reply m Output.quiet))

/-- `IRQ.RDPPU` observes address bit 12, then reads as by default; the interrupt output is the observation's
(R223). -/
def Obligations.IrqReadObservesAndReads : Prop :=
  ∀ (s : State) (m : Mapper) (a : PpuAddr), s.LiveAs .irq m → m.holds (m.ppuPageAt a) →
    ∃ (q : IrqRegs) (raised : Bool), m.irq.Observes m.cfg.irqLowMin (a.getLsbD 12) q raised ∧
      exec (.irqRdppu a) s = .next { s with
        inst := some { m with irq := q }
        out := ⟨some (m.pageByte (m.ppuPageAt a) (a.toNat % 1024) s.draws), raised, none, none⟩
        draws := drawsAfter (m.ppuPageAt a) s.draws }

/-- `IRQ.WRPPU` observes address bit 12, then writes as by default (R228). -/
def Obligations.IrqWriteObservesAndWrites : Prop :=
  ∀ (s : State) (m : Mapper) (a : PpuAddr) (v : Byte), s.LiveAs .irq m → Memory.wf m.store = true →
    m.holds (m.ppuPageAt a) →
    ∃ (q : IrqRegs) (raised : Bool) (st : Memory), m.irq.Observes m.cfg.irqLowMin (a.getLsbD 12) q raised ∧
      m.StoreAfter (m.ppuPageAt a) (a.toNat % 1024) v st ∧
      exec (.irqWrppu a v) s = .next (s.reply { m with irq := q, store := st } ⟨none, raised, none, none⟩)

/-- After a forced reload with reload value `N`, the counter after `n` clocks is `N - (n - 1) mod (N + 1)`, and
clock `n` raises exactly when it is a multiple of `N + 1`, `N` is not 0 and the flag is enabled: once per `N + 1`
transitions, never with `N = 0`, never while disabled (R229, R230). -/
def Obligations.IrqPeriodIsReloadPlusOne : Prop :=
  ∀ (s : State) (m : Mapper) (n : Nat), s.LiveAs .irq m → 1 ≤ n →
    ∃ (t : State) (m' : Mapper), execAll (.irqReload :: List.replicate n .irqClock) s = .next t ∧
      t.inst = some m' ∧ m'.irq.counter.toNat = m.irq.reload.toNat - (n - 1) % (m.irq.reload.toNat + 1) ∧
      t.out.irq = (m.irq.enable && decide (1 ≤ m.irq.reload.toNat) && decide (n % (m.irq.reload.toNat + 1) = 0))

/-- The only interrupt source is the step of the counter from 1 to 0, inside a PPU access of an `IRQ` block with
address bit 12 set that ends a low period of at least `irq_low_min` ticks (R291). -/
def Obligations.OnlyTheCounterStepRaises : Prop :=
  ∀ (s t : State), s.port ≠ [] → step s = .next t → t.out.irq = true →
    ∃ (m : Mapper) (x : Txn) (rest : List Txn) (a : PpuAddr), s.inst = some m ∧ s.port = x :: rest ∧
      m.cfg.variant = .irq ∧
      (decode .irq x = .ok (.irqRdppu a) ∨ ∃ v, decode .irq x = .ok (.irqWrppu a v)) ∧
      a.getLsbD 12 = true ∧ m.irq.a12Low = true ∧ m.cfg.irqLowMin.toNat ≤ m.irq.lowTicks.toNat ∧
      m.irq.reloadPending = false ∧ m.irq.counter = 1#8 ∧ m.irq.enable = true

/-! ### The latch variant -/

/-- The five select writes of the latch variant mask the byte, write their register and remap (R242 to R245,
R247). -/
def Obligations.LatchSelectWrites : Prop :=
  ∀ (s : State) (m : Mapper) (v : Byte), s.LiveAs .latch m → m.cfg.legal = true → m.regsLegal = true →
    exec (.latchPrg v) s = .next (s.reply
      ({ m with latch := { m.latch with
        prgSel := BitVec.ofNat 8 (v.toNat &&& (m.cfg.banksPrg / m.cfg.split - 1)) } }).laidOut Output.quiet) ∧
    ∀ (k : Fin 4) (sel : Vector Byte 4),
      (∀ j : Fin 4, sel[j] = if j = k then BitVec.ofNat 8 (v.toNat &&& (m.cfg.banksChr / 4 - 1))
        else m.latch.selected[j]) →
      exec (match k with
        | 0 => .latchChr0 v
        | 1 => .latchChr1 v
        | 2 => .latchChr2 v
        | 3 => .latchChr3 v) s =
        .next (s.reply ({ m with latch := { m.latch with selected := sel } }).laidOut Output.quiet)

/-- `LATCH.REMAP` lays out the switchable window, the fixed rest of PRG and the two CHR halves
`selected_banks[2*h + (if latch[h] then 0 else 1)]`; the nametable pages are untouched (R246). -/
def Obligations.LatchRemapFollowsTheRegisters : Prop :=
  ∀ (s : State) (m : Mapper), s.LiveAs .latch m → m.cfg.legal = true → m.regsLegal = true →
    ∃ (ct : Vector Bank 64) (pt : Vector Bank 16),
      (∀ k : Fin 64, k.val < 32 → ct[k] = m.cputab[k]) ∧
      (∀ k, (h : k < 32) → ct[32 + k] = ⟨1024 * (if k < m.cfg.split then m.cfg.split * m.latch.prgSel.toNat + k
        else m.cfg.banksPrg - (32 - m.cfg.split) + (k - m.cfg.split)), true, true⟩) ∧
      (∀ k, (h : k < 4) →
        pt[k] = ⟨m.cfg.chrBase + 1024 *
          (4 * (if m.latch.latch[0] then m.latch.selected[0] else m.latch.selected[1]).toNat + k),
          m.cfg.chrReadOnly, true⟩ ∧
        pt[4 + k] = ⟨m.cfg.chrBase + 1024 *
          (4 * (if m.latch.latch[1] then m.latch.selected[2] else m.latch.selected[3]).toNat + k),
          m.cfg.chrReadOnly, true⟩) ∧
      (∀ k : Fin 16, 8 ≤ k.val → pt[k] = m.pputab[k]) ∧
      exec .latchRemap s = .next (s.reply { m with cputab := ct, pputab := pt } Output.quiet)

/-- A read of the latch variant returns the byte of the mapping it starts with; in a trigger window it then clears
or sets that half's latch and remaps, elsewhere it does nothing more (R249, R251). That each of the four trigger
operations is the whole read at its window, byte and all, where R111 calls it a sub-operation of `LATCH.RDPPU`, is the
model's reading, assumption log 13. -/
def Obligations.LatchReadFetchesThenTriggers : Prop :=
  ∀ (s : State) (m : Mapper) (a : PpuAddr), s.LiveAs .latch m → m.cfg.legal = true → m.regsLegal = true →
    m.holds (m.ppuPageAt a) →
    let after (m' : Mapper) : Host.Outcome State Fault Refusal :=
      .next { s with
        inst := some m'
        out := ⟨some (m.pageByte (m.ppuPageAt a) (a.toNat % 1024) s.draws), false, none, none⟩
        draws := drawsAfter (m.ppuPageAt a) s.draws }
    let flip (k : Fin 2) (x : Bool) : Mapper :=
      ({ m with latch := { m.latch with latch := m.latch.latch.set k.val x k.isLt } }).laidOut
    (a.toNat / 8 = 0x0FD8 / 8 → exec (.latchRdppu a) s = after (flip 0 false) ∧
      exec (.latchTrig0Clr (BitVec.ofNat 3 (a.toNat % 8))) s = after (flip 0 false)) ∧
    (a.toNat / 8 = 0x0FE8 / 8 → exec (.latchRdppu a) s = after (flip 0 true) ∧
      exec (.latchTrig0Set (BitVec.ofNat 3 (a.toNat % 8))) s = after (flip 0 true)) ∧
    (a.toNat / 8 = 0x1FD8 / 8 → exec (.latchRdppu a) s = after (flip 1 false) ∧
      exec (.latchTrig1Clr (BitVec.ofNat 3 (a.toNat % 8))) s = after (flip 1 false)) ∧
    (a.toNat / 8 = 0x1FE8 / 8 → exec (.latchRdppu a) s = after (flip 1 true) ∧
      exec (.latchTrig1Set (BitVec.ofNat 3 (a.toNat % 8))) s = after (flip 1 true)) ∧
    (a.toNat / 8 ≠ 0x0FD8 / 8 → a.toNat / 8 ≠ 0x0FE8 / 8 → a.toNat / 8 ≠ 0x1FD8 / 8 → a.toNat / 8 ≠ 0x1FE8 / 8 →
      exec (.latchRdppu a) s = after m)

/-- The source's property: a read at 0x0FD8 and then one at 0x0005 returns byte 5 of 4 KiB bank
`selected_banks[1]`, after 0x0FE8 of `selected_banks[0]`, whatever the latch held; the same for the second half with
indices 3 and 2 (R250). -/
def Obligations.LatchTriggerChoosesTheBank : Prop :=
  ∀ (s : State) (m : Mapper), s.inst = some m → m.Inv → m.cfg.variant = .latch →
    ∀ (first second : PpuAddr) (k : Fin 4),
      (first = 0x0FD8#14 ∧ second = 0x0005#14 ∧ k = 1) ∨ (first = 0x0FE8#14 ∧ second = 0x0005#14 ∧ k = 0) ∨
      (first = 0x1FD8#14 ∧ second = 0x1005#14 ∧ k = 3) ∨ (first = 0x1FE8#14 ∧ second = 0x1005#14 ∧ k = 2) →
      ∃ t, execAll [.latchRdppu first, .latchRdppu second] s = .next t ∧
        t.out.data = some (Memory.read m.store (m.cfg.chrBase + 4096 * m.latch.selected[k].toNat + 5))

/-! ### Save and restore -/

/-- `SAVE` returns, and changes nothing but the output: a buffer of `SAVESIZE` bytes that holds the 64 and the 16
descriptors of ten bytes, writable CHR, CPU RAM, PPU RAM and the variant's registers in declared order (R262 to
R265). -/
def Obligations.SaveLaysOutTheBuffer : Prop :=
  ∀ (s : State) (m : Mapper), s.Live m → ∃ buf : List Byte,
    exec .save s = .next { s with out := ⟨none, false, some buf, none⟩ } ∧
    buf.length = 800 + (if m.cfg.chrReadOnly then 0 else m.cfg.sizeChr) + m.cfg.sizeCpuRam + m.cfg.sizePpuRam +
      (match m.cfg.variant with
        | .nrom => 0
        | .uxrom | .cnrom | .axrom => 1
        | .gxrom | .unrom512 => 2
        | .shift => 6
        | .irq => 17
        | .latch => 7) ∧
    (∀ p : Fin 64,
      (∀ k, k < 8 → buf[10 * p.val + k]? = some (BitVec.ofNat 8 (m.cputab[p].off / 256 ^ k))) ∧
      buf[10 * p.val + 8]? = some (if m.cputab[p].ro then 1#8 else 0#8) ∧
      buf[10 * p.val + 9]? = some (if m.cputab[p].mapped then 1#8 else 0#8)) ∧
    (∀ p : Fin 16,
      (∀ k, k < 8 → buf[640 + 10 * p.val + k]? = some (BitVec.ofNat 8 (m.pputab[p].off / 256 ^ k))) ∧
      buf[640 + 10 * p.val + 8]? = some (if m.pputab[p].ro then 1#8 else 0#8) ∧
      buf[640 + 10 * p.val + 9]? = some (if m.pputab[p].mapped then 1#8 else 0#8)) ∧
    ∀ chr, chr = (if m.cfg.chrReadOnly then 0 else m.cfg.sizeChr) →
      (∀ i, i < chr → buf[800 + i]? = some (Memory.read m.store (m.cfg.chrBase + i))) ∧
      (∀ i, i < m.cfg.sizeCpuRam → buf[800 + chr + i]? = some (Memory.read m.store (m.cfg.cpuRamBase + i))) ∧
      (∀ i, i < m.cfg.sizePpuRam →
        buf[800 + chr + m.cfg.sizeCpuRam + i]? = some (Memory.read m.store (m.cfg.ppuRamBase + i))) ∧
      buf.drop (800 + chr + m.cfg.sizeCpuRam + m.cfg.sizePpuRam) =
        (match m.cfg.variant with
          | .nrom => []
          | .uxrom | .axrom => [m.direct.selPrg]
          | .cnrom => [m.direct.selChr]
          | .gxrom | .unrom512 => [m.direct.selPrg, m.direct.selChr]
          | .shift =>
            [m.shift.sr.setWidth 8, m.shift.cnt.setWidth 8, m.shift.ctrl.setWidth 8, m.shift.chr0.setWidth 8,
             m.shift.chr1.setWidth 8, m.shift.prg.setWidth 8]
          | .irq =>
            m.irq.bank.toList ++
            [m.irq.bankSelect.setWidth 8, (if m.irq.prgMode then 1#8 else 0#8), (if m.irq.chrMode then 1#8 else 0#8),
             m.irq.counter, m.irq.reload, (if m.irq.enable then 1#8 else 0#8),
             (if m.irq.reloadPending then 1#8 else 0#8), (if m.irq.a12Low then 1#8 else 0#8), m.irq.lowTicks]
          | .latch =>
            [m.latch.prgSel, m.latch.selected[0], m.latch.selected[1], m.latch.selected[2], m.latch.selected[3],
             (if m.latch.latch[0] then 1#8 else 0#8), (if m.latch.latch[1] then 1#8 else 0#8)])

/-- `RESTORE` of a buffer whose length is not `SAVESIZE` reports both lengths and leaves the block as it was
(R285). -/
def Obligations.RestoreOfWrongSizeChangesNothing : Prop :=
  ∀ (s : State) (m : Mapper) (buf : List Byte), s.Live m → buf.length ≠ saveSize m.cfg →
    exec (.restore buf) s =
      .next { s with out := ⟨none, false, none, some (.restoreSize buf.length (saveSize m.cfg))⟩ }

/-- The round trip: the buffer of a block that meets the invariant, restored into any block with the same
configuration that meets it, completes and gives back the saved block, equal in every component; and that buffer is what
`SAVE` returns (R267). The bound on `LEN` is what 64-bit offsets can say, assumption log 17. -/
def Obligations.RestoreOfSaveIsIdentity : Prop :=
  ∀ (s : State) (m0 m : Mapper), s.inst = some m → m.Inv → m0.Inv → m.cfg = m0.cfg → m.cfg.storeLen ≤ 2 ^ 64 →
    exec (.restore (saveBuffer m0)) s = .next (s.reply m0 Output.quiet) ∧
    ∀ (s0 t0 : State) (buf : List Byte), s0.inst = some m0 → exec .save s0 = .next t0 → t0.out.buffer = some buf →
      exec (.restore buf) s = .next (s.reply m0 Output.quiet)

/-- A buffer of the right size is accepted only when the block it gives is one that transactions reach from the
`POWERON` of its configuration and saves as that same buffer, with a store that differs only in the saved regions; any
other is refused (R266, R268; that `Mapper.coherent` says which blocks are reached is the model's reading, assumption
log 4). A block that met the invariant meets it after. -/
def Obligations.RestoreAcceptsOnlyWhatSavesBack : Prop :=
  ∀ (s : State) (m : Mapper) (buf : List Byte), s.Live m → buf.length = saveSize m.cfg →
    exec (.restore buf) s = .refused .foreignBuffer ∨
    ∃ (m' : Mapper) (t : State), exec (.restore buf) s = .next (s.reply m' Output.quiet) ∧
      m'.cfg = m.cfg ∧ m'.faulted = false ∧ m'.coherent = true ∧ (m.Inv → m'.Inv) ∧
      (∀ i, i < m.cfg.sizePrg → Memory.read m'.store i = Memory.read m.store i) ∧
      (m.cfg.chrReadOnly = true → ∀ i, i < m.cfg.sizePrg + m.cfg.sizeChr →
        Memory.read m'.store i = Memory.read m.store i) ∧
      exec .save (s.reply m' Output.quiet) = .next t ∧ t.out.buffer = some buf

/-! ### Invariants and whole-machine rules -/

/-- The reset state meets the invariant (the launch configuration is the model's choice, assumption log 2). -/
def Obligations.ResetMeetsTheInvariant : Prop := State.reset.Inv

/-- Every step keeps the invariant: the configuration meets R10, the fault mark is clear, the registers hold
masked values and the tables are the ones they select, every byte no bus write can have reached is as at `POWERON`,
the store is in canonical form inside `LEN`, PRG and CHR ROM hold their payloads. -/
def Obligations.StepKeepsTheInvariant : Prop := ∀ s t : State, s.Inv → step s = .next t → t.Inv

/-- What the invariant says of the tables: every mapped descriptor lies inside the store, on a 1 KiB boundary (the
region bases are multiples of 1024); the CPU pages are system
RAM and its copies, unmapped, work RAM, PRG read-only; the PPU pages are CHR, the nametables of one mirroring mode
and their copies (R35, R71, R72). -/
def Obligations.InvariantGivesThePageMap : Prop :=
  ∀ m : Mapper, m.Inv →
    (∀ p : Fin 64, m.cputab[p].mapped = true →
      m.cputab[p].off + 1024 ≤ m.cfg.storeLen ∧ m.cputab[p].off % 1024 = 0) ∧
    (∀ p : Fin 16, m.pputab[p].mapped = true →
      m.pputab[p].off + 1024 ≤ m.cfg.storeLen ∧ m.pputab[p].off % 1024 = 0) ∧
    (∀ p : Fin 64, p.val < 8 → m.cputab[p] = if 2 ≤ m.cfg.banksCpuRam
      then ⟨m.cfg.cpuRamBase + 1024 * (p.val % 2), false, true⟩ else ⟨0, false, false⟩) ∧
    (∀ p : Fin 64, 8 ≤ p.val → p.val < 24 → m.cputab[p].mapped = false) ∧
    (∀ p : Fin 64, 24 ≤ p.val → p.val < 32 → m.cputab[p] = if 10 ≤ m.cfg.banksCpuRam
      then ⟨m.cfg.cpuRamBase + 1024 * (2 + (p.val - 24)), false, true⟩ else ⟨0, false, false⟩) ∧
    (∀ p : Fin 64, 32 ≤ p.val → m.cputab[p].mapped = true ∧ m.cputab[p].ro = true ∧
      m.cputab[p].off + 1024 ≤ m.cfg.sizePrg) ∧
    (∀ p : Fin 16, p.val < 8 → m.pputab[p].mapped = true ∧ m.pputab[p].ro = m.cfg.chrReadOnly ∧
      m.cfg.chrBase ≤ m.pputab[p].off ∧ m.pputab[p].off + 1024 ≤ m.cfg.cpuRamBase) ∧
    (∃ mode : Mirroring, ∀ p : Fin 16, 8 ≤ p.val → m.pputab[p] = ⟨m.cfg.ppuRamBase + 1024 *
      (match mode with
        | .horizontal => p.val % 4 / 2
        | .vertical => p.val % 2
        | .oneScreenLow => 0
        | .oneScreenHigh => 1
        | .fourScreen => p.val % 4), false, true⟩)

/-- From the invariant every transaction completes or is one of two refusals: whatever word and operands come, the step
answers a next state without a `ContractViolation`, `POWERON` can report a `ConfigError` and `RESTORE` a
`RestoreSizeMismatch`, and no other operation an error; only a word with a wide PPU address (R103) and a right-sized foreign buffer (R268, assumption log 4)
are refused (R286; the second refusal rests on the model's reading of which buffers are foreign). -/
def Obligations.EveryTransactionCompletesOrIsRefused : Prop :=
  ∀ (s : State) (m : Mapper) (x : Txn) (rest : List Txn), s.inst = some m → m.Inv → s.port = x :: rest →
    (∃ t, step s = .next t ∧ (∀ kind, t.out.error ≠ some (.contract kind)) ∧
      (∀ e, t.out.error = some e → (wordKind x.word = 5#3 ∧ ∃ c, e = .config c) ∨
        (wordKind x.word = 7#3 ∧ ∃ got want, e = .restoreSize got want))) ∨
    ((wordKind x.word = 3#3 ∨ wordKind x.word = 4#3) ∧ (wordAddr x.word).extractLsb' 14 2 ≠ 0#2 ∧
      step s = .refused (.ppuAddressTooWide (wordAddr x.word))) ∨
    (wordKind x.word = 7#3 ∧ x.buf.length = saveSize m.cfg ∧ step s = .refused .foreignBuffer)

/-- No operation but `POWERON` changes the configuration, and no operation touches the registers of a variant that
is not the block's own (R6, R25); the transactions still waiting are never touched, and the draw counter counts at
most one draw per operation. That the registers a block does not have stand in the state at all is the model's choice,
assumption log 9; the waiting transactions and the draw counter are fields of its own, assumption logs 10 and 1. -/
def Obligations.ForeignRegistersAndConfigurationAreFixed : Prop :=
  ∀ (s t : State) (m : Mapper) (i : Instr), s.inst = some m → (∀ c, i ≠ .poweron c) → exec i s = .next t →
    t.port = s.port ∧ (t.draws = s.draws ∨ t.draws = s.draws + 1) ∧
    ∃ m' : Mapper, t.inst = some m' ∧ m'.cfg = m.cfg ∧
      (m.cfg.variant ≠ .shift → m'.shift = m.shift) ∧ (m.cfg.variant ≠ .irq → m'.irq = m.irq) ∧
      (m.cfg.variant ≠ .latch → m'.latch = m.latch) ∧
      (m.cfg.variant = .nrom ∨ m.cfg.variant = .shift ∨ m.cfg.variant = .irq ∨ m.cfg.variant = .latch →
        m'.direct = m.direct)

/-- The access summary: only PPU and CPU bus writes, `RESTORE` and `POWERON` change the store; `TICK`, `SAVE`, the
default accesses, the `IRQ` accesses and the interrupt register writes change no table (R37). -/
def Obligations.OnlyTheListedOperationsWriteStoreAndTables : Prop :=
  ∀ (s t : State) (m : Mapper) (i : Instr), s.inst = some m → (∀ c, i ≠ .poweron c) → (∀ buf, i ≠ .restore buf) →
    exec i s = .next t → ∃ m' : Mapper, t.inst = some m' ∧
      ((∀ a v, i ≠ .wrcpu a v) → (∀ a v, i ≠ .wrppu a v) → (∀ a v, i ≠ .irqWrppu a v) → m'.store = m.store) ∧
      ((i = .tick ∨ i = .irqTick ∨ i = .save ∨ (∃ a, i = .rdcpu a) ∨ (∃ a v, i = .wrcpu a v) ∨ (∃ a, i = .rdppu a) ∨
        (∃ a v, i = .wrppu a v) ∨ (∃ a, i = .irqRdppu a) ∨ (∃ a v, i = .irqWrppu a v) ∨ i = .irqRamprot ∨
        (∃ v, i = .irqReloadval v) ∨ i = .irqReload ∨ i = .irqDisable ∨ i = .irqEnable ∨ i = .irqClock ∨
        (∃ h, i = .irqObserve h)) → m'.cputab = m.cputab ∧ m'.pputab = m.pputab)

end
end

