-- ==== Sys2Proof/Laws/State.lean ====
section
/-! SUPPORT. One lemma per field per update of the block and of the machine, and what the outcome
combinators do (withBlock, withVariant, finish). -/

namespace Sys2Proof.Machine

/-! ### The block -/

@[simp] theorem Mapper.setStore_cfg (m : Mapper) (x : Memory) : (m.setStore x).cfg = m.cfg := rfl
@[simp] theorem Mapper.setStore_store (m : Mapper) (x : Memory) : (m.setStore x).store = x := rfl
@[simp] theorem Mapper.setStore_cputab (m : Mapper) (x : Memory) : (m.setStore x).cputab = m.cputab := rfl
@[simp] theorem Mapper.setStore_pputab (m : Mapper) (x : Memory) : (m.setStore x).pputab = m.pputab := rfl
@[simp] theorem Mapper.setStore_direct (m : Mapper) (x : Memory) : (m.setStore x).direct = m.direct := rfl
@[simp] theorem Mapper.setStore_shift (m : Mapper) (x : Memory) : (m.setStore x).shift = m.shift := rfl
@[simp] theorem Mapper.setStore_irq (m : Mapper) (x : Memory) : (m.setStore x).irq = m.irq := rfl
@[simp] theorem Mapper.setStore_latch (m : Mapper) (x : Memory) : (m.setStore x).latch = m.latch := rfl
@[simp] theorem Mapper.setStore_faulted (m : Mapper) (x : Memory) : (m.setStore x).faulted = m.faulted := rfl

@[simp] theorem Mapper.setCputab_cfg (m : Mapper) (x : Vector Bank 64) : (m.setCputab x).cfg = m.cfg := rfl
@[simp] theorem Mapper.setCputab_store (m : Mapper) (x : Vector Bank 64) : (m.setCputab x).store = m.store := rfl
@[simp] theorem Mapper.setCputab_cputab (m : Mapper) (x : Vector Bank 64) : (m.setCputab x).cputab = x := rfl
@[simp] theorem Mapper.setCputab_pputab (m : Mapper) (x : Vector Bank 64) : (m.setCputab x).pputab = m.pputab := rfl
@[simp] theorem Mapper.setCputab_direct (m : Mapper) (x : Vector Bank 64) : (m.setCputab x).direct = m.direct := rfl
@[simp] theorem Mapper.setCputab_shift (m : Mapper) (x : Vector Bank 64) : (m.setCputab x).shift = m.shift := rfl
@[simp] theorem Mapper.setCputab_irq (m : Mapper) (x : Vector Bank 64) : (m.setCputab x).irq = m.irq := rfl
@[simp] theorem Mapper.setCputab_latch (m : Mapper) (x : Vector Bank 64) : (m.setCputab x).latch = m.latch := rfl
@[simp] theorem Mapper.setCputab_faulted (m : Mapper) (x : Vector Bank 64) : (m.setCputab x).faulted = m.faulted := rfl

@[simp] theorem Mapper.setPputab_cfg (m : Mapper) (x : Vector Bank 16) : (m.setPputab x).cfg = m.cfg := rfl
@[simp] theorem Mapper.setPputab_store (m : Mapper) (x : Vector Bank 16) : (m.setPputab x).store = m.store := rfl
@[simp] theorem Mapper.setPputab_cputab (m : Mapper) (x : Vector Bank 16) : (m.setPputab x).cputab = m.cputab := rfl
@[simp] theorem Mapper.setPputab_pputab (m : Mapper) (x : Vector Bank 16) : (m.setPputab x).pputab = x := rfl
@[simp] theorem Mapper.setPputab_direct (m : Mapper) (x : Vector Bank 16) : (m.setPputab x).direct = m.direct := rfl
@[simp] theorem Mapper.setPputab_shift (m : Mapper) (x : Vector Bank 16) : (m.setPputab x).shift = m.shift := rfl
@[simp] theorem Mapper.setPputab_irq (m : Mapper) (x : Vector Bank 16) : (m.setPputab x).irq = m.irq := rfl
@[simp] theorem Mapper.setPputab_latch (m : Mapper) (x : Vector Bank 16) : (m.setPputab x).latch = m.latch := rfl
@[simp] theorem Mapper.setPputab_faulted (m : Mapper) (x : Vector Bank 16) : (m.setPputab x).faulted = m.faulted := rfl

@[simp] theorem Mapper.setDirect_cfg (m : Mapper) (x : DirectRegs) : (m.setDirect x).cfg = m.cfg := rfl
@[simp] theorem Mapper.setDirect_store (m : Mapper) (x : DirectRegs) : (m.setDirect x).store = m.store := rfl
@[simp] theorem Mapper.setDirect_cputab (m : Mapper) (x : DirectRegs) : (m.setDirect x).cputab = m.cputab := rfl
@[simp] theorem Mapper.setDirect_pputab (m : Mapper) (x : DirectRegs) : (m.setDirect x).pputab = m.pputab := rfl
@[simp] theorem Mapper.setDirect_direct (m : Mapper) (x : DirectRegs) : (m.setDirect x).direct = x := rfl
@[simp] theorem Mapper.setDirect_shift (m : Mapper) (x : DirectRegs) : (m.setDirect x).shift = m.shift := rfl
@[simp] theorem Mapper.setDirect_irq (m : Mapper) (x : DirectRegs) : (m.setDirect x).irq = m.irq := rfl
@[simp] theorem Mapper.setDirect_latch (m : Mapper) (x : DirectRegs) : (m.setDirect x).latch = m.latch := rfl
@[simp] theorem Mapper.setDirect_faulted (m : Mapper) (x : DirectRegs) : (m.setDirect x).faulted = m.faulted := rfl

@[simp] theorem Mapper.setShift_cfg (m : Mapper) (x : ShiftRegs) : (m.setShift x).cfg = m.cfg := rfl
@[simp] theorem Mapper.setShift_store (m : Mapper) (x : ShiftRegs) : (m.setShift x).store = m.store := rfl
@[simp] theorem Mapper.setShift_cputab (m : Mapper) (x : ShiftRegs) : (m.setShift x).cputab = m.cputab := rfl
@[simp] theorem Mapper.setShift_pputab (m : Mapper) (x : ShiftRegs) : (m.setShift x).pputab = m.pputab := rfl
@[simp] theorem Mapper.setShift_direct (m : Mapper) (x : ShiftRegs) : (m.setShift x).direct = m.direct := rfl
@[simp] theorem Mapper.setShift_shift (m : Mapper) (x : ShiftRegs) : (m.setShift x).shift = x := rfl
@[simp] theorem Mapper.setShift_irq (m : Mapper) (x : ShiftRegs) : (m.setShift x).irq = m.irq := rfl
@[simp] theorem Mapper.setShift_latch (m : Mapper) (x : ShiftRegs) : (m.setShift x).latch = m.latch := rfl
@[simp] theorem Mapper.setShift_faulted (m : Mapper) (x : ShiftRegs) : (m.setShift x).faulted = m.faulted := rfl

@[simp] theorem Mapper.setIrq_cfg (m : Mapper) (x : IrqRegs) : (m.setIrq x).cfg = m.cfg := rfl
@[simp] theorem Mapper.setIrq_store (m : Mapper) (x : IrqRegs) : (m.setIrq x).store = m.store := rfl
@[simp] theorem Mapper.setIrq_cputab (m : Mapper) (x : IrqRegs) : (m.setIrq x).cputab = m.cputab := rfl
@[simp] theorem Mapper.setIrq_pputab (m : Mapper) (x : IrqRegs) : (m.setIrq x).pputab = m.pputab := rfl
@[simp] theorem Mapper.setIrq_direct (m : Mapper) (x : IrqRegs) : (m.setIrq x).direct = m.direct := rfl
@[simp] theorem Mapper.setIrq_shift (m : Mapper) (x : IrqRegs) : (m.setIrq x).shift = m.shift := rfl
@[simp] theorem Mapper.setIrq_irq (m : Mapper) (x : IrqRegs) : (m.setIrq x).irq = x := rfl
@[simp] theorem Mapper.setIrq_latch (m : Mapper) (x : IrqRegs) : (m.setIrq x).latch = m.latch := rfl
@[simp] theorem Mapper.setIrq_faulted (m : Mapper) (x : IrqRegs) : (m.setIrq x).faulted = m.faulted := rfl

@[simp] theorem Mapper.setLatch_cfg (m : Mapper) (x : LatchRegs) : (m.setLatch x).cfg = m.cfg := rfl
@[simp] theorem Mapper.setLatch_store (m : Mapper) (x : LatchRegs) : (m.setLatch x).store = m.store := rfl
@[simp] theorem Mapper.setLatch_cputab (m : Mapper) (x : LatchRegs) : (m.setLatch x).cputab = m.cputab := rfl
@[simp] theorem Mapper.setLatch_pputab (m : Mapper) (x : LatchRegs) : (m.setLatch x).pputab = m.pputab := rfl
@[simp] theorem Mapper.setLatch_direct (m : Mapper) (x : LatchRegs) : (m.setLatch x).direct = m.direct := rfl
@[simp] theorem Mapper.setLatch_shift (m : Mapper) (x : LatchRegs) : (m.setLatch x).shift = m.shift := rfl
@[simp] theorem Mapper.setLatch_irq (m : Mapper) (x : LatchRegs) : (m.setLatch x).irq = m.irq := rfl
@[simp] theorem Mapper.setLatch_latch (m : Mapper) (x : LatchRegs) : (m.setLatch x).latch = x := rfl
@[simp] theorem Mapper.setLatch_faulted (m : Mapper) (x : LatchRegs) : (m.setLatch x).faulted = m.faulted := rfl

@[simp] theorem Mapper.setFaulted_cfg (m : Mapper) (x : Bool) : (m.setFaulted x).cfg = m.cfg := rfl
@[simp] theorem Mapper.setFaulted_store (m : Mapper) (x : Bool) : (m.setFaulted x).store = m.store := rfl
@[simp] theorem Mapper.setFaulted_cputab (m : Mapper) (x : Bool) : (m.setFaulted x).cputab = m.cputab := rfl
@[simp] theorem Mapper.setFaulted_pputab (m : Mapper) (x : Bool) : (m.setFaulted x).pputab = m.pputab := rfl
@[simp] theorem Mapper.setFaulted_direct (m : Mapper) (x : Bool) : (m.setFaulted x).direct = m.direct := rfl
@[simp] theorem Mapper.setFaulted_shift (m : Mapper) (x : Bool) : (m.setFaulted x).shift = m.shift := rfl
@[simp] theorem Mapper.setFaulted_irq (m : Mapper) (x : Bool) : (m.setFaulted x).irq = m.irq := rfl
@[simp] theorem Mapper.setFaulted_latch (m : Mapper) (x : Bool) : (m.setFaulted x).latch = m.latch := rfl
@[simp] theorem Mapper.setFaulted_faulted (m : Mapper) (x : Bool) : (m.setFaulted x).faulted = x := rfl

/-! ### Updates of one field, and of the two tables in either order -/

@[simp] theorem Mapper.setStore_setStore (m : Mapper) (x y : Memory) : (m.setStore x).setStore y = m.setStore y := rfl
@[simp] theorem Mapper.setCputab_setCputab (m : Mapper) (x y : Vector Bank 64) :
    (m.setCputab x).setCputab y = m.setCputab y := rfl
@[simp] theorem Mapper.setPputab_setPputab (m : Mapper) (x y : Vector Bank 16) :
    (m.setPputab x).setPputab y = m.setPputab y := rfl
@[simp] theorem Mapper.setPputab_setCputab (m : Mapper) (x : Vector Bank 16) (y : Vector Bank 64) :
    (m.setPputab x).setCputab y = (m.setCputab y).setPputab x := rfl
@[simp] theorem Mapper.setCputab_setPputab_setCputab (m : Mapper) (x z : Vector Bank 64) (y : Vector Bank 16) :
    ((m.setCputab x).setPputab y).setCputab z = (m.setCputab z).setPputab y := rfl

/-! ### The machine -/

@[simp] theorem State.reply_inst (s : State) (m : Mapper) (o : Output) : (s.reply m o).inst = some m := rfl
@[simp] theorem State.reply_port (s : State) (m : Mapper) (o : Output) : (s.reply m o).port = s.port := rfl
@[simp] theorem State.reply_out (s : State) (m : Mapper) (o : Output) : (s.reply m o).out = o := rfl
@[simp] theorem State.reply_draws (s : State) (m : Mapper) (o : Output) : (s.reply m o).draws = s.draws := rfl

@[simp] theorem State.replyDraw_inst (s : State) (m : Mapper) (o : Output) (d : Nat) : (s.replyDraw m o d).inst = some m := rfl
@[simp] theorem State.replyDraw_port (s : State) (m : Mapper) (o : Output) (d : Nat) : (s.replyDraw m o d).port = s.port := rfl
@[simp] theorem State.replyDraw_out (s : State) (m : Mapper) (o : Output) (d : Nat) : (s.replyDraw m o d).out = o := rfl
@[simp] theorem State.replyDraw_draws (s : State) (m : Mapper) (o : Output) (d : Nat) : (s.replyDraw m o d).draws = d := rfl

@[simp] theorem State.raise_inst (s : State) (i : Option Mapper) (e : OpError) : (s.raise i e).inst = i := rfl
@[simp] theorem State.raise_port (s : State) (i : Option Mapper) (e : OpError) : (s.raise i e).port = s.port := rfl
@[simp] theorem State.raise_out (s : State) (i : Option Mapper) (e : OpError) : (s.raise i e).out = ⟨none, false, none, some e⟩ := rfl
@[simp] theorem State.raise_draws (s : State) (i : Option Mapper) (e : OpError) : (s.raise i e).draws = s.draws := rfl

@[simp] theorem State.raiseContract_inst (s : State) (m : Mapper) (k : Bounds) : (s.raiseContract m k).inst = some (m.setFaulted true) := rfl
@[simp] theorem State.raiseContract_port (s : State) (m : Mapper) (k : Bounds) : (s.raiseContract m k).port = s.port := rfl
@[simp] theorem State.raiseContract_out (s : State) (m : Mapper) (k : Bounds) : (s.raiseContract m k).out = ⟨none, false, none, some (.contract k)⟩ := rfl
@[simp] theorem State.raiseContract_draws (s : State) (m : Mapper) (k : Bounds) : (s.raiseContract m k).draws = s.draws := rfl

@[simp] theorem Output.quiet_data : Output.quiet.data = none := rfl
@[simp] theorem Output.quiet_irq : Output.quiet.irq = false := rfl
@[simp] theorem Output.quiet_buffer : Output.quiet.buffer = none := rfl
@[simp] theorem Output.quiet_error : Output.quiet.error = none := rfl
@[simp] theorem Output.ofRead_data (b : Byte) (i : Bool) : (Output.ofRead b i).data = some b := rfl
@[simp] theorem Output.ofRead_irq (b : Byte) (i : Bool) : (Output.ofRead b i).irq = i := rfl
@[simp] theorem Output.ofIrq_data (i : Bool) : (Output.ofIrq i).data = none := rfl
@[simp] theorem Output.ofIrq_irq (i : Bool) : (Output.ofIrq i).irq = i := rfl
theorem Output.ofIrq_false : Output.ofIrq false = Output.quiet := rfl

/-! ### Outcomes -/

@[simp] theorem andThen_done (m : Mapper) (f : Mapper → ProcResult) :
    (ProcResult.done m).andThen f = f m := rfl

@[simp] theorem andThen_violation (k : Bounds) (m : Mapper) (f : Mapper → ProcResult) :
    (ProcResult.violation k m).andThen f = .violation k m := rfl

@[simp] theorem finishWith_done (s : State) (o : Output) (m : Mapper) :
    finishWith s o (.done m) = .next (s.reply m o) := rfl

@[simp] theorem finish_done (s : State) (m : Mapper) : finish s (.done m) = .next (s.reply m Output.quiet) := rfl

@[simp] theorem finish_violation (s : State) (k : Bounds) (m : Mapper) :
    finish s (.violation k m) = .next (s.raiseContract m k) := rfl

/-- An operation on a block that can act is its body. -/
theorem withBlock_live {s : State} {m : Mapper} (h : s.Live m)
    (k : Mapper → Host.Outcome State Fault Refusal) : withBlock s k = k m := by
  simp [withBlock, h.1, h.2]

/-- A variant's operation on a live block of that variant is its body. -/
theorem withVariant_live {v : Variant} {s : State} {m : Mapper} (h : s.LiveAs v m)
    (k : Mapper → Host.Outcome State Fault Refusal) : withVariant v s k = k m := by
  simp [withVariant, withBlock_live h.1, h.2]

/-- All an operation on the block can do when it answers a next state: the block is live and its body
answered. -/
theorem withBlock_next {s t : State} {k : Mapper → Host.Outcome State Fault Refusal}
    (h : withBlock s k = .next t) : ∃ m, s.Live m ∧ k m = .next t := by
  unfold withBlock at h
  split at h
  · simp at h
  · rename_i m hm
    split at h
    · simp at h
    · rename_i hf
      exact ⟨m, ⟨hm, by simpa using hf⟩, h⟩

/-- The same for a variant's operation. -/
theorem withVariant_next {v : Variant} {s t : State} {k : Mapper → Host.Outcome State Fault Refusal}
    (h : withVariant v s k = .next t) : ∃ m, s.LiveAs v m ∧ k m = .next t := by
  obtain ⟨m, hm, hk⟩ := withBlock_next h
  split at hk
  · rename_i hv
    exact ⟨m, ⟨hm, hv⟩, hk⟩
  · simp at hk

/-- What `finishWith` answers: always a next state, the completion or the contract violation. -/
theorem finishWith_next {s t : State} {o : Output} {r : ProcResult} (h : finishWith s o r = .next t) :
    (∃ m, r = .done m ∧ t = s.reply m o) ∨ (∃ k m, r = .violation k m ∧ t = s.raiseContract m k) := by
  cases r with
  | done m => exact .inl ⟨m, rfl, by simpa using h.symm⟩
  | violation k m => exact .inr ⟨k, m, rfl, by simpa [finishWith] using h.symm⟩

/-- All a read can do (R75, R141 to R144): the store byte, the open-bus draw, or the fault of an offset
outside the store. -/
theorem withRead_cases (m : Mapper) (e : Bank) (intra draws : Nat)
    (k : Byte → Nat → Host.Outcome State Fault Refusal) :
    (e.mapped = true ∧ e.off + intra < m.cfg.storeLen ∧
      withRead m e intra draws k = k (Memory.read m.store (e.off + intra)) draws) ∨
    (e.mapped = false ∧ withRead m e intra draws k = k (Config.openBus draws) (draws + 1)) ∨
    (e.mapped = true ∧ m.cfg.storeLen ≤ e.off + intra ∧ withRead m e intra draws k = .fault .outsideStore) := by
  cases he : e.mapped with
  | false => simp [withRead, readThrough, translate, he]
  | true =>
    rcases Nat.lt_or_ge (e.off + intra) m.cfg.storeLen with h | h
    · simp [withRead, readThrough, translate, he, h]
    · simp [withRead, readThrough, translate, he, h, Nat.not_lt.mpr h]

/-- All a write can do (R75, R142, R145): it is discarded, it stores one byte, or its offset is outside
the store. -/
theorem withWrite_cases (m : Mapper) (e : Bank) (intra : Nat) (v : Byte)
    (k : Mapper → Host.Outcome State Fault Refusal) :
    ((e.mapped = false ∨ e.ro = true) ∧ withWrite m e intra v k = k m) ∨
    (e.mapped = true ∧ e.ro = false ∧ e.off + intra < m.cfg.storeLen ∧
      withWrite m e intra v k = k (m.setStore (Memory.write m.store (e.off + intra) v))) ∨
    (e.mapped = true ∧ e.ro = false ∧ m.cfg.storeLen ≤ e.off + intra ∧
      withWrite m e intra v k = .fault .outsideStore) := by
  cases he : e.mapped with
  | false => simp [withWrite, writeThrough, translate, he]
  | true =>
    cases hr : e.ro with
    | true => simp [withWrite, writeThrough, translate, he, hr]
    | false =>
      rcases Nat.lt_or_ge (e.off + intra) m.cfg.storeLen with h | h
      · simp [withWrite, writeThrough, translate, he, hr, h]
      · simp [withWrite, writeThrough, translate, he, hr, h, Nat.not_lt.mpr h]

/-- What an operation does does not depend on the outputs of the one before it. -/
theorem exec_setOut (i : Instr) (s : State) (o : Output) : exec i { s with out := o } = exec i s := by
  cases i <;> rfl

end Sys2Proof.Machine
end

