-- ==== Sys2Proof/Laws/Tables.lean ====
section
/-! SUPPORT. What the mapping procedures do (R120 to R130): the entries of a table after each, when
each completes, and that none touches anything but the tables (R132). -/

namespace Sys2Proof.Machine

/-! ### The loops, entry by entry -/

theorem mapRange_getElem {n : Nat} (t : Vector Bank n) (page size off : Nat) (ro : Bool) (p : Nat) (h : p < n) :
    (mapRange t page size off ro)[p] =
      if page ≤ p ∧ p < page + size then ⟨off + 1024 * (p - page), ro, true⟩ else t[p] := by
  simp [mapRange]

theorem unmapRange_getElem {n : Nat} (t : Vector Bank n) (page size : Nat) (p : Nat) (h : p < n) :
    (unmapRange t page size)[p] =
      if page ≤ p ∧ p < page + size then { t[p] with mapped := false } else t[p] := by
  simp [unmapRange]

theorem mirrorRange_getElem {n : Nat} (t : Vector Bank n) (page size stride : Nat) (p : Nat) (h : p < n) :
    (mirrorRange t page size stride)[p] =
      if h' : (p + n - (page + stride) % n) % n < size ∧ page + (p + n - (page + stride) % n) % n < n then
        t[page + (p + n - (page + stride) % n) % n] else t[p] := by
  simp [mirrorRange]

/-- Destination `(page + stride + k) mod n` of a `MIRROR` takes source `page + k` (R125). -/
theorem mirrorRange_dest {n : Nat} (t : Vector Bank n) (page size stride k : Nat) (hk : k < size)
    (hp : page + size ≤ n) :
    (mirrorRange t page size stride)[(page + stride + k) % n]'(Nat.mod_lt _ (by omega)) =
      t[page + k]'(by omega) := by
  have hn : 0 < n := by omega
  have hkey : ((page + stride + k) % n + n - (page + stride) % n) % n = k := by
    have h1 : (page + stride + k) % n = ((page + stride) % n + k) % n := by
      rw [Nat.add_mod, Nat.mod_eq_of_lt (show k < n by omega)]
    have h2 := Nat.mod_lt (page + stride) hn
    rw [h1]
    generalize (page + stride) % n = r at *
    rcases Nat.lt_or_ge (r + k) n with h | h
    · rw [Nat.mod_eq_of_lt h, show r + k + n - r = k + n by omega, Nat.add_mod_right,
        Nat.mod_eq_of_lt (by omega)]
    · have h3 : (r + k) % n = r + k - n := by
        rw [Nat.mod_eq_sub_mod h, Nat.mod_eq_of_lt (by omega)]
      rw [h3, show r + k - n + n - r = k by omega, Nat.mod_eq_of_lt (by omega)]
  rw [mirrorRange_getElem]
  simp only [hkey]
  rw [dif_pos ⟨hk, by omega⟩]

/-- An entry that is the destination of no source keeps its descriptor (R125). -/
theorem mirrorRange_other {n : Nat} (t : Vector Bank n) (page size stride p : Nat) (h : p < n)
    (ho : ∀ k, k < size → (page + stride + k) % n ≠ p) : (mirrorRange t page size stride)[p] = t[p] := by
  rw [mirrorRange_getElem]
  split
  · rename_i hk
    exfalso
    refine ho _ hk.1 ?_
    have hn : 0 < n := by omega
    have h2 := Nat.mod_lt (page + stride) hn
    rw [Nat.add_mod]
    generalize (page + stride) % n = r at *
    rw [Nat.mod_mod]
    rcases Nat.lt_or_ge p r with hp | hp
    · rw [show (p + n - r) % n = p + n - r from Nat.mod_eq_of_lt (by omega),
        show r + (p + n - r) = p + n by omega, Nat.add_mod_right, Nat.mod_eq_of_lt h]
    · have h3 : (p + n - r) % n = p - r := by
        rw [Nat.mod_eq_sub_mod (by omega), show p + n - r - n = p - r by omega, Nat.mod_eq_of_lt (by omega)]
      rw [h3, show r + (p - r) = p by omega, Nat.mod_eq_of_lt h]
  · rfl

/-! ### When the procedures complete -/

theorem mapProc_cpu {page size off : Nat} {ro : Bool} {m : Mapper} (hp : page + size ≤ 64)
    (hs : off + 1024 * size ≤ m.cfg.storeLen) :
    mapProc .cpu page size off ro m = .done (m.setCputab (mapRange m.cputab page size off ro)) := by
  simp [mapProc, tableLen, Nat.not_lt.mpr hp, Nat.not_lt.mpr hs, Mapper.onTable]

theorem mapProc_ppu {page size off : Nat} {ro : Bool} {m : Mapper} (hp : page + size ≤ 16)
    (hs : off + 1024 * size ≤ m.cfg.storeLen) :
    mapProc .ppu page size off ro m = .done (m.setPputab (mapRange m.pputab page size off ro)) := by
  simp [mapProc, tableLen, Nat.not_lt.mpr hp, Nat.not_lt.mpr hs, Mapper.onTable]

theorem unmapProc_cpu {page size : Nat} {m : Mapper} (hp : page + size ≤ 64) :
    unmapProc .cpu page size m = .done (m.setCputab (unmapRange m.cputab page size)) := by
  simp [unmapProc, tableLen, Nat.not_lt.mpr hp, Mapper.onTable]

theorem unmapProc_ppu {page size : Nat} {m : Mapper} (hp : page + size ≤ 16) :
    unmapProc .ppu page size m = .done (m.setPputab (unmapRange m.pputab page size)) := by
  simp [unmapProc, tableLen, Nat.not_lt.mpr hp, Mapper.onTable]

theorem mirrorProc_cpu {page size stride : Nat} {m : Mapper} (hp : page + size ≤ 64) :
    mirrorProc .cpu page size stride m = .done (m.setCputab (mirrorRange m.cputab page size stride)) := by
  simp [mirrorProc, tableLen, Nat.not_lt.mpr hp, Mapper.onTable]

theorem mirrorProc_ppu {page size stride : Nat} {m : Mapper} (hp : page + size ≤ 16) :
    mirrorProc .ppu page size stride m = .done (m.setPputab (mirrorRange m.pputab page size stride)) := by
  simp [mirrorProc, tableLen, Nat.not_lt.mpr hp, Mapper.onTable]

theorem mapPrg_done {page size bank : Nat} {m : Mapper} (hp : page + size ≤ 64)
    (hb : bank + size ≤ m.cfg.banksPrg) :
    mapPrg page size bank m = .done (m.setCputab (mapRange m.cputab page size (1024 * bank) true)) := by
  rw [mapPrg, if_neg (by omega), mapProc_cpu hp]
  · simp [Geometry.prgBase]
  · simp only [Geometry.prgBase, Geometry.storeLen, Geometry.sizePrg]
    omega

theorem mapChr_done {page size bank : Nat} {m : Mapper} (hp : page + size ≤ 16)
    (hb : bank + size ≤ m.cfg.banksChr) :
    mapChr page size bank m =
      .done (m.setPputab (mapRange m.pputab page size (m.cfg.chrBase + 1024 * bank) m.cfg.chrReadOnly)) := by
  rw [mapChr, if_neg (by omega), mapProc_ppu hp]
  simp only [Geometry.chrBase, Geometry.storeLen, Geometry.sizeChr]
  omega

theorem mapCpuRam_done {page size bank : Nat} {ro : Bool} {m : Mapper} (hp : page + size ≤ 64)
    (hb : bank + size ≤ m.cfg.banksCpuRam) :
    mapCpuRam page size bank ro m =
      .done (m.setCputab (mapRange m.cputab page size (m.cfg.cpuRamBase + 1024 * bank) ro)) := by
  rw [mapCpuRam, if_neg (by omega), mapProc_cpu hp]
  simp only [Geometry.cpuRamBase, Geometry.storeLen, Geometry.sizeCpuRam]
  omega

theorem mapPpuRam_done {page size bank : Nat} {ro : Bool} {m : Mapper} (hp : page + size ≤ 16)
    (hb : bank + size ≤ m.cfg.banksPpuRam) :
    mapPpuRam page size bank ro m =
      .done (m.setPputab (mapRange m.pputab page size (m.cfg.ppuRamBase + 1024 * bank) ro)) := by
  rw [mapPpuRam, if_neg (by omega), mapProc_ppu hp]
  simp only [Geometry.ppuRamBase, Geometry.storeLen, Geometry.sizePpuRam]
  omega

/-- How many PPU RAM banks a mirroring mode needs (R10 e, R126). -/
def modeBanks (mode : Mirroring) : Nat := if mode = .fourScreen then 4 else 2

theorem shownNametable_lt (mode : Mirroring) (k : Nat) (hk : k < 4) : shownNametable mode k < modeBanks mode := by
  cases mode <;> simp [shownNametable, modeBanks] <;> omega

theorem nametableBank_eq (mode : Mirroring) (i : Fin 4) : nametableBank mode i = shownNametable mode i.val := by
  revert mode i
  intro mode i
  cases mode <;> revert i <;> decide

theorem mapRange_one {n : Nat} (t : Vector Bank n) (page off : Nat) (ro : Bool) (p : Nat) (h : p < n) :
    (mapRange t page 1 off ro)[p] = if p = page then ⟨off, ro, true⟩ else t[p] := by
  rw [mapRange_getElem]
  by_cases hp : p = page
  · subst hp
    simp
  · rw [if_neg (by omega), if_neg hp]

/-- `MIRROR(PPUTAB, 8, 4, 4)`: pages 12 to 15 take pages 8 to 11 (R125, R126). -/
theorem mirrorRange_nametables (t : Vector Bank 16) (p : Nat) (h : p < 16) :
    (mirrorRange t 8 4 4)[p] = if 12 ≤ p then t[p - 4] else t[p] := by
  rw [mirrorRange_getElem]
  by_cases hp : 12 ≤ p
  · have h1 : (p + 16 - (8 + 4) % 16) % 16 = p - 12 := by omega
    simp only [h1]
    rw [dif_pos (by omega), if_pos hp]
    congr 1
    omega
  · have h1 : ¬ ((p + 16 - (8 + 4) % 16) % 16 < 4 ∧ 8 + (p + 16 - (8 + 4) % 16) % 16 < 16) := by omega
    rw [dif_neg h1, if_neg hp]

/-- Four single pages at 8 to 11 and their copies at 12 to 15 (R126). -/
theorem fourPages_getElem (t : Vector Bank 16) (o : Nat → Nat) (p : Nat) (h : p < 16) :
    (mirrorRange (mapRange (mapRange (mapRange (mapRange t 8 1 (o 0) false) 9 1 (o 1) false) 10 1 (o 2) false)
      11 1 (o 3) false) 8 4 4)[p] = if p < 8 then t[p] else ⟨o (p % 4), false, true⟩ := by
  simp only [mirrorRange_nametables, mapRange_one]
  rcases Nat.lt_or_ge p 8 with h | h
  · rw [if_neg (by omega), if_neg (by omega), if_neg (by omega), if_neg (by omega), if_neg (by omega), if_pos h]
  · rw [if_neg (show ¬ p < 8 by omega)]
    have : p = 8 ∨ p = 9 ∨ p = 10 ∨ p = 11 ∨ p = 12 ∨ p = 13 ∨ p = 14 ∨ p = 15 := by omega
    rcases this with h | h | h | h | h | h | h | h <;> subst h <;> simp

/-- `SETMIRROR` completes when the mode's banks exist, and sets pages 8 to 15 (R126). -/
theorem setMirror_done {mode : Mirroring} {m : Mapper} (hb : modeBanks mode ≤ m.cfg.banksPpuRam) :
    setMirror mode m = .done (m.showing mode) := by
  have hlt : ∀ i : Fin 4, nametableBank mode i + 1 ≤ m.cfg.banksPpuRam := fun i => by
    rw [nametableBank_eq]
    have := shownNametable_lt mode i.val i.isLt
    omega
  unfold setMirror
  rw [mapPpuRam_done, andThen_done, mapPpuRam_done, andThen_done, mapPpuRam_done, andThen_done, mapPpuRam_done,
    andThen_done, mirrorProc_ppu (by decide)]
  · simp only [nametableBank_eq, Mapper.setPputab_pputab, Mapper.setPputab_cfg, Mapper.setPputab_setPputab]
    refine congrArg (fun t => ProcResult.done (m.setPputab t))
      (Vector.ext (ys := (m.showing mode).pputab) fun p hp => ?_)
    refine (fourPages_getElem m.pputab (fun k => m.cfg.ppuRamBase + 1024 * shownNametable mode k) p hp).trans ?_
    simp only [Mapper.showing, Vector.getElem_ofFn, ppuEntry]
    split <;> rfl
  all_goals simp only [Mapper.setPputab_cfg, hlt, Nat.reduceAdd, Nat.reduceLeDiff]

/-! ### What the procedures never do (R132) -/

/-- The block a procedure leaves, whether it completed or not. -/
def ProcResult.block (r : ProcResult) : Mapper :=
  match r with
  | .done m => m
  | .violation _ m => m

/-- Two blocks that differ at most in their tables. -/
def Mapper.SameButTables (m m' : Mapper) : Prop := m' = (m.setCputab m'.cputab).setPputab m'.pputab

theorem Mapper.SameButTables.refl (m : Mapper) : m.SameButTables m := rfl

theorem Mapper.SameButTables.trans {a b c : Mapper} (h1 : a.SameButTables b) (h2 : b.SameButTables c) :
    a.SameButTables c := by
  unfold Mapper.SameButTables at *
  rw [h2, h1]
  rfl

theorem Mapper.SameButTables.cfg {a b : Mapper} (h : a.SameButTables b) : b.cfg = a.cfg := by rw [h]; rfl
theorem Mapper.SameButTables.store {a b : Mapper} (h : a.SameButTables b) : b.store = a.store := by rw [h]; rfl
theorem Mapper.SameButTables.direct {a b : Mapper} (h : a.SameButTables b) : b.direct = a.direct := by rw [h]; rfl
theorem Mapper.SameButTables.shift {a b : Mapper} (h : a.SameButTables b) : b.shift = a.shift := by rw [h]; rfl
theorem Mapper.SameButTables.irq {a b : Mapper} (h : a.SameButTables b) : b.irq = a.irq := by rw [h]; rfl
theorem Mapper.SameButTables.latch {a b : Mapper} (h : a.SameButTables b) : b.latch = a.latch := by rw [h]; rfl
theorem Mapper.SameButTables.faulted {a b : Mapper} (h : a.SameButTables b) : b.faulted = a.faulted := by
  rw [h]; rfl

/-- A sequence of procedures that keep everything but the tables keeps it. -/
theorem andThen_keeps {m : Mapper} {r : ProcResult} {f : Mapper → ProcResult} (hr : m.SameButTables r.block)
    (hf : ∀ a, m.SameButTables a → a.SameButTables (f a).block) : m.SameButTables (r.andThen f).block := by
  cases r with
  | done a => exact hr.trans (hf a hr)
  | violation k a => exact hr

theorem mapProc_keeps (t : BankTable) (page size off : Nat) (ro : Bool) (m : Mapper) :
    m.SameButTables (mapProc t page size off ro m).block := by
  unfold mapProc
  split
  · exact .refl m
  · split
    · exact .refl m
    · cases t <;> simp [ProcResult.block, Mapper.SameButTables, Mapper.onTable, Mapper.setCputab, Mapper.setPputab]

theorem unmapProc_keeps (t : BankTable) (page size : Nat) (m : Mapper) :
    m.SameButTables (unmapProc t page size m).block := by
  unfold unmapProc
  split
  · exact .refl m
  · cases t <;> simp [ProcResult.block, Mapper.SameButTables, Mapper.onTable, Mapper.setCputab, Mapper.setPputab]

theorem mirrorProc_keeps (t : BankTable) (page size stride : Nat) (m : Mapper) :
    m.SameButTables (mirrorProc t page size stride m).block := by
  unfold mirrorProc
  split
  · exact .refl m
  · cases t <;> simp [ProcResult.block, Mapper.SameButTables, Mapper.onTable, Mapper.setCputab, Mapper.setPputab]

theorem mapCpuRam_keeps (page size bank : Nat) (ro : Bool) (m : Mapper) :
    m.SameButTables (mapCpuRam page size bank ro m).block := by
  unfold mapCpuRam
  split
  · exact .refl m
  · exact mapProc_keeps ..

theorem mapPpuRam_keeps (page size bank : Nat) (ro : Bool) (m : Mapper) :
    m.SameButTables (mapPpuRam page size bank ro m).block := by
  unfold mapPpuRam
  split
  · exact .refl m
  · exact mapProc_keeps ..

theorem mapPrg_keeps (page size bank : Nat) (m : Mapper) : m.SameButTables (mapPrg page size bank m).block := by
  unfold mapPrg
  split
  · exact .refl m
  · exact mapProc_keeps ..

theorem mapChr_keeps (page size bank : Nat) (m : Mapper) : m.SameButTables (mapChr page size bank m).block := by
  unfold mapChr
  split
  · exact .refl m
  · exact mapProc_keeps ..

theorem setMirror_keeps (mode : Mirroring) (m : Mapper) : m.SameButTables (setMirror mode m).block :=
  andThen_keeps (mapPpuRam_keeps ..) fun _ _ =>
  andThen_keeps (mapPpuRam_keeps ..) fun _ _ =>
  andThen_keeps (mapPpuRam_keeps ..) fun _ _ =>
  andThen_keeps (mapPpuRam_keeps ..) fun _ _ => mirrorProc_keeps ..

end Sys2Proof.Machine
end

