-- ==== Sys2Proof/Laws/Layout.lean ====
section
/-! SUPPORT. What a legal configuration gives (R10), the bounds of masked bank numbers (R16), and what
each remap and the power-on layout make of the tables (R199, R214, R215, R246, R312 to R323). -/

namespace Sys2Proof.Machine

/-! ### A legal configuration -/

theorem Geometry.broken_none {v : Variant} {g : Geometry} :
    g.broken v = none ↔ g.sizesOk = true ∧ g.payloadsOk = true ∧ g.prgMaxOk v = true ∧ g.prgMinOk v = true ∧
      g.ppuRamOk = true ∧ g.trainerOk = true ∧ g.splitOk v = true := by
  unfold Geometry.broken
  cases g.sizesOk <;> cases g.payloadsOk <;> cases g.prgMaxOk v <;> cases g.prgMinOk v <;> cases g.ppuRamOk <;>
    cases g.trainerOk <;> cases g.splitOk v <;> simp

theorem Cfg.legal_parts {c : Cfg} (h : c.legal = true) :
    c.sizesOk = true ∧ c.payloadsOk = true ∧ c.prgMaxOk c.variant = true ∧ c.prgMinOk c.variant = true ∧
      c.ppuRamOk = true ∧ c.trainerOk = true ∧ c.splitOk c.variant = true :=
  Geometry.broken_none.mp (by simpa [Cfg.legal] using h)

theorem isPowerOfTwo_pos {n : Nat} (h : isPowerOfTwo n = true) : 1 ≤ n := by
  simp only [isPowerOfTwo, Bool.and_eq_true, decide_eq_true_eq] at h
  omega

/-- A power of two that passes the check and is at least 2 is even. -/
theorem isPowerOfTwo_even {n : Nat} (h : isPowerOfTwo n = true) (h2 : 2 ≤ n) : n % 2 = 0 := by
  simp only [isPowerOfTwo, Bool.and_eq_true, decide_eq_true_eq] at h
  rcases Nat.mod_two_eq_zero_or_one n with hn | hn
  · exact hn
  · have h1 : (n &&& (n - 1)) / 2 = n / 2 &&& (n - 1) / 2 := Nat.and_div_two ..
    rw [show (n - 1) / 2 = n / 2 by omega, Nat.and_self, h.2] at h1
    omega

theorem Cfg.legal_prg {c : Cfg} (h : c.legal = true) : 1 ≤ c.nPrg16 := by
  have := (Cfg.legal_parts h).1
  simp only [Geometry.sizesOk, Bool.and_eq_true] at this
  exact isPowerOfTwo_pos this.1

theorem Cfg.legal_chr {c : Cfg} (h : c.legal = true) : 1 ≤ c.nChr8 := by
  have := (Cfg.legal_parts h).1
  simp only [Geometry.sizesOk, Bool.and_eq_true] at this
  exact isPowerOfTwo_pos this.2

theorem Cfg.legal_ppuRam {c : Cfg} (h : c.legal = true) : 2 ≤ c.banksPpuRam := by
  have := (Cfg.legal_parts h).2.2.2.2.1
  simp only [Geometry.ppuRamOk, Bool.and_eq_true, decide_eq_true_eq] at this
  exact this.1

/-- The nametable banks of the initial mode and of every mode but `NONE` exist (R10 e). -/
theorem Cfg.legal_mode {c : Cfg} (h : c.legal = true) (mode : Mirroring)
    (hm : mode = .fourScreen → c.mirroring0 = .fourScreen) : modeBanks mode ≤ c.banksPpuRam := by
  have := (Cfg.legal_parts h).2.2.2.2.1
  simp only [Geometry.ppuRamOk, Bool.and_eq_true, Bool.or_eq_true, decide_eq_true_eq] at this
  unfold modeBanks
  split
  · rename_i hf
    have := this.2.resolve_left (fun hne => hne (hm hf))
    exact this
  · exact this.1

/-! ### Masked bank numbers (R16) -/

theorem maskTo_lt (v : Nat) {count : Nat} (h : 1 ≤ count) : maskTo v count < count := by
  have : v &&& (count - 1) ≤ count - 1 := Nat.and_le_right
  unfold maskTo
  omega

theorem maskTo_le (v count : Nat) : maskTo v count ≤ v := Nat.and_le_left

/-- The masked selection fits the register that keeps it. -/
theorem maskReg_toNat {v : Nat} (count : Nat) (hv : v < 256) : (maskReg v count).toNat = maskTo v count := by
  have := maskTo_le v count
  simp only [maskReg, BitVec.toNat_ofNat]
  omega

/-- A pair of 1 KiB banks chosen with bit 0 clear lies inside CHR (R215). -/
theorem chrPair_lt {c : Cfg} (h : c.legal = true) (q : IrqRegs) (i : Fin 8) :
    chrPair c.toGeometry q i + 2 ≤ c.banksChr := by
  have h1 := Cfg.legal_chr h
  have hb : c.banksChr = 8 * c.nChr8 := rfl
  have h2 : chrPair c.toGeometry q i < c.banksChr := maskTo_lt _ (by omega)
  have h3 : chrPair c.toGeometry q i % 2 = 0 := by
    unfold chrPair maskTo
    rw [show (2 : Nat) = 2 ^ 1 from rfl, Nat.and_mod_two_pow, BitVec.toNat_and, Nat.and_mod_two_pow]
    simp
  omega

theorem chrSingle_lt {c : Cfg} (h : c.legal = true) (q : IrqRegs) (i : Fin 8) :
    chrSingle c.toGeometry q i + 1 ≤ c.banksChr := by
  have h1 := Cfg.legal_chr h
  have hb : c.banksChr = 8 * c.nChr8 := rfl
  exact maskTo_lt _ (by omega)

theorem prgSingle_lt {c : Cfg} (h : c.legal = true) (q : IrqRegs) (i : Fin 8) :
    prgSingle c.toGeometry q i < 2 * c.nPrg16 := by
  have h1 := Cfg.legal_prg h
  exact maskTo_lt _ (by unfold prgBanks8; omega)

/-! ### The windows of the remaps -/

/-- A window of PRG from page `lo` (R129). -/
theorem prgWindow_getElem (t : Vector Bank 64) (page size bank p : Nat) (h : p < 64) :
    (mapRange t page size (1024 * bank) true)[p] =
      if page ≤ p ∧ p < page + size then ⟨1024 * (bank + (p - page)), true, true⟩ else t[p] := by
  rw [mapRange_getElem, Nat.mul_add]

/-- A window of CHR from page `lo` (R130). -/
theorem chrWindow_getElem (t : Vector Bank 16) (base : Nat) (ro : Bool) (page size bank p : Nat) (h : p < 16) :
    (mapRange t page size (base + 1024 * bank) ro)[p] =
      if page ≤ p ∧ p < page + size then ⟨base + 1024 * (bank + (p - page)), ro, true⟩ else t[p] := by
  rw [mapRange_getElem, Nat.mul_add, Nat.add_assoc]

@[simp] theorem Mapper.laidOut_cfg (m : Mapper) : m.laidOut.cfg = m.cfg := by simp only [Mapper.laidOut]
@[simp] theorem Mapper.showing_cfg (mode : Mirroring) (m : Mapper) : (m.showing mode).cfg = m.cfg := by
  simp only [Mapper.showing]

theorem cpuEntry_prg (m : Mapper) (p : Nat) (h : 32 ≤ p) : cpuEntry m p = ⟨1024 * shownPrg m p, true, true⟩ := by
  have h1 : ¬ p < 8 := by omega
  have h2 : ¬ p < 24 := by omega
  have h3 : ¬ p < 32 := by omega
  simp only [cpuEntry, h1, h2, h3, if_false]

theorem ppuEntry_chr (mode : Mirroring) (m : Mapper) (p : Nat) (h : p < 8) :
    ppuEntry mode m p = ⟨m.cfg.chrBase + 1024 * shownChr m p, m.cfg.chrReadOnly, true⟩ := by
  simp only [ppuEntry, h, if_true]

theorem ppuEntry_nametable (mode : Mirroring) (m : Mapper) (p : Nat) (h : 8 ≤ p) :
    ppuEntry mode m p = ⟨m.cfg.ppuRamBase + 1024 * shownNametable mode (p % 4), false, true⟩ := by
  have h1 : ¬ p < 8 := by omega
  simp only [ppuEntry, h1, if_false]

theorem Mapper.laidOut_cputab (m : Mapper) (p : Nat) (h : p < 64) :
    m.laidOut.cputab[p] = if p < 32 then m.cputab[p] else ⟨1024 * shownPrg m p, true, true⟩ := by
  simp only [Mapper.laidOut, Vector.getElem_ofFn, Fin.getElem_fin]
  split
  · rfl
  · exact cpuEntry_prg m p (by omega)

theorem Mapper.laidOut_pputab (m : Mapper) (p : Nat) (h : p < 16) :
    m.laidOut.pputab[p] =
      if p < 8 then ⟨m.cfg.chrBase + 1024 * shownChr m p, m.cfg.chrReadOnly, true⟩ else m.pputab[p] := by
  simp only [Mapper.laidOut, Vector.getElem_ofFn, Fin.getElem_fin]
  split
  · exact ppuEntry_chr _ m p (by omega)
  · rfl

/-- One PRG window over all of 32 KiB. -/
theorem mapPrg_whole {m : Mapper} {b : Nat} (hb : b + 32 ≤ m.cfg.banksPrg)
    (hs : ∀ p, 32 ≤ p → p < 64 → shownPrg m p = b + (p - 32)) :
    mapPrg 32 32 b m = .done (m.setCputab m.laidOut.cputab) := by
  rw [mapPrg_done (by omega) hb]
  refine congrArg (fun t => ProcResult.done (m.setCputab t)) (Vector.ext fun p hp => ?_)
  rw [prgWindow_getElem, Mapper.laidOut_cputab]
  rcases Nat.lt_or_ge p 32 with h | h
  · rw [if_neg (by omega), if_pos h]
  · rw [if_pos (by omega), if_neg (by omega), hs p h hp]

/-- Two PRG windows, of `k` pages and of the rest. -/
theorem mapPrg_two {m : Mapper} {k a b : Nat} (hk : k ≤ 32) (ha : a + k ≤ m.cfg.banksPrg)
    (hb : b + (32 - k) ≤ m.cfg.banksPrg)
    (hs : ∀ p, 32 ≤ p → p < 64 → shownPrg m p = if p < 32 + k then a + (p - 32) else b + (p - (32 + k))) :
    ((mapPrg 32 k a m).andThen fun m' => mapPrg (32 + k) (32 - k) b m') = .done (m.setCputab m.laidOut.cputab) := by
  rw [mapPrg_done (by omega) ha, andThen_done, mapPrg_done (by omega) (by exact hb)]
  simp only [Mapper.setCputab_setCputab, Mapper.setCputab_cputab]
  refine congrArg (fun t => ProcResult.done (m.setCputab t)) (Vector.ext fun p hp => ?_)
  rw [prgWindow_getElem, Mapper.laidOut_cputab]
  rw [prgWindow_getElem]
  rcases Nat.lt_or_ge p 32 with h | h
  · rw [if_neg (by omega), if_neg (by omega), if_pos h]
  · rw [if_neg (show ¬ p < 32 by omega), hs p h hp]
    rcases Nat.lt_or_ge p (32 + k) with h' | h'
    · rw [if_neg (by omega), if_pos (by omega), if_pos h']
    · rw [if_pos (by omega), if_neg (by omega)]

/-- One CHR window over all 8 KiB. -/
theorem mapChr_whole {m : Mapper} {b : Nat} (hb : b + 8 ≤ m.cfg.banksChr)
    (hs : ∀ p, p < 8 → shownChr m p = b + p) :
    mapChr 0 8 b m = .done (m.setPputab m.laidOut.pputab) := by
  rw [mapChr_done (by omega) hb]
  refine congrArg (fun t => ProcResult.done (m.setPputab t)) (Vector.ext fun p hp => ?_)
  rw [chrWindow_getElem, Mapper.laidOut_pputab]
  rcases Nat.lt_or_ge p 8 with h | h
  · rw [if_pos (by omega), if_pos h, hs p h, Nat.sub_zero]
  · rw [if_neg (by omega), if_neg (by omega)]

/-- Two CHR windows of 4 KiB. -/
theorem mapChr_two {m : Mapper} {a b : Nat} (ha : a + 4 ≤ m.cfg.banksChr) (hb : b + 4 ≤ m.cfg.banksChr)
    (hs : ∀ p, p < 8 → shownChr m p = if p < 4 then a + p else b + (p - 4)) :
    ((mapChr 0 4 a m).andThen fun m' => mapChr 4 4 b m') = .done (m.setPputab m.laidOut.pputab) := by
  rw [mapChr_done (by omega) ha, andThen_done, mapChr_done (by omega) (by exact hb)]
  simp only [Mapper.setPputab_setPputab, Mapper.setPputab_pputab, Mapper.setPputab_cfg]
  refine congrArg (fun t => ProcResult.done (m.setPputab t)) (Vector.ext fun p hp => ?_)
  rw [chrWindow_getElem, Mapper.laidOut_pputab]
  rw [chrWindow_getElem]
  rcases Nat.lt_or_ge p 8 with h | h
  · rw [if_pos h, hs p h]
    rcases Nat.lt_or_ge p 4 with h' | h'
    · rw [if_neg (by omega), if_pos (by omega), if_pos h', Nat.sub_zero]
    · rw [if_pos (by omega), if_neg (by omega)]
  · rw [if_neg (by omega), if_neg (by omega), if_neg (by omega)]

/-! ### The remaps of the variants -/

theorem setPputab_laidOut_pputab (m : Mapper) (t : Vector Bank 64) :
    (m.setCputab t).laidOut.pputab = m.laidOut.pputab := by
  refine Vector.ext fun p hp => ?_
  rw [Mapper.laidOut_pputab, Mapper.laidOut_pputab]
  rfl

theorem setCputab_laidOut_cputab (m : Mapper) (t : Vector Bank 16) :
    (m.setPputab t).laidOut.cputab = m.laidOut.cputab := by
  refine Vector.ext fun p hp => ?_
  rw [Mapper.laidOut_cputab, Mapper.laidOut_cputab]
  rfl

/-- The PRG windows, then the CHR windows: the block laid out. -/
theorem laidOut_of_parts (m : Mapper) :
    ((m.setCputab m.laidOut.cputab).setPputab m.laidOut.pputab) = m.laidOut := by
  simp only [Mapper.setCputab, Mapper.setPputab, Mapper.laidOut]

theorem legal_setCputab {m : Mapper} (t : Vector Bank 64) (h : m.cfg.legal = true) :
    (m.setCputab t).cfg.legal = true := by rw [Mapper.setCputab_cfg]; exact h

theorem variant_setCputab {m : Mapper} {v : Variant} (t : Vector Bank 64) (h : m.cfg.variant = v) :
    (m.setCputab t).cfg.variant = v := by rw [Mapper.setCputab_cfg]; exact h

theorem legal_setPputab {m : Mapper} (t : Vector Bank 16) (h : m.cfg.legal = true) :
    (m.setPputab t).cfg.legal = true := by rw [Mapper.setPputab_cfg]; exact h

theorem variant_setPputab {m : Mapper} {v : Variant} (t : Vector Bank 16) (h : m.cfg.variant = v) :
    (m.setPputab t).cfg.variant = v := by rw [Mapper.setPputab_cfg]; exact h

theorem shiftRemapPrg_done {m : Mapper} (hl : m.cfg.legal = true) (hv : m.cfg.variant = .shift) :
    shiftRemapPrg m = .done (m.setCputab m.laidOut.cputab) := by
  have h1 : isPowerOfTwo m.cfg.nPrg16 = true := by
    have := (Cfg.legal_parts hl).1
    simp only [Geometry.sizesOk, Bool.and_eq_true] at this
    exact this.1
  have h2 : 2 ≤ m.cfg.nPrg16 := by
    have := (Cfg.legal_parts hl).2.2.2.1
    simpa [Geometry.prgMinOk, hv] using this
  have h3 := isPowerOfTwo_even h1 h2
  have hb : m.cfg.banksPrg = 16 * m.cfg.nPrg16 := rfl
  have hp1 := maskTo_lt ((m.shift.prg.extractLsb' 0 4).toNat / 2) (count := m.cfg.nPrg16 / 2) (by omega)
  have hp2 := maskTo_lt (m.shift.prg.extractLsb' 0 4).toNat (count := m.cfg.nPrg16) (by omega)
  have hm : ctrlPrgMode m.shift.ctrl < 4 := (m.shift.ctrl.extractLsb' 2 2).isLt
  have hs : ∀ p, shownPrg m p =
      shiftPrgBank m.cfg.toGeometry (ctrlPrgMode m.shift.ctrl) (m.shift.prg.extractLsb' 0 4).toNat p := by
    intro p
    simp only [shownPrg, hv]
  unfold shiftRemapPrg
  generalize (m.shift.prg.extractLsb' 0 4).toNat = x at *
  generalize ctrlPrgMode m.shift.ctrl = mode at *
  have : mode = 0 ∨ mode = 1 ∨ mode = 2 ∨ mode = 3 := by omega
  rcases this with h | h | h | h <;> subst h
  · exact mapPrg_whole (by omega) fun p _ _ => by rw [hs]; simp [shiftPrgBank]
  · exact mapPrg_whole (by omega) fun p _ _ => by rw [hs]; simp [shiftPrgBank]
  · exact mapPrg_two (k := 16) (by omega) (by omega) (by omega) fun p _ _ => by rw [hs]; simp [shiftPrgBank]
  · exact mapPrg_two (k := 16) (by omega) (by omega) (by omega) fun p _ _ => by rw [hs]; simp [shiftPrgBank]

theorem shiftRemapChr_done {m : Mapper} (hl : m.cfg.legal = true) (hv : m.cfg.variant = .shift) :
    shiftRemapChr m = .done (m.setPputab m.laidOut.pputab) := by
  have h1 := Cfg.legal_chr hl
  have hb : m.cfg.banksChr = 8 * m.cfg.nChr8 := rfl
  have ha := maskTo_lt m.shift.chr0.toNat (count := 2 * m.cfg.nChr8) (by omega)
  have hc := maskTo_lt m.shift.chr1.toNat (count := 2 * m.cfg.nChr8) (by omega)
  have hd := maskTo_lt (m.shift.chr0.toNat / 2) (count := m.cfg.nChr8) (by omega)
  unfold shiftRemapChr
  split
  · rename_i h
    exact mapChr_two (by unfold chrBanks4; omega) (by unfold chrBanks4; omega) fun p _ => by
      simp only [shownChr, hv, h, if_true, chrBanks4]
  · rename_i h
    exact mapChr_whole (by omega) fun p _ => by
      simp only [shownChr, hv, h]
      simp

/-- `SHIFT.REMAP` completes and lays the block out by its four registers (R199). -/
theorem shiftRemap_done {m : Mapper} (hl : m.cfg.legal = true) (hv : m.cfg.variant = .shift) :
    shiftRemap m = .done (m.laidOut.showing (ctrlMirroring m.shift.ctrl)) := by
  unfold shiftRemap
  rw [shiftRemapPrg_done hl hv, andThen_done, shiftRemapChr_done (legal_setCputab _ hl) (variant_setCputab _ hv), andThen_done,
    setPputab_laidOut_pputab, laidOut_of_parts]
  have h4 : ctrlMirroring m.shift.ctrl ≠ .fourScreen := by
    unfold ctrlMirroring
    split <;> simp
  refine setMirror_done ?_
  rw [Mapper.laidOut_cfg]
  exact Cfg.legal_mode hl _ fun h => absurd h h4

theorem irqRemapPrg_done {m : Mapper} (hl : m.cfg.legal = true) (hv : m.cfg.variant = .irq) :
    irqRemapPrg m = .done (m.setCputab m.laidOut.cputab) := by
  have h1 := Cfg.legal_prg hl
  have hb : m.cfg.banksPrg = 16 * m.cfg.nPrg16 := rfl
  have h6 : maskTo m.irq.bank[(6 : Fin 8)].toNat (2 * m.cfg.nPrg16) < 2 * m.cfg.nPrg16 := maskTo_lt _ (by omega)
  have h7 : maskTo m.irq.bank[(7 : Fin 8)].toNat (2 * m.cfg.nPrg16) < 2 * m.cfg.nPrg16 := maskTo_lt _ (by omega)
  have e6 : prgSingle m.cfg.toGeometry m.irq 6 = maskTo m.irq.bank[(6 : Fin 8)].toNat (2 * m.cfg.nPrg16) := rfl
  have e7 : prgSingle m.cfg.toGeometry m.irq 7 = maskTo m.irq.bank[(7 : Fin 8)].toNat (2 * m.cfg.nPrg16) := rfl
  have hs : ∀ p, shownPrg m p = 8 * irqPrgUnit m.cfg.toGeometry m.irq ((p - 32) / 8) + p % 8 := by
    intro p
    simp only [shownPrg, hv]
  have hu : ∀ w, irqPrgUnit m.cfg.toGeometry m.irq w =
      if w = 0 then (if m.irq.prgMode then 2 * m.cfg.nPrg16 - 2 else prgSingle m.cfg.toGeometry m.irq 6)
      else if w = 1 then prgSingle m.cfg.toGeometry m.irq 7
      else if w = 2 then (if m.irq.prgMode then prgSingle m.cfg.toGeometry m.irq 6 else 2 * m.cfg.nPrg16 - 2)
      else 2 * m.cfg.nPrg16 - 1 := fun w => rfl
  rw [← e6] at h6
  rw [← e7] at h7
  unfold irqRemapPrg
  simp only [prgBanks8]
  generalize prgSingle m.cfg.toGeometry m.irq 6 = r6 at *
  generalize prgSingle m.cfg.toGeometry m.irq 7 = r7 at *
  have hlow : (if m.irq.prgMode = true then 2 * m.cfg.nPrg16 - 2 else r6) < 2 * m.cfg.nPrg16 := by
    split <;> omega
  have hhigh : (if m.irq.prgMode = true then r6 else 2 * m.cfg.nPrg16 - 2) < 2 * m.cfg.nPrg16 := by
    split <;> omega
  generalize (if m.irq.prgMode = true then 2 * m.cfg.nPrg16 - 2 else r6) = low at *
  generalize (if m.irq.prgMode = true then r6 else 2 * m.cfg.nPrg16 - 2) = high at *
  rw [mapPrg_done, andThen_done, mapPrg_done, andThen_done, mapPrg_done, andThen_done, mapPrg_done]
  · simp only [Mapper.setCputab_setCputab, Mapper.setCputab_cputab]
    refine congrArg (fun t => ProcResult.done (m.setCputab t)) (Vector.ext fun p hp => ?_)
    rw [Mapper.laidOut_cputab]
    simp only [prgWindow_getElem]
    rcases Nat.lt_or_ge p 32 with h | h
    · rw [if_neg (by omega), if_neg (by omega), if_neg (by omega), if_neg (by omega), if_pos h]
    · rw [if_neg (show ¬ p < 32 by omega), hs, hu]
      have hw : (p - 32) / 8 = 0 ∨ (p - 32) / 8 = 1 ∨ (p - 32) / 8 = 2 ∨ (p - 32) / 8 = 3 := by omega
      rcases hw with hw | hw | hw | hw <;> rw [hw]
      · rw [if_neg (by omega), if_neg (by omega), if_neg (by omega), if_pos (by omega), if_pos rfl]
        congr 2
        omega
      · rw [if_neg (by omega), if_neg (by omega), if_pos (by omega), if_neg (by omega), if_pos rfl]
        congr 2
        omega
      · rw [if_neg (by omega), if_pos (by omega), if_neg (by omega), if_neg (by omega), if_pos rfl]
        congr 2
        omega
      · rw [if_pos (by omega), if_neg (by omega), if_neg (by omega), if_neg (by omega)]
        congr 2
        omega
  all_goals try simp only [Mapper.setCputab_cfg]
  all_goals omega

theorem irqRemapChr_done {m : Mapper} (hl : m.cfg.legal = true) (hv : m.cfg.variant = .irq) :
    irqRemapChr m = .done (m.setPputab m.laidOut.pputab) := by
  have hp := chrPair_lt hl m.irq
  have hc := chrSingle_lt hl m.irq
  have hs : ∀ p, shownChr m p = irqChrBank m.cfg.toGeometry m.irq (if m.irq.chrMode then (p + 4) % 8 else p) := by
    intro p
    simp only [shownChr, hv]
  have hu : ∀ w, irqChrBank m.cfg.toGeometry m.irq w =
      if w < 2 then chrPair m.cfg.toGeometry m.irq 0 + w
      else if w < 4 then chrPair m.cfg.toGeometry m.irq 1 + (w - 2)
      else if w = 4 then chrSingle m.cfg.toGeometry m.irq 2
      else if w = 5 then chrSingle m.cfg.toGeometry m.irq 3
      else if w = 6 then chrSingle m.cfg.toGeometry m.irq 4
      else chrSingle m.cfg.toGeometry m.irq 5 := fun w => rfl
  have hp0 := hp 0
  have hp1 := hp 1
  have hc2 := hc 2
  have hc3 := hc 3
  have hc4 := hc 4
  have hc5 := hc 5
  clear hp hc
  unfold irqRemapChr
  simp only
  generalize chrPair m.cfg.toGeometry m.irq 0 = a0 at *
  generalize chrPair m.cfg.toGeometry m.irq 1 = a1 at *
  generalize chrSingle m.cfg.toGeometry m.irq 2 = b2 at *
  generalize chrSingle m.cfg.toGeometry m.irq 3 = b3 at *
  generalize chrSingle m.cfg.toGeometry m.irq 4 = b4 at *
  generalize chrSingle m.cfg.toGeometry m.irq 5 = b5 at *
  split
  · rename_i h
    rw [mapChr_done, andThen_done, mapChr_done, andThen_done, mapChr_done, andThen_done, mapChr_done, andThen_done,
      mapChr_done, andThen_done, mapChr_done]
    · simp only [Mapper.setPputab_setPputab, Mapper.setPputab_pputab, Mapper.setPputab_cfg]
      refine congrArg (fun t => ProcResult.done (m.setPputab t)) (Vector.ext fun p hp => ?_)
      rw [Mapper.laidOut_pputab]
      simp only [chrWindow_getElem]
      rcases Nat.lt_or_ge p 8 with h8 | h8
      · rw [if_pos h8, hs, h, if_pos rfl, hu]
        have : p = 0 ∨ p = 1 ∨ p = 2 ∨ p = 3 ∨ p = 4 ∨ p = 5 ∨ p = 6 ∨ p = 7 := by omega
        rcases this with h | h | h | h | h | h | h | h <;> subst h <;> simp
      · repeat rw [if_neg (by omega)]
    all_goals try simp only [Mapper.setPputab_cfg]
    all_goals omega
  · rename_i h
    rw [mapChr_done, andThen_done, mapChr_done, andThen_done, mapChr_done, andThen_done, mapChr_done, andThen_done,
      mapChr_done, andThen_done, mapChr_done]
    · simp only [Mapper.setPputab_setPputab, Mapper.setPputab_pputab, Mapper.setPputab_cfg]
      refine congrArg (fun t => ProcResult.done (m.setPputab t)) (Vector.ext fun p hp => ?_)
      rw [Mapper.laidOut_pputab]
      simp only [chrWindow_getElem]
      rcases Nat.lt_or_ge p 8 with h8 | h8
      · rw [if_pos h8, hs, if_neg h, hu]
        have : p = 0 ∨ p = 1 ∨ p = 2 ∨ p = 3 ∨ p = 4 ∨ p = 5 ∨ p = 6 ∨ p = 7 := by omega
        rcases this with h | h | h | h | h | h | h | h <;> subst h <;> simp
      · repeat rw [if_neg (by omega)]
    all_goals try simp only [Mapper.setPputab_cfg]
    all_goals omega

/-- `IRQ.REMAP` completes and lays the block out by its bank registers and modes (R214, R215). -/
theorem irqRemap_done {m : Mapper} (hl : m.cfg.legal = true) (hv : m.cfg.variant = .irq) :
    irqRemap m = .done m.laidOut := by
  unfold irqRemap
  rw [irqRemapPrg_done hl hv, andThen_done, irqRemapChr_done (legal_setCputab _ hl) (variant_setCputab _ hv),
    setPputab_laidOut_pputab, laidOut_of_parts]

/-- `LATCH.REMAP` completes on masked registers and lays the block out by them (R246). -/
theorem latchRemap_done {m : Mapper} (hl : m.cfg.legal = true) (hv : m.cfg.variant = .latch)
    (hr : latchLegal m.cfg m.latch = true) : latchRemap m = .done m.laidOut := by
  have h2 : 2 ≤ m.cfg.nPrg16 := by
    have := (Cfg.legal_parts hl).2.2.2.1
    simpa [Geometry.prgMinOk, hv] using this
  have h3 : m.cfg.split = 8 ∨ m.cfg.split = 16 := by
    have := (Cfg.legal_parts hl).2.2.2.2.2.2
    simpa [Geometry.splitOk, hv] using this
  have hb : m.cfg.banksPrg = 16 * m.cfg.nPrg16 := rfl
  have hc : m.cfg.banksChr = 8 * m.cfg.nChr8 := rfl
  simp only [latchLegal, hv, Bool.and_eq_true, prgUnits, chrBanks4] at hr
  obtain ⟨⟨⟨⟨hr0, hr1⟩, hr2⟩, hr3⟩, hr4⟩ := hr
  replace hr0 := of_decide_eq_true hr0
  replace hr1 := of_decide_eq_true hr1
  replace hr2 := of_decide_eq_true hr2
  replace hr3 := of_decide_eq_true hr3
  replace hr4 := of_decide_eq_true hr4
  have ha : latchBank0 m.latch < 2 * m.cfg.nChr8 := by
    unfold latchBank0
    split <;> assumption
  have hd : latchBank1 m.latch < 2 * m.cfg.nChr8 := by
    unfold latchBank1
    split <;> assumption
  have hchr : ∀ a : Mapper, a.cfg = m.cfg → a.latch = m.latch →
      ((mapChr 0 4 (4 * latchBank0 m.latch) a).andThen fun m' => mapChr 4 4 (4 * latchBank1 m.latch) m') =
        .done (a.setPputab a.laidOut.pputab) := fun a hac hal => by
    refine mapChr_two (by rw [hac]; omega) (by rw [hac]; omega) fun p _ => ?_
    simp only [shownChr, hac, hv, hal]
  have hs : ∀ p, 32 ≤ p → p < 64 → shownPrg m p = if p < 32 + m.cfg.split then m.cfg.split * m.latch.prgSel.toNat + (p - 32)
      else m.cfg.banksPrg - (32 - m.cfg.split) + (p - (32 + m.cfg.split)) := fun p _ _ => by
    simp only [shownPrg, hv]
  have hassoc : latchRemap m =
      (((mapPrg 32 m.cfg.split (m.cfg.split * m.latch.prgSel.toNat) m).andThen fun m' =>
        mapPrg (32 + m.cfg.split) (32 - m.cfg.split) (m.cfg.banksPrg - (32 - m.cfg.split)) m').andThen fun m'' =>
        (mapChr 0 4 (4 * latchBank0 m.latch) m'').andThen fun m3 => mapChr 4 4 (4 * latchBank1 m.latch) m3) := by
    unfold latchRemap
    simp only
    cases mapPrg 32 m.cfg.split (m.cfg.split * m.latch.prgSel.toNat) m <;> rfl
  rw [hassoc, mapPrg_two (by omega) ?_ (by omega) hs, andThen_done, hchr _ (Mapper.setCputab_cfg ..)
    (Mapper.setCputab_latch ..), setPputab_laidOut_pputab, laidOut_of_parts]
  rcases h3 with h | h <;> rw [h] at hr0 ⊢ <;> omega

/-! ### The layout at power-on, and of every reached state -/

theorem wholePrg_done {m : Mapper} (hl : m.cfg.legal = true) (hv : m.cfg.variant = .nrom ∨ m.cfg.variant = .cnrom) :
    wholePrg m = .done (m.setCputab m.laidOut.cputab) := by
  have h2 : m.cfg.nPrg16 = 1 ∨ m.cfg.nPrg16 = 2 := by
    have := (Cfg.legal_parts hl).2.2.1
    rcases hv with hv | hv <;> simpa [Geometry.prgMaxOk, hv] using this
  have hb : m.cfg.banksPrg = 16 * m.cfg.nPrg16 := rfl
  have hs : ∀ p, shownPrg m p = if m.cfg.nPrg16 = 2 then p - 32 else (p - 32) % 16 := fun p => by
    rcases hv with hv | hv <;> simp only [shownPrg, hv]
  unfold wholePrg
  split
  · rename_i h
    refine mapPrg_whole (by omega) fun p _ _ => ?_
    rw [hs, if_pos h]
    omega
  · rename_i h
    refine mapPrg_two (k := 16) (by omega) (by omega) (by omega) fun p _ _ => ?_
    rw [hs, if_neg h]
    split <;> omega

theorem selectedAndLast_done {m : Mapper} (hl : m.cfg.legal = true)
    (hv : m.cfg.variant = .uxrom ∨ m.cfg.variant = .unrom512) (hr : m.direct.selPrg.toNat < m.cfg.nPrg16) :
    selectedAndLast m = .done (m.setCputab m.laidOut.cputab) := by
  have h1 := Cfg.legal_prg hl
  have hb : m.cfg.banksPrg = 16 * m.cfg.nPrg16 := rfl
  refine mapPrg_two (k := 16) (by omega) (by omega) (by omega) fun p _ _ => ?_
  rcases hv with hv | hv <;> simp only [shownPrg, hv]

/-- The windows of every variant, from registers it can hold. -/
theorem variantLayout_done {m : Mapper} (hl : m.cfg.legal = true) (hr : m.regsLegal = true) :
    variantLayout m =
      .done (if m.cfg.variant = .shift then m.laidOut.showing (ctrlMirroring m.shift.ctrl) else m.laidOut) := by
  simp only [Mapper.regsLegal, Bool.and_eq_true] at hr
  obtain ⟨⟨⟨hd, hsh⟩, hi⟩, hla⟩ := hr
  have hp1 := Cfg.legal_prg hl
  have hc1 := Cfg.legal_chr hl
  have hbp : m.cfg.banksPrg = 16 * m.cfg.nPrg16 := rfl
  have hbc : m.cfg.banksChr = 8 * m.cfg.nChr8 := rfl
  have hcomb : ∀ (f : Mapper → ProcResult) (b : Nat), b + 8 ≤ m.cfg.banksChr →
      (∀ p, p < 8 → shownChr m p = b + p) →
      (∀ t, f (m.setPputab t) = .done ((m.setPputab t).setCputab (m.setPputab t).laidOut.cputab)) →
      (mapChr 0 8 b m).andThen f = .done m.laidOut := fun f b hb hs hf => by
    rw [mapChr_whole hb hs, andThen_done, hf, setCputab_laidOut_cputab, Mapper.setPputab_setCputab,
      laidOut_of_parts]
  unfold variantLayout
  cases hv : m.cfg.variant <;> simp only [reduceCtorEq, if_false, if_true] <;> simp only [directLegal, hv] at hd
  · exact hcomb _ 0 (by omega) (fun p _ => by simp only [shownChr, hv]; omega)
      fun t => wholePrg_done (legal_setPputab t hl) (.inl (variant_setPputab t hv))
  · simp only [Bool.and_eq_true, decide_eq_true_eq] at hd
    exact hcomb _ 0 (by omega) (fun p _ => by simp only [shownChr, hv]; omega)
      fun t => selectedAndLast_done (legal_setPputab t hl) (.inl (variant_setPputab t hv)) hd.1
  · simp only [Bool.and_eq_true, decide_eq_true_eq] at hd
    exact hcomb _ _ (by omega) (fun p _ => by simp only [shownChr, hv])
      fun t => wholePrg_done (legal_setPputab t hl) (.inr (variant_setPputab t hv))
  · simp only [Bool.and_eq_true, decide_eq_true_eq] at hd
    exact hcomb _ 0 (by omega) (fun p _ => by simp only [shownChr, hv]; omega)
      fun t => mapPrg_whole (by rw [Mapper.setPputab_cfg, hbp]; simp only [Mapper.setPputab_direct]; omega) fun p _ _ => by
        simp only [shownPrg, Mapper.setPputab_cfg, hv, Mapper.setPputab_direct]
  · simp only [Bool.and_eq_true, decide_eq_true_eq] at hd
    exact hcomb _ _ (by omega) (fun p _ => by simp only [shownChr, hv])
      fun t => mapPrg_whole (by rw [Mapper.setPputab_cfg, hbp]; simp only [Mapper.setPputab_direct]; omega) fun p _ _ => by
        simp only [shownPrg, Mapper.setPputab_cfg, hv, Mapper.setPputab_direct]
  · simp only [Bool.and_eq_true, decide_eq_true_eq] at hd
    exact hcomb _ _ (by omega) (fun p _ => by simp only [shownChr, hv])
      fun t => selectedAndLast_done (legal_setPputab t hl) (.inr (variant_setPputab t hv)) hd.1.1.1
  · exact shiftRemap_done hl hv
  · exact irqRemap_done hl hv
  · exact latchRemap_done hl hv hla

/-- `MIRROR(CPUTAB, 0, 2, d)` (R312). -/
theorem mirrorRange_ram (t : Vector Bank 64) (d p : Nat) (h : p < 64) (hd : d ≤ 6) (h0 : 2 ≤ d) :
    (mirrorRange t 0 2 d)[p] = if d ≤ p ∧ p < d + 2 then t[p - d] else t[p] := by
  rw [mirrorRange_getElem]
  by_cases hp : d ≤ p ∧ p < d + 2
  · have h1 : (p + 64 - (0 + d) % 64) % 64 = p - d := by omega
    simp only [h1]
    rw [dif_pos (by omega), if_pos hp]
    congr 1
    omega
  · have h1 : ¬ ((p + 64 - (0 + d) % 64) % 64 < 2 ∧ 0 + (p + 64 - (0 + d) % 64) % 64 < 64) := by omega
    rw [dif_neg h1, if_neg hp]

theorem systemRam_done {m : Mapper} :
    ∃ t, systemRam (blankTables m) = .done ((blankTables m).setCputab t) ∧
      ∀ p (h : p < 64), t[p] = if p < 8 then cpuEntry m p else Bank.unmapped := by
  unfold systemRam
  have hc : (blankTables m).cfg = m.cfg := by simp only [blankTables, Mapper.setPputab_cfg, Mapper.setCputab_cfg]
  have ht : ∀ p (h : p < 64), (blankTables m).cputab[p] = Bank.unmapped := fun p h => by
    simp only [blankTables, Mapper.setPputab_cputab, Mapper.setCputab_cputab, Vector.getElem_replicate]
  rw [hc]
  split
  · rename_i h2
    rw [mapCpuRam_done (by omega) (by rw [hc]; omega), andThen_done, mirrorProc_cpu (by omega), andThen_done,
      mirrorProc_cpu (by omega), andThen_done, mirrorProc_cpu (by omega)]
    simp only [Mapper.setCputab_setCputab, Mapper.setCputab_cputab]
    refine ⟨_, rfl, fun p hp => ?_⟩
    rw [mirrorRange_ram _ _ _ _ (by omega) (by omega), hc]
    simp only [mirrorRange_ram _ 4 _ _ (by omega) (by omega), mirrorRange_ram _ 2 _ _ (by omega) (by omega),
      mapRange_getElem, ht]
    rcases Nat.lt_or_ge p 8 with h8 | h8
    · rw [if_pos h8]
      have : p = 0 ∨ p = 1 ∨ p = 2 ∨ p = 3 ∨ p = 4 ∨ p = 5 ∨ p = 6 ∨ p = 7 := by omega
      rcases this with h | h | h | h | h | h | h | h <;> subst h <;> simp [cpuEntry, h2]
    · rw [if_neg (by omega), if_neg (by omega), if_neg (by omega), if_neg (by omega), if_neg (by omega)]
  · rename_i h2
    refine ⟨(blankTables m).cputab, rfl, fun p hp => ?_⟩
    rw [ht]
    split
    · rename_i h8
      simp only [cpuEntry, h8, h2, if_true, if_false]
    · rfl

theorem workRam_done {m a : Mapper} (hc : a.cfg = m.cfg)
    (ht : ∀ p (h : p < 64), a.cputab[p] = if p < 8 then cpuEntry m p else Bank.unmapped) :
    ∃ t, workRam a = .done (a.setCputab t) ∧ ∀ p (h : p < 64), t[p] = if p < 32 then cpuEntry m p else Bank.unmapped := by
  unfold workRam
  rw [hc]
  split
  · rename_i h2
    rw [mapCpuRam_done (by omega) (by rw [hc]; omega)]
    refine ⟨_, rfl, fun p hp => ?_⟩
    rw [mapRange_getElem, hc, ht]
    rcases Nat.lt_or_ge p 8 with h8 | h8
    · rw [if_neg (by omega), if_pos h8, if_pos (by omega)]
    · rcases Nat.lt_or_ge p 24 with h24 | h24
      · rw [if_neg (by omega), if_neg (by omega), if_pos (by omega)]
        simp only [cpuEntry, show ¬ p < 8 by omega, h24, if_true, if_false]
      · rcases Nat.lt_or_ge p 32 with h32 | h32
        · rw [if_pos (by omega), if_pos h32]
          simp only [cpuEntry, show ¬ p < 8 by omega, show ¬ p < 24 by omega, h32, h2, if_true, if_false]
        · rw [if_neg (by omega), if_neg (by omega), if_neg (by omega)]
  · rename_i h2
    refine ⟨a.cputab, rfl, fun p hp => ?_⟩
    rw [ht]
    rcases Nat.lt_or_ge p 8 with h8 | h8
    · rw [if_pos h8, if_pos (by omega)]
    · rw [if_neg (by omega)]
      split
      · rename_i h32
        simp only [cpuEntry, show ¬ p < 8 by omega, h32, h2, if_true, if_false]
        split <;> rfl
      · rfl

/-- The layout completes, and gives every entry as configuration, registers and mode show it (R71, R72,
R312 to R323). -/
theorem layout_done {m : Mapper} {mode : Mirroring} (hl : m.cfg.legal = true) (hr : m.regsLegal = true)
    (hm : modeBanks mode ≤ m.cfg.banksPpuRam) : layout mode m = .done (m.tabled (shownMode mode m)) := by
  obtain ⟨t1, h1, ht1⟩ := systemRam_done (m := m)
  have hc1 : ((blankTables m).setCputab t1).cfg = m.cfg := by
    simp only [blankTables, Mapper.setPputab_cfg, Mapper.setCputab_cfg]
  obtain ⟨t2, h2, ht2⟩ := workRam_done (m := m) (a := (blankTables m).setCputab t1) hc1 fun p h => by
    rw [Mapper.setCputab_cputab]; exact ht1 p h
  unfold layout
  rw [h1, andThen_done, h2, andThen_done]
  have e1 : ((blankTables m).setCputab t1).setCputab t2 =
      (m.setCputab t2).setPputab (Vector.replicate 16 Bank.unmapped) := by
    simp only [blankTables, Mapper.setCputab_setCputab, Mapper.setPputab_setCputab]
  rw [e1, setMirror_done (by rw [Mapper.setPputab_cfg, Mapper.setCputab_cfg]; exact hm), andThen_done]
  generalize hb : Mapper.showing mode ((m.setCputab t2).setPputab (Vector.replicate 16 Bank.unmapped)) = b
  have eb : b = (m.setCputab t2).setPputab b.pputab := by
    rw [← hb]; simp only [Mapper.showing, Mapper.setCputab, Mapper.setPputab]
  have epp : ∀ p (h : p < 16), 8 ≤ p → b.pputab[p] = ppuEntry mode m p := fun p h h8 => by
    rw [← hb]
    simp only [Mapper.showing, Vector.getElem_ofFn]
    rw [if_neg (by omega), ppuEntry_nametable _ _ _ h8, ppuEntry_nametable _ _ _ h8]
    rfl
  have ecp : b.cputab = t2 := by rw [eb]; rfl
  have ecfg : b.cfg = m.cfg := by rw [eb]; rfl
  have eprg : ∀ p, shownPrg b p = shownPrg m p := fun p => by rw [eb]; rfl
  have echr : ∀ p, shownChr b p = shownChr m p := fun p => by rw [eb]; rfl
  have eshift : b.shift = m.shift := by rw [eb]; rfl
  rw [variantLayout_done (by rw [ecfg]; exact hl) (by rw [eb]; exact hr), ecfg, eshift]
  have hcpu : b.laidOut.cputab = (m.tabled (shownMode mode m)).cputab := by
    refine Vector.ext fun p hp => ?_
    rw [Mapper.laidOut_cputab, ecp, eprg]
    simp only [Mapper.tabled, Vector.getElem_ofFn, ht2]
    split
    · rfl
    · rw [cpuEntry_prg _ _ (by omega)]
  have hrest : ∀ (c : Mapper), c.cfg = b.cfg → c = (b.setCputab c.cputab).setPputab c.pputab →
      c.cputab = (m.tabled (shownMode mode m)).cputab → c.pputab = (m.tabled (shownMode mode m)).pputab →
      c = m.tabled (shownMode mode m) := fun c _ h h1 h2 => by
    rw [h, h1, h2, eb]
    simp only [Mapper.tabled, Mapper.setCputab, Mapper.setPputab]
  congr 1
  split
  · rename_i hv
    refine hrest _ (by rw [Mapper.showing_cfg, Mapper.laidOut_cfg])
      (by simp only [Mapper.showing, Mapper.laidOut, Mapper.setCputab, Mapper.setPputab])
      (by rw [← hcpu]; simp only [Mapper.showing]) (Vector.ext fun p hp => ?_)
    simp only [Mapper.tabled, Mapper.showing, Vector.getElem_ofFn, Fin.getElem_fin]
    have hsm : shownMode mode m = ctrlMirroring m.shift.ctrl := by simp only [shownMode, hv, if_true]
    split
    · rename_i h8
      rw [Mapper.laidOut_pputab, if_pos h8, ppuEntry_chr _ _ _ h8, ecfg, echr]
    · rename_i h8
      rw [ppuEntry_nametable _ _ _ (by omega), ppuEntry_nametable _ _ _ (by omega), hsm, Mapper.laidOut_cfg, ecfg]
  · rename_i hv
    refine hrest _ (Mapper.laidOut_cfg b)
      (by simp only [Mapper.laidOut, Mapper.setCputab, Mapper.setPputab]) hcpu (Vector.ext fun p hp => ?_)
    have hsm : shownMode mode m = mode := by simp only [shownMode, hv, if_false]
    rw [Mapper.laidOut_pputab]
    simp only [Mapper.tabled, Vector.getElem_ofFn]
    split
    · rename_i h8
      rw [ppuEntry_chr _ _ _ h8, ecfg, echr]
    · rename_i h8
      rw [epp p hp (by omega), hsm]

end Sys2Proof.Machine
end

