-- ==== Sys2Proof/Laws/Memory.lean ====
section
/-! SUPPORT. The laws of the store: a read after a write, the canonical form kept by every operation,
and equality of canonical stores by their bytes. -/

namespace Sys2Proof.Machine

@[simp] theorem Memory.read_nil (i : Nat) : Memory.read [] i = 0#8 := rfl

theorem Memory.wfFrom_cons (lo j : Nat) (b : Byte) (rest : Memory) :
    Memory.wfFrom lo ((j, b) :: rest) = true ↔ lo ≤ j ∧ b ≠ 0#8 ∧ Memory.wfFrom (j + 1) rest = true := by
  simp only [Memory.wfFrom, Bool.and_eq_true, decide_eq_true_eq, and_assoc]
  exact Iff.rfl

/-- The canonical form from a higher offset is the canonical form from a lower one. -/
theorem Memory.wfFrom_mono {lo lo' : Nat} (h : lo' ≤ lo) (m : Memory) (hm : Memory.wfFrom lo m = true) :
    Memory.wfFrom lo' m = true := by
  cases m with
  | nil => rfl
  | cons c rest =>
    obtain ⟨j, b⟩ := c
    rw [Memory.wfFrom_cons] at hm ⊢
    exact ⟨by omega, hm.2⟩

/-- An offset below all listed ones reads as the unlisted byte. -/
theorem Memory.read_of_lt {lo i : Nat} (m : Memory) (hm : Memory.wfFrom lo m = true) (h : i < lo) :
    Memory.read m i = 0#8 := by
  induction m generalizing lo with
  | nil => rfl
  | cons c rest ih =>
    obtain ⟨j, b⟩ := c
    rw [Memory.wfFrom_cons] at hm
    have : j ≠ i := by omega
    simp only [Memory.read, if_neg this]
    exact ih hm.2.2 (by omega)

theorem Memory.write_wfFrom {lo : Nat} (m : Memory) (i : Nat) (v : Byte) (h : lo ≤ i)
    (hm : Memory.wfFrom lo m = true) : Memory.wfFrom lo (Memory.write m i v) = true := by
  induction m generalizing lo with
  | nil =>
    by_cases hv : v = 0#8
    · simp [Memory.write, Memory.unlisted, hv, Memory.wfFrom]
    · simp [Memory.write, Memory.unlisted, hv, Memory.wfFrom, h]
  | cons c rest ih =>
    obtain ⟨j, b⟩ := c
    have hm' := hm
    rw [Memory.wfFrom_cons] at hm'
    obtain ⟨h1, h2, h3⟩ := hm'
    rcases Nat.lt_trichotomy i j with hij | hij | hij
    · by_cases hv : v = 0#8
      · simpa [Memory.write, hij, hv, Memory.unlisted] using hm
      · simp only [Memory.write, hij, if_true, Memory.unlisted, hv, if_false]
        rw [Memory.wfFrom_cons, Memory.wfFrom_cons]
        exact ⟨h, hv, by omega, h2, h3⟩
    · subst hij
      by_cases hv : v = 0#8
      · simp only [Memory.write, Nat.lt_irrefl, if_false, if_true, Memory.unlisted, hv]
        exact Memory.wfFrom_mono (by omega) rest h3
      · simp only [Memory.write, Nat.lt_irrefl, if_false, if_true, Memory.unlisted, hv]
        rw [Memory.wfFrom_cons]
        exact ⟨h, hv, h3⟩
    · simp only [Memory.write, Nat.lt_asymm hij, if_false, Nat.ne_of_gt hij]
      rw [Memory.wfFrom_cons]
      exact ⟨h1, h2, ih (by omega) h3⟩

/-- A write keeps the canonical form. -/
theorem Memory.write_wf (m : Memory) (i : Nat) (v : Byte) (hm : Memory.wf m = true) :
    Memory.wf (Memory.write m i v) = true := Memory.write_wfFrom m i v (Nat.zero_le i) hm

theorem Memory.read_write_from {lo : Nat} (m : Memory) (i : Nat) (v : Byte) (k : Nat)
    (hm : Memory.wfFrom lo m = true) :
    Memory.read (Memory.write m i v) k = if k = i then v else Memory.read m k := by
  induction m generalizing lo with
  | nil =>
    by_cases hv : v = 0#8
    · simp [Memory.write, Memory.unlisted, hv, Memory.read]
    · by_cases hk : k = i
      · simp [Memory.write, Memory.unlisted, hv, Memory.read, hk]
      · simp [Memory.write, Memory.unlisted, hv, Memory.read, hk, Ne.symm hk]
  | cons c rest ih =>
    obtain ⟨j, b⟩ := c
    rw [Memory.wfFrom_cons] at hm
    obtain ⟨h1, h2, h3⟩ := hm
    rcases Nat.lt_trichotomy i j with hij | hij | hij
    · by_cases hv : v = 0#8
      · simp only [Memory.write, hij, if_true, Memory.unlisted, hv]
        by_cases hk : k = i
        · have hr := Memory.read_of_lt rest h3 (i := i) (by omega)
          simp [hk, Memory.read, Nat.ne_of_gt hij, hr]
        · simp [hk]
      · simp only [Memory.write, hij, if_true, Memory.unlisted, hv, if_false]
        by_cases hk : k = i
        · simp [hk, Memory.read]
        · simp [hk, Memory.read, Ne.symm hk]
    · subst hij
      by_cases hv : v = 0#8
      · simp only [Memory.write, Nat.lt_irrefl, if_false, if_true, Memory.unlisted, hv]
        by_cases hk : k = i
        · have hr := Memory.read_of_lt rest h3 (i := i) (by omega)
          simp [hk, hr]
        · simp [hk, Memory.read, Ne.symm hk]
      · simp only [Memory.write, Nat.lt_irrefl, if_false, if_true, Memory.unlisted, hv]
        by_cases hk : k = i
        · simp [hk, Memory.read]
        · simp [hk, Memory.read, Ne.symm hk]
    · simp only [Memory.write, Nat.lt_asymm hij, if_false, Nat.ne_of_gt hij, Memory.read]
      by_cases hk : j = k
      · have : k ≠ i := by omega
        simp [hk, this]
      · simp only [if_neg hk]
        exact ih h3

/-- A read after a write: the value at that offset, every other byte as before. -/
theorem Memory.read_write (m : Memory) (i : Nat) (v : Byte) (k : Nat) (hm : Memory.wf m = true) :
    Memory.read (Memory.write m i v) k = if k = i then v else Memory.read m k :=
  Memory.read_write_from m i v k hm

/-- A read after a write at another offset needs no canonical form. -/
theorem Memory.read_write_ne (m : Memory) (i : Nat) (v : Byte) (k : Nat) (hk : k ≠ i) :
    Memory.read (Memory.write m i v) k = Memory.read m k := by
  induction m with
  | nil => by_cases hv : v = 0#8 <;> simp [Memory.write, Memory.unlisted, hv, Memory.read, Ne.symm hk]
  | cons c rest ih =>
    obtain ⟨j, b⟩ := c
    simp only [Memory.write]
    split
    · split <;> simp [Memory.read, Ne.symm hk]
    · split
      · rename_i hij
        subst hij
        split <;> simp [Memory.read, Ne.symm hk]
      · simp only [Memory.read]
        split
        · rfl
        · exact ih

/-- A write below `len` keeps every listed offset below `len`. -/
theorem Memory.write_below (m : Memory) (i : Nat) (v : Byte) (len : Nat) (hi : i < len)
    (hm : Memory.below m len = true) : Memory.below (Memory.write m i v) len = true := by
  induction m with
  | nil => by_cases hv : v = 0#8 <;> simp [Memory.write, Memory.unlisted, hv, Memory.below, hi]
  | cons c rest ih =>
    obtain ⟨j, b⟩ := c
    simp only [Memory.below, List.all_cons, Bool.and_eq_true, decide_eq_true_eq] at hm
    have hr : ∀ x ∈ rest, x.1 < len := by simpa [Memory.below] using hm.2
    have ih' := ih (by simpa [Memory.below] using hm.2)
    simp only [Memory.below, List.all_eq_true, decide_eq_true_eq] at ih'
    simp only [Memory.write]
    split
    · split <;> simp [Memory.below, hi, hm.1] <;> exact fun a b h => hr (a, b) h
    · split
      · split <;> simp [Memory.below, hi] <;> exact fun a b h => hr (a, b) h
      · simp [Memory.below, hm.1]
        exact fun a b h => ih' (a, b) h

theorem Memory.ext_from {lo : Nat} (a b : Memory) (ha : Memory.wfFrom lo a = true)
    (hb : Memory.wfFrom lo b = true) (h : ∀ i, Memory.read a i = Memory.read b i) : a = b := by
  induction a generalizing lo b with
  | nil =>
    cases b with
    | nil => rfl
    | cons c rest =>
      obtain ⟨j, x⟩ := c
      rw [Memory.wfFrom_cons] at hb
      have := h j
      simp [Memory.read] at this
      exact absurd this.symm hb.2.1
  | cons c rest ih =>
    obtain ⟨j, x⟩ := c
    rw [Memory.wfFrom_cons] at ha
    cases b with
    | nil =>
      have := h j
      simp [Memory.read] at this
      exact absurd this ha.2.1
    | cons c' rest' =>
      obtain ⟨j', x'⟩ := c'
      rw [Memory.wfFrom_cons] at hb
      have hjj : j = j' := by
        rcases Nat.lt_trichotomy j j' with hlt | heq | hgt
        · have h1 := h j
          have h2 := Memory.read_of_lt rest' hb.2.2 (i := j) (by omega)
          simp [Memory.read, Nat.ne_of_gt hlt, h2] at h1
          exact absurd h1 ha.2.1
        · exact heq
        · have h1 := h j'
          have h2 := Memory.read_of_lt rest ha.2.2 (i := j') (by omega)
          simp [Memory.read, Nat.ne_of_gt hgt, h2] at h1
          exact absurd h1.symm hb.2.1
      subst hjj
      have hxx : x = x' := by simpa [Memory.read] using h j
      subst hxx
      have := ih rest' ha.2.2 hb.2.2 (fun i => by
        by_cases hi : j = i
        · subst hi
          rw [Memory.read_of_lt rest ha.2.2 (by omega), Memory.read_of_lt rest' hb.2.2 (by omega)]
        · simpa [Memory.read, hi] using h i)
      rw [this]

/-- Two stores in canonical form with the same bytes are equal data. -/
theorem Memory.ext (a b : Memory) (ha : Memory.wf a = true) (hb : Memory.wf b = true)
    (h : ∀ i, Memory.read a i = Memory.read b i) : a = b := Memory.ext_from a b ha hb h

/-! ### Picking offsets -/

theorem Memory.keep_wfFrom {lo : Nat} (p : Nat → Bool) (m : Memory) (hm : Memory.wfFrom lo m = true) :
    Memory.wfFrom lo (Memory.keep p m) = true := by
  induction m generalizing lo with
  | nil => rfl
  | cons c rest ih =>
    obtain ⟨j, b⟩ := c
    rw [Memory.wfFrom_cons] at hm
    simp only [Memory.keep, List.filter_cons]
    split
    · rw [Memory.wfFrom_cons]
      exact ⟨hm.1, hm.2.1, ih hm.2.2⟩
    · exact Memory.wfFrom_mono (by omega) _ (ih hm.2.2)

theorem Memory.keep_wf (p : Nat → Bool) (m : Memory) (hm : Memory.wf m = true) : Memory.wf (Memory.keep p m) = true :=
  Memory.keep_wfFrom p m hm

/-- A read of the picked bytes. -/
theorem Memory.read_keep (p : Nat → Bool) (m : Memory) (i : Nat) :
    Memory.read (Memory.keep p m) i = if p i then Memory.read m i else 0#8 := by
  induction m with
  | nil => simp [Memory.keep]
  | cons c rest ih =>
    obtain ⟨j, b⟩ := c
    have e : Memory.keep p ((j, b) :: rest) = if p j then (j, b) :: Memory.keep p rest else Memory.keep p rest := by
      simp only [Memory.keep, List.filter_cons]
    rw [e]
    by_cases hij : j = i
    · subst hij
      cases hp : p j with
      | true => simp [Memory.read]
      | false =>
        rw [if_neg (by decide), ih, hp]
        simp
    · cases hp : p j with
      | true =>
        rw [if_pos rfl]
        simp only [Memory.read, hij, if_false]
        exact ih
      | false =>
        rw [if_neg (by decide), ih]
        simp only [Memory.read, hij, if_false]

/-- The picked bytes of two stores are the same data exactly when they are the same bytes. -/
theorem Memory.keep_eq_iff (p : Nat → Bool) (a b : Memory) (ha : Memory.wf a = true) (hb : Memory.wf b = true) :
    Memory.keep p a = Memory.keep p b ↔ ∀ i, p i = true → Memory.read a i = Memory.read b i := by
  constructor
  · intro h i hi
    have h1 := Memory.read_keep p a i
    have h2 := Memory.read_keep p b i
    rw [hi, if_pos rfl] at h1 h2
    rw [← h1, ← h2, h]
  · intro h
    refine Memory.ext _ _ (Memory.keep_wf p a ha) (Memory.keep_wf p b hb) fun i => ?_
    rw [Memory.read_keep, Memory.read_keep]
    split
    · rename_i hi
      exact h i hi
    · rfl

/-! ### Runs of bytes -/

theorem Memory.writeBytes_wf (bytes : List Byte) (m : Memory) (base : Nat) (hm : Memory.wf m = true) :
    Memory.wf (Memory.writeBytes m base bytes) = true := by
  induction bytes generalizing m base with
  | nil => exact hm
  | cons b rest ih => exact ih _ _ (Memory.write_wf m base b hm)

theorem Memory.writeBytes_below (bytes : List Byte) (m : Memory) (base len : Nat)
    (hl : base + bytes.length ≤ len) (hm : Memory.below m len = true) :
    Memory.below (Memory.writeBytes m base bytes) len = true := by
  induction bytes generalizing m base with
  | nil => exact hm
  | cons b rest ih =>
    simp only [List.length_cons] at hl
    exact ih _ _ (by omega) (Memory.write_below m base b len (by omega) hm)

/-- A read after a run of writes. -/
theorem Memory.read_writeBytes (bytes : List Byte) (m : Memory) (base k : Nat) (hm : Memory.wf m = true) :
    Memory.read (Memory.writeBytes m base bytes) k =
      if base ≤ k ∧ k < base + bytes.length then bytes.getD (k - base) 0#8 else Memory.read m k := by
  induction bytes generalizing m base with
  | nil =>
    have : ¬ (base ≤ k ∧ k < base + ([] : List Byte).length) := by simp
    rw [if_neg this]
    rfl
  | cons b rest ih =>
    simp only [Memory.writeBytes]
    rw [ih _ _ (Memory.write_wf m base b hm), Memory.read_write m base b k hm]
    simp only [List.length_cons]
    by_cases h1 : k = base
    · subst h1
      have h2 : ¬ (k + 1 ≤ k ∧ k < k + 1 + rest.length) := by omega
      have h3 : k ≤ k ∧ k < k + (rest.length + 1) := by omega
      rw [if_neg h2, if_pos h3]
      simp
    · by_cases h2 : base + 1 ≤ k ∧ k < base + 1 + rest.length
      · have h3 : base ≤ k ∧ k < base + (rest.length + 1) := by omega
        have h4 : k - base = (k - (base + 1)) + 1 := by omega
        rw [if_pos h2, if_pos h3, h4, List.getD_cons_succ]
      · have h3 : ¬ (base ≤ k ∧ k < base + (rest.length + 1)) := by omega
        rw [if_neg h2, if_neg h3, if_neg h1]

/-- A read outside a run of writes needs no canonical form. -/
theorem Memory.read_writeBytes_outside (bytes : List Byte) (m : Memory) (base k : Nat)
    (hk : k < base ∨ base + bytes.length ≤ k) : Memory.read (Memory.writeBytes m base bytes) k = Memory.read m k := by
  induction bytes generalizing m base with
  | nil => rfl
  | cons b rest ih =>
    simp only [List.length_cons] at hk
    rw [Memory.writeBytes, ih _ _ (by omega), Memory.read_write_ne _ _ _ _ (by omega)]

@[simp] theorem Memory.readBytes_length (m : Memory) (base len : Nat) :
    (Memory.readBytes m base len).length = len := by simp [Memory.readBytes]

theorem Memory.readBytes_getD (m : Memory) (base len k : Nat) (hk : k < len) :
    (Memory.readBytes m base len).getD k 0#8 = Memory.read m (base + k) := by
  simp [Memory.readBytes, List.getD_eq_getElem?_getD, hk]

/-! ### Loading a configuration's bytes -/

theorem Memory.loadCells_wf (cells : List Host.Cell) (m : Memory) (base len : Nat) (hm : Memory.wf m = true) :
    Memory.wf (Memory.loadCells m base len cells) = true := by
  induction cells with
  | nil => exact hm
  | cons c rest ih =>
    obtain ⟨j, b⟩ := c
    simp only [Memory.loadCells]
    split
    · exact Memory.write_wf _ _ _ ih
    · exact ih

/-- Loading keeps the canonical form. -/
theorem Memory.load_wf (m : Memory) (base : Nat) (img : Image) (hm : Memory.wf m = true) :
    Memory.wf (Memory.load m base img) = true := Memory.loadCells_wf img.cells m base img.len hm

theorem Memory.loadCells_below (cells : List Host.Cell) (m : Memory) (base len top : Nat)
    (hl : base + len ≤ top) (hm : Memory.below m top = true) :
    Memory.below (Memory.loadCells m base len cells) top = true := by
  induction cells with
  | nil => exact hm
  | cons c rest ih =>
    obtain ⟨j, b⟩ := c
    simp only [Memory.loadCells]
    split
    · exact Memory.write_below _ _ _ _ (by omega) ih
    · exact ih

theorem Memory.load_below (m : Memory) (base : Nat) (img : Image) (top : Nat) (hl : base + img.len ≤ top)
    (hm : Memory.below m top = true) : Memory.below (Memory.load m base img) top = true :=
  Memory.loadCells_below img.cells m base img.len top hl hm

theorem Memory.read_loadCells (cells : List Host.Cell) (m : Memory) (base len k : Nat)
    (hm : Memory.wf m = true) (hz : ∀ i, i < len → Memory.read m (base + i) = 0#8) :
    Memory.read (Memory.loadCells m base len cells) k =
      if base ≤ k ∧ k < base + len then Memory.read cells (k - base) else Memory.read m k := by
  induction cells with
  | nil =>
    simp only [Memory.loadCells]
    split
    · rename_i h
      have := hz (k - base) (by omega)
      rw [show base + (k - base) = k by omega] at this
      simpa using this
    · rfl
  | cons c rest ih =>
    obtain ⟨j, b⟩ := c
    simp only [Memory.loadCells]
    split
    · rename_i hj
      rw [Memory.read_write _ _ _ _ (Memory.loadCells_wf rest m base len hm), ih]
      by_cases hk : k = base + j
      · subst hk
        have h2 : base ≤ base + j ∧ base + j < base + len := by omega
        simp [h2, Memory.read]
      · rw [if_neg hk]
        split
        · rename_i h
          have : j ≠ k - base := by omega
          simp [Memory.read, this]
        · rfl
    · rename_i hj
      rw [ih]
      split
      · rename_i h
        have : j ≠ k - base := by omega
        simp [Memory.read, this]
      · rfl

/-- A read after loading a byte string into a part of the store that is zero. -/
theorem Memory.read_load (m : Memory) (base : Nat) (img : Image) (k : Nat) (hm : Memory.wf m = true)
    (hz : ∀ i, i < img.len → Memory.read m (base + i) = 0#8) :
    Memory.read (Memory.load m base img) k =
      if base ≤ k ∧ k < base + img.len then imageByte img (k - base) else Memory.read m k :=
  Memory.read_loadCells img.cells m base img.len k hm hz

end Sys2Proof.Machine
end

