-- ==== Sys2Proof/Laws/Coherent.lean ====
section
/-! SUPPORT. What it means that tables and registers agree (R185, R199, R214, R246, R312): the tables are the
ones the registers and one mirroring mode show, and each kind of remap keeps that. -/

namespace Sys2Proof.Machine

/-- The tables are the ones the registers and a mirroring mode show. -/
structure Mapper.Shows (mode : Mirroring) (m : Mapper) : Prop where
  cpu : ∀ p (h : p < 64), m.cputab[p] = cpuEntry m p
  ppu : ∀ p (h : p < 16), m.pputab[p] = ppuEntry mode m p

theorem Mapper.tabled_cfg (mode : Mirroring) (m : Mapper) : (m.tabled mode).cfg = m.cfg := by
  simp only [Mapper.tabled]

theorem Mapper.shows_iff (mode : Mirroring) (m : Mapper) :
    m.Shows mode ↔ (m.tabled mode).cputab = m.cputab ∧ (m.tabled mode).pputab = m.pputab := by
  constructor
  · intro h
    constructor
    · refine Vector.ext fun p hp => ?_
      simp only [Mapper.tabled, Vector.getElem_ofFn]
      exact (h.cpu p hp).symm
    · refine Vector.ext fun p hp => ?_
      simp only [Mapper.tabled, Vector.getElem_ofFn]
      exact (h.ppu p hp).symm
  · rintro ⟨h1, h2⟩
    constructor
    · intro p hp
      rw [← h1]
      simp only [Mapper.tabled, Vector.getElem_ofFn]
    · intro p hp
      rw [← h2]
      simp only [Mapper.tabled, Vector.getElem_ofFn]

/-- A block that shows a mode is its own table layout. -/
theorem Mapper.Shows.tabled_eq {mode : Mirroring} {m : Mapper} (h : m.Shows mode) : m.tabled mode = m := by
  obtain ⟨h1, h2⟩ := (Mapper.shows_iff mode m).mp h
  have : m.tabled mode = (m.setCputab (m.tabled mode).cputab).setPputab (m.tabled mode).pputab := by
    simp only [Mapper.tabled, Mapper.setCputab, Mapper.setPputab]
  rw [this, h1, h2]
  rfl

/-- The banks of every mode a configuration can reach exist. -/
theorem reachableModes_banks {c : Cfg} (hl : c.legal = true) {mode : Mirroring} (h : mode ∈ reachableModes c) :
    modeBanks mode ≤ c.banksPpuRam := by
  refine Cfg.legal_mode hl mode fun hf => ?_
  subst hf
  unfold reachableModes at h
  split at h
  all_goals try split at h
  all_goals simp_all

theorem tablesOf_iff {m : Mapper} {mode : Mirroring} (hl : m.cfg.legal = true) (hr : m.regsLegal = true)
    (hm : modeBanks mode ≤ m.cfg.banksPpuRam) : m.tablesOf mode = true ↔ m.Shows (shownMode mode m) := by
  simp only [Mapper.tablesOf, layout_done hl hr hm, Bool.and_eq_true, decide_eq_true_eq, Mapper.shows_iff]

/-! ### The bytes no write can have reached -/

/-- The ROM part of the store at construction. -/
def romStore (g : Geometry) : Memory :=
  match g.chr with
  | some c => Memory.load (Memory.load [] g.prgBase g.prg) g.chrBase c
  | none => Memory.load [] g.prgBase g.prg

theorem freshStore_eq (g : Geometry) : freshStore g =
    match g.trainer with
    | some t => if 10 ≤ g.banksCpuRam then Memory.load (romStore g) (g.cpuRamBase + 2048 + 4096) t else romStore g
    | none => romStore g := rfl

theorem prgStore_wf (g : Geometry) : Memory.wf (Memory.load [] g.prgBase g.prg) = true := Memory.load_wf _ _ _ rfl

theorem romStore_wf (g : Geometry) : Memory.wf (romStore g) = true := by
  unfold romStore
  split
  · exact Memory.load_wf _ _ _ (prgStore_wf g)
  · exact prgStore_wf g

theorem freshStore_wf (g : Geometry) : Memory.wf (freshStore g) = true := by
  rw [freshStore_eq]
  split
  · split
    · exact Memory.load_wf _ _ _ (romStore_wf g)
    · exact romStore_wf g
  · exact romStore_wf g

/-- In a mirroring mode the block is one transactions reach: the mode fits the registers, the tables are shown, and
the bytes no write can have reached are as at `POWERON`. -/
structure Mapper.Settled (mode : Mirroring) (m : Mapper) : Prop where
  fits : modeFits m.cfg mode m.direct = true
  shows : m.Shows (shownMode mode m)
  rest : ∀ i, everWritten m.cfg mode i = false → Memory.read m.store i = Memory.read (freshStore m.cfg.toGeometry) i

theorem restUntouched_iff {m : Mapper} (hw : Memory.wf m.store = true) (mode : Mirroring) :
    m.restUntouched mode = true ↔ ∀ i, everWritten m.cfg mode i = false →
      Memory.read m.store i = Memory.read (freshStore m.cfg.toGeometry) i := by
  simp only [Mapper.restUntouched, decide_eq_true_eq, Memory.keep_eq_iff _ _ _ hw (freshStore_wf _),
    Bool.not_eq_true']

/-- Coherence, said with the tables the registers show and the bytes of the store. -/
theorem coherent_iff {m : Mapper} (hl : m.cfg.legal = true) (hw : Memory.wf m.store = true) :
    m.coherent = true ↔ m.regsLegal = true ∧ ∃ mode ∈ reachableModes m.cfg, m.Settled mode := by
  simp only [Mapper.coherent, Bool.and_eq_true, List.any_eq_true, restUntouched_iff hw]
  constructor
  · rintro ⟨hr, mode, hmem, ⟨hf, ht⟩, hb⟩
    exact ⟨hr, mode, hmem, hf, (tablesOf_iff hl hr (reachableModes_banks hl hmem)).mp ht, hb⟩
  · rintro ⟨hr, mode, hmem, hf, ht, hb⟩
    exact ⟨hr, mode, hmem, ⟨hf, (tablesOf_iff hl hr (reachableModes_banks hl hmem)).mpr ht⟩, hb⟩

/-- Changed registers and tables on the same store, in the same mode. -/
theorem Mapper.Settled.moved {mode : Mirroring} {m m' : Mapper} (h : m.Settled mode) (hc : m'.cfg = m.cfg)
    (hs : m'.store = m.store) (hf : modeFits m.cfg mode m'.direct = true) (hsh : m'.Shows (shownMode mode m')) :
    m'.Settled mode where
  fits := by rw [hc]; exact hf
  shows := hsh
  rest := fun i hi => by
    rw [hc] at hi ⊢
    rw [hs]
    exact h.rest i hi

/-! ### A mode the variant's own write sets -/

/-- The modes that a mirroring write or a select of the variant sets (R172, R180, R216, R248). -/
def SelectsMode (c : Cfg) (mode : Mirroring) : Prop :=
  ((c.variant = .axrom ∨ c.variant = .unrom512) ∧ (mode = .oneScreenLow ∨ mode = .oneScreenHigh)) ∨
  ((c.variant = .irq ∨ c.variant = .latch) ∧ c.mirroring0 ≠ .fourScreen ∧ (mode = .horizontal ∨ mode = .vertical))

theorem SelectsMode.mem {c : Cfg} {mode : Mirroring} (h : SelectsMode c mode) : mode ∈ reachableModes c := by
  rcases h with ⟨hv | hv, hm | hm⟩ | ⟨hv | hv, h0, hm | hm⟩ <;> subst hm <;> simp [reachableModes, *]

theorem SelectsMode.fits {c : Cfg} {mode : Mirroring} (h : SelectsMode c mode) (q : DirectRegs) :
    modeFits c mode q = true := by
  rcases h with ⟨hv | hv, hm | hm⟩ | ⟨hv | hv, h0, hm | hm⟩ <;> subst hm <;> simp [modeFits, hv]

theorem SelectsMode.notShift {c : Cfg} {mode : Mirroring} (h : SelectsMode c mode) : c.variant ≠ .shift := by
  rcases h with ⟨hv | hv, _⟩ | ⟨hv | hv, _⟩ <;> rw [hv] <;> decide

theorem nametableUses_vertical (b : Nat) : nametableUses .vertical b = nametableUses .horizontal b := by
  unfold nametableUses
  refine decide_eq_decide.mpr ?_
  constructor <;> rintro ⟨k, hk⟩ <;> subst hk <;> revert k <;> decide

/-- Such a write takes no byte out of reach. -/
theorem SelectsMode.grows {c : Cfg} {mode mode' : Mirroring} (h : SelectsMode c mode') (hmem : mode ∈ reachableModes c)
    (hc : 1 ≤ c.nChr8) (i : Nat) (hi : everWritten c mode i = true) : everWritten c mode' i = true := by
  have e1 : chrShown c mode ≤ chrShown c mode' := by
    rcases h with ⟨hv | hv, hm | hm⟩ | ⟨hv | hv, h0, hm | hm⟩ <;> subst hm <;> simp only [chrShown, hv] <;>
      try exact Nat.le_refl _
    · simp only [true_or, if_true]
      split <;> omega
    · simp only [or_true, if_true]
      split <;> omega
  have e2 : ∀ b, ppuRamShown c mode b = true → ppuRamShown c mode' b = true := by
    intro b hb
    rcases h with ⟨hv | hv, hm⟩ | ⟨hv, h0, hm⟩
    · simpa only [ppuRamShown, hv] using hb
    · simpa only [ppuRamShown, hv] using hb
    · have hh : mode = c.mirroring0 ∨ mode = .horizontal ∨ mode = .vertical := by
        rcases hv with hv | hv <;> simpa [reachableModes, hv, h0] using hmem
      have e : ∀ k, ppuRamShown c k b = (nametableUses c.mirroring0 b || nametableUses k b) := by
        intro k
        rcases hv with hv | hv <;> simp only [ppuRamShown, hv]
      rw [e, Bool.or_eq_true] at hb ⊢
      rcases hb with hb | hb
      · exact .inl hb
      · rcases hh with rfl | rfl | rfl
        · exact .inl hb
        · rcases hm with rfl | rfl
          · exact .inr hb
          · rw [nametableUses_vertical]; exact .inr hb
        · rcases hm with rfl | rfl
          · rw [nametableUses_vertical] at hb; exact .inr hb
          · exact .inr hb
  simp only [everWritten, Bool.or_eq_true, Bool.and_eq_true, decide_eq_true_eq] at hi ⊢
  rcases hi with (⟨⟨⟨h1, h2⟩, h3⟩, h4⟩ | h) | ⟨h1, h2⟩
  · exact .inl (.inl ⟨⟨⟨h1, h2⟩, by omega⟩, h4⟩)
  · exact .inl (.inr h)
  · exact .inr ⟨h1, e2 _ h2⟩

/-! ### Entries that do not depend on the registers -/

theorem cpuEntry_ram {m m' : Mapper} (hc : m'.cfg = m.cfg) (p : Nat) (h : p < 32) : cpuEntry m' p = cpuEntry m p := by
  simp only [cpuEntry, hc, h, if_true]

theorem ppuEntry_nametable_congr {m m' : Mapper} (hc : m'.cfg = m.cfg) (mode : Mirroring) (p : Nat) (h : 8 ≤ p) :
    ppuEntry mode m' p = ppuEntry mode m p := by
  rw [ppuEntry_nametable _ _ _ h, ppuEntry_nametable _ _ _ h, hc]

/-- Two blocks with one configuration and the same registers show the same PRG banks. -/
theorem cpuEntry_congr {m m' : Mapper} (hc : m'.cfg = m.cfg) (hd : m'.direct = m.direct) (hs : m'.shift = m.shift)
    (hi : m'.irq = m.irq) (hl : m'.latch = m.latch) (p : Nat) : cpuEntry m' p = cpuEntry m p := by
  unfold cpuEntry shownPrg
  rw [hc, hd, hs, hi, hl]

/-- Two blocks with one configuration and the same registers show the same CHR banks. -/
theorem ppuEntry_congr {m m' : Mapper} (hc : m'.cfg = m.cfg) (hd : m'.direct = m.direct) (hs : m'.shift = m.shift)
    (hi : m'.irq = m.irq) (hl : m'.latch = m.latch) (mode : Mirroring) (p : Nat) :
    ppuEntry mode m' p = ppuEntry mode m p := by
  unfold ppuEntry shownChr
  rw [hc, hd, hs, hi, hl]

/-- Changed registers, the windows laid out again: the tables show the new registers. -/
theorem Mapper.Shows.laidOut {mode : Mirroring} {m a : Mapper} (h : m.Shows mode) (hc : a.cfg = m.cfg)
    (h1 : a.cputab = m.cputab) (h2 : a.pputab = m.pputab) : a.laidOut.Shows mode := by
  have e1 : ∀ p, cpuEntry a.laidOut p = cpuEntry a p :=
    cpuEntry_congr (by simp only [Mapper.laidOut]) (by simp only [Mapper.laidOut]) (by simp only [Mapper.laidOut])
      (by simp only [Mapper.laidOut]) (by simp only [Mapper.laidOut])
  have e2 : ∀ p, ppuEntry mode a.laidOut p = ppuEntry mode a p :=
    ppuEntry_congr (by simp only [Mapper.laidOut]) (by simp only [Mapper.laidOut]) (by simp only [Mapper.laidOut])
      (by simp only [Mapper.laidOut]) (by simp only [Mapper.laidOut]) mode
  constructor
  · intro p hp
    rw [e1, Mapper.laidOut_cputab]
    split
    · rename_i h32
      rw [cpuEntry_ram hc p h32, ← h.cpu p hp]
      simp only [h1]
    · rw [cpuEntry_prg _ _ (by omega)]
  · intro p hp
    rw [e2, Mapper.laidOut_pputab]
    split
    · rename_i h8
      rw [ppuEntry_chr _ _ _ h8]
    · rw [ppuEntry_nametable_congr hc mode p (by omega), ← h.ppu p hp]
      simp only [h2]

/-- The nametable pages set to another mode: the tables show that mode. -/
theorem Mapper.Shows.showing {mode : Mirroring} {m : Mapper} (h : m.Shows mode) (mode' : Mirroring) :
    (m.showing mode').Shows mode' := by
  have e1 : ∀ p, cpuEntry (m.showing mode') p = cpuEntry m p :=
    cpuEntry_congr (by simp only [Mapper.showing]) (by simp only [Mapper.showing]) (by simp only [Mapper.showing])
      (by simp only [Mapper.showing]) (by simp only [Mapper.showing])
  have e2 : ∀ p, ppuEntry mode' (m.showing mode') p = ppuEntry mode' m p :=
    ppuEntry_congr (by simp only [Mapper.showing]) (by simp only [Mapper.showing]) (by simp only [Mapper.showing])
      (by simp only [Mapper.showing]) (by simp only [Mapper.showing]) mode'
  constructor
  · intro p hp
    rw [e1, ← h.cpu p hp]
    simp only [Mapper.showing]
  · intro p hp
    rw [e2]
    simp only [Mapper.showing, Vector.getElem_ofFn]
    split
    · rename_i h8
      rw [ppuEntry_chr _ _ _ h8, ← ppuEntry_chr mode _ _ h8, ← h.ppu p hp]
      rfl
    · rfl

/-! ### What the tables of a coherent block are -/

theorem shownPrg_lt {m : Mapper} (hl : m.cfg.legal = true) (hr : m.regsLegal = true) (p : Nat) (h1 : 32 ≤ p)
    (h2 : p < 64) : shownPrg m p < m.cfg.banksPrg := by
  have hp1 := Cfg.legal_prg hl
  have hb : m.cfg.banksPrg = 16 * m.cfg.nPrg16 := rfl
  have hpow : isPowerOfTwo m.cfg.nPrg16 = true := by
    have := (Cfg.legal_parts hl).1
    simp only [Geometry.sizesOk, Bool.and_eq_true] at this
    exact this.1
  have hmax := (Cfg.legal_parts hl).2.2.1
  have hmin := (Cfg.legal_parts hl).2.2.2.1
  have hsplit := (Cfg.legal_parts hl).2.2.2.2.2.2
  simp only [Mapper.regsLegal, Bool.and_eq_true] at hr
  obtain ⟨⟨⟨hd, hsh⟩, hi⟩, hla⟩ := hr
  unfold shownPrg
  cases hv : m.cfg.variant <;> simp only [hv, directLegal, Geometry.prgMaxOk, Geometry.prgMinOk, Geometry.splitOk,
    Bool.and_eq_true, Bool.or_eq_true, decide_eq_true_eq] at hd hmax hmin hsplit ⊢
  · split <;> omega
  · split <;> omega
  · split <;> omega
  · omega
  · omega
  · split <;> omega
  · have he := isPowerOfTwo_even hpow hmin
    have h3 := maskTo_lt ((m.shift.prg.extractLsb' 0 4).toNat / 2) (count := m.cfg.nPrg16 / 2) (by omega)
    have h4 := maskTo_lt (m.shift.prg.extractLsb' 0 4).toNat (count := m.cfg.nPrg16) (by omega)
    unfold shiftPrgBank
    split
    · omega
    · split <;> split <;> omega
  · have h6 : maskTo m.irq.bank[6].toNat (2 * m.cfg.nPrg16) < 2 * m.cfg.nPrg16 := maskTo_lt _ (by omega)
    have h7 : maskTo m.irq.bank[7].toNat (2 * m.cfg.nPrg16) < 2 * m.cfg.nPrg16 := maskTo_lt _ (by omega)
    have hu : irqPrgUnit m.cfg.toGeometry m.irq ((p - 32) / 8) < 2 * m.cfg.nPrg16 := by
      unfold irqPrgUnit
      split
      · split <;> omega
      · split
        · omega
        · split
          · split <;> omega
          · omega
    omega
  · simp only [latchLegal, hv, Bool.and_eq_true, decide_eq_true_eq, prgUnits] at hla
    have hq : m.latch.prgSel.toNat < m.cfg.banksPrg / m.cfg.split := of_decide_eq_true hla.1.1.1.1
    rcases hsplit with h | h <;> rw [h] at hq ⊢ <;> split <;> omega

theorem shownChr_lt {m : Mapper} (hl : m.cfg.legal = true) (hr : m.regsLegal = true) (p : Nat) (h2 : p < 8) :
    shownChr m p < m.cfg.banksChr := by
  have hc1 := Cfg.legal_chr hl
  have hb : m.cfg.banksChr = 8 * m.cfg.nChr8 := rfl
  simp only [Mapper.regsLegal, Bool.and_eq_true] at hr
  obtain ⟨⟨⟨hd, hsh⟩, hi⟩, hla⟩ := hr
  unfold shownChr
  cases hv : m.cfg.variant <;> simp only [hv, directLegal, Bool.and_eq_true, decide_eq_true_eq] at hd ⊢
  · omega
  · omega
  · omega
  · omega
  · omega
  · omega
  · have ha := maskTo_lt m.shift.chr0.toNat (count := 2 * m.cfg.nChr8) (by omega)
    have hc := maskTo_lt m.shift.chr1.toNat (count := 2 * m.cfg.nChr8) (by omega)
    have hd := maskTo_lt (m.shift.chr0.toNat / 2) (count := m.cfg.nChr8) (by omega)
    split
    · split <;> omega
    · omega
  · have hp := chrPair_lt hl m.irq
    have hc := chrSingle_lt hl m.irq
    have hp0 : maskTo (m.irq.bank[0] &&& 0xFE#8).toNat m.cfg.banksChr + 2 ≤ m.cfg.banksChr := hp 0
    have hp1 : maskTo (m.irq.bank[1] &&& 0xFE#8).toNat m.cfg.banksChr + 2 ≤ m.cfg.banksChr := hp 1
    have hc2 : maskTo m.irq.bank[2].toNat m.cfg.banksChr + 1 ≤ m.cfg.banksChr := hc 2
    have hc3 : maskTo m.irq.bank[3].toNat m.cfg.banksChr + 1 ≤ m.cfg.banksChr := hc 3
    have hc4 : maskTo m.irq.bank[4].toNat m.cfg.banksChr + 1 ≤ m.cfg.banksChr := hc 4
    have hc5 : maskTo m.irq.bank[5].toNat m.cfg.banksChr + 1 ≤ m.cfg.banksChr := hc 5
    have hw : (if m.irq.chrMode = true then (p + 4) % 8 else p) < 8 := by split <;> omega
    generalize (if m.irq.chrMode = true then (p + 4) % 8 else p) = w at *
    unfold irqChrBank
    repeat' split
    all_goals omega
  · simp only [latchLegal, hv, Bool.and_eq_true, chrBanks4] at hla
    have ha : latchBank0 m.latch < 2 * m.cfg.nChr8 := by
      unfold latchBank0
      split
      · exact of_decide_eq_true hla.1.1.1.2
      · exact of_decide_eq_true hla.1.1.2
    have hd : latchBank1 m.latch < 2 * m.cfg.nChr8 := by
      unfold latchBank1
      split
      · exact of_decide_eq_true hla.1.2
      · exact of_decide_eq_true hla.2
    split <;> omega

end Sys2Proof.Machine
end

