-- ==== Sys2Proof/Laws/Keeps.lean ====
section
/-! SUPPORT. What keeps the invariant of a block: a store write through a shown descriptor, a change of registers
that selects no bank, and each change of registers with its remap. -/

namespace Sys2Proof.Machine

theorem inv_iff {m : Mapper} : m.Inv ↔ m.cfg.legal = true ∧ m.faulted = false ∧ m.regsLegal = true ∧
    (∃ mode ∈ reachableModes m.cfg, m.Settled mode) ∧ Memory.wf m.store = true ∧
    Memory.below m.store m.cfg.storeLen = true ∧ m.RomsIntact := by
  unfold Mapper.Inv
  constructor
  · rintro ⟨h1, h2, h3, h4, h5⟩
    obtain ⟨h6, h7⟩ := (coherent_iff h1 h4).mp h3
    exact ⟨h1, h2, h6, h7, h4, h5⟩
  · rintro ⟨h1, h2, h3, h4, h5, h6⟩
    exact ⟨h1, h2, (coherent_iff h1 h5).mpr ⟨h3, h4⟩, h5, h6⟩

theorem Mapper.Inv.legal {m : Mapper} (h : m.Inv) : m.cfg.legal = true := h.1
theorem Mapper.Inv.live {m : Mapper} (h : m.Inv) : m.faulted = false := h.2.1
theorem Mapper.Inv.regs {m : Mapper} (h : m.Inv) : m.regsLegal = true := (inv_iff.mp h).2.2.1
theorem Mapper.Inv.wf {m : Mapper} (h : m.Inv) : Memory.wf m.store = true := h.2.2.2.1
theorem Mapper.Inv.below {m : Mapper} (h : m.Inv) : Memory.below m.store m.cfg.storeLen = true := h.2.2.2.2.1
theorem Mapper.Inv.roms {m : Mapper} (h : m.Inv) : m.RomsIntact := h.2.2.2.2.2
theorem Mapper.Inv.settled {m : Mapper} (h : m.Inv) : ∃ mode ∈ reachableModes m.cfg, m.Settled mode :=
  (inv_iff.mp h).2.2.2.1
theorem Mapper.Inv.shows {m : Mapper} (h : m.Inv) :
    ∃ mode ∈ reachableModes m.cfg, m.Shows (shownMode mode m) := by
  obtain ⟨mode, hmem, hs⟩ := h.settled
  exact ⟨mode, hmem, hs.shows⟩

/-- The mirroring mode of a block that meets the invariant has its banks. -/
theorem shownMode_banks {m : Mapper} (hl : m.cfg.legal = true) {mode : Mirroring} (h : mode ∈ reachableModes m.cfg) :
    modeBanks (shownMode mode m) ≤ m.cfg.banksPpuRam := by
  unfold shownMode
  split
  · refine Cfg.legal_mode hl _ fun hf => ?_
    unfold ctrlMirroring at hf
    split at hf <;> cases hf
  · exact reachableModes_banks hl h

/-- Other registers and tables on the same store: the invariant holds when they agree. -/
theorem Mapper.Inv.change {m m' : Mapper} (h : m.Inv) (hc : m'.cfg = m.cfg) (hs : m'.store = m.store)
    (hf : m'.faulted = m.faulted) (hr : m'.regsLegal = true)
    (hsh : ∃ mode ∈ reachableModes m.cfg, m'.Settled mode) : m'.Inv := by
  refine inv_iff.mpr ⟨by rw [hc]; exact h.legal, by rw [hf]; exact h.live, hr, by rw [hc]; exact hsh,
    by rw [hs]; exact h.wf, by rw [hs, hc]; exact h.below, ?_⟩
  unfold Mapper.RomsIntact
  rw [hc, hs]
  exact h.roms

/-! ### What the shown descriptors are -/

theorem cpuEntry_inStore {m : Mapper} (hl : m.cfg.legal = true) (hr : m.regsLegal = true) (p : Nat) (h : p < 64) :
    (cpuEntry m p).mapped = true →
      (cpuEntry m p).off + 1024 ≤ m.cfg.storeLen ∧ (cpuEntry m p).off % 1024 = 0 ∧
      ((cpuEntry m p).ro = false → m.cfg.cpuRamBase ≤ (cpuEntry m p).off) := by
  unfold cpuEntry
  have e1 : m.cfg.storeLen = 1024 * m.cfg.banksPrg + 1024 * m.cfg.banksChr + 1024 * m.cfg.banksCpuRam +
    1024 * m.cfg.banksPpuRam := rfl
  have e2 : m.cfg.cpuRamBase = 1024 * m.cfg.banksPrg + 1024 * m.cfg.banksChr := rfl
  rcases Nat.lt_or_ge p 8 with h8 | h8
  · rw [if_pos h8]
    split
    · intro _
      refine ⟨?_, ?_, fun _ => ?_⟩ <;> simp only <;> omega
    · intro hm; exact absurd hm (by decide)
  · rw [if_neg (by omega)]
    rcases Nat.lt_or_ge p 24 with h24 | h24
    · rw [if_pos h24]; intro hm; exact absurd hm (by decide)
    · rw [if_neg (by omega)]
      rcases Nat.lt_or_ge p 32 with h32 | h32
      · rw [if_pos h32]
        split
        · intro _
          refine ⟨?_, ?_, fun _ => ?_⟩ <;> simp only <;> omega
        · intro hm; exact absurd hm (by decide)
      · rw [if_neg (by omega)]
        have := shownPrg_lt hl hr p h32 h
        intro _
        refine ⟨?_, ?_, fun hro => ?_⟩
        · simp only; omega
        · simp only; omega
        · simp only at hro
          cases hro

theorem ppuEntry_inStore {m : Mapper} {mode : Mirroring} (hl : m.cfg.legal = true) (hr : m.regsLegal = true)
    (hm : modeBanks mode ≤ m.cfg.banksPpuRam) (p : Nat) :
    (ppuEntry mode m p).mapped = true ∧
      (ppuEntry mode m p).off + 1024 ≤ m.cfg.storeLen ∧ (ppuEntry mode m p).off % 1024 = 0 ∧
      m.cfg.chrBase ≤ (ppuEntry mode m p).off ∧
      ((ppuEntry mode m p).ro = false → m.cfg.chrReadOnly = true → m.cfg.cpuRamBase ≤ (ppuEntry mode m p).off) := by
  have e1 : m.cfg.storeLen = 1024 * m.cfg.banksPrg + 1024 * m.cfg.banksChr + 1024 * m.cfg.banksCpuRam +
    1024 * m.cfg.banksPpuRam := rfl
  have e2 : m.cfg.cpuRamBase = 1024 * m.cfg.banksPrg + 1024 * m.cfg.banksChr := rfl
  have e3 : m.cfg.ppuRamBase = 1024 * m.cfg.banksPrg + 1024 * m.cfg.banksChr + 1024 * m.cfg.banksCpuRam := rfl
  have e4 : m.cfg.chrBase = 1024 * m.cfg.banksPrg := rfl
  rcases Nat.lt_or_ge p 8 with h8 | h8
  · rw [ppuEntry_chr _ _ _ h8]
    have := shownChr_lt hl hr p h8
    refine ⟨rfl, ?_, ?_, ?_, fun h1 h2 => ?_⟩
    · simp only; omega
    · simp only; omega
    · simp only; omega
    · simp only at h1
      rw [h2] at h1
      cases h1
  · rw [ppuEntry_nametable _ _ _ h8]
    have := shownNametable_lt mode (p % 4) (by omega)
    refine ⟨rfl, ?_, ?_, ?_, fun _ _ => ?_⟩ <;> simp only <;> omega

/-- R35 of a block that meets the invariant, for the CPU table. -/
theorem Mapper.Inv.cpuBank {m : Mapper} (h : m.Inv) (p : Nat) (hp : p < 64) (hm : m.cputab[p].mapped = true) :
    m.cputab[p].off + 1024 ≤ m.cfg.storeLen ∧ m.cputab[p].off % 1024 = 0 ∧
      (m.cputab[p].ro = false → m.cfg.cpuRamBase ≤ m.cputab[p].off) := by
  obtain ⟨mode, _, hs⟩ := h.shows
  rw [hs.cpu p hp] at hm ⊢
  exact cpuEntry_inStore h.legal h.regs p hp hm

/-- R35 of a block that meets the invariant, for the PPU table. -/
theorem Mapper.Inv.ppuBank {m : Mapper} (h : m.Inv) (p : Nat) (hp : p < 16) :
    m.pputab[p].mapped = true ∧
      m.pputab[p].off + 1024 ≤ m.cfg.storeLen ∧ m.pputab[p].off % 1024 = 0 ∧ m.cfg.chrBase ≤ m.pputab[p].off ∧
      (m.pputab[p].ro = false → m.cfg.chrReadOnly = true → m.cfg.cpuRamBase ≤ m.pputab[p].off) := by
  obtain ⟨mode, hmem, hs⟩ := h.shows
  rw [hs.ppu p hp]
  exact ppuEntry_inStore h.legal h.regs (shownMode_banks h.legal hmem) p

/-! ### A store write -/

theorem Mapper.Shows.setStore {mode : Mirroring} {m : Mapper} (h : m.Shows mode) (st : Memory) :
    (m.setStore st).Shows mode := by
  constructor
  · intro p hp
    rw [cpuEntry_congr (m := m) (m' := m.setStore st) rfl rfl rfl rfl rfl p, ← h.cpu p hp]
    rfl
  · intro p hp
    rw [ppuEntry_congr (m := m) (m' := m.setStore st) rfl rfl rfl rfl rfl mode p, ← h.ppu p hp]
    rfl

/-- The shown CHR banks are among those the variant can have shown. -/
theorem shownChr_lt_chrShown {m : Mapper} {mode : Mirroring} (hl : m.cfg.legal = true) (hr : m.regsLegal = true)
    (hf : modeFits m.cfg mode m.direct = true) (p : Nat) (hp : p < 8) : shownChr m p < chrShown m.cfg mode := by
  have hc := Cfg.legal_chr hl
  simp only [Mapper.regsLegal, Bool.and_eq_true] at hr
  obtain ⟨⟨⟨hd, -⟩, -⟩, hla⟩ := hr
  unfold shownChr chrShown
  cases hv : m.cfg.variant <;>
    simp only [hv, directLegal, latchLegal, modeFits, Bool.and_eq_true, Bool.or_eq_true, decide_eq_true_eq] at hd hla hf ⊢
  · exact hp
  · exact hp
  · have := m.direct.selChr.isLt
    omega
  · exact hp
  · omega
  · split
    · omega
    · rename_i hn
      rcases hf with (h | h) | h
      · exact absurd (.inl h) hn
      · exact absurd (.inr h) hn
      · rw [h]
        show 8 * 0 + p < 8
        omega
  · have h0 := m.shift.chr0.isLt
    have h1 := m.shift.chr1.isLt
    have l0 := maskTo_le m.shift.chr0.toNat (2 * m.cfg.nChr8)
    have l1 := maskTo_le m.shift.chr1.toNat (2 * m.cfg.nChr8)
    have l2 := maskTo_le (m.shift.chr0.toNat / 2) m.cfg.nChr8
    have b0 := maskTo_lt m.shift.chr0.toNat (count := 2 * m.cfg.nChr8) (by omega)
    have b1 := maskTo_lt m.shift.chr1.toNat (count := 2 * m.cfg.nChr8) (by omega)
    have b2 := maskTo_lt (m.shift.chr0.toNat / 2) (count := m.cfg.nChr8) (by omega)
    have e : chrBanks4 m.cfg.toGeometry = 2 * m.cfg.nChr8 := rfl
    rw [e]
    split
    · split <;> omega
    · omega
  · have hb : m.cfg.banksChr = 8 * m.cfg.nChr8 := rfl
    have hs : ∀ i : Fin 8, maskTo m.irq.bank[i].toNat m.cfg.banksChr < min 256 m.cfg.banksChr := fun i => by
      have := maskTo_le m.irq.bank[i].toNat m.cfg.banksChr
      have := maskTo_lt m.irq.bank[i].toNat (count := m.cfg.banksChr) (by omega)
      have := m.irq.bank[i].isLt
      omega
    have hq : ∀ i : Fin 8, maskTo (m.irq.bank[i] &&& 0xFE#8).toNat m.cfg.banksChr + 1 < min 256 m.cfg.banksChr := fun i => by
      have h1 := maskTo_le (m.irq.bank[i] &&& 0xFE#8).toNat m.cfg.banksChr
      have h2 : (m.irq.bank[i] &&& 0xFE#8).toNat ≤ 254 := by
        rw [BitVec.toNat_and]
        exact Nat.and_le_right
      have h3 : maskTo (m.irq.bank[i] &&& 0xFE#8).toNat m.cfg.banksChr + 2 ≤ m.cfg.banksChr := chrPair_lt hl m.irq i
      omega
    have hw : (if m.irq.chrMode = true then (p + 4) % 8 else p) < 8 := by split <;> omega
    generalize (if m.irq.chrMode = true then (p + 4) % 8 else p) = w at *
    have q0 := hq 0
    have q1 := hq 1
    have s2 := hs 2
    have s3 := hs 3
    have s4 := hs 4
    have s5 := hs 5
    simp only [Fin.getElem_fin] at q0 q1 s2 s3 s4 s5
    unfold irqChrBank
    repeat' split
    all_goals first | exact s2 | exact s3 | exact s4 | exact s5 | (refine Nat.lt_of_le_of_lt ?_ q0; exact Nat.add_le_add_left (by omega) _) | (refine Nat.lt_of_le_of_lt ?_ q1; exact Nat.add_le_add_left (by omega) _)
  · have e : chrBanks4 m.cfg.toGeometry = 2 * m.cfg.nChr8 := rfl
    rw [e] at hla ⊢
    have key : ∀ b : Byte, b.toNat < 2 * m.cfg.nChr8 → b.toNat < min 256 (2 * m.cfg.nChr8) := fun b h => by
      have := b.isLt
      omega
    have ha : latchBank0 m.latch < min 256 (2 * m.cfg.nChr8) := by
      unfold latchBank0
      split
      · exact key _ hla.1.1.1.2
      · exact key _ hla.1.1.2
    have hb : latchBank1 m.latch < min 256 (2 * m.cfg.nChr8) := by
      unfold latchBank1
      split
      · exact key _ hla.1.2
      · exact key _ hla.2
    split <;> omega

/-- What a bus write can have reached is RAM. -/
theorem everWritten_ram {c : Cfg} {mode : Mirroring} {i : Nat} (h : everWritten c mode i = true) :
    c.chrBase ≤ i ∧ (c.chrReadOnly = true → c.cpuRamBase ≤ i) := by
  have e2 : c.cpuRamBase = c.chrBase + c.sizeChr := rfl
  have e3 : c.ppuRamBase = c.cpuRamBase + c.sizeCpuRam := rfl
  simp only [everWritten, Bool.or_eq_true, Bool.and_eq_true, decide_eq_true_eq, Bool.not_eq_true'] at h
  rcases h with (⟨⟨⟨h1, h2⟩, h3⟩, h4⟩ | ⟨h1, h2⟩) | ⟨h1, h2⟩
  · exact ⟨h2, fun hh => by rw [hh] at h1; cases h1⟩
  · exact ⟨by omega, fun _ => h1⟩
  · exact ⟨by omega, fun _ => by omega⟩

/-- A writable CPU page leads to bytes that bus writes can have reached. -/
theorem cpuEntry_written (m : Mapper) (mode : Mirroring) (p : Nat) (hm : (cpuEntry m p).mapped = true)
    (hr : (cpuEntry m p).ro = false) {k : Nat} (hk : k < 1024) :
    everWritten m.cfg mode ((cpuEntry m p).off + k) = true := by
  have key : ∀ b, b < cpuRamShown m.cfg → everWritten m.cfg mode (m.cfg.cpuRamBase + 1024 * b + k) = true := by
    intro b hb
    have h1 : m.cfg.cpuRamBase ≤ m.cfg.cpuRamBase + 1024 * b + k := by omega
    have h2 : m.cfg.cpuRamBase + 1024 * b + k < m.cfg.cpuRamBase + 1024 * cpuRamShown m.cfg := by omega
    simp only [everWritten, h1, h2, decide_true, Bool.and_true, Bool.or_true, Bool.true_or]
  rcases Nat.lt_or_ge p 8 with h8 | h8
  · unfold cpuEntry at hm ⊢
    rw [if_pos h8] at hm ⊢
    split at hm
    · rename_i h2
      rw [if_pos h2]
      exact key (p % 2) (by unfold cpuRamShown; repeat' split; all_goals omega)
    · cases hm
  · rcases Nat.lt_or_ge p 24 with h24 | h24
    · unfold cpuEntry at hm
      rw [if_neg (by omega), if_pos h24] at hm
      cases hm
    · rcases Nat.lt_or_ge p 32 with h32 | h32
      · unfold cpuEntry at hm ⊢
        rw [if_neg (by omega), if_neg (by omega), if_pos h32] at hm ⊢
        split at hm
        · rename_i h10
          rw [if_pos h10]
          have := key (2 + (p - 24)) (by unfold cpuRamShown; rw [if_pos h10]; omega)
          rw [show m.cfg.cpuRamBase + 1024 * (2 + (p - 24)) = m.cfg.cpuRamBase + 2048 + 1024 * (p - 24) by omega] at this
          exact this
        · cases hm
      · rw [cpuEntry_prg _ _ h32] at hr
        cases hr

theorem nametableUses_shown (mode : Mirroring) (k : Nat) (hk : k < 4) :
    nametableUses mode (shownNametable mode k) = true :=
  decide_eq_true ⟨⟨k, hk⟩, nametableBank_eq mode ⟨k, hk⟩⟩

/-- The PPU RAM banks the nametable pages show are among those the block can have shown. -/
theorem ppuRamShown_shown {m : Mapper} {mode : Mirroring} (hmem : mode ∈ reachableModes m.cfg) (k : Nat) (hk : k < 4) :
    ppuRamShown m.cfg mode (shownNametable (shownMode mode m) k) = true := by
  have hu := nametableUses_shown mode k hk
  by_cases hv : m.cfg.variant = .shift
  · rw [shownMode, if_pos hv]
    have : shownNametable (ctrlMirroring m.shift.ctrl) k < 2 := by
      unfold ctrlMirroring
      split <;> simp only [shownNametable] <;> omega
    simp only [ppuRamShown, hv, this, decide_true]
  · rw [shownMode, if_neg hv]
    have low : mode = .oneScreenLow → shownNametable mode k < 2 := fun h => by rw [h]; simp [shownNametable]
    have high : mode = .oneScreenHigh → shownNametable mode k < 2 := fun h => by rw [h]; simp [shownNametable]
    cases hv' : m.cfg.variant <;> simp only [hv', reachableModes, List.mem_cons, List.not_mem_nil, or_false] at hmem
    · subst hmem; simpa only [ppuRamShown, hv'] using hu
    · subst hmem; simpa only [ppuRamShown, hv'] using hu
    · subst hmem; simpa only [ppuRamShown, hv'] using hu
    · simp only [ppuRamShown, hv', Bool.or_eq_true, decide_eq_true_eq]
      rcases hmem with h | h | h
      · left; rw [← h]; exact hu
      · right; exact low h
      · right; exact high h
    · subst hmem; simpa only [ppuRamShown, hv'] using hu
    · simp only [ppuRamShown, hv', Bool.or_eq_true, decide_eq_true_eq]
      rcases hmem with h | h | h
      · left; rw [← h]; exact hu
      · right; exact low h
      · right; exact high h
    · exact absurd hv' hv
    · simp only [ppuRamShown, hv', hu, Bool.or_true]
    · simp only [ppuRamShown, hv', hu, Bool.or_true]

/-- A writable PPU page leads to bytes that bus writes can have reached. -/
theorem ppuEntry_written {m : Mapper} {mode : Mirroring} (hl : m.cfg.legal = true) (hr : m.regsLegal = true)
    (hmem : mode ∈ reachableModes m.cfg) (hf : modeFits m.cfg mode m.direct = true) (p : Nat)
    (hro : (ppuEntry (shownMode mode m) m p).ro = false) {k : Nat} (hk : k < 1024) :
    everWritten m.cfg mode ((ppuEntry (shownMode mode m) m p).off + k) = true := by
  simp only [everWritten, Bool.or_eq_true, Bool.and_eq_true, decide_eq_true_eq, Bool.not_eq_true']
  rcases Nat.lt_or_ge p 8 with h8 | h8
  · rw [ppuEntry_chr _ _ _ h8] at hro ⊢
    have h1 := shownChr_lt_chrShown hl hr hf p h8
    have h2 := shownChr_lt hl hr p h8
    have e2 : m.cfg.cpuRamBase = m.cfg.chrBase + 1024 * m.cfg.banksChr := rfl
    exact .inl (.inl ⟨⟨⟨hro, by simp only; omega⟩, by simp only; omega⟩, by simp only; omega⟩)
  · rw [ppuEntry_nametable _ _ _ h8] at hro ⊢
    refine .inr ⟨by simp only; omega, ?_⟩
    have e : (m.cfg.ppuRamBase + 1024 * shownNametable (shownMode mode m) (p % 4) + k - m.cfg.ppuRamBase) / 1024 =
        shownNametable (shownMode mode m) (p % 4) := by omega
    simp only [e]
    exact ppuRamShown_shown hmem (p % 4) (by omega)

/-- A write to a byte that bus writes can have reached keeps the invariant (R23). -/
theorem Mapper.Inv.write {m : Mapper} (h : m.Inv) (i : Nat) (v : Byte) (hi : i < m.cfg.storeLen)
    (he : ∀ mode ∈ reachableModes m.cfg, m.Settled mode → everWritten m.cfg mode i = true) :
    (m.setStore (Memory.write m.store i v)).Inv := by
  have e2 : m.cfg.cpuRamBase = m.cfg.chrBase + m.cfg.sizeChr := rfl
  have e4 : m.cfg.chrBase = m.cfg.sizePrg := rfl
  obtain ⟨mode, hmem, hs⟩ := h.settled
  have hw := he mode hmem hs
  obtain ⟨h1, h2⟩ := everWritten_ram hw
  refine inv_iff.mpr ⟨h.legal, h.live, h.regs, ⟨mode, hmem, hs.fits, hs.shows.setStore _, ?_⟩, ?_, ?_, ?_, ?_⟩
  · intro k hk
    rw [Mapper.setStore_cfg] at hk ⊢
    rw [Mapper.setStore_store, Memory.read_write_ne _ _ _ _ (fun e => by rw [e, hw] at hk; cases hk)]
    exact hs.rest k hk
  · exact Memory.write_wf _ _ _ h.wf
  · exact Memory.write_below _ _ _ _ hi h.below
  · intro k hk
    rw [Mapper.setStore_cfg] at hk
    rw [Mapper.setStore_store, Memory.read_write_ne _ _ _ _ (by omega)]
    exact h.roms.1 k hk
  · intro hro c hc k hk
    rw [Mapper.setStore_cfg] at hro hc hk
    have := h2 hro
    rw [Mapper.setStore_store, Mapper.setStore_cfg, Memory.read_write_ne _ _ _ _ (by omega)]
    exact h.roms.2 hro c hc k hk

/-! ### Registers that select no bank -/

/-- The parts of the registers that select banks and the mirroring mode are the same. -/
structure Mapper.SameSelection (m m' : Mapper) : Prop where
  cfg : m'.cfg = m.cfg
  cputab : m'.cputab = m.cputab
  pputab : m'.pputab = m.pputab
  direct : m'.direct = m.direct
  latch : m'.latch = m.latch
  ctrl : m'.shift.ctrl = m.shift.ctrl
  chr0 : m'.shift.chr0 = m.shift.chr0
  chr1 : m'.shift.chr1 = m.shift.chr1
  prg : m'.shift.prg = m.shift.prg
  bank : m'.irq.bank = m.irq.bank
  prgMode : m'.irq.prgMode = m.irq.prgMode
  chrMode : m'.irq.chrMode = m.irq.chrMode

theorem Mapper.SameSelection.shows {m m' : Mapper} (h : m.SameSelection m') {mode : Mirroring}
    (hs : m.Shows (shownMode mode m)) : m'.Shows (shownMode mode m') := by
  have hm : shownMode mode m' = shownMode mode m := by
    unfold shownMode
    rw [h.cfg, h.ctrl]
  rw [hm]
  constructor
  · intro p hp
    simp only [h.cputab]
    rw [hs.cpu p hp]
    unfold cpuEntry shownPrg irqPrgUnit
    rw [h.cfg, h.direct, h.latch, h.ctrl, h.prg, h.bank, h.prgMode]
  · intro p hp
    simp only [h.pputab]
    rw [hs.ppu p hp]
    unfold ppuEntry shownChr irqChrBank
    rw [h.cfg, h.direct, h.latch, h.ctrl, h.chr0, h.chr1, h.bank, h.chrMode]

theorem Mapper.Inv.sameSelection {m m' : Mapper} (h : m.Inv) (hs : m.SameSelection m') (hst : m'.store = m.store)
    (hf : m'.faulted = m.faulted) (hr : m'.regsLegal = true) : m'.Inv := by
  obtain ⟨mode, hmem, hsh⟩ := h.settled
  exact h.change hs.cfg hst hf hr ⟨mode, hmem, hsh.moved hs.cfg hst (by rw [hs.direct]; exact hsh.fits) (hs.shows hsh.shows)⟩

/-! ### Registers and the remap that follows them -/

theorem Mapper.laidOut_regsLegal (a : Mapper) : a.laidOut.regsLegal = a.regsLegal := by
  simp only [Mapper.regsLegal, Mapper.laidOut]

theorem Mapper.showing_regsLegal (mode : Mirroring) (a : Mapper) : (a.showing mode).regsLegal = a.regsLegal := by
  simp only [Mapper.regsLegal, Mapper.showing]

theorem shownMode_other {m : Mapper} (hv : m.cfg.variant ≠ .shift) (mode : Mirroring) : shownMode mode m = mode := by
  unfold shownMode
  rw [if_neg hv]

theorem shownMode_shift {m : Mapper} (hv : m.cfg.variant = .shift) (mode : Mirroring) :
    shownMode mode m = ctrlMirroring m.shift.ctrl := by
  unfold shownMode
  rw [if_pos hv]

/-- Changed registers with the windows laid out again keep the invariant. -/
theorem Mapper.Inv.laidOut {m a : Mapper} (h : m.Inv) (hc : a.cfg = m.cfg) (hs : a.store = m.store)
    (hf : a.faulted = m.faulted) (h1 : a.cputab = m.cputab) (h2 : a.pputab = m.pputab) (hd : a.direct = m.direct)
    (hr : a.regsLegal = true) (hv : m.cfg.variant ≠ .shift) : a.laidOut.Inv := by
  obtain ⟨mode, hmem, hset⟩ := h.settled
  have hsh := hset.shows
  rw [shownMode_other hv] at hsh
  have hs' : a.laidOut.store = m.store := by simp only [Mapper.laidOut]; exact hs
  have hc' : a.laidOut.cfg = m.cfg := by rw [Mapper.laidOut_cfg]; exact hc
  refine h.change hc' hs' (by simp only [Mapper.laidOut]; exact hf) (by rw [Mapper.laidOut_regsLegal]; exact hr)
    ⟨mode, hmem, hset.moved hc' hs' (by simp only [Mapper.laidOut]; rw [hd]; exact hset.fits) ?_⟩
  rw [shownMode_other (by rw [hc']; exact hv)]
  exact hsh.laidOut hc h1 h2

/-- Nametable pages set to a mode the variant's writes set, on tables that showed another, keep the invariant; the
registers may have changed with them. -/
theorem Mapper.Inv.showing {m a : Mapper} (h : m.Inv) (hc : a.cfg = m.cfg) (hs : a.store = m.store)
    (hf : a.faulted = m.faulted) (hr : a.regsLegal = true) {mode' : Mirroring} (hsel : SelectsMode m.cfg mode')
    (hsh : ∀ mode ∈ reachableModes m.cfg, m.Shows mode → a.Shows mode) : (a.showing mode').Inv := by
  obtain ⟨mode, hmem, hset⟩ := h.settled
  have hm := hset.shows
  rw [shownMode_other hsel.notShift] at hm
  have hs' : (a.showing mode').store = m.store := by simp only [Mapper.showing]; exact hs
  have hc' : (a.showing mode').cfg = m.cfg := by rw [Mapper.showing_cfg]; exact hc
  refine h.change hc' hs' (by simp only [Mapper.showing]; exact hf) (by rw [Mapper.showing_regsLegal]; exact hr)
    ⟨mode', hsel.mem, ?_, ?_, ?_⟩
  · rw [hc']; exact hsel.fits _
  · rw [shownMode_other (by rw [hc']; exact hsel.notShift)]
    exact (hsh mode hmem hm).showing mode'
  · intro i hi
    rw [hc'] at hi ⊢
    rw [hs']
    refine hset.rest i ?_
    cases hw : everWritten m.cfg mode i with
    | false => rfl
    | true =>
      rw [hsel.grows hmem (Cfg.legal_chr h.legal) i hw] at hi
      cases hi

/-- The registers of the serial-protocol variant with its remap keep the invariant (R199). -/
theorem Mapper.Inv.shiftRemap {m a : Mapper} (h : m.Inv) (hv : m.cfg.variant = .shift) (hc : a.cfg = m.cfg)
    (hs : a.store = m.store) (hf : a.faulted = m.faulted) (h1 : a.cputab = m.cputab) (h2 : a.pputab = m.pputab)
    (hr : a.regsLegal = true) : (a.laidOut.showing (ctrlMirroring a.shift.ctrl)).Inv := by
  obtain ⟨mode, hmem, hset⟩ := h.settled
  have hs' : (a.laidOut.showing (ctrlMirroring a.shift.ctrl)).store = m.store := by
    simp only [Mapper.laidOut, Mapper.showing]; exact hs
  have hc' : (a.laidOut.showing (ctrlMirroring a.shift.ctrl)).cfg = m.cfg := by
    rw [Mapper.showing_cfg, Mapper.laidOut_cfg]; exact hc
  refine h.change hc' hs' (by simp only [Mapper.laidOut, Mapper.showing]; exact hf)
    (by rw [Mapper.showing_regsLegal, Mapper.laidOut_regsLegal]; exact hr)
    ⟨mode, hmem, hset.moved hc' hs' (by simp only [modeFits, hv]) ?_⟩
  rw [shownMode_shift (by rw [hc']; exact hv)]
  have e : (a.laidOut.showing (ctrlMirroring a.shift.ctrl)).shift.ctrl = a.shift.ctrl := by
    simp only [Mapper.laidOut, Mapper.showing]
  rw [e]
  exact (hset.shows.laidOut hc h1 h2).showing _

/-! ### The register files stay legal -/

theorem regsLegal_iff {m : Mapper} : m.regsLegal = true ↔ directLegal m.cfg m.direct = true ∧
    shiftLegal m.cfg m.shift = true ∧ irqLegal m.cfg m.irq = true ∧ latchLegal m.cfg m.latch = true := by
  simp only [Mapper.regsLegal, Bool.and_eq_true, and_assoc]

theorem regsLegal_setIrq {m : Mapper} (h : m.regsLegal = true) {q : IrqRegs} (hq : irqLegal m.cfg q = true) :
    (m.setIrq q).regsLegal = true := by
  obtain ⟨h1, h2, _, h4⟩ := regsLegal_iff.mp h
  exact regsLegal_iff.mpr ⟨h1, h2, hq, h4⟩

theorem regsLegal_setShift {m : Mapper} (h : m.regsLegal = true) {q : ShiftRegs} (hq : shiftLegal m.cfg q = true) :
    (m.setShift q).regsLegal = true := by
  obtain ⟨h1, _, h3, h4⟩ := regsLegal_iff.mp h
  exact regsLegal_iff.mpr ⟨h1, hq, h3, h4⟩

theorem regsLegal_setLatch {m : Mapper} (h : m.regsLegal = true) {q : LatchRegs} (hq : latchLegal m.cfg q = true) :
    (m.setLatch q).regsLegal = true := by
  obtain ⟨h1, h2, h3, _⟩ := regsLegal_iff.mp h
  exact regsLegal_iff.mpr ⟨h1, h2, h3, hq⟩

theorem regsLegal_setDirect {m : Mapper} (h : m.regsLegal = true) {q : DirectRegs} (hq : directLegal m.cfg q = true) :
    (m.setDirect q).regsLegal = true := by
  obtain ⟨_, h2, h3, h4⟩ := regsLegal_iff.mp h
  exact regsLegal_iff.mpr ⟨hq, h2, h3, h4⟩

theorem irqLegal_iff {c : Cfg} (hv : c.variant = .irq) {q : IrqRegs} :
    irqLegal c q = true ↔ q.lowTicks.toNat ≤ c.irqLowMin.toNat ∧ (q.reloadPending = true → q.counter = 0#8) := by
  simp only [irqLegal, hv, Bool.and_eq_true, decide_eq_true_eq, Bool.or_eq_true, Bool.not_eq_true', BitVec.le_def]
  cases q.reloadPending <;> simp

theorem irqLegal_clock {c : Cfg} (hv : c.variant = .irq) {q : IrqRegs} (h : irqLegal c q = true) :
    irqLegal c q.clock.1 = true := by
  rw [irqLegal_iff hv] at h ⊢
  unfold IrqRegs.clock
  split
  · exact ⟨h.1, fun hp => by cases hp⟩
  · rename_i hn
    refine ⟨h.1, fun hp => ?_⟩
    exact absurd (.inl hp) hn

theorem irqLegal_observe {c : Cfg} (hv : c.variant = .irq) {q : IrqRegs} (h : irqLegal c q = true) (b : Bool) :
    irqLegal c (q.observe c.irqLowMin b).1 = true := by
  have hk := irqLegal_clock hv h
  rw [irqLegal_iff hv] at h hk ⊢
  unfold IrqRegs.observe
  cases b <;> cases q.a12Low <;> simp only [if_true, if_false, Bool.false_eq_true]
  · exact ⟨by simp, h.2⟩
  · exact h
  · exact h
  · split
    · exact hk
    · exact h

theorem irqLegal_tick {c : Cfg} (hv : c.variant = .irq) {q : IrqRegs} (h : irqLegal c q = true) :
    irqLegal c (q.tick c.irqLowMin) = true := by
  rw [irqLegal_iff hv] at h ⊢
  unfold IrqRegs.tick
  split
  · rename_i hl
    have := hl.2
    rw [BitVec.lt_def] at this
    refine ⟨?_, h.2⟩
    have h2 := c.irqLowMin.isLt
    rw [BitVec.toNat_add]
    simp only [BitVec.toNat_ofNat]
    omega
  · exact h

theorem shiftLegal_iff {c : Cfg} (hv : c.variant = .shift) {q : ShiftRegs} :
    shiftLegal c q = true ↔ q.cnt.toNat ≤ 4 ∧ q.sr.toNat % 2 ^ (5 - q.cnt.toNat) = 0 := by
  simp only [shiftLegal, hv, Bool.and_eq_true, decide_eq_true_eq]

/-- A cleared serial register is legal (R193, R194). -/
theorem shiftLegal_cleared {c : Cfg} (hv : c.variant = .shift) (q : ShiftRegs) (h1 : q.sr = 0#5) (h2 : q.cnt = 0#3) :
    shiftLegal c q = true := by
  rw [shiftLegal_iff hv, h1, h2]
  decide

theorem shiftIn_toNat (sr : BitVec 5) (bit : Bool) :
    (shiftIn sr bit).toNat = sr.toNat / 2 + if bit then 16 else 0 := by
  revert sr bit
  decide

theorem shiftLegal_collect {c : Cfg} (hv : c.variant = .shift) {q : ShiftRegs} (h : shiftLegal c q = true) (bit : Bool)
    (hc : q.cnt < 4#3) : shiftLegal c (q.collect bit) = true := by
  rw [shiftLegal_iff hv] at h ⊢
  unfold ShiftRegs.collect
  simp only
  rw [shiftIn_toNat]
  have key : ∀ (cnt : BitVec 3) (sr : BitVec 5) (bit : Bool), cnt < 4#3 → sr.toNat % 2 ^ (5 - cnt.toNat) = 0 →
      (cnt + 1#3).toNat ≤ 4 ∧ (sr.toNat / 2 + if bit then 16 else 0) % 2 ^ (5 - (cnt + 1#3).toNat) = 0 := by
    decide
  exact key q.cnt q.sr bit hc h.2

theorem latchLegal_iff {c : Cfg} (hv : c.variant = .latch) {q : LatchRegs} :
    latchLegal c q = true ↔ q.prgSel.toNat < prgUnits c.toGeometry ∧
      ∀ i : Fin 4, q.selected[i].toNat < chrBanks4 c.toGeometry := by
  simp only [latchLegal, hv, Bool.and_eq_true, decide_eq_true_eq]
  constructor
  · rintro ⟨⟨⟨⟨h, h0⟩, h1⟩, h2⟩, h3⟩
    refine ⟨h, fun i => ?_⟩
    match i with
    | 0 => exact h0
    | 1 => exact h1
    | 2 => exact h2
    | 3 => exact h3
  · rintro ⟨h, hi⟩
    exact ⟨⟨⟨⟨h, hi 0⟩, hi 1⟩, hi 2⟩, hi 3⟩

/-- There is at least one switchable PRG unit (R10 d, R10 g). -/
theorem prgUnits_pos {c : Cfg} (hl : c.legal = true) (hv : c.variant = .latch) : 1 ≤ prgUnits c.toGeometry := by
  have hmin := (Cfg.legal_parts hl).2.2.2.1
  have hsplit := (Cfg.legal_parts hl).2.2.2.2.2.2
  simp only [hv, Geometry.prgMinOk, Geometry.splitOk, Bool.or_eq_true, decide_eq_true_eq] at hmin hsplit
  unfold prgUnits Geometry.banksPrg
  rcases hsplit with h | h <;> rw [h] <;> omega

theorem latchLegal_prg {c : Cfg} (hl : c.legal = true) (hv : c.variant = .latch) {q : LatchRegs}
    (h : latchLegal c q = true) (v : Byte) :
    latchLegal c { q with prgSel := maskReg v.toNat (prgUnits c.toGeometry) } = true := by
  rw [latchLegal_iff hv] at h ⊢
  refine ⟨?_, h.2⟩
  simp only
  rw [maskReg_toNat _ v.isLt]
  exact maskTo_lt _ (prgUnits_pos hl hv)

theorem latchLegal_select {c : Cfg} (hl : c.legal = true) (hv : c.variant = .latch) {q : LatchRegs}
    (h : latchLegal c q = true) (i : Fin 4) (v : Byte) : latchLegal c (q.select c.toGeometry i v) = true := by
  rw [latchLegal_iff hv] at h ⊢
  refine ⟨h.1, fun j => ?_⟩
  have hc := Cfg.legal_chr hl
  unfold LatchRegs.select
  simp only [Fin.getElem_fin, Vector.getElem_set]
  split
  · rw [maskReg_toNat _ v.isLt]
    exact maskTo_lt _ (by unfold chrBanks4; omega)
  · exact h.2 j

theorem latchLegal_latch {c : Cfg} {q : LatchRegs} (h : latchLegal c q = true) (hv : c.variant = .latch)
    (l : Vector Bool 2) : latchLegal c { q with latch := l } = true := by
  rw [latchLegal_iff hv] at h ⊢
  exact h

end Sys2Proof.Machine
end

