-- ==== Sys2Proof/Laws/Access.lean ====
section
/-! SUPPORT. Bus accesses and the detector on a block that meets the invariant. -/

namespace Sys2Proof.Machine

theorem cpuIntra_lt (a : CpuAddr) : cpuIntra a < 1024 := (a.extractLsb' 0 10).isLt
theorem ppuIntra_lt (a : PpuAddr) : ppuIntra a < 1024 := (a.extractLsb' 0 10).isLt

/-- A write through a descriptor whose writable bytes bus writes can have reached keeps the invariant. -/
theorem writeThrough_inv {m m' : Mapper} (h : m.Inv) (e : Bank) (k : Nat) (v : Byte)
    (he : e.mapped = true → e.ro = false → ∀ mode ∈ reachableModes m.cfg, m.Settled mode →
      everWritten m.cfg mode (e.off + k) = true)
    (hw : writeThrough m e k v = some m') : m'.Inv := by
  unfold writeThrough translate at hw
  cases hm : e.mapped with
  | false => simp [hm] at hw; rw [← hw]; exact h
  | true =>
    simp [hm] at hw
    cases hr : e.ro with
    | true => simp [hr] at hw; rw [← hw]; exact h
    | false =>
      simp [hr] at hw
      rw [← hw.2]
      exact h.write _ _ hw.1 (he hm hr)

theorem cpuWrite_inv {m m' : Mapper} (h : m.Inv) (a : CpuAddr) (v : Byte)
    (hw : writeThrough m (cpuBank m a) (cpuIntra a) v = some m') : m'.Inv := by
  refine writeThrough_inv h _ _ _ (fun hm hr mode _ hs => ?_) hw
  have e : cpuBank m a = cpuEntry m (cpuPage a).val := hs.shows.cpu _ (cpuPage a).isLt
  rw [e] at hm hr ⊢
  exact cpuEntry_written m mode _ hm hr (cpuIntra_lt a)

theorem ppuWrite_inv {m m' : Mapper} (h : m.Inv) (a : PpuAddr) (v : Byte)
    (hw : writeThrough m (ppuBank m a) (ppuIntra a) v = some m') : m'.Inv := by
  refine writeThrough_inv h _ _ _ (fun hm hr mode hmem hs => ?_) hw
  have e : ppuBank m a = ppuEntry (shownMode mode m) m (ppuPage a).val := hs.shows.ppu _ (ppuPage a).isLt
  rw [e] at hr ⊢
  exact ppuEntry_written h.legal h.regs hmem hs.fits _ hr (ppuIntra_lt a)

theorem irq_same {m : Mapper} (h : m.Inv) {q : IrqRegs} (h1 : q.bank = m.irq.bank)
    (h2 : q.prgMode = m.irq.prgMode) (h3 : q.chrMode = m.irq.chrMode) (hl : irqLegal m.cfg q = true) :
    (m.setIrq q).Inv :=
  h.sameSelection ⟨rfl, rfl, rfl, rfl, rfl, rfl, rfl, rfl, rfl, h1, h2, h3⟩ rfl rfl (regsLegal_setIrq h.regs hl)

theorem clock_sel (q : IrqRegs) :
    q.clock.1.bank = q.bank ∧ q.clock.1.prgMode = q.prgMode ∧ q.clock.1.chrMode = q.chrMode := by
  unfold IrqRegs.clock; split <;> exact ⟨rfl, rfl, rfl⟩

theorem observe_sel (q : IrqRegs) (l : Byte) (b : Bool) :
    (q.observe l b).1.bank = q.bank ∧ (q.observe l b).1.prgMode = q.prgMode ∧
      (q.observe l b).1.chrMode = q.chrMode := by
  have := clock_sel q
  unfold IrqRegs.observe
  cases b <;> cases q.a12Low <;> simp only [if_true, if_false, Bool.false_eq_true]
  · exact ⟨trivial, trivial, trivial⟩
  · exact ⟨trivial, trivial, trivial⟩
  · exact ⟨trivial, trivial, trivial⟩
  split
  · exact this
  · exact ⟨rfl, rfl, rfl⟩

theorem observe_inv {m : Mapper} (h : m.Inv) (hv : m.cfg.variant = .irq) (b : Bool) : (observeBlock m b).1.Inv := by
  have hl := (regsLegal_iff.mp h.regs).2.2.1
  obtain ⟨h1, h2, h3⟩ := observe_sel m.irq m.cfg.irqLowMin b
  exact irq_same h h1 h2 h3 (irqLegal_observe hv hl b)

theorem ppuRead_next {m : Mapper} {a : PpuAddr} {d : Nat}
    {k : Byte → Nat → Host.Outcome State Fault Refusal} {t : State} (h : ppuRead m a d k = .next t) : ∃ b d', k b d' = .next t := by
  unfold ppuRead withRead at h
  split at h
  · exact ⟨_, _, h⟩
  · cases h

end Sys2Proof.Machine
end

