-- ==== Sys2Proof/Laws/PowerOn.lean ====
section
/-! SUPPORT. What construction leaves: the store, the registers, the tables (R261, R311 to R323). -/

namespace Sys2Proof.Machine

/-! ### The store at construction (R261, R313) -/

/-- The part of a payload check that gives the PRG length (R10 b). -/
theorem Cfg.legal_prgLen {c : Cfg} (h : c.legal = true) : c.prg.len = c.sizePrg := by
  have := (Cfg.legal_parts h).2.1
  simp only [Geometry.payloadsOk, Bool.and_eq_true, decide_eq_true_eq] at this
  exact this.1

theorem Cfg.legal_chrLen {c : Cfg} (h : c.legal = true) {i : Image} (hi : c.chr = some i) : i.len = c.sizeChr := by
  have := (Cfg.legal_parts h).2.1
  simp only [Geometry.payloadsOk, hi, Bool.and_eq_true, decide_eq_true_eq] at this
  exact this.2

/-- Read-only CHR has a payload (R10 b). -/
theorem Cfg.legal_chrRom {c : Cfg} (h : c.legal = true) (hr : c.chrReadOnly = true) : ∃ i, c.chr = some i := by
  have := (Cfg.legal_parts h).2.1
  cases hc : c.chr with
  | some i => exact ⟨i, rfl⟩
  | none =>
    simp only [Geometry.payloadsOk, hc, Bool.and_eq_true, hr] at this
    exact absurd this.2 (by decide)

theorem Cfg.legal_trainerLen {c : Cfg} (h : c.legal = true) {t : Image} (ht : c.trainer = some t) : t.len = 512 := by
  have := (Cfg.legal_parts h).2.2.2.2.2.1
  simp only [Geometry.trainerOk, ht, decide_eq_true_eq] at this
  exact this

theorem read_prgStore {c : Cfg} (hl : c.legal = true) (k : Nat) :
    Memory.read (Memory.load [] c.prgBase c.prg) k = if k < c.sizePrg then imageByte c.prg k else 0#8 := by
  have e : c.prgBase = 0 := rfl
  have hlen := Cfg.legal_prgLen hl
  rw [Memory.read_load [] _ _ _ rfl (fun _ _ => rfl), e, Nat.zero_add, hlen, Nat.sub_zero]
  by_cases h : k < c.sizePrg
  · rw [if_pos ⟨Nat.zero_le k, h⟩, if_pos h]
  · rw [if_neg (fun hh => h hh.2), if_neg h]
    rfl

theorem read_romStore {c : Cfg} (hl : c.legal = true) (k : Nat) :
    Memory.read (romStore c.toGeometry) k =
      if k < c.sizePrg then imageByte c.prg k
      else if k < c.sizePrg + c.sizeChr then
        match c.chr with
        | some i => imageByte i (k - c.chrBase)
        | none => 0#8
      else 0#8 := by
  have e : c.chrBase = c.sizePrg := rfl
  unfold romStore
  cases hc : c.chr with
  | none =>
    simp only
    rw [read_prgStore hl]
    split
    · rfl
    · split <;> rfl
  | some i =>
    simp only
    have hlen := Cfg.legal_chrLen hl hc
    rw [Memory.read_load _ _ _ _ (prgStore_wf _) (fun j _ => by
      rw [read_prgStore hl, if_neg (by omega)]), hlen, read_prgStore hl]
    by_cases h1 : k < c.sizePrg
    · rw [if_neg (by omega), if_pos h1, if_pos h1]
    · by_cases h2 : k < c.sizePrg + c.sizeChr
      · rw [if_pos (by omega), if_neg h1, if_pos h2]
      · rw [if_neg (by omega), if_neg h1, if_neg h1, if_neg h2]

/-- What the store holds right after construction: the payloads, RAM zero, and the trainer when there is work RAM
for it (R313). -/
theorem read_freshStore {c : Cfg} (hl : c.legal = true) (k : Nat) :
    Memory.read (freshStore c.toGeometry) k =
      if k < c.sizePrg then imageByte c.prg k
      else if k < c.sizePrg + c.sizeChr then
        match c.chr with
        | some i => imageByte i (k - c.chrBase)
        | none => 0#8
      else
        match c.trainer with
        | some t =>
          if 10 ≤ c.banksCpuRam ∧ c.cpuRamBase + 2048 + 4096 ≤ k ∧ k < c.cpuRamBase + 2048 + 4096 + 512 then
            imageByte t (k - (c.cpuRamBase + 2048 + 4096))
          else 0#8
        | none => 0#8 := by
  have e : c.cpuRamBase = c.sizePrg + c.sizeChr := rfl
  rw [freshStore_eq]
  cases ht : c.trainer with
  | none =>
    simp only
    rw [read_romStore hl]
  | some t =>
    simp only
    have hlen := Cfg.legal_trainerLen hl ht
    by_cases h10 : 10 ≤ c.banksCpuRam
    · rw [if_pos h10, Memory.read_load _ _ _ _ (romStore_wf _) (fun j _ => by
        rw [read_romStore hl, if_neg (by omega), if_neg (by omega)]), hlen, read_romStore hl]
      by_cases h1 : k < c.sizePrg
      · rw [if_neg (by omega), if_pos h1, if_pos h1]
      · by_cases h2 : k < c.sizePrg + c.sizeChr
        · rw [if_neg (by omega), if_neg h1, if_pos h2, if_neg h1, if_pos h2]
        · rw [if_neg h1, if_neg h2, if_neg h1, if_neg h2]
          by_cases h3 : c.cpuRamBase + 2048 + 4096 ≤ k ∧ k < c.cpuRamBase + 2048 + 4096 + 512
          · rw [if_pos h3, if_pos ⟨h10, h3⟩]
          · rw [if_neg h3, if_neg (fun h => h3 h.2)]
    · rw [if_neg h10, read_romStore hl]
      by_cases h1 : k < c.sizePrg
      · rw [if_pos h1, if_pos h1]
      · by_cases h2 : k < c.sizePrg + c.sizeChr
        · rw [if_neg h1, if_pos h2, if_neg h1, if_pos h2]
        · rw [if_neg h1, if_neg h2, if_neg h1, if_neg h2, if_neg (fun h => h10 h.1)]

theorem freshStore_below {c : Cfg} (hl : c.legal = true) :
    Memory.below (freshStore c.toGeometry) c.storeLen = true := by
  have e : c.storeLen = c.sizePrg + c.sizeChr + c.sizeCpuRam + c.sizePpuRam := rfl
  have e0 : c.prgBase = 0 := rfl
  have e1 : c.chrBase = c.sizePrg := rfl
  have e2 : c.cpuRamBase = c.sizePrg + c.sizeChr := rfl
  have e3 : c.sizeCpuRam = 1024 * c.banksCpuRam := rfl
  have hp := Cfg.legal_prgLen hl
  have h1 : Memory.below (Memory.load [] c.prgBase c.prg) c.storeLen = true :=
    Memory.load_below _ _ _ _ (by omega) rfl
  have h2 : Memory.below (romStore c.toGeometry) c.storeLen = true := by
    unfold romStore
    split
    · rename_i i hi
      have := Cfg.legal_chrLen hl hi
      exact Memory.load_below _ _ _ _ (by omega) h1
    · exact h1
  rw [freshStore_eq]
  split
  · rename_i t ht
    have := Cfg.legal_trainerLen hl ht
    split
    · exact Memory.load_below _ _ _ _ (by omega) h2
    · exact h2
  · exact h2

/-! ### The block at construction -/

theorem freshMapper_regsLegal {cfg : Cfg} (hl : cfg.legal = true) : (freshMapper cfg).regsLegal = true := by
  have hp := Cfg.legal_prg hl
  have hc := Cfg.legal_chr hl
  have hmin := (Cfg.legal_parts hl).2.2.2.1
  rw [regsLegal_iff]
  refine ⟨?_, ?_, ?_, ?_⟩
  · show directLegal cfg DirectRegs.reset = true
    unfold directLegal
    cases hv : cfg.variant <;> simp only [hv, Geometry.prgMinOk, decide_eq_true_eq] at hmin <;>
      simp [DirectRegs.reset] <;> omega
  · show shiftLegal cfg ShiftRegs.reset = true
    unfold shiftLegal
    cases hv : cfg.variant <;> decide
  · show irqLegal cfg IrqRegs.reset = true
    unfold irqLegal
    cases hv : cfg.variant <;> simp [IrqRegs.reset, BitVec.le_def]
  · show latchLegal cfg LatchRegs.reset = true
    by_cases hv : cfg.variant = .latch
    · rw [latchLegal_iff hv]
      have := prgUnits_pos hl hv
      refine ⟨this, fun i => ?_⟩
      have : (LatchRegs.reset.selected[i]) = 0#8 := by
        simp [LatchRegs.reset]
      rw [this]
      show 0 < chrBanks4 cfg.toGeometry
      unfold chrBanks4
      omega
    · unfold latchLegal
      cases hv' : cfg.variant <;> first | exact absurd hv' hv | exact decide_eq_true rfl

theorem mirroring0_banks {cfg : Cfg} (hl : cfg.legal = true) : modeBanks cfg.mirroring0 ≤ cfg.banksPpuRam :=
  Cfg.legal_mode hl _ id

/-- Construction of a legal configuration completes, with the tables of its registers and the initial mirroring
(R311 to R323). -/
theorem powerOn_done {cfg : Cfg} (hl : cfg.legal = true) :
    powerOn cfg = .done ((freshMapper cfg).tabled (shownMode cfg.mirroring0 (freshMapper cfg))) :=
  layout_done (m := freshMapper cfg) hl (freshMapper_regsLegal hl) (mirroring0_banks hl)

theorem mirroring0_mem (c : Cfg) : c.mirroring0 ∈ reachableModes c := by
  unfold reachableModes
  split <;> try simp
  all_goals
    split
    · rename_i h; simp [h]
    · simp

theorem Mapper.tabled_shows (mode : Mirroring) (m : Mapper) : (m.tabled mode).Shows mode := by
  constructor
  · intro p hp
    rw [cpuEntry_congr (m := m) (m' := m.tabled mode) (by simp only [Mapper.tabled]) (by simp only [Mapper.tabled])
      (by simp only [Mapper.tabled]) (by simp only [Mapper.tabled]) (by simp only [Mapper.tabled])]
    simp only [Mapper.tabled, Vector.getElem_ofFn]
  · intro p hp
    rw [ppuEntry_congr (m := m) (m' := m.tabled mode) (by simp only [Mapper.tabled]) (by simp only [Mapper.tabled])
      (by simp only [Mapper.tabled]) (by simp only [Mapper.tabled]) (by simp only [Mapper.tabled])]
    simp only [Mapper.tabled, Vector.getElem_ofFn]

/-- A freshly constructed block meets the invariant. -/
theorem powerOn_inv {cfg : Cfg} (hl : cfg.legal = true) :
    ((freshMapper cfg).tabled (shownMode cfg.mirroring0 (freshMapper cfg))).Inv := by
  have hm : shownMode cfg.mirroring0 ((freshMapper cfg).tabled (shownMode cfg.mirroring0 (freshMapper cfg))) =
      shownMode cfg.mirroring0 (freshMapper cfg) := by
    unfold shownMode
    simp only [Mapper.tabled]
    rfl
  refine inv_iff.mpr ⟨?_, ?_, ?_, ⟨cfg.mirroring0, ?_, ?_, ?_, ?_⟩, ?_, ?_, ?_, ?_⟩
  · simp only [Mapper.tabled]; exact hl
  · simp only [Mapper.tabled]; rfl
  · have := freshMapper_regsLegal hl
    simpa only [Mapper.regsLegal, Mapper.tabled] using this
  · simp only [Mapper.tabled]; exact mirroring0_mem cfg
  · show modeFits cfg cfg.mirroring0 DirectRegs.reset = true
    unfold modeFits
    split <;> simp
  · rw [hm]; exact Mapper.tabled_shows _ _
  · intro i _
    simp only [Mapper.tabled]
    rfl
  · simp only [Mapper.tabled]; exact freshStore_wf _
  · simp only [Mapper.tabled]; exact freshStore_below hl
  · intro i hi
    simp only [Mapper.tabled] at hi ⊢
    show Memory.read (freshStore cfg.toGeometry) i = imageByte cfg.prg i
    rw [read_freshStore hl, if_pos (by exact hi)]
  · intro hro c hc i hi
    simp only [Mapper.tabled] at hro hc hi ⊢
    show Memory.read (freshStore cfg.toGeometry) (cfg.chrBase + i) = imageByte c i
    have e : cfg.chrBase = cfg.sizePrg := rfl
    have hi' : i < cfg.sizeChr := hi
    have hc' : cfg.chr = some c := hc
    rw [read_freshStore hl, if_neg (by omega), if_pos (by omega), hc']
    simp only
    rw [Nat.add_sub_cancel_left]

theorem checkCfg_ok {c : CfgIn} {cfg : Cfg} : checkCfg c = .ok cfg ↔
    c.tag = .known cfg.variant ∧ c.toGeometry = cfg.toGeometry ∧ cfg.legal = true := by
  unfold checkCfg Cfg.legal
  cases ht : c.tag with
  | other n => simp
  | known v =>
    cases hb : c.toGeometry.broken v with
    | some e =>
      simp only [hb]
      constructor
      · intro h; cases h
      · rintro ⟨h1, h2, h3⟩
        cases h1
        rw [← h2, hb] at h3
        simp at h3
    | none =>
      simp only [hb]
      constructor
      · intro h
        cases h
        exact ⟨rfl, rfl, by simp [hb]⟩
      · rintro ⟨h1, h2, _⟩
        cases h1
        rw [h2]

/-- `POWERON` of a legal configuration (R261, R311). -/
theorem poweron_done {s : State} {cfg : Cfg} (hl : cfg.legal = true)
    (h : ∀ m0, s.inst = some m0 → m0.faulted = false) :
    exec (.poweron { toGeometry := cfg.toGeometry, tag := .known cfg.variant }) s = .next (s.reply
      ((freshMapper cfg).tabled (shownMode cfg.mirroring0 (freshMapper cfg))) Output.quiet) := by
  have hc : checkCfg { toGeometry := cfg.toGeometry, tag := .known cfg.variant } = .ok cfg :=
    checkCfg_ok.mpr ⟨rfl, rfl, hl⟩
  show execPoweron _ s = _
  unfold execPoweron
  rw [hc]
  simp only [powerOn_done hl, finish_done]
  cases hi : s.inst with
  | none => rfl
  | some m => simp [h m hi]

end Sys2Proof.Machine
end

