-- ==== Sys2Proof/Laws/Buffer.lean ====
section
/-! SUPPORT. The buffer of `SAVE`, byte by byte, and what `RESTORE` reads back from one (R262 to R267). -/

namespace Sys2Proof.Machine

/-! ### The buffer (R262 to R265) -/

@[simp] theorem offsetBytes_length (n : Nat) : (offsetBytes n).length = 8 := by simp [offsetBytes]

@[simp] theorem bankBytes_length (e : Bank) : (bankBytes e).length = 10 := by simp [bankBytes]

theorem flatMap_bankBytes_length (l : List Bank) : (l.flatMap bankBytes).length = 10 * l.length := by
  induction l with
  | nil => rfl
  | cons e rest ih =>
    rw [List.flatMap_cons, List.length_append, bankBytes_length, ih, List.length_cons]
    omega

@[simp] theorem tableBytes_length {n : Nat} (t : Vector Bank n) : (tableBytes t).length = 10 * n := by
  rw [tableBytes, flatMap_bankBytes_length, Vector.length_toList]

@[simp] theorem regBytes_length (m : Mapper) : (regBytes m).length = regCount m.cfg.variant := by
  unfold regBytes regCount
  cases hv : m.cfg.variant <;> simp

/-- The length of the buffer is `SAVESIZE` (R265). -/
theorem saveBuffer_length (m : Mapper) : (saveBuffer m).length = saveSize m.cfg := by
  simp only [saveBuffer, List.length_append, tableBytes_length, Memory.readBytes_length, regBytes_length, saveSize]

/-- Byte `k` of entry `p` of a table in the buffer. -/
theorem flatMap_bankBytes_get (l : List Bank) (p k : Nat) (hp : p < l.length) (hk : k < 10) :
    (l.flatMap bankBytes)[10 * p + k]? = (bankBytes l[p])[k]? := by
  induction l generalizing p with
  | nil => exact absurd hp (Nat.not_lt_zero p)
  | cons e rest ih =>
    rw [List.flatMap_cons]
    cases p with
    | zero =>
      rw [List.getElem?_append_left (by rw [bankBytes_length]; omega)]
      simp
    | succ p =>
      rw [List.getElem?_append_right (by rw [bankBytes_length]; omega), bankBytes_length]
      rw [show 10 * (p + 1) + k - 10 = 10 * p + k by omega, ih p (by simpa using hp)]
      simp

theorem tableBytes_get {n : Nat} (t : Vector Bank n) (p k : Nat) (hp : p < n) (hk : k < 10) :
    (tableBytes t)[10 * p + k]? = (bankBytes t[p])[k]? := by
  have := flatMap_bankBytes_get t.toList p k (by rw [Vector.length_toList]; exact hp) hk
  rw [tableBytes, this]
  simp

theorem bankBytes_off (e : Bank) (k : Nat) (hk : k < 8) : (bankBytes e)[k]? = some (BitVec.ofNat 8 (e.off / 256 ^ k)) := by
  rw [bankBytes, List.getElem?_append_left (by rw [offsetBytes_length]; exact hk)]
  simp [offsetBytes, hk]

theorem bankBytes_ro (e : Bank) : (bankBytes e)[8]? = some (flagByte e.ro) := by
  rw [bankBytes, List.getElem?_append_right (by simp)]
  simp

theorem bankBytes_mapped (e : Bank) : (bankBytes e)[9]? = some (flagByte e.mapped) := by
  rw [bankBytes, List.getElem?_append_right (by simp)]
  simp

theorem readBytes_get (m : Memory) (base len i : Nat) (hi : i < len) :
    (Memory.readBytes m base len)[i]? = some (Memory.read m (base + i)) := by
  simp [Memory.readBytes, hi]

/-- The parts of the buffer, each at its place. -/
theorem saveBuffer_parts (m : Mapper) :
    saveBuffer m = tableBytes m.cputab ++ (tableBytes m.pputab ++
      (Memory.readBytes m.store m.cfg.chrBase (savedChr m.cfg.toGeometry) ++
      (Memory.readBytes m.store m.cfg.cpuRamBase m.cfg.sizeCpuRam ++
      (Memory.readBytes m.store m.cfg.ppuRamBase m.cfg.sizePpuRam ++ regBytes m)))) := by
  simp only [saveBuffer, List.append_assoc]

theorem saveBuffer_cpu (m : Mapper) (p k : Nat) (hp : p < 64) (hk : k < 10) :
    (saveBuffer m)[10 * p + k]? = (bankBytes m.cputab[p])[k]? := by
  rw [saveBuffer_parts, List.getElem?_append_left (by rw [tableBytes_length]; omega), tableBytes_get _ _ _ hp hk]

theorem saveBuffer_ppu (m : Mapper) (p k : Nat) (hp : p < 16) (hk : k < 10) :
    (saveBuffer m)[640 + 10 * p + k]? = (bankBytes m.pputab[p])[k]? := by
  rw [saveBuffer_parts, List.getElem?_append_right (by rw [tableBytes_length]; omega), tableBytes_length,
    List.getElem?_append_left (by rw [tableBytes_length]; omega),
    show 640 + 10 * p + k - 10 * 64 = 10 * p + k by omega, tableBytes_get _ _ _ hp hk]

theorem saveBuffer_drop (m : Mapper) : (saveBuffer m).drop 800 =
    Memory.readBytes m.store m.cfg.chrBase (savedChr m.cfg.toGeometry) ++
      (Memory.readBytes m.store m.cfg.cpuRamBase m.cfg.sizeCpuRam ++
      (Memory.readBytes m.store m.cfg.ppuRamBase m.cfg.sizePpuRam ++ regBytes m)) := by
  rw [saveBuffer_parts, ← List.append_assoc]
  exact List.drop_left' (by simp)

theorem saveBuffer_chr (m : Mapper) (i : Nat) (hi : i < savedChr m.cfg.toGeometry) :
    (saveBuffer m)[800 + i]? = some (Memory.read m.store (m.cfg.chrBase + i)) := by
  rw [← List.getElem?_drop, saveBuffer_drop, List.getElem?_append_left (by rw [Memory.readBytes_length]; exact hi),
    readBytes_get _ _ _ _ hi]

theorem saveBuffer_cpuRam (m : Mapper) (i : Nat) (hi : i < m.cfg.sizeCpuRam) :
    (saveBuffer m)[800 + savedChr m.cfg.toGeometry + i]? = some (Memory.read m.store (m.cfg.cpuRamBase + i)) := by
  rw [Nat.add_assoc, ← List.getElem?_drop, saveBuffer_drop,
    List.getElem?_append_right (by rw [Memory.readBytes_length]; omega), Memory.readBytes_length, Nat.add_sub_cancel_left,
    List.getElem?_append_left (by rw [Memory.readBytes_length]; exact hi), readBytes_get _ _ _ _ hi]

theorem saveBuffer_ppuRam (m : Mapper) (i : Nat) (hi : i < m.cfg.sizePpuRam) :
    (saveBuffer m)[800 + savedChr m.cfg.toGeometry + m.cfg.sizeCpuRam + i]? =
      some (Memory.read m.store (m.cfg.ppuRamBase + i)) := by
  rw [show 800 + savedChr m.cfg.toGeometry + m.cfg.sizeCpuRam + i =
      800 + (savedChr m.cfg.toGeometry + (m.cfg.sizeCpuRam + i)) by omega, ← List.getElem?_drop, saveBuffer_drop,
    List.getElem?_append_right (by rw [Memory.readBytes_length]; omega), Memory.readBytes_length, Nat.add_sub_cancel_left,
    List.getElem?_append_right (by rw [Memory.readBytes_length]; omega), Memory.readBytes_length, Nat.add_sub_cancel_left,
    List.getElem?_append_left (by rw [Memory.readBytes_length]; exact hi), readBytes_get _ _ _ _ hi]

/-- The registers are the end of the buffer. -/
theorem saveBuffer_regs (m : Mapper) :
    (saveBuffer m).drop (800 + savedChr m.cfg.toGeometry + m.cfg.sizeCpuRam + m.cfg.sizePpuRam) = regBytes m := by
  rw [show 800 + savedChr m.cfg.toGeometry + m.cfg.sizeCpuRam + m.cfg.sizePpuRam =
      800 + (savedChr m.cfg.toGeometry + m.cfg.sizeCpuRam + m.cfg.sizePpuRam) by omega, ← List.drop_drop,
    saveBuffer_drop, ← List.append_assoc, ← List.append_assoc]
  exact List.drop_left' (by simp only [List.length_append, Memory.readBytes_length])

/-! ### What a restore reads back -/

theorem byteAt_eq (buf : List Byte) (i : Nat) (b : Byte) (h : buf[i]? = some b) : byteAt buf i = b := by
  rw [byteAt, List.getD_eq_getElem?_getD, h]
  rfl

theorem flagAt_eq (buf : List Byte) (i : Nat) (b : Bool) (h : buf[i]? = some (flagByte b)) : flagAt buf i = b := by
  rw [flagAt, byteAt_eq buf i _ h]
  cases b <;> decide

theorem digits_sum (n : Nat) (k : Nat) :
    ((List.range k).map fun j => n / 256 ^ j % 256 * 256 ^ j).sum = n % 256 ^ k := by
  induction k with
  | zero => simp [Nat.mod_one]
  | succ k ih =>
    rw [List.range_succ, List.map_append, List.sum_append, ih, Nat.pow_succ, Nat.mod_mul]
    simp [Nat.mul_comm]

/-- The number eight little-endian bytes hold (R263). -/
theorem offsetAt_eq (buf : List Byte) (i n : Nat) (hn : n < 2 ^ 64)
    (h : ∀ k, k < 8 → buf[i + k]? = some (BitVec.ofNat 8 (n / 256 ^ k))) : offsetAt buf i = n := by
  have : (List.range 8).map (fun k => (byteAt buf (i + k)).toNat * 256 ^ k) =
      (List.range 8).map fun k => n / 256 ^ k % 256 * 256 ^ k := by
    refine List.map_congr_left fun k hk => ?_
    rw [byteAt_eq buf (i + k) _ (h k (List.mem_range.mp hk)), BitVec.toNat_ofNat]
  rw [offsetAt, this, digits_sum]
  exact Nat.mod_eq_of_lt (by omega)

theorem bankAt_eq (buf : List Byte) (i : Nat) (e : Bank) (hn : e.off < 2 ^ 64)
    (h : ∀ k, k < 10 → buf[i + k]? = (bankBytes e)[k]?) : bankAt buf i = e := by
  unfold bankAt
  rw [offsetAt_eq buf i e.off hn fun k hk => by rw [h k (by omega), bankBytes_off e k hk],
    flagAt_eq buf (i + 8) e.ro (by rw [h 8 (by omega), bankBytes_ro]),
    flagAt_eq buf (i + 9) e.mapped (by rw [h 9 (by omega), bankBytes_mapped])]

theorem segment_getD (buf : List Byte) (i len k : Nat) (hk : k < len) :
    (segment buf i len).getD k 0#8 = byteAt buf (i + k) := by
  simp only [segment, byteAt, List.getD_eq_getElem?_getD, List.getElem?_take, List.getElem?_drop, hk, if_true]

theorem segment_length (buf : List Byte) (i len : Nat) (h : i + len ≤ buf.length) : (segment buf i len).length = len := by
  simp only [segment, List.length_take, List.length_drop]
  omega

theorem segment_length_le (buf : List Byte) (i len : Nat) : (segment buf i len).length ≤ len := by
  simp only [segment, List.length_take, List.length_drop]
  omega

/-- The registers of a restored block change its register files only. -/
theorem withRegsAt_keeps (buf : List Byte) (i : Nat) (m : Mapper) :
    (withRegsAt buf i m).cfg = m.cfg ∧ (withRegsAt buf i m).store = m.store ∧
      (withRegsAt buf i m).cputab = m.cputab ∧ (withRegsAt buf i m).pputab = m.pputab ∧
      (withRegsAt buf i m).faulted = m.faulted := by
  unfold withRegsAt
  cases m.cfg.variant <;> exact ⟨rfl, rfl, rfl, rfl, rfl⟩

theorem restored_cfg (buf : List Byte) (m : Mapper) : (restored buf m).cfg = m.cfg := by
  unfold restored
  rw [(withRegsAt_keeps _ _ _).1]

theorem restored_store (buf : List Byte) (m : Mapper) :
    (restored buf m).store = storeFrom buf m.cfg.toGeometry m.store := by
  unfold restored
  rw [(withRegsAt_keeps _ _ _).2.1]

theorem restored_faulted (buf : List Byte) (m : Mapper) : (restored buf m).faulted = m.faulted := by
  unfold restored
  rw [(withRegsAt_keeps _ _ _).2.2.2.2]

theorem restored_cputab (buf : List Byte) (m : Mapper) (p : Nat) (hp : p < 64) :
    (restored buf m).cputab[p] = bankAt buf (10 * p) := by
  unfold restored
  simp only [(withRegsAt_keeps _ _ _).2.2.1, Vector.getElem_ofFn]

theorem restored_pputab (buf : List Byte) (m : Mapper) (p : Nat) (hp : p < 16) :
    (restored buf m).pputab[p] = bankAt buf (640 + 10 * p) := by
  unfold restored
  simp only [(withRegsAt_keeps _ _ _).2.2.2.1, Vector.getElem_ofFn]

/-- Bytes below the saved CHR region, and of a read-only CHR region, are not restored (R266). -/
theorem read_storeFrom_rom (buf : List Byte) (g : Geometry) (store : Memory) (i : Nat) (h1 : i < g.cpuRamBase)
    (h2 : g.chrReadOnly = false → i < g.chrBase) :
    Memory.read (storeFrom buf g store) i = Memory.read store i := by
  have e3 : g.ppuRamBase = g.cpuRamBase + g.sizeCpuRam := rfl
  have hs := segment_length_le buf 800 (savedChr g)
  unfold storeFrom
  simp only
  rw [Memory.read_writeBytes_outside _ _ _ _ (.inl (by omega)), Memory.read_writeBytes_outside _ _ _ _ (.inl h1)]
  cases hro : g.chrReadOnly with
  | false => exact Memory.read_writeBytes_outside _ _ _ _ (.inl (h2 hro))
  | true =>
    have hc : savedChr g = 0 := by unfold savedChr; rw [hro]; rfl
    exact Memory.read_writeBytes_outside _ _ _ _ (by omega)

theorem storeFrom_wf (buf : List Byte) (g : Geometry) (store : Memory) (hw : Memory.wf store = true) :
    Memory.wf (storeFrom buf g store) = true :=
  Memory.writeBytes_wf _ _ _ (Memory.writeBytes_wf _ _ _ (Memory.writeBytes_wf _ _ _ hw))

theorem storeFrom_below (buf : List Byte) (g : Geometry) (store : Memory) (h : Memory.below store g.storeLen = true) :
    Memory.below (storeFrom buf g store) g.storeLen = true := by
  have e0 : g.storeLen = g.sizePrg + g.sizeChr + g.sizeCpuRam + g.sizePpuRam := rfl
  have e1 : g.chrBase = g.sizePrg := rfl
  have e2 : g.cpuRamBase = g.sizePrg + g.sizeChr := rfl
  have e3 : g.ppuRamBase = g.sizePrg + g.sizeChr + g.sizeCpuRam := rfl
  have hc : savedChr g ≤ g.sizeChr := by unfold savedChr; split <;> omega
  have h1 := segment_length_le buf 800 (savedChr g)
  have h2 := segment_length_le buf (800 + savedChr g) g.sizeCpuRam
  have h3 := segment_length_le buf (800 + savedChr g + g.sizeCpuRam) g.sizePpuRam
  exact Memory.writeBytes_below _ _ _ _ (by omega) (Memory.writeBytes_below _ _ _ _ (by omega)
    (Memory.writeBytes_below _ _ _ _ (by omega) h))

/-- A restored block whose tables and registers agree meets the invariant. -/
theorem restored_inv {m : Mapper} (h : m.Inv) (buf : List Byte) (hc : (restored buf m).coherent = true) :
    (restored buf m).Inv := by
  have e1 : m.cfg.cpuRamBase = m.cfg.sizePrg + m.cfg.sizeChr := rfl
  have e2 : m.cfg.chrBase = m.cfg.sizePrg := rfl
  refine ⟨?_, ?_, hc, ?_, ?_, ?_, ?_⟩
  · rw [restored_cfg]; exact h.legal
  · rw [restored_faulted]; exact h.live
  · rw [restored_store]; exact storeFrom_wf _ _ _ h.wf
  · rw [restored_store, restored_cfg]; exact storeFrom_below _ _ _ h.below
  · intro i hi
    rw [restored_cfg] at hi ⊢
    rw [restored_store, read_storeFrom_rom _ _ _ i (by omega) (fun _ => by omega)]
    exact h.roms.1 i hi
  · intro hro c hcc i hi
    rw [restored_cfg] at hro hcc hi ⊢
    rw [restored_store, read_storeFrom_rom _ _ _ _ (by omega) (fun hf => by rw [hro] at hf; cases hf)]
    exact h.roms.2 hro c hcc i hi

/-! ### A saved block read back -/

/-- Nothing is listed at or above the length of the store. -/
theorem Memory.read_of_below {len i : Nat} (st : Memory) (hb : Memory.below st len = true) (hi : len ≤ i) :
    Memory.read st i = 0#8 := by
  induction st with
  | nil => rfl
  | cons c rest ih =>
    obtain ⟨j, b⟩ := c
    simp only [Memory.below, List.all_cons, Bool.and_eq_true, decide_eq_true_eq] at hb
    simp only [Memory.read]
    rw [if_neg (by omega)]
    exact ih hb.2

/-- The store regions of a saved block, read back into a block with the same ROM. -/
theorem storeFrom_saveBuffer {m0 m : Mapper} (h0 : m0.Inv) (h : m.Inv) (hc : m.cfg = m0.cfg) :
    storeFrom (saveBuffer m0) m.cfg.toGeometry m.store = m0.store := by
  have g0 := h0.roms
  have g := h.roms
  unfold Mapper.RomsIntact at g
  rw [hc] at g
  have e0 : m0.cfg.storeLen = m0.cfg.sizePrg + m0.cfg.sizeChr + m0.cfg.sizeCpuRam + m0.cfg.sizePpuRam := rfl
  have e1 : m0.cfg.chrBase = m0.cfg.sizePrg := rfl
  have e2 : m0.cfg.cpuRamBase = m0.cfg.sizePrg + m0.cfg.sizeChr := rfl
  have e3 : m0.cfg.ppuRamBase = m0.cfg.sizePrg + m0.cfg.sizeChr + m0.cfg.sizeCpuRam := rfl
  have hlen := saveBuffer_length m0
  have hsz : saveSize m0.cfg =
      800 + savedChr m0.cfg.toGeometry + m0.cfg.sizeCpuRam + m0.cfg.sizePpuRam + regCount m0.cfg.variant := rfl
  rw [hc]
  apply Memory.ext _ _ (storeFrom_wf _ _ _ h.wf) h0.wf
  intro i
  have w1 := Memory.writeBytes_wf (segment (saveBuffer m0) 800 (savedChr m0.cfg.toGeometry)) m.store m0.cfg.chrBase h.wf
  have w2 := Memory.writeBytes_wf (segment (saveBuffer m0) (800 + savedChr m0.cfg.toGeometry) m0.cfg.sizeCpuRam) _ m0.cfg.cpuRamBase w1
  have l1 := segment_length (saveBuffer m0) 800 (savedChr m0.cfg.toGeometry) (by omega)
  have l2 := segment_length (saveBuffer m0) (800 + savedChr m0.cfg.toGeometry) m0.cfg.sizeCpuRam (by omega)
  have l3 := segment_length (saveBuffer m0) (800 + savedChr m0.cfg.toGeometry + m0.cfg.sizeCpuRam) m0.cfg.sizePpuRam (by omega)
  have hs : savedChr m0.cfg.toGeometry = if m0.cfg.chrReadOnly then 0 else m0.cfg.sizeChr := rfl
  unfold storeFrom
  simp only
  rw [Memory.read_writeBytes _ _ _ _ w2, Memory.read_writeBytes _ _ _ _ w1, Memory.read_writeBytes _ _ _ _ h.wf, l1, l2, l3]
  by_cases hp : m0.cfg.ppuRamBase ≤ i ∧ i < m0.cfg.ppuRamBase + m0.cfg.sizePpuRam
  · rw [if_pos hp, segment_getD _ _ _ _ (by omega), byteAt_eq _ _ _ (saveBuffer_ppuRam m0 _ (by omega))]
    congr 1; omega
  · rw [if_neg hp]
    by_cases hp2 : m0.cfg.cpuRamBase ≤ i ∧ i < m0.cfg.cpuRamBase + m0.cfg.sizeCpuRam
    · rw [if_pos hp2, segment_getD _ _ _ _ (by omega), byteAt_eq _ _ _ (saveBuffer_cpuRam m0 _ (by omega))]
      congr 1; omega
    · rw [if_neg hp2]
      by_cases hp3 : m0.cfg.chrBase ≤ i ∧ i < m0.cfg.chrBase + savedChr m0.cfg.toGeometry
      · rw [if_pos hp3, segment_getD _ _ _ _ (by omega), byteAt_eq _ _ _ (saveBuffer_chr m0 _ (by omega))]
        congr 1; omega
      · rw [if_neg hp3]
        by_cases hr : i < m0.cfg.sizePrg
        · rw [g0.1 i hr, g.1 i hr]
        · by_cases hr2 : i < m0.cfg.cpuRamBase
          · cases hro : m0.cfg.chrReadOnly with
            | false => rw [hro] at hs; simp at hs; omega
            | true =>
              obtain ⟨c, hcc⟩ := Cfg.legal_chrRom h0.legal hro
              have a0 := g0.2 hro c hcc (i - m0.cfg.chrBase) (by omega)
              have a1 := g.2 hro c hcc (i - m0.cfg.chrBase) (by omega)
              rw [show m0.cfg.chrBase + (i - m0.cfg.chrBase) = i by omega] at a0 a1
              rw [a0, a1]
          · have b0 := h0.below
            have b1 := h.below
            rw [hc] at b1
            have hge : m0.cfg.storeLen ≤ i := by omega
            rw [Memory.read_of_below _ b0 hge, Memory.read_of_below _ b1 hge]

/-- The tables of a saved block, read back. -/
theorem restored_tables {m0 m : Mapper} (h0 : m0.Inv) (hl : m0.cfg.storeLen ≤ 2 ^ 64) :
    (restored (saveBuffer m0) m).cputab = m0.cputab ∧ (restored (saveBuffer m0) m).pputab = m0.pputab := by
  obtain ⟨mode, hmem, hs⟩ := h0.shows
  constructor
  · refine Vector.ext fun p hp => ?_
    rw [restored_cputab _ _ p hp]
    refine bankAt_eq _ _ _ ?_ (fun k hk => saveBuffer_cpu m0 p k hp hk)
    rw [hs.cpu p hp]
    have := cpuEntry_inStore h0.legal h0.regs p hp
    cases hm : (cpuEntry m0 p).mapped with
    | true => have := (this hm).1; omega
    | false =>
      have : (cpuEntry m0 p).off = 0 := by
        unfold cpuEntry at hm ⊢
        split at hm
        · split at hm
          · cases hm
          · simp [*, Bank.unmapped]
        · split at hm
          · simp [*, Bank.unmapped]
          · split at hm
            · split at hm
              · cases hm
              · simp [*, Bank.unmapped]
            · cases hm
      omega
  · refine Vector.ext fun p hp => ?_
    rw [restored_pputab _ _ p hp]
    refine bankAt_eq _ _ _ ?_ (fun k hk => saveBuffer_ppu m0 p k hp hk)
    have := (h0.ppuBank p hp).2.1
    omega

end Sys2Proof.Machine
end

