-- ==== Sys2Proof/Laws/Decode.lean ====
section
/-! SUPPORT. The fields of a transaction word, what decode answers by kind, and the addresses the variants'
decoders take (R101 to R113). -/

namespace Sys2Proof

/-! ### Fields of the word, as numbers -/

/-- `word = (kind << 24) OR (addr << 8) OR data` (R101). -/
theorem makeWord_toNat (k : BitVec 3) (a : CpuAddr) (d : Byte) :
    (makeWord k a d).toNat = k.toNat * 2 ^ 24 + a.toNat * 2 ^ 8 + d.toNat := by
  have ha := a.isLt
  have hd := d.isLt
  have h1 : (k ++ a).toNat = k.toNat * 2 ^ 16 + a.toNat := by
    rw [BitVec.toNat_append, ← Nat.shiftLeft_add_eq_or_of_lt ha, Nat.shiftLeft_eq]
  have h2 : (k ++ a ++ d).toNat = (k ++ a).toNat * 2 ^ 8 + d.toNat := by
    rw [BitVec.toNat_append, ← Nat.shiftLeft_add_eq_or_of_lt hd, Nat.shiftLeft_eq]
  exact h2.trans (by rw [h1]; omega)

theorem wordKind_toNat (w : TxWord) : (wordKind w).toNat = w.toNat / 2 ^ 24 := by
  have := w.isLt
  simp only [wordKind, BitVec.extractLsb'_toNat, Nat.shiftRight_eq_div_pow]
  omega

theorem wordAddr_toNat (w : TxWord) : (wordAddr w).toNat = w.toNat / 2 ^ 8 % 2 ^ 16 := by
  simp only [wordAddr, BitVec.extractLsb'_toNat, Nat.shiftRight_eq_div_pow]

theorem wordData_toNat (w : TxWord) : (wordData w).toNat = w.toNat % 2 ^ 8 := by
  simp only [wordData, BitVec.extractLsb'_toNat, Nat.shiftRight_eq_div_pow, Nat.pow_zero, Nat.div_one]

@[simp] theorem wordKind_makeWord (k : BitVec 3) (a : CpuAddr) (d : Byte) : wordKind (makeWord k a d) = k := by
  have ha := a.isLt
  have hd := d.isLt
  apply BitVec.eq_of_toNat_eq
  rw [wordKind_toNat, makeWord_toNat]
  omega

@[simp] theorem wordAddr_makeWord (k : BitVec 3) (a : CpuAddr) (d : Byte) : wordAddr (makeWord k a d) = a := by
  have ha := a.isLt
  have hd := d.isLt
  apply BitVec.eq_of_toNat_eq
  rw [wordAddr_toNat, makeWord_toNat]
  omega

@[simp] theorem wordData_makeWord (k : BitVec 3) (a : CpuAddr) (d : Byte) : wordData (makeWord k a d) = d := by
  have ha := a.isLt
  have hd := d.isLt
  apply BitVec.eq_of_toNat_eq
  rw [wordData_toNat, makeWord_toNat]
  omega

/-- A word is its three fields. -/
theorem makeWord_fields (w : TxWord) : makeWord (wordKind w) (wordAddr w) (wordData w) = w := by
  have := w.isLt
  apply BitVec.eq_of_toNat_eq
  rw [makeWord_toNat, wordKind_toNat, wordAddr_toNat, wordData_toNat]
  omega

theorem ppuField_toNat (a : PpuAddr) : (ppuField a).toNat = a.toNat := by
  show (0#2 ++ a).toNat = _
  rw [BitVec.toNat_append]
  simp

@[simp] theorem ppuAddr_ppuField (a : PpuAddr) : ppuAddr (ppuField a) = some a := by
  have ha := a.isLt
  have h1 : (ppuField a).extractLsb' 14 2 = 0#2 := by
    apply BitVec.eq_of_toNat_eq
    simp only [BitVec.extractLsb'_toNat, Nat.shiftRight_eq_div_pow, ppuField_toNat]
    simp
    omega
  have h2 : (ppuField a).extractLsb' 0 14 = a := by
    apply BitVec.eq_of_toNat_eq
    simp only [BitVec.extractLsb'_toNat, Nat.shiftRight_eq_div_pow, ppuField_toNat]
    omega
  simp [ppuAddr, h1, h2]

/-- A PPU address field is accepted exactly when bits 15 and 14 are 0, and is then its low 14 bits (R103). -/
theorem ppuAddr_eq (a : CpuAddr) : ppuAddr a = if a.toNat < 0x4000 then some (BitVec.ofNat 14 a.toNat) else none := by
  have ha := a.isLt
  have h1 : a.extractLsb' 14 2 = 0#2 ↔ a.toNat < 0x4000 := by
    rw [← BitVec.toNat_inj]
    simp only [BitVec.extractLsb'_toNat, Nat.shiftRight_eq_div_pow, BitVec.toNat_ofNat]
    omega
  have h2 : a.extractLsb' 0 14 = BitVec.ofNat 14 a.toNat := by
    apply BitVec.eq_of_toNat_eq
    simp only [BitVec.extractLsb'_toNat, Nat.shiftRight_eq_div_pow, BitVec.toNat_ofNat, Nat.pow_zero, Nat.div_one]
  simp only [ppuAddr, h1, h2]

/-! ### Decode, kind by kind -/

theorem decode_kind (v : Variant) (t : Txn) (k : BitVec 3) (h : wordKind t.word = k) :
    decode v t =
      match k.toNat with
      | 0 => .ok (decodeTick v)
      | 1 => .ok (.rdcpu (wordAddr t.word))
      | 2 => .ok (decodeWrcpu v (wordAddr t.word) (wordData t.word))
      | 3 =>
        match ppuAddr (wordAddr t.word) with
        | some p => .ok (decodeRdppu v p)
        | none => .error (.ppuAddressTooWide (wordAddr t.word))
      | 4 =>
        match ppuAddr (wordAddr t.word) with
        | some p => .ok (decodeWrppu v p (wordData t.word))
        | none => .error (.ppuAddressTooWide (wordAddr t.word))
      | 5 => .ok (.poweron t.cfg)
      | 6 => .ok .save
      | _ => .ok (.restore t.buf) := by
  subst h
  rfl

/-- Bit `k` of an address as arithmetic. -/
theorem getLsbD_toNat {w : Nat} (x : BitVec w) (k : Nat) : x.getLsbD k = decide (x.toNat / 2 ^ k % 2 = 1) := by
  rw [BitVec.getLsbD, Nat.testBit_eq_decide_div_mod_eq]

/-- The trigger windows are blocks of eight addresses (R111). -/
theorem window_iff (a : PpuAddr) (b : Nat) (hb : b < 0x800) :
    (a &&& 0x3FF8#14 = BitVec.ofNat 14 (8 * b)) ↔ a.toNat / 8 = b := by
  have ha := a.isLt
  have h : a &&& 0x3FF8#14 = BitVec.ofNat 14 (8 * (a.toNat / 8)) := by
    apply BitVec.eq_of_getLsbD_eq
    intro i hi
    have e1 : (0x3FF8#14).getLsbD i = decide (3 ≤ i) := by
      revert hi
      revert i
      decide
    rw [BitVec.getLsbD_and, e1, BitVec.getLsbD_ofNat]
    simp only [hi, decide_true, Bool.true_and]
    rw [show 8 * (a.toNat / 8) = 2 ^ 3 * (a.toNat / 2 ^ 3) by omega, Nat.testBit_two_pow_mul,
      Nat.testBit_div_two_pow]
    by_cases h3 : 3 ≤ i
    · simp [h3, BitVec.getLsbD]
    · simp [h3]
  rw [h, ← BitVec.toNat_inj, BitVec.toNat_ofNat, BitVec.toNat_ofNat]
  omega

/-! ### Masks of the opcode table -/

/-- A masked word equals a pattern inside the mask exactly when they agree on the mask's bits. -/
theorem mask_iff (w m p : TxWord) (hp : ∀ i, i < 27 → m.getLsbD i = false → p.getLsbD i = false) :
    w &&& m = p ↔ ∀ i, i < 27 → m.getLsbD i = true → w.getLsbD i = p.getLsbD i := by
  constructor
  · intro h i hi hm
    rw [← h, BitVec.getLsbD_and, hm, Bool.and_true]
  · intro h
    apply BitVec.eq_of_getLsbD_eq
    intro i hi
    rw [BitVec.getLsbD_and]
    cases hm : m.getLsbD i with
    | true => rw [Bool.and_true, h i hi hm]
    | false => rw [Bool.and_false, hp i hi hm]

/-- The word's bits from `k` up are those of `c`. -/
theorem high_iff (w : TxWord) (k c : Nat) (hk : k ≤ 27) (hc : c < 2 ^ (27 - k)) :
    (∀ i, i < 27 → k ≤ i → w.getLsbD i = (BitVec.ofNat 27 (2 ^ k * c)).getLsbD i) ↔ w.toNat / 2 ^ k = c := by
  have hbits : ∀ i, i < 27 → k ≤ i → (BitVec.ofNat 27 (2 ^ k * c)).getLsbD i = c.testBit (i - k) := by
    intro i hi hki
    rw [BitVec.getLsbD_ofNat, Nat.testBit_two_pow_mul]
    simp [hi, hki]
  constructor
  · intro h
    apply Nat.eq_of_testBit_eq
    intro j
    rw [Nat.testBit_div_two_pow]
    by_cases hj : j + k < 27
    · have := h (j + k) hj (by omega)
      rw [hbits _ hj (by omega), Nat.add_sub_cancel] at this
      exact this
    · have h1 : w.toNat.testBit (j + k) = false :=
        Nat.testBit_lt_two_pow (Nat.lt_of_lt_of_le w.isLt (Nat.pow_le_pow_right (by omega) (by omega)))
      have h2 : c.testBit j = false :=
        Nat.testBit_lt_two_pow (Nat.lt_of_lt_of_le hc (Nat.pow_le_pow_right (by omega) (by omega)))
      rw [h1, h2]
  · intro h i hi hki
    rw [hbits i hi hki, ← h, Nat.testBit_div_two_pow, Nat.sub_add_cancel hki]
    rfl

end Sys2Proof
end

