-- ==== Sys2Proof/Laws/Direct.lean ====
section
/-! SUPPORT. The select operations of the direct-mapped variants: the state each leaves, and that it keeps the
invariant (R164, R168, R172, R176, R180). -/

namespace Sys2Proof.Machine

/-! ### The direct-mapped selections -/

theorem field_toNat (v : Byte) (lo width : Nat) : field v lo width = v.toNat / 2 ^ lo % 2 ^ width := by
  rw [field, BitVec.extractLsb'_toNat, Nat.shiftRight_eq_div_pow]

theorem field_lt_256 (v : Byte) (lo width : Nat) : field v lo width < 256 := by
  rw [field_toNat]
  have h1 := v.isLt
  have h2 : v.toNat / 2 ^ lo ≤ v.toNat := Nat.div_le_self _ _
  have h3 : v.toNat / 2 ^ lo % 2 ^ width ≤ v.toNat / 2 ^ lo := Nat.mod_le _ _
  omega

theorem field_lt (v : Byte) (lo width : Nat) : field v lo width < 2 ^ width := by
  rw [field_toNat]
  exact Nat.mod_lt _ (Nat.two_pow_pos width)

theorem oneScreen_banks {c : Cfg} (hl : c.legal = true) (b : Bool) : modeBanks (oneScreen b) ≤ c.banksPpuRam :=
  Cfg.legal_mode hl _ (by cases b <;> simp [oneScreen])

/-- `UXROM.SEL` (R164): the masked selection and its window. -/
theorem uxromSel_done {s : State} {m : Mapper} (v : Byte) (h : s.LiveAs .uxrom m) (hl : m.cfg.legal = true) :
    exec (.uxromSel v) s = .next (s.reply
      ((m.setDirect { m.direct with selPrg := maskReg v.toNat m.cfg.nPrg16 }).setCputab
        (mapRange m.cputab 32 16 (1024 * (16 * maskTo v.toNat m.cfg.nPrg16)) true)) Output.quiet) := by
  have hp := Cfg.legal_prg hl
  have hm := maskTo_lt v.toNat hp
  have hb : m.cfg.banksPrg = 16 * m.cfg.nPrg16 := rfl
  show execUxromSel v s = _
  unfold execUxromSel
  rw [withVariant_live h]
  simp only [maskReg_toNat _ v.isLt]
  rw [mapPrg_done (by omega) (by rw [Mapper.setDirect_cfg]; omega), finish_done]
  rfl

/-- `CNROM.SEL` (R168): the masked selection and the CHR pages. -/
theorem cnromSel_done {s : State} {m : Mapper} (v : Byte) (h : s.LiveAs .cnrom m) (hl : m.cfg.legal = true) :
    exec (.cnromSel v) s = .next (s.reply
      ((m.setDirect { m.direct with selChr := maskReg v.toNat m.cfg.nChr8 }).setPputab
        (mapRange m.pputab 0 8 (m.cfg.chrBase + 1024 * (8 * maskTo v.toNat m.cfg.nChr8)) m.cfg.chrReadOnly))
      Output.quiet) := by
  have hp := Cfg.legal_chr hl
  have hm := maskTo_lt v.toNat hp
  have hb : m.cfg.banksChr = 8 * m.cfg.nChr8 := rfl
  show execCnromSel v s = _
  unfold execCnromSel
  rw [withVariant_live h]
  simp only [maskReg_toNat _ v.isLt]
  rw [mapChr_done (by omega) (by rw [Mapper.setDirect_cfg]; omega), finish_done]
  rfl

/-- There are two 16 KiB units of PRG where R10 (d) asks for them. -/
theorem Cfg.legal_prgPairs {c : Cfg} (hl : c.legal = true) (hv : c.variant = .axrom ∨ c.variant = .gxrom) :
    1 ≤ c.nPrg16 / 2 := by
  have hmin := (Cfg.legal_parts hl).2.2.2.1
  rcases hv with hv | hv <;> rw [hv] at hmin <;> simp only [Geometry.prgMinOk, decide_eq_true_eq] at hmin <;> omega

/-- `AXROM.SEL` (R172): the masked selection, the whole window and the one-screen pages. -/
theorem axromSel_done {s : State} {m : Mapper} (v : Byte) (h : s.LiveAs .axrom m) (hl : m.cfg.legal = true) :
    exec (.axromSel v) s = .next (s.reply
      (((m.setDirect { m.direct with selPrg := maskReg (field v 0 3) (m.cfg.nPrg16 / 2) }).setCputab
        (mapRange m.cputab 32 32 (1024 * (32 * maskTo (field v 0 3) (m.cfg.nPrg16 / 2))) true)).showing
        (oneScreen (v.getLsbD 4))) Output.quiet) := by
  have hm := maskTo_lt (field v 0 3) (Cfg.legal_prgPairs hl (.inl h.2))
  have hb : m.cfg.banksPrg = 16 * m.cfg.nPrg16 := rfl
  show execAxromSel v s = _
  unfold execAxromSel
  rw [withVariant_live h]
  simp only [maskReg_toNat _ (field_lt_256 v 0 3)]
  rw [mapPrg_done (by omega) (by rw [Mapper.setDirect_cfg]; omega), andThen_done,
    setMirror_done (by exact oneScreen_banks hl _), finish_done]
  rfl

/-- `GXROM.SEL` (R176): both masked selections and both windows. -/
theorem gxromSel_done {s : State} {m : Mapper} (v : Byte) (h : s.LiveAs .gxrom m) (hl : m.cfg.legal = true) :
    exec (.gxromSel v) s = .next (s.reply
      (((m.setDirect ⟨maskReg (field v 4 2) (m.cfg.nPrg16 / 2), maskReg (field v 0 2) m.cfg.nChr8⟩).setCputab
        (mapRange m.cputab 32 32 (1024 * (32 * maskTo (field v 4 2) (m.cfg.nPrg16 / 2))) true)).setPputab
        (mapRange m.pputab 0 8 (m.cfg.chrBase + 1024 * (8 * maskTo (field v 0 2) m.cfg.nChr8)) m.cfg.chrReadOnly))
      Output.quiet) := by
  have hm := maskTo_lt (field v 4 2) (Cfg.legal_prgPairs hl (.inr h.2))
  have hc := maskTo_lt (field v 0 2) (Cfg.legal_chr hl)
  have hb : m.cfg.banksPrg = 16 * m.cfg.nPrg16 := rfl
  have hb2 : m.cfg.banksChr = 8 * m.cfg.nChr8 := rfl
  show execGxromSel v s = _
  unfold execGxromSel
  rw [withVariant_live h]
  simp only [maskReg_toNat _ (field_lt_256 v 4 2), maskReg_toNat _ (field_lt_256 v 0 2)]
  rw [mapPrg_done (by omega) (by rw [Mapper.setDirect_cfg]; omega), andThen_done,
    mapChr_done (by omega) (by simp only [Mapper.setCputab_cfg, Mapper.setDirect_cfg]; omega), finish_done]
  simp only [Mapper.setCputab_cfg, Mapper.setDirect_cfg, Mapper.setCputab_pputab, Mapper.setDirect_pputab,
    Mapper.setDirect_cputab]

/-- `UNROM512.SEL` (R180): both masked selections, both windows and the one-screen pages. -/
theorem unrom512Sel_done {s : State} {m : Mapper} (v : Byte) (h : s.LiveAs .unrom512 m) (hl : m.cfg.legal = true) :
    exec (.unrom512Sel v) s = .next (s.reply
      ((((m.setDirect ⟨maskReg (field v 0 5) m.cfg.nPrg16, maskReg (field v 5 2) m.cfg.nChr8⟩).setCputab
        (mapRange m.cputab 32 16 (1024 * (16 * maskTo (field v 0 5) m.cfg.nPrg16)) true)).setPputab
        (mapRange m.pputab 0 8 (m.cfg.chrBase + 1024 * (8 * maskTo (field v 5 2) m.cfg.nChr8))
          m.cfg.chrReadOnly)).showing (oneScreen (v.getLsbD 7))) Output.quiet) := by
  have hm := maskTo_lt (field v 0 5) (Cfg.legal_prg hl)
  have hc := maskTo_lt (field v 5 2) (Cfg.legal_chr hl)
  have hb : m.cfg.banksPrg = 16 * m.cfg.nPrg16 := rfl
  have hb2 : m.cfg.banksChr = 8 * m.cfg.nChr8 := rfl
  show execUnrom512Sel v s = _
  unfold execUnrom512Sel
  rw [withVariant_live h]
  simp only [maskReg_toNat _ (field_lt_256 v 0 5), maskReg_toNat _ (field_lt_256 v 5 2)]
  rw [mapPrg_done (by omega) (by rw [Mapper.setDirect_cfg]; omega), andThen_done,
    mapChr_done (by omega) (by simp only [Mapper.setCputab_cfg, Mapper.setDirect_cfg]; omega), andThen_done,
    setMirror_done (by simp only [Mapper.setPputab_cfg, Mapper.setCputab_cfg, Mapper.setDirect_cfg]; exact oneScreen_banks hl _), finish_done]
  simp only [Mapper.setCputab_cfg, Mapper.setDirect_cfg, Mapper.setCputab_pputab, Mapper.setDirect_pputab,
    Mapper.setDirect_cputab]

theorem directLegal_uxrom {c : Cfg} (hv : c.variant = .uxrom) (q : DirectRegs) :
    directLegal c q = true ↔ q.selPrg.toNat < c.nPrg16 ∧ q.selChr = 0#8 := by
  simp only [directLegal, hv, Bool.and_eq_true, decide_eq_true_eq]

theorem directLegal_cnrom {c : Cfg} (hv : c.variant = .cnrom) (q : DirectRegs) :
    directLegal c q = true ↔ q.selPrg = 0#8 ∧ q.selChr.toNat < c.nChr8 := by
  simp only [directLegal, hv, Bool.and_eq_true, decide_eq_true_eq]

theorem directLegal_axrom {c : Cfg} (hv : c.variant = .axrom) (q : DirectRegs) :
    directLegal c q = true ↔ (q.selPrg.toNat < c.nPrg16 / 2 ∧ q.selPrg.toNat < 8) ∧ q.selChr = 0#8 := by
  simp only [directLegal, hv, Bool.and_eq_true, decide_eq_true_eq]

theorem directLegal_gxrom {c : Cfg} (hv : c.variant = .gxrom) (q : DirectRegs) :
    directLegal c q = true ↔ ((q.selPrg.toNat < c.nPrg16 / 2 ∧ q.selPrg.toNat < 4) ∧ q.selChr.toNat < c.nChr8) ∧
      q.selChr.toNat < 4 := by
  simp only [directLegal, hv, Bool.and_eq_true, decide_eq_true_eq]

theorem directLegal_unrom512 {c : Cfg} (hv : c.variant = .unrom512) (q : DirectRegs) :
    directLegal c q = true ↔ ((q.selPrg.toNat < c.nPrg16 ∧ q.selPrg.toNat < 32) ∧ q.selChr.toNat < c.nChr8) ∧
      q.selChr.toNat < 4 := by
  simp only [directLegal, hv, Bool.and_eq_true, decide_eq_true_eq]

/-- Changed direct-mapped registers with the tables their selections show: the tables show the new registers. -/
theorem Mapper.Shows.direct {mode : Mirroring} {m : Mapper} (hs : m.Shows mode) (q : DirectRegs)
    (ct : Vector Bank 64) (pt : Vector Bank 16)
    (h1 : ∀ p (hp : p < 64), ct[p] = m.cputab[p] ∧ (32 ≤ p → shownPrg (m.setDirect q) p = shownPrg m p) ∨
      32 ≤ p ∧ ct[p] = ⟨1024 * shownPrg (m.setDirect q) p, true, true⟩)
    (h2 : ∀ p (hp : p < 16), pt[p] = m.pputab[p] ∧ (p < 8 → shownChr (m.setDirect q) p = shownChr m p) ∨
      p < 8 ∧ pt[p] = ⟨m.cfg.chrBase + 1024 * shownChr (m.setDirect q) p, m.cfg.chrReadOnly, true⟩) :
    (((m.setDirect q).setCputab ct).setPputab pt).Shows mode := by
  have e1 : ∀ p, cpuEntry (((m.setDirect q).setCputab ct).setPputab pt) p = cpuEntry (m.setDirect q) p :=
    cpuEntry_congr rfl rfl rfl rfl rfl
  have e2 : ∀ p, ppuEntry mode (((m.setDirect q).setCputab ct).setPputab pt) p = ppuEntry mode (m.setDirect q) p :=
    ppuEntry_congr rfl rfl rfl rfl rfl mode
  constructor
  · intro p hp
    rw [e1, Mapper.setPputab_cputab, Mapper.setCputab_cputab]
    rcases h1 p hp with ⟨e, hw⟩ | ⟨hw, e⟩
    · rw [e, hs.cpu p hp]
      rcases Nat.lt_or_ge p 32 with h32 | h32
      · exact (cpuEntry_ram (m := m) (m' := m.setDirect q) rfl p h32).symm
      · rw [cpuEntry_prg _ _ h32, cpuEntry_prg _ _ h32, hw h32]
    · rw [e, cpuEntry_prg _ _ hw]
  · intro p hp
    rw [e2, Mapper.setPputab_pputab]
    rcases h2 p hp with ⟨e, hw⟩ | ⟨hw, e⟩
    · rw [e, hs.ppu p hp]
      rcases Nat.lt_or_ge p 8 with h8 | h8
      · rw [ppuEntry_chr _ _ _ h8, ppuEntry_chr _ _ _ h8, hw h8, Mapper.setDirect_cfg]
      · exact (ppuEntry_nametable_congr (m := m) (m' := m.setDirect q) rfl mode p h8).symm
    · rw [e, ppuEntry_chr _ _ _ hw, Mapper.setDirect_cfg]

/-- A select without a mirroring mode keeps the invariant. -/
theorem Mapper.Inv.direct {m : Mapper} (h : m.Inv)
    (hv : m.cfg.variant = .uxrom ∨ m.cfg.variant = .cnrom ∨ m.cfg.variant = .gxrom) (q : DirectRegs)
    (ct : Vector Bank 64) (pt : Vector Bank 16) (hq : directLegal m.cfg q = true)
    (h1 : ∀ p (hp : p < 64), ct[p] = m.cputab[p] ∧ (32 ≤ p → shownPrg (m.setDirect q) p = shownPrg m p) ∨
      32 ≤ p ∧ ct[p] = ⟨1024 * shownPrg (m.setDirect q) p, true, true⟩)
    (h2 : ∀ p (hp : p < 16), pt[p] = m.pputab[p] ∧ (p < 8 → shownChr (m.setDirect q) p = shownChr m p) ∨
      p < 8 ∧ pt[p] = ⟨m.cfg.chrBase + 1024 * shownChr (m.setDirect q) p, m.cfg.chrReadOnly, true⟩) :
    (((m.setDirect q).setCputab ct).setPputab pt).Inv := by
  obtain ⟨mode, hmem, hs⟩ := h.settled
  have hn : m.cfg.variant ≠ .shift := by rcases hv with hv | hv | hv <;> rw [hv] <;> decide
  have hsh := hs.shows
  rw [shownMode_other hn] at hsh
  refine h.change rfl rfl rfl (regsLegal_setDirect h.regs hq) ⟨mode, hmem, hs.moved rfl rfl ?_ ?_⟩
  · rcases hv with hv | hv | hv <;> simp only [modeFits, hv]
  · rw [shownMode_other (m := ((m.setDirect q).setCputab ct).setPputab pt) hn]
    exact hsh.direct q ct pt h1 h2

/-- A select with a one-screen mode keeps the invariant. -/
theorem Mapper.Inv.directScreen {m : Mapper} (h : m.Inv) (hv : m.cfg.variant = .axrom ∨ m.cfg.variant = .unrom512)
    (q : DirectRegs) (ct : Vector Bank 64) (pt : Vector Bank 16) (hq : directLegal m.cfg q = true)
    (h1 : ∀ p (hp : p < 64), ct[p] = m.cputab[p] ∧ (32 ≤ p → shownPrg (m.setDirect q) p = shownPrg m p) ∨
      32 ≤ p ∧ ct[p] = ⟨1024 * shownPrg (m.setDirect q) p, true, true⟩)
    (h2 : ∀ p (hp : p < 16), pt[p] = m.pputab[p] ∧ (p < 8 → shownChr (m.setDirect q) p = shownChr m p) ∨
      p < 8 ∧ pt[p] = ⟨m.cfg.chrBase + 1024 * shownChr (m.setDirect q) p, m.cfg.chrReadOnly, true⟩)
    (high : Bool) : ((((m.setDirect q).setCputab ct).setPputab pt).showing (oneScreen high)).Inv :=
  h.showing (a := ((m.setDirect q).setCputab ct).setPputab pt) rfl rfl rfl (regsLegal_setDirect h.regs hq) (.inl ⟨hv, by cases high <;> simp [oneScreen]⟩)
    fun _ _ hs => hs.direct q ct pt h1 h2

theorem maskReg_lt {v count : Nat} (hv : v < 256) (h : 1 ≤ count) : (maskReg v count).toNat < count := by
  rw [maskReg_toNat _ hv]
  exact maskTo_lt v h

theorem maskReg_le {v : Nat} (count : Nat) (hv : v < 256) : (maskReg v count).toNat ≤ v := by
  rw [maskReg_toNat _ hv]
  exact maskTo_le v count

theorem shownPrg_setDirect_low {m : Mapper} (hv : m.cfg.variant = .uxrom ∨ m.cfg.variant = .unrom512) (q : DirectRegs)
    (p : Nat) : shownPrg (m.setDirect q) p =
      if p < 48 then 16 * q.selPrg.toNat + (p - 32) else 16 * (m.cfg.nPrg16 - 1) + (p - 48) := by
  rcases hv with hv | hv <;> simp only [shownPrg, Mapper.setDirect_cfg, Mapper.setDirect_direct, hv]

theorem shownPrg_setDirect_whole {m : Mapper} (hv : m.cfg.variant = .axrom ∨ m.cfg.variant = .gxrom) (q : DirectRegs)
    (p : Nat) : shownPrg (m.setDirect q) p = 32 * q.selPrg.toNat + (p - 32) := by
  rcases hv with hv | hv <;> simp only [shownPrg, Mapper.setDirect_cfg, Mapper.setDirect_direct, hv]

theorem shownChr_setDirect {m : Mapper}
    (hv : m.cfg.variant = .cnrom ∨ m.cfg.variant = .gxrom ∨ m.cfg.variant = .unrom512) (q : DirectRegs) (p : Nat) :
    shownChr (m.setDirect q) p = 8 * q.selChr.toNat + p := by
  rcases hv with hv | hv | hv <;> simp only [shownChr, Mapper.setDirect_cfg, Mapper.setDirect_direct, hv]

/-- A 16 KiB window at 0x8000 mapped to a new selection. -/
theorem lowWindow_shows {m : Mapper} (hv : m.cfg.variant = .uxrom ∨ m.cfg.variant = .unrom512) {q : DirectRegs}
    {b : Nat} (hb : q.selPrg.toNat = b) (p : Nat) (hp : p < 64) :
    (mapRange m.cputab 32 16 (1024 * (16 * b)) true)[p] = m.cputab[p] ∧
        (32 ≤ p → shownPrg (m.setDirect q) p = shownPrg m p) ∨
      32 ≤ p ∧ (mapRange m.cputab 32 16 (1024 * (16 * b)) true)[p] = ⟨1024 * shownPrg (m.setDirect q) p, true, true⟩ := by
  rw [prgWindow_getElem, shownPrg_setDirect_low hv, hb]
  by_cases hw : 32 ≤ p ∧ p < 32 + 16
  · have h48 : p < 48 := hw.2
    exact .inr ⟨hw.1, by rw [if_pos hw, if_pos h48]⟩
  · refine .inl ⟨by rw [if_neg hw], fun h32 => ?_⟩
    have h48 : ¬ p < 48 := fun h => hw ⟨h32, h⟩
    rw [if_neg h48]
    rcases hv with hv | hv <;> simp only [shownPrg, hv, h48, if_false]

/-- The whole PRG window mapped to a new selection. -/
theorem wholeWindow_shows {m : Mapper} (hv : m.cfg.variant = .axrom ∨ m.cfg.variant = .gxrom) {q : DirectRegs}
    {b : Nat} (hb : q.selPrg.toNat = b) (p : Nat) (hp : p < 64) :
    (mapRange m.cputab 32 32 (1024 * (32 * b)) true)[p] = m.cputab[p] ∧
        (32 ≤ p → shownPrg (m.setDirect q) p = shownPrg m p) ∨
      32 ≤ p ∧ (mapRange m.cputab 32 32 (1024 * (32 * b)) true)[p] = ⟨1024 * shownPrg (m.setDirect q) p, true, true⟩ := by
  rw [prgWindow_getElem, shownPrg_setDirect_whole hv, hb]
  by_cases hw : 32 ≤ p ∧ p < 32 + 32
  · exact .inr ⟨hw.1, by rw [if_pos hw]⟩
  · exact .inl ⟨by rw [if_neg hw], fun h32 => absurd ⟨h32, hp⟩ hw⟩

/-- The CHR pages mapped to a new selection. -/
theorem chrWindow_shows {m : Mapper}
    (hv : m.cfg.variant = .cnrom ∨ m.cfg.variant = .gxrom ∨ m.cfg.variant = .unrom512) {q : DirectRegs} {b : Nat}
    (hb : q.selChr.toNat = b) (p : Nat) (hp : p < 16) :
    (mapRange m.pputab 0 8 (m.cfg.chrBase + 1024 * (8 * b)) m.cfg.chrReadOnly)[p] = m.pputab[p] ∧
        (p < 8 → shownChr (m.setDirect q) p = shownChr m p) ∨
      p < 8 ∧ (mapRange m.pputab 0 8 (m.cfg.chrBase + 1024 * (8 * b)) m.cfg.chrReadOnly)[p] =
        ⟨m.cfg.chrBase + 1024 * shownChr (m.setDirect q) p, m.cfg.chrReadOnly, true⟩ := by
  rw [chrWindow_getElem, shownChr_setDirect hv, hb]
  by_cases hw : p < 8
  · exact .inr ⟨hw, by rw [if_pos ⟨Nat.zero_le p, by omega⟩, Nat.sub_zero]⟩
  · exact .inl ⟨by rw [if_neg (by omega)], fun h => absurd h hw⟩

theorem Mapper.setPputab_same (m : Mapper) (q : DirectRegs) (ct : Vector Bank 64) :
    ((m.setDirect q).setCputab ct).setPputab m.pputab = (m.setDirect q).setCputab ct := rfl

theorem Mapper.setCputab_same (m : Mapper) (q : DirectRegs) (pt : Vector Bank 16) :
    ((m.setDirect q).setCputab m.cputab).setPputab pt = (m.setDirect q).setPputab pt := rfl

theorem uxromSel_inv {m : Mapper} (h : m.Inv) (hv : m.cfg.variant = .uxrom) {b : Nat} {q : DirectRegs}
    (hq : q.selPrg.toNat = b) (hb : b < m.cfg.nPrg16) (hc : q.selChr = m.direct.selChr) :
    ((m.setDirect q).setCputab (mapRange m.cputab 32 16 (1024 * (16 * b)) true)).Inv := by
  have hd := (directLegal_uxrom hv _).mp (regsLegal_iff.mp h.regs).1
  rw [← Mapper.setPputab_same]
  exact h.direct (by rw [hv]; decide) q _ m.pputab
    ((directLegal_uxrom hv q).mpr ⟨by rw [hq]; exact hb, by rw [hc]; exact hd.2⟩) (lowWindow_shows (.inl hv) hq)
    (fun p hp => .inl ⟨rfl, fun _ => by simp only [shownChr, Mapper.setDirect_cfg, hv]⟩)

theorem cnromSel_inv {m : Mapper} (h : m.Inv) (hv : m.cfg.variant = .cnrom) {b : Nat} {q : DirectRegs}
    (hq : q.selChr.toNat = b) (hb : b < m.cfg.nChr8) (hc : q.selPrg = m.direct.selPrg) :
    ((m.setDirect q).setPputab
      (mapRange m.pputab 0 8 (m.cfg.chrBase + 1024 * (8 * b)) m.cfg.chrReadOnly)).Inv := by
  have hd := (directLegal_cnrom hv _).mp (regsLegal_iff.mp h.regs).1
  rw [← Mapper.setCputab_same]
  exact h.direct (by rw [hv]; decide) q m.cputab _
    ((directLegal_cnrom hv q).mpr ⟨by rw [hc]; exact hd.1, by rw [hq]; exact hb⟩)
    (fun p hp => .inl ⟨rfl, fun _ => by unfold shownPrg; rw [Mapper.setDirect_cfg, hv]⟩)
    (chrWindow_shows (.inl hv) hq)

theorem axromSel_inv {m : Mapper} (h : m.Inv) (hv : m.cfg.variant = .axrom) {b : Nat} {q : DirectRegs}
    (hq : q.selPrg.toNat = b) (hb : b < m.cfg.nPrg16 / 2) (h8 : b < 8) (hc : q.selChr = m.direct.selChr) (high : Bool) :
    (((m.setDirect q).setCputab (mapRange m.cputab 32 32 (1024 * (32 * b)) true)).showing (oneScreen high)).Inv := by
  have hd := (directLegal_axrom hv _).mp (regsLegal_iff.mp h.regs).1
  rw [← Mapper.setPputab_same]
  exact h.directScreen (.inl hv) q (mapRange m.cputab 32 32 (1024 * (32 * b)) true) m.pputab
    ((directLegal_axrom hv q).mpr ⟨by rw [hq]; exact ⟨hb, h8⟩, by rw [hc]; exact hd.2⟩)
    (wholeWindow_shows (.inl hv) hq)
    (fun p hp => .inl ⟨rfl, fun _ => by simp only [shownChr, Mapper.setDirect_cfg, hv]⟩) high

theorem gxromSel_inv {m : Mapper} (h : m.Inv) (hv : m.cfg.variant = .gxrom) {b c : Nat} {q : DirectRegs}
    (hq : q.selPrg.toNat = b) (hb : b < m.cfg.nPrg16 / 2) (hb4 : b < 4) (hr : q.selChr.toNat = c)
    (hc : c < m.cfg.nChr8) (hc4 : c < 4) :
    (((m.setDirect q).setCputab (mapRange m.cputab 32 32 (1024 * (32 * b)) true)).setPputab
      (mapRange m.pputab 0 8 (m.cfg.chrBase + 1024 * (8 * c)) m.cfg.chrReadOnly)).Inv :=
  h.direct (by rw [hv]; decide) q _ _
    ((directLegal_gxrom hv q).mpr (by rw [hq, hr]; exact ⟨⟨⟨hb, hb4⟩, hc⟩, hc4⟩))
    (wholeWindow_shows (.inr hv) hq) (chrWindow_shows (.inr (.inl hv)) hr)

theorem unrom512Sel_inv {m : Mapper} (h : m.Inv) (hv : m.cfg.variant = .unrom512) {b c : Nat} {q : DirectRegs}
    (hq : q.selPrg.toNat = b) (hb : b < m.cfg.nPrg16) (hb32 : b < 32) (hr : q.selChr.toNat = c)
    (hc : c < m.cfg.nChr8) (hc4 : c < 4) (high : Bool) :
    ((((m.setDirect q).setCputab (mapRange m.cputab 32 16 (1024 * (16 * b)) true)).setPputab
      (mapRange m.pputab 0 8 (m.cfg.chrBase + 1024 * (8 * c)) m.cfg.chrReadOnly)).showing (oneScreen high)).Inv :=
  h.directScreen (.inr hv) q (mapRange m.cputab 32 16 (1024 * (16 * b)) true)
    (mapRange m.pputab 0 8 (m.cfg.chrBase + 1024 * (8 * c)) m.cfg.chrReadOnly)
    ((directLegal_unrom512 hv q).mpr (by rw [hq, hr]; exact ⟨⟨⟨hb, hb32⟩, hc⟩, hc4⟩))
    (lowWindow_shows (.inr hv) hq) (chrWindow_shows (.inr (.inr hv)) hr) high

end Sys2Proof.Machine
end

