-- ==== Sys2Proof/Machine/Notation.lean ====
section
/-! DEFINITION. How this spec writes transactions down (R116, R117): the text of one transaction, and the
pseudo-operations as the transactions they expand to. No step depends on this file. -/

namespace Sys2Proof.Machine

/-! ### The text of a transaction (R116) -/

/-- One hexadecimal digit. -/
def hexDigit (d : Nat) : Char :=
  ['0', '1', '2', '3', '4', '5', '6', '7', '8', '9', 'A', 'B', 'C', 'D', 'E', 'F'].getD (d % 16) '0'

/-- The low `digits` hexadecimal digits of a number, most significant first. -/
def hexDigits (digits n : Nat) : List Char :=
  match digits with
  | 0 => []
  | k + 1 => hexDigits k (n / 16) ++ [hexDigit n]

/-- `$AAAA`: an address with four digits. -/
def addrText (a : CpuAddr) : String := "$" ++ String.ofList (hexDigits 4 a.toNat)

/-- `$VV`: a byte with two digits. -/
def byteText (v : Byte) : String := "$" ++ String.ofList (hexDigits 2 v.toNat)

/-- The line of a transaction word; `name` is the configuration or buffer name of its line (R116). -/
def lineText (w : TxWord) (name : String) : String :=
  match (wordKind w).toNat with
  | 0 => "TICK"
  | 1 => "RDCPU " ++ addrText (wordAddr w)
  | 2 => "WRCPU " ++ addrText (wordAddr w) ++ "," ++ byteText (wordData w)
  | 3 => "RDPPU " ++ addrText (wordAddr w)
  | 4 => "WRPPU " ++ addrText (wordAddr w) ++ "," ++ byteText (wordData w)
  | 5 => "POWERON " ++ name
  | 6 => "SAVE"
  | _ => "RESTORE " ++ name

/-! ### Pseudo-operations (R117) -/

/-- `TICKS n`: `n` lines `TICK`. -/
def ticks (n : Nat) : List Txn := List.replicate n (plainTxn 0#3 0#16 0#8)

/-- `SRLOAD $AAAA,$VV` under `SHIFT`: five writes at one address, the bits of `VV` least significant first. -/
def srload (a : CpuAddr) (v : BitVec 5) : List Txn :=
  (List.range 5).map fun i => plainTxn 2#3 a (bitByte (v.getLsbD i))

/-- `EDGE n` under `IRQ`: one low-to-high excursion of PPU address bit 12 with `n` ticks of low time. -/
def edge (n : Nat) : List Txn :=
  plainTxn 3#3 0x0000#16 0#8 :: (ticks n ++ [plainTxn 3#3 0x1000#16 0#8])

end Sys2Proof.Machine
end

