-- ==== Sys2Proof/Tests/Slice0.lean ====
section
/-! SUPPORT. The author's own tests, each one step on a small state, with its expected value from the
test vectors (95_test_vectors.md) or the rule it names; and for every statement with hypotheses a witness that meets
them. -/

namespace Sys2Proof.Tests

open Sys2Proof.Machine

/-! ### Helpers -/

/-- The next state of an outcome. -/
def next (o : Host.Outcome State Fault Refusal) : Option State :=
  match o with
  | .next t => some t
  | .fault _ => none
  | .refused _ => none

theorem next_of {o : Host.Outcome State Fault Refusal} (h : (next o).isSome = true) : ∃ t, o = .next t := by
  cases o with
  | next t => exact ⟨t, rfl⟩
  | fault _ => cases h
  | refused _ => cases h

/-- A view of the block an operation leaves. -/
def look {α : Type} (i : Instr) (s : State) (f : Mapper → α) : Option α :=
  (next (exec i s)).bind fun t => t.inst.map f

/-- The outputs an operation leaves. -/
def outOf (i : Instr) (s : State) : Option Output := (next (exec i s)).map (·.out)

/-- A test geometry in the shape of 95_test_vectors.md: payload bytes zero, CHR ROM, the default RAM sizes. -/
def geometry (nPrg nChr : Nat) (mode : Mirroring) : Geometry where
  nPrg16 := nPrg
  nChr8 := nChr
  chrReadOnly := true
  prg := ⟨16384 * nPrg, []⟩
  chr := some ⟨8192 * nChr, []⟩
  trainer := none
  mirroring0 := mode
  banksCpuRam := 10
  banksPpuRam := if mode = .fourScreen then 4 else 2
  split := 8
  irqLowMin := 0

/-- The block right after the `POWERON` of a variant. -/
def block (v : Variant) (g : Geometry) : Mapper :=
  match powerOn ⟨g, v⟩ with
  | .done m => m
  | .violation _ m => m

/-- The machine with a block and nothing issued. -/
def machine (m : Mapper) : State := ⟨some m, [], Output.quiet, 0⟩

/-- The machine right after the `POWERON` of a variant. -/
def start (v : Variant) (nPrg nChr : Nat) : State := machine (block v (geometry nPrg nChr .vertical))

/-- A transaction word with the launch side operands. -/
def word (w : TxWord) : Txn := ⟨w, Config.launchIn, []⟩

/-- The operation a word is read as under a variant. -/
def read (v : Variant) (w : TxWord) : Option Instr := (decode v (word w)).toOption

/-- Why a word is not read. -/
def unread (v : Variant) (w : TxWord) : Option DecodeError :=
  match decode v (word w) with
  | .ok _ => none
  | .error e => some e

/-! ### Decode: words of 95_test_vectors.md, and words put together from the fields of R107 to R112 -/

/-- R102 and P1: the eight kinds; the field layout is kind, address, data (R101). -/
theorem test_decode_any :
    read .nrom (0b000#3 ++ 0b0000000000000000#16 ++ 0b00000000#8) = some .tick ∧
    read .nrom (0b001#3 ++ 0b1100000000000000#16 ++ 0b00000000#8) = some (.rdcpu 0xC000#16) ∧
    read .nrom (0b010#3 ++ 0b0110000000000000#16 ++ 0b10101011#8) = some (.wrcpu 0x6000#16 0xAB#8) ∧
    read .nrom (0b011#3 ++ 0b0010100000000101#16 ++ 0b00000000#8) = some (.rdppu 0x2805#14) ∧
    read .nrom (0b100#3 ++ 0b0000000000010000#16 ++ 0b01011010#8) = some (.wrppu 0x0010#14 0x5A#8) ∧
    read .nrom 0x5000000#27 = some (.poweron Config.launchIn) ∧
    read .nrom 0x6000000#27 = some .save ∧
    read .nrom 0x7000000#27 = some (.restore []) := by decide

/-- R103: a PPU word with address bit 14 or 15 set is invalid. -/
theorem test_decode_wide :
    unread .nrom (0b011#3 ++ 0b0100000000000000#16 ++ 0b00000000#8) = some (.ppuAddressTooWide 0x4000#16) ∧
    unread .irq (0b100#3 ++ 0b1000000000000001#16 ++ 0b00000000#8) = some (.ppuAddressTooWide 0x8001#16) := by
  decide

/-- R107: V43, V47, V51, V56, V60, V46; `NROM` claims no write (R106, V40). -/
theorem test_decode_direct :
    read .uxrom 0x280000B#27 = some (.uxromSel 0x0B#8) ∧
    read .uxrom 0x27FFF0B#27 = some (.wrcpu 0x7FFF#16 0x0B#8) ∧
    read .cnrom 0x2800002#27 = some (.cnromSel 0x02#8) ∧
    read .axrom 0x2800013#27 = some (.axromSel 0x13#8) ∧
    read .gxrom 0x2800021#27 = some (.gxromSel 0x21#8) ∧
    read .unrom512 0x2C000A5#27 = some (.unrom512Sel 0xA5#8) ∧
    read .nrom 0x28000FF#27 = some (.wrcpu 0x8000#16 0xFF#8) := by decide

/-- R109: words of program P2. -/
theorem test_decode_shift :
    read .shift 0x2800080#27 = some .shiftReset ∧
    read .shift 0x2FFFFFF#27 = some .shiftReset ∧
    read .shift 0x2800000#27 = some (.shiftBit 0#2 false) ∧
    read .shift 0x2A00001#27 = some (.shiftBit 1#2 true) ∧
    read .shift 0x2C00001#27 = some (.shiftBit 2#2 true) ∧
    read .shift 0x2E00000#27 = some (.shiftBit 3#2 false) ∧
    read .shift 0x26000FF#27 = some (.wrcpu 0x6000#16 0xFF#8) := by decide

/-- R110: words of program P3 and of V78 and V80. -/
theorem test_decode_irq_writes :
    read .irq 0x2800046#27 = some (.irqBanksel 0x46#8) ∧
    read .irq 0x29FFE06#27 = some (.irqBanksel 0x06#8) ∧
    read .irq 0x2800113#27 = some (.irqBankdata 0x13#8) ∧
    read .irq 0x2A00001#27 = some (.irqMirror true) ∧
    read .irq 0x2A001FF#27 = some .irqRamprot ∧
    read .irq 0x2C00004#27 = some (.irqReloadval 0x04#8) ∧
    read .irq 0x2C00100#27 = some .irqReload ∧
    read .irq 0x2E00000#27 = some .irqDisable ∧
    read .irq 0x2E00100#27 = some .irqEnable := by decide

/-- R111: the PPU accesses and the tick of the `IRQ` variant. -/
theorem test_decode_irq_accesses :
    read .irq 0x3100000#27 = some (.irqRdppu 0x1000#14) ∧
    read .irq (0b100#3 ++ 0b0001000000000000#16 ++ 0b00000111#8) = some (.irqWrppu 0x1000#14 0x07#8) ∧
    read .irq 0x0000000#27 = some .irqTick := by decide

/-- R112: the writes of program P4. -/
theorem test_decode_latch_writes :
    read .latch 0x2A00013#27 = some (.latchPrg 0x13#8) ∧
    read .latch 0x2B00025#27 = some (.latchChr0 0x25#8) ∧
    read .latch 0x2C00002#27 = some (.latchChr1 0x02#8) ∧
    read .latch 0x2D00007#27 = some (.latchChr2 0x07#8) ∧
    read .latch 0x2E00001#27 = some (.latchChr3 0x01#8) ∧
    read .latch 0x2F00001#27 = some (.latchMirror true) ∧
    read .latch 0x2800055#27 = some (.wrcpu 0x8000#16 0x55#8) := by decide

/-- R111: the reads of program P4, with the ends of a trigger window. -/
theorem test_decode_latch_reads :
    read .latch 0x30FD800#27 = some (.latchTrig0Clr 0#3) ∧
    read .latch 0x30FE800#27 = some (.latchTrig0Set 0#3) ∧
    read .latch 0x30FEF00#27 = some (.latchTrig0Set 7#3) ∧
    read .latch 0x31FD800#27 = some (.latchTrig1Clr 0#3) ∧
    read .latch 0x31FE800#27 = some (.latchTrig1Set 0#3) ∧
    read .latch 0x30FE000#27 = some (.latchRdppu 0x0FE0#14) ∧
    read .latch 0x40FE800#27 = some (.wrppu 0x0FE8#14 0x00#8) := by decide

/-! ### WellFormed: an ill-formed term for each check -/

/-- Another variant's default operations, and the addresses a variant claims. -/
theorem test_wellFormed_refuses_defaults :
    wellFormed .irq .tick = false ∧ wellFormed .irq (.rdppu 0#14) = false ∧ wellFormed .latch (.rdppu 0#14) = false ∧
    wellFormed .irq (.wrppu 0#14 0#8) = false ∧ wellFormed .uxrom (.wrcpu 0x8000#16 0#8) = false ∧
    wellFormed .latch (.wrcpu 0xA000#16 0#8) = false ∧ wellFormed .latch (.latchRdppu 0x0FD8#14) = false := by decide

/-- Another variant's register and trigger operations. -/
theorem test_wellFormed_refuses_other_variant :
    ∀ i ∈ ([.uxromSel 0#8, .cnromSel 0#8, .axromSel 0#8, .gxromSel 0#8, .unrom512Sel 0#8, .shiftReset,
      .shiftBit 0#2 true, .irqBanksel 0#8, .irqBankdata 0#8, .irqMirror true, .irqRamprot, .irqReloadval 0#8,
      .irqReload, .irqDisable, .irqEnable, .irqRdppu 0#14, .irqWrppu 0#14 0#8, .irqTick, .latchPrg 0#8,
      .latchChr0 0#8, .latchChr1 0#8, .latchChr2 0#8, .latchChr3 0#8, .latchMirror true, .latchRdppu 0#14,
      .latchTrig0Clr 0#3, .latchTrig0Set 0#3, .latchTrig1Clr 0#3, .latchTrig1Set 0#3] : List Instr),
      wellFormed .nrom i = false := by decide

/-- The procedures no word selects, under the variant they belong to. -/
theorem test_wellFormed_refuses_internal :
    (∀ i ∈ ([.map .cpu 0 0 0 true, .unmap .cpu 0 0, .mirror .cpu 0 0 0, .setmirror .vertical, .mapcpuram 0 0 0 true,
      .mapppuram 0 0 0 true, .mapprg 0 0 0, .mapchr 0 0 0] : List Instr), wellFormed .nrom i = false) ∧
    (∀ i ∈ ([.shiftLdCtrl 0#5, .shiftLdChr0 0#5, .shiftLdChr1 0#5, .shiftLdPrg 0#5, .shiftRemap] : List Instr),
      wellFormed .shift i = false) ∧
    (∀ i ∈ ([.irqRemap, .irqObserve true, .irqClock] : List Instr), wellFormed .irq i = false) ∧
    wellFormed .latch .latchRemap = false := by decide

/-! ### The default bus operations (95_test_vectors.md section 2) -/

/-- The start state of section 2 with a few store bytes. -/
def stocked (store : Memory) : State := machine (Mapper.launch.setStore store)

/-- V30. -/
theorem test_tick : next (exec .tick State.reset) = some State.reset := by decide

/-- V20: `RDCPU $8400` is byte 0 of bank 1, `$FFFF` the last byte of bank 31. -/
theorem test_rdcpu :
    (outOf (.rdcpu 0x8400#16) (stocked [(1024, 0x01#8)])).bind (·.data) = some 0x01#8 ∧
    (outOf (.rdcpu 0xFFFF#16) (stocked [(32767, 0x1F#8)])).bind (·.data) = some 0x1F#8 := by decide

/-- V24: a read of an unmapped page takes one draw. -/
theorem test_rdcpu_open_bus : (next (exec (.rdcpu 0x2000#16) State.reset)).map (·.draws) = some 1 := by decide

/-- V22, V23: system RAM at `C`, the byte of 0x1FFF at `C + 0x7FF`. -/
theorem test_wrcpu :
    look (.wrcpu 0x0000#16 0x5A#8) State.reset (·.store) = some [(40960, 0x5A#8)] ∧
    look (.wrcpu 0x1FFF#16 0xA5#8) State.reset (·.store) = some [(43007, 0xA5#8)] := by decide

/-- V24, V40: a write to an unmapped or read-only page is discarded. -/
theorem test_wrcpu_discarded :
    look (.wrcpu 0x4017#16 0xFF#8) State.reset (·.store) = some [] ∧
    look (.wrcpu 0x8000#16 0xFF#8) State.reset (·.store) = some [] := by decide

/-- V26: byte 0x1FFF of CHR. -/
theorem test_rdppu :
    (outOf (.rdppu 0x1FFF#14) (stocked [(40959, 0x07#8)])).bind (·.data) = some 0x07#8 := by decide

/-- V28: page 12 shows PPU RAM bank 0; V26: CHR ROM discards. -/
theorem test_wrppu :
    look (.wrppu 0x3005#14 0x77#8) State.reset (·.store) = some [(51205, 0x77#8)] ∧
    look (.wrppu 0x0000#14 0xFF#8) State.reset (·.store) = some [] := by decide

/-! ### The mapping operations (V1 to V19) -/

/-- V1. -/
theorem test_map :
    look (.map .cpu 32 2 4096 true) State.reset (fun m => (m.cputab[32], m.cputab[33], m.cputab[34])) =
      some (⟨4096, true, true⟩, ⟨5120, true, true⟩, ⟨2048, true, true⟩) := by decide

/-- V2, V4, V5: the table check, the store check, and a range that ends at `LEN`. -/
theorem test_map_bounds :
    (outOf (.map .cpu 63 2 0 true) State.reset).bind (·.error) = some (.contract .tableBounds) ∧
    (outOf (.map .ppu 0 1 52736 false) State.reset).bind (·.error) = some (.contract .storeBounds) ∧
    (outOf (.map .ppu 0 1 52224 false) State.reset).map (·.error) = some none ∧
    look (.map .cpu 63 2 0 true) State.reset (fun m => (m.faulted, m.cputab[63].off)) = some (true, 31744) := by
  decide

/-- V8, V9. -/
theorem test_unmap :
    look (.unmap .cpu 24 8) State.reset (·.cputab[24]) = some ⟨43008, false, false⟩ ∧
    (outOf (.unmap .ppu 15 2) State.reset).bind (·.error) = some (.contract .tableBounds) := by decide

/-- V10, V13. -/
theorem test_mirror :
    look (.mirror .cpu 62 2 4) State.reset (fun m => (m.cputab[2].off, m.cputab[3].off, m.cputab[4].off)) =
      some (30720, 31744, 40960) ∧
    (outOf (.mirror .cpu 63 2 1) State.reset).bind (·.error) = some (.contract .tableBounds) := by decide

/-- V11: the source range is a snapshot. -/
theorem test_mirror_overlap :
    look (.mirror .ppu 8 4 2) State.reset
      (fun m => [m.pputab[10].off, m.pputab[11].off, m.pputab[12].off, m.pputab[13].off]) =
      some [51200, 52224, 51200, 52224] := by decide

/-- V14, V17. -/
theorem test_setmirror :
    look (.setmirror .horizontal) State.reset
      (fun m => [m.pputab[8].off, m.pputab[9].off, m.pputab[10].off, m.pputab[15].off]) =
      some [51200, 51200, 52224, 52224] ∧
    look (.setmirror .oneScreenHigh) State.reset (fun m => [m.pputab[8].off, m.pputab[14].off]) =
      some [52224, 52224] := by decide

/-- V19: the third page fails; pages 8 and 9 are already rewritten. -/
theorem test_setmirror_violation :
    look (.setmirror .fourScreen) (machine (block .nrom (geometry 2 1 .horizontal)))
      (fun m => (m.faulted, [m.pputab[8].off, m.pputab[9].off, m.pputab[10].off, m.pputab[11].off])) =
      some (true, [51200, 52224, 52224, 52224]) := by decide

/-- R127: bank 2 of CPU RAM is at `C + 2048`. -/
theorem test_mapcpuram :
    look (.mapcpuram 8 1 2 true) State.reset (·.cputab[8]) = some ⟨43008, true, true⟩ ∧
    (outOf (.mapcpuram 8 1 10 true) State.reset).bind (·.error) = some (.contract .storeBounds) := by decide

/-- R128: bank 1 of PPU RAM is at `P + 1024`. -/
theorem test_mapppuram :
    look (.mapppuram 0 1 1 false) State.reset (·.pputab[0]) = some ⟨52224, false, true⟩ ∧
    (outOf (.mapppuram 0 1 2 false) State.reset).bind (·.error) = some (.contract .storeBounds) := by decide

/-- V6: the region check, although the store is long enough; R129: always read-only. -/
theorem test_mapprg :
    look (.mapprg 32 1 31) State.reset (·.cputab[32]) = some ⟨31744, true, true⟩ ∧
    (outOf (.mapprg 32 16 17) State.reset).bind (·.error) = some (.contract .storeBounds) := by decide

/-- V7; R130: read-only as the configuration says. -/
theorem test_mapchr :
    look (.mapchr 0 1 7) State.reset (·.pputab[0]) = some ⟨39936, true, true⟩ ∧
    (outOf (.mapchr 0 8 1) State.reset).bind (·.error) = some (.contract .storeBounds) := by decide

/-! ### The direct-mapped family (V43 to V60) -/

/-- V43. -/
theorem test_uxromSel :
    look (.uxromSel 0x0B#8) (start .uxrom 8 1)
      (fun m => (m.direct.selPrg, m.cputab[32].off, m.cputab[48].off)) = some (3#8, 49152, 114688) := by decide

/-- V47. -/
theorem test_cnromSel :
    look (.cnromSel 0x02#8) (start .cnrom 2 4)
      (fun m => (m.direct.selChr, m.pputab[0].off)) = some (2#8, 32768 + 16384) := by decide

/-- V51 (`P` is 149504 with one CHR unit), V55: bit 3 is ignored. -/
theorem test_axromSel :
    look (.axromSel 0x13#8) (start .axrom 8 1)
      (fun m => (m.direct.selPrg, m.cputab[32].off, m.pputab[8].off, m.pputab[15].off)) =
      some (3#8, 98304, 150528, 150528) ∧
    look (.axromSel 0x0F#8) (start .axrom 8 1) (fun m => (m.direct.selPrg, m.pputab[9].off)) =
      some (3#8, 149504) := by decide

/-- V56, V58: bits 2, 3, 6 and 7 are ignored. -/
theorem test_gxromSel :
    look (.gxromSel 0x21#8) (start .gxrom 8 4)
      (fun m => (m.direct, m.cputab[32].off, m.pputab[0].off)) =
      some (⟨2#8, 1#8⟩, 65536, 131072 + 8192) ∧
    look (.gxromSel 0xCC#8) (start .gxrom 8 4) (·.direct) = some ⟨0#8, 0#8⟩ := by decide

/-- V60, V61 (`P` is 567296 + 10240 with four CHR units). -/
theorem test_unrom512Sel :
    look (.unrom512Sel 0xA5#8) (start .unrom512 32 4)
      (fun m => (m.direct, m.cputab[32].off, m.pputab[0].off, m.pputab[8].off)) =
      some (⟨5#8, 1#8⟩, 81920, 524288 + 8192, 567296 + 1024) ∧
    look (.unrom512Sel 0x7F#8) (start .unrom512 32 4) (fun m => (m.direct, m.pputab[9].off)) =
      some (⟨31#8, 3#8⟩, 567296) := by decide

/-! ### The serial-protocol variant (V62 to V71, P2) -/

/-- The shift start state of V62 to V71 with given registers. -/
def shifted (q : ShiftRegs) : State := machine ((block .shift (geometry 8 4 .horizontal)).setShift q)

/-- V63. -/
theorem test_shiftReset :
    look .shiftReset (shifted ⟨0x18#5, 2#3, 0x10#5, 5#5, 2#5, 0#5⟩) (fun m => (m.shift, m.pputab[0].off)) =
      some (⟨0#5, 0#3, 0x1C#5, 5#5, 2#5, 0#5⟩, 131072 + 20480) := by decide

/-- P2, 31 to 34: the fourth bit only collects. -/
theorem test_shiftBit_collects :
    look (.shiftBit 0#2 false) (shifted ⟨0x18#5, 3#3, 0x1E#5, 5#5, 2#5, 3#5⟩) (·.shift) =
      some ⟨0x0C#5, 4#3, 0x1E#5, 5#5, 2#5, 3#5⟩ := by decide

/-- P2, 36: the fifth bit, at 0xE000, loads `prg = 6`; S4's sequence ends the same way with 3. -/
theorem test_shiftBit_loads :
    look (.shiftBit 3#2 false) (shifted ⟨0x0C#5, 4#3, 0x1E#5, 5#5, 2#5, 3#5⟩)
      (fun m => (m.shift, m.cputab[32].off, m.cputab[48].off, m.pputab[0].off, m.pputab[4].off)) =
      some (⟨0#5, 0#3, 0x1E#5, 5#5, 2#5, 6#5⟩, 98304, 114688, 131072 + 20480, 131072 + 8192) ∧
    look (.shiftBit 3#2 false) (shifted ⟨6#5, 4#3, 0x0C#5, 0#5, 0#5, 0#5⟩) (·.shift.prg) = some 3#5 := by decide

/-- R195 to R198. -/
theorem test_shift_loads :
    look (.shiftLdCtrl 0x1F#5) (shifted ShiftRegs.reset) (·.shift) = some ⟨0#5, 0#3, 0x1F#5, 0#5, 0#5, 0#5⟩ ∧
    look (.shiftLdChr0 0x1F#5) (shifted ShiftRegs.reset) (·.shift) = some ⟨0#5, 0#3, 0x0C#5, 0x1F#5, 0#5, 0#5⟩ ∧
    look (.shiftLdChr1 0x1F#5) (shifted ShiftRegs.reset) (·.shift) = some ⟨0#5, 0#3, 0x0C#5, 0#5, 0x1F#5, 0#5⟩ ∧
    look (.shiftLdPrg 0x1F#5) (shifted ShiftRegs.reset) (·.shift) = some ⟨0#5, 0#3, 0x0C#5, 0#5, 0#5, 0x1F#5⟩ := by
  decide

/-- V65, V66: 32 KiB mode; bank 0 fixed. -/
theorem test_shiftRemap :
    look .shiftRemap (shifted ⟨0#5, 0#3, 0#5, 0#5, 0#5, 5#5⟩) (fun m => (m.cputab[32].off, m.cputab[63].off)) =
      some (65536, 1024 * 0x5F) ∧
    look .shiftRemap (shifted ⟨0#5, 0#3, 8#5, 0#5, 0#5, 5#5⟩) (fun m => (m.cputab[32].off, m.cputab[48].off)) =
      some (0, 1024 * 0x50) := by decide

/-! ### The scanline-IRQ variant (V72 to V91, P3) -/

/-- The `IRQ` start state of V72 to V91 with given registers. -/
def scanline (q : IrqRegs) : State := machine ((block .irq (geometry 8 16 .vertical)).setIrq q)

/-- Registers for the counter tests. -/
def counting (counter reload : Byte) (enable pending low : Bool) (ticks : Byte) : IrqRegs :=
  { IrqRegs.reset with
    counter := counter, reload := reload, enable := enable, reloadPending := pending, a12Low := low,
    lowTicks := ticks }

/-- The register values P3 has before its step 11. -/
def p3Regs : IrqRegs :=
  { IrqRegs.reset with bank := #v[0#8, 0#8, 0#8, 0#8, 0#8, 0#8, 5#8, 0x13#8], bankSelect := 7#3 }

/-- P3, 11 to 13. -/
theorem test_irqBanksel :
    look (.irqBanksel 0x46#8) (scanline p3Regs)
      (fun m => (m.irq.bankSelect, m.irq.prgMode, m.irq.chrMode, m.cputab[32].off, m.cputab[48].off)) =
      some (6#3, true, false, 1024 * 0x70, 1024 * 0x28) := by decide

/-- P3, 9 and 10: bank `0x13 AND 15 = 3`. -/
theorem test_irqBankdata :
    look (.irqBankdata 0x13#8) (scanline { IrqRegs.reset with bankSelect := 7#3 })
      (fun m => (m.irq.bank[7], m.irq.bank[6], m.cputab[40].off)) = some (0x13#8, 0#8, 1024 * 0x18) := by decide

/-- V79 (`P` is 272384). -/
theorem test_irqMirror :
    look (.irqMirror true) (scanline IrqRegs.reset) (fun m => (m.pputab[9].off, m.pputab[10].off)) =
      some (272384, 273408) ∧
    look (.irqMirror true) (machine (block .irq (geometry 8 16 .fourScreen)))
      (fun m => (m.pputab[9].off, m.pputab[10].off)) = some (273408, 274432) := by decide

/-- V80; R219; V85; R221; R222. -/
theorem test_irq_controls :
    look .irqRamprot (scanline (counting 3#8 4#8 true false true 0#8)) (·.irq) =
      some (counting 3#8 4#8 true false true 0#8) ∧
    look (.irqReloadval 9#8) (scanline (counting 3#8 4#8 true false true 0#8)) (·.irq) =
      some (counting 3#8 9#8 true false true 0#8) ∧
    look .irqReload (scanline (counting 3#8 4#8 true false true 0#8)) (·.irq) =
      some (counting 0#8 4#8 true true true 0#8) ∧
    look .irqDisable (scanline (counting 3#8 4#8 true false true 0#8)) (·.irq) =
      some (counting 3#8 4#8 false false true 0#8) ∧
    look .irqEnable (scanline (counting 3#8 4#8 false false true 0#8)) (·.irq) =
      some (counting 3#8 4#8 true false true 0#8) := by decide

/-- S5: the transition that takes the counter from 1 to 0 raises; V84: not while disabled. -/
theorem test_irqRdppu :
    (next (exec (.irqRdppu 0x1000#14) (scanline (counting 1#8 4#8 true false true 0#8)))).map
      (fun t => (t.out.irq, t.out.data, t.inst.map (·.irq))) =
      some (true, some 0#8, some (counting 0#8 4#8 true false false 0#8)) ∧
    (outOf (.irqRdppu 0x1000#14) (scanline (counting 1#8 4#8 false false true 0#8))).map (·.irq) =
      some false := by decide

/-- V87: the low half of a transition by a write; V81: without a low period nothing is detected. -/
theorem test_irqWrppu :
    look (.irqWrppu 0x2000#14 0x11#8) (scanline IrqRegs.reset) (fun m => (m.irq.a12Low, m.store)) =
      some (true, [(272384, 0x11#8)]) ∧
    look (.irqWrppu 0x1000#14 0x11#8) (scanline (counting 0#8 4#8 true false false 0#8)) (·.irq) =
      some (counting 0#8 4#8 true false false 0#8) := by decide

/-- The `IRQ` block of V89 to V91: `irq_low_min = 3`. -/
def threshold (q : IrqRegs) : State :=
  machine ((block .irq { geometry 8 16 .vertical with irqLowMin := 3#8 }).setIrq q)

/-- V91: `low_ticks` saturates at 3; V90: a tick while high does not count. -/
theorem test_irqTick :
    look .irqTick (threshold (counting 0#8 0#8 false false true 2#8)) (·.irq.lowTicks) = some 3#8 ∧
    look .irqTick (threshold (counting 0#8 0#8 false false true 3#8)) (·.irq.lowTicks) = some 3#8 ∧
    look .irqTick (threshold (counting 0#8 0#8 false false false 0#8)) (·.irq.lowTicks) = some 0#8 := by decide

/-- V90 and V89: two ticks of three are too few, three are enough. -/
theorem test_irqObserve :
    look (.irqObserve true) (threshold (counting 4#8 4#8 true false true 2#8)) (fun m => (m.irq.counter, m.irq.a12Low)) =
      some (4#8, false) ∧
    look (.irqObserve true) (threshold (counting 4#8 4#8 true false true 3#8)) (fun m => (m.irq.counter, m.irq.a12Low)) =
      some (3#8, false) := by decide

/-- V85: a pending reload wins; V83: from 0 with reload value 0 nothing is raised. -/
theorem test_irqClock :
    look .irqClock (scanline (counting 0#8 4#8 true true false 0#8)) (fun m => (m.irq.counter, m.irq.reloadPending)) =
      some (4#8, false) ∧
    (outOf .irqClock (scanline (counting 0#8 0#8 true false false 0#8))).map (·.irq) = some false := by decide

/-- V76, V77: bit 0 of a 2 KiB bank is dropped; CHR mode 1 swaps the halves. -/
theorem test_irqRemap :
    look .irqRemap (scanline { IrqRegs.reset with bank := #v[5#8, 0#8, 0#8, 0#8, 0#8, 0#8, 0#8, 0#8] })
      (fun m => (m.pputab[0].off, m.pputab[1].off)) = some (131072 + 4096, 131072 + 5120) ∧
    look .irqRemap (scanline
      { IrqRegs.reset with bank := #v[0#8, 0#8, 0x21#8, 0#8, 0#8, 0#8, 0#8, 0#8], chrMode := true })
      (fun m => (m.pputab[0].off, m.pputab[4].off)) = some (131072 + 33792, 131072) := by decide

/-! ### The latch variant (P4) -/

/-- P4's block with given registers. -/
def latched (q : LatchRegs) : State := machine ((block .latch (geometry 8 16 .vertical)).setLatch q)

/-- P4's registers after step 9. -/
def p4Regs (l0 l1 : Bool) : LatchRegs := ⟨3#8, #v[5#8, 2#8, 7#8, 1#8], #v[l0, l1]⟩

/-- P4, 4 and 5: the fixed part starts at bank 104. -/
theorem test_latchPrg :
    look (.latchPrg 0x13#8) (latched LatchRegs.reset)
      (fun m => (m.latch.prgSel, m.cputab[32].off, m.cputab[40].off)) = some (3#8, 24576, 106496) := by decide

/-- P4, 6 to 9. -/
theorem test_latch_selects :
    look (.latchChr0 0x25#8) (latched LatchRegs.reset) (·.latch.selected) = some #v[5#8, 0#8, 0#8, 0#8] ∧
    look (.latchChr1 0x02#8) (latched LatchRegs.reset) (fun m => (m.latch.selected, m.pputab[0].off)) =
      some (#v[0#8, 2#8, 0#8, 0#8], 131072 + 8192) ∧
    look (.latchChr2 0x07#8) (latched LatchRegs.reset) (·.latch.selected) = some #v[0#8, 0#8, 7#8, 0#8] ∧
    look (.latchChr3 0x01#8) (latched LatchRegs.reset) (fun m => (m.latch.selected, m.pputab[4].off)) =
      some (#v[0#8, 0#8, 0#8, 1#8], 131072 + 4096) := by decide

/-- P4, 25. -/
theorem test_latchMirror :
    look (.latchMirror true) (latched LatchRegs.reset) (fun m => (m.pputab[9].off, m.pputab[10].off)) =
      some (272384, 273408) := by decide

/-- P4, 21: outside the windows nothing is triggered. -/
theorem test_latchRdppu :
    look (.latchRdppu 0x0FE0#14) (latched (p4Regs false true)) (·.latch) = some (p4Regs false true) := by decide

/-- P4, 12 and 14: the byte of the old mapping, then the remap. The mapping before is the block's own, so the byte
that marks it is in bank 3. -/
theorem test_latch_triggers0 :
    (next (exec (.latchTrig0Set 0#3)
      (machine (((block .latch (geometry 8 16 .vertical)).setLatch (p4Regs false false)).setStore
        [(131072 + 3 * 1024 + 1000, 0x0B#8)])))).map
      (fun t => (t.out.data, t.inst.map fun m => (m.latch, m.pputab[0].off))) =
      some (some 0x0B#8, some (p4Regs true false, 131072 + 20480)) ∧
    look (.latchTrig0Clr 0#3) (latched (p4Regs true false)) (fun m => (m.latch, m.pputab[0].off)) =
      some (p4Regs false false, 131072 + 8192) := by decide

/-- P4, 17 and 18. -/
theorem test_latch_triggers1 :
    look (.latchTrig1Set 0#3) (latched (p4Regs false false)) (fun m => (m.latch, m.pputab[4].off)) =
      some (p4Regs false true, 131072 + 28672) ∧
    look (.latchTrig1Clr 0#3) (latched (p4Regs false true)) (fun m => (m.latch, m.pputab[4].off)) =
      some (p4Regs false false, 131072 + 4096) := by decide

/-- P4's end state, and `split = 16`. -/
theorem test_latchRemap :
    look .latchRemap (latched (p4Regs true true))
      (fun m => [m.cputab[32].off, m.cputab[63].off, m.pputab[0].off, m.pputab[4].off]) =
      some [24576, 1024 * 127, 131072 + 20480, 131072 + 28672] ∧
    look .latchRemap (machine ((block .latch { geometry 8 16 .vertical with split := 16 }).setLatch (p4Regs true true)))
      (fun m => [m.cputab[32].off, m.cputab[48].off]) = some [1024 * 0x30, 1024 * 0x70] := by decide

/-! ### Host operations (V92 to V95, R313 to R323) -/

/-- A `POWERON` of a geometry under a variant tag. -/
def power (tag : VariantTag) (g : Geometry) : Instr := .poweron { toGeometry := g, tag := tag }

/-- V42, V72: the last bank is fixed; `IRQ` fixes the last two. -/
theorem test_poweron :
    look (power (.known .uxrom) (geometry 8 1 .vertical)) State.reset
      (fun m => [m.cputab[32].off, m.cputab[48].off, m.pputab[9].off]) = some [0, 114688, 149504 + 1024] ∧
    look (power (.known .irq) (geometry 8 16 .vertical)) State.reset
      (fun m => [m.cputab[40].off, m.cputab[48].off, m.cputab[56].off, m.pputab[3].off, m.pputab[7].off]) =
      some [0, 1024 * 0x70, 1024 * 0x78, 131072 + 1024, 131072] := by decide

/-- V95: the eight refusals. -/
theorem test_poweron_refusals :
    (outOf (power (.known .nrom) (geometry 3 1 .vertical)) State.reset).bind (·.error) =
      some (.config .sizeNotPowerOfTwo) ∧
    (outOf (power (.known .nrom) { geometry 2 1 .vertical with prg := ⟨16384, []⟩ }) State.reset).bind (·.error) =
      some (.config .payloadLength) ∧
    (outOf (power (.known .nrom) (geometry 4 1 .vertical)) State.reset).bind (·.error) =
      some (.config .prgAboveTwoUnits) ∧
    (outOf (power (.known .axrom) (geometry 1 1 .vertical)) State.reset).bind (·.error) =
      some (.config .prgBelowTwoUnits) ∧
    (outOf (power (.known .nrom) { geometry 2 1 .fourScreen with banksPpuRam := 2 }) State.reset).bind (·.error) =
      some (.config .ppuRamTooSmall) ∧
    (outOf (power (.known .nrom) { geometry 2 1 .vertical with trainer := some ⟨100, []⟩ }) State.reset).bind
      (·.error) = some (.config .trainerLength) ∧
    (outOf (power (.known .latch) { geometry 2 1 .vertical with split := 4 }) State.reset).bind (·.error) =
      some (.config .splitValue) ∧
    (outOf (power (.other 9) (geometry 3 1 .vertical)) State.reset).bind (·.error) =
      some (.config .unknownVariant) := by decide

/-- V92: the first descriptor of the buffer; V92a to V92h: the sizes. -/
theorem test_save :
    ((outOf .save (start .uxrom 8 1)).bind (·.buffer)).map (·.take 10) =
      some [0x00#8, 0x20#8, 0x02#8, 0#8, 0#8, 0#8, 0#8, 0#8, 0x00#8, 0x01#8] ∧
    [saveSize ⟨geometry 2 1 .vertical, .nrom⟩, saveSize ⟨geometry 2 1 .fourScreen, .nrom⟩,
     saveSize ⟨{ geometry 8 1 .vertical with chrReadOnly := false }, .uxrom⟩, saveSize ⟨geometry 8 4 .vertical, .gxrom⟩,
     saveSize ⟨geometry 8 4 .vertical, .shift⟩, saveSize ⟨geometry 8 16 .vertical, .irq⟩,
     saveSize ⟨geometry 8 16 .vertical, .latch⟩, saveSize ⟨{ geometry 8 1 .vertical with banksCpuRam := 2 }, .uxrom⟩] =
      [13088, 15136, 21281, 13090, 13094, 13105, 13095, 4897] := by decide

/-- V94, in the shape of the empty buffer. -/
theorem test_restore_size :
    (outOf (.restore []) State.reset).bind (·.error) = some (.restoreSize 0 13088) := by decide

/-- R172, R268: a select of `AXROM` sets a one-screen mode, so the registers differ from R38's beside no other. -/
theorem test_axrom_registers_need_their_mode :
    let c : Cfg := ⟨geometry 4 1 .vertical, .axrom⟩
    modeFits c .vertical ⟨1#8, 0#8⟩ = false ∧ modeFits c .oneScreenLow ⟨1#8, 0#8⟩ = true ∧
    modeFits c .vertical ⟨0#8, 0#8⟩ = true := by decide

/-- R126, R145, R268: under one-screen low no page of `NROM` shows PPU RAM bank 1, so no write leaves a byte there. -/
theorem test_unshown_ram_stays_as_at_poweron :
    let m := freshMapper ⟨geometry 1 1 .oneScreenLow, .nrom⟩
    let holding (i : Nat) : Mapper := { m with store := Memory.write m.store (m.cfg.ppuRamBase + i) 1#8 }
    (holding 0).restUntouched .oneScreenLow = true ∧ (holding 1024).restUntouched .oneScreenLow = false := by decide

/-! ### Notation (R116, R117; the words are P2's and P3's) -/

theorem test_notation :
    lineText 0x26000AB#27 "" = "WRCPU $6000,$AB" ∧
    (srload 0xE000#16 0x03#5).map (·.word) = [0x2E00001#27, 0x2E00001#27, 0x2E00000#27, 0x2E00000#27, 0x2E00000#27] ∧
    (edge 3).map (·.word) = [0x3000000#27, 0#27, 0#27, 0#27, 0x3100000#27] := by decide

/-- R100, R104: a table word runs as the next transaction. -/
theorem test_step_runs_the_word :
    (next (step (State.reset.withFetchWord 27 0x26000AB))).bind (fun t => t.inst.map (·.store)) =
      some [(43008, 0xAB#8)] := by decide

/-! ### Witnesses: for every statement with hypotheses, values that meet them together -/

/-- The outcome of two operations, one after the other. -/
def next2 (i j : Instr) (s : State) : Option State := (next (exec i s)).bind fun t => next (exec j t)

theorem next2_of {i j : Instr} {s : State} (h : (next2 i j s).isSome = true) :
    ∃ t u, exec i s = .next t ∧ exec j t = .next u := by
  unfold next2 at h
  cases e : exec i s with
  | next t =>
    rw [e] at h
    obtain ⟨u, hu⟩ := next_of (o := exec j t) h
    exact ⟨t, u, rfl, hu⟩
  | fault _ => rw [e] at h; cases h
  | refused _ => rw [e] at h; cases h

/-- A block of each variant, 32 KiB of PRG and 8 KiB of CHR ROM. -/
def demo (v : Variant) : Mapper := block v (geometry 2 1 .vertical)

/-- What the statements about one block ask of it. -/
theorem demo_ready (v : Variant) :
    (machine (demo v)).LiveAs v (demo v) ∧ (demo v).cfg.legal = true ∧ (demo v).regsLegal = true ∧
      Memory.wf (demo v).store = true := by
  cases v <;> exact ⟨⟨⟨rfl, by decide⟩, by decide⟩, by decide, by decide, by decide⟩

theorem demo_live (v : Variant) : (machine (demo v)).Live (demo v) := (demo_ready v).1.1

/-- A block with payload bytes of zero meets the invariant when the checks of its parts do. -/
theorem inv_of {m : Mapper} (h1 : m.cfg.legal = true) (h2 : m.faulted = false) (h3 : m.coherent = true)
    (h4 : m.store = []) (h5 : m.cfg.prg.cells = []) (h6 : ∀ c, m.cfg.chr = some c → c.cells = []) : m.Inv := by
  refine ⟨h1, h2, h3, ?_, ?_, ?_, ?_⟩
  · rw [h4]; rfl
  · rw [h4]; rfl
  · intro i _
    rw [h4, imageByte, h5]
  · intro _ c hc i _
    rw [h4, imageByte, h6 c hc]
    rfl

theorem demo_chr (v : Variant) (c : Image) (h : (demo v).cfg.chr = some c) : c.cells = [] := by
  have e : (demo v).cfg.chr = some ⟨8192, []⟩ := by cases v <;> decide
  rw [e] at h
  cases h
  rfl

theorem demo_inv_nrom : (demo .nrom).Inv :=
  inv_of (by decide) (by decide) (by decide) (by decide) (by decide) (demo_chr .nrom)

set_option maxRecDepth 8000 in
theorem demo_inv_irq : (demo .irq).Inv :=
  inv_of (by decide) (by decide) (by decide) (by decide) (by decide) (demo_chr .irq)

set_option maxRecDepth 8000 in
theorem demo_inv_latch : (demo .latch).Inv :=
  inv_of (by decide) (by decide) (by decide) (by decide) (by decide) (demo_chr .latch)

theorem witness_DecodeOfEncodeIsIdentity :
    wellFormed .shift (.shiftBit 3#2 true) = true ∧ wellFormed .latch (.latchTrig1Set 7#3) = true := by decide

theorem witness_DecodedOperationIsWellFormed : ∃ v t i, decode v t = .ok i :=
  ⟨.latch, word 0x31FE800#27, .latchTrig1Set 0#3, rfl⟩

theorem witness_DecodeSelectsTheMatchingRow : ∃ v t i, decode v t = .ok i :=
  ⟨.shift, word 0x2800080#27, .shiftReset, rfl⟩

theorem witness_OnlyWidePpuWordsAreRefused :
    (∃ v t e, decode v t = .error e) ∧ (∃ k : BitVec 3, k = 0#3 ∨ k = 5#3 ∨ k = 6#3 ∨ k = 7#3) ∧
      ∃ k : BitVec 3, k = 1#3 ∨ k = 3#3 :=
  ⟨⟨.nrom, word 0x3400000#27, .ppuAddressTooWide 0x4000#16, rfl⟩, ⟨7#3, by decide⟩, 3#3, by decide⟩

theorem witness_StepRunsTheNextTransaction :
    (∃ (s : State) (m : Mapper) (t : Txn) (rest : List Txn) (i : Instr), s.inst = some m ∧ s.port = t :: rest ∧
      decode m.cfg.variant t = .ok i) ∧
    (∃ (s : State) (m : Mapper) (t : Txn) (rest : List Txn) (a : CpuAddr), s.inst = some m ∧ s.port = t :: rest ∧
      decode m.cfg.variant t = .error (.ppuAddressTooWide a)) ∧
    (∃ (s : State) (t : Txn) (rest : List Txn) (v : Variant) (c : CfgIn), s.inst = none ∧ s.port = t :: rest ∧
      decode v t = .ok (.poweron c)) ∧
    ∃ s : State, s.port = [] :=
  ⟨⟨{ State.reset with port := [word 0x26000AB#27] }, _, _, _, _, rfl, rfl, rfl⟩,
   ⟨{ State.reset with port := [word 0x3FFFF00#27] }, _, _, _, 0xFFFF#16, rfl, rfl, rfl⟩,
   ⟨⟨none, [word 0x5000000#27], Output.quiet, 0⟩, _, _, .nrom, _, rfl, rfl, rfl⟩, State.reset, rfl⟩

theorem witness_PowerOnConstructsTheBlock :
    ∃ (s : State) (cfg : Cfg), cfg.legal = true ∧ ∀ m0, s.inst = some m0 → m0.faulted = false :=
  ⟨⟨none, [], Output.quiet, 0⟩, ⟨geometry 2 1 .vertical, .latch⟩, by decide, fun _ h => by cases h⟩

/-- For every variant, with ten banks of CPU RAM. -/
theorem witness_PowerOnTablesByVariant (v : Variant) :
    ∃ (s t : State) (cfg : Cfg) (m : Mapper), cfg.legal = true ∧ cfg.variant = v ∧ cfg.banksCpuRam = 10 ∧
      exec (.poweron { toGeometry := cfg.toGeometry, tag := .known cfg.variant }) s = .next t ∧ t.inst = some m := by
  have key : (next (exec (power (.known v) (geometry 2 1 .vertical)) State.reset)).bind (·.inst) ≠ none := by
    cases v <;> decide
  cases e : exec (power (.known v) (geometry 2 1 .vertical)) State.reset with
  | next t =>
    rw [e] at key
    cases e2 : t.inst with
    | none => exact absurd e2 key
    | some m =>
      exact ⟨State.reset, t, ⟨geometry 2 1 .vertical, v⟩, m, by cases v <;> decide, rfl, rfl, e, e2⟩
  | fault _ => rw [e] at key; exact absurd rfl key
  | refused _ => rw [e] at key; exact absurd rfl key

theorem three_is_no_power (k : Nat) : 3 ≠ 2 ^ k := by
  match k with
  | 0 => decide
  | 1 => decide
  | k + 2 => rw [Nat.pow_succ, Nat.pow_succ]; omega

/-- V95's seven geometries: each breaks its constraint and meets those before it. -/
theorem witness_PowerOnReportsTheFirstBrokenConstraint :
    (∃ s : State, ∀ m0, s.inst = some m0 → m0.faulted = false) ∧
    (¬ Geometry.Meets .nrom (geometry 3 1 .vertical) .sizeNotPowerOfTwo) ∧
    (Geometry.Meets .nrom { geometry 2 1 .vertical with prg := ⟨16384, []⟩ } .sizeNotPowerOfTwo ∧
      ¬ Geometry.Meets .nrom { geometry 2 1 .vertical with prg := ⟨16384, []⟩ } .payloadLength) ∧
    (Geometry.Meets .nrom (geometry 4 1 .vertical) .payloadLength ∧
      ¬ Geometry.Meets .nrom (geometry 4 1 .vertical) .prgAboveTwoUnits) ∧
    (Geometry.Meets .axrom (geometry 1 1 .vertical) .prgAboveTwoUnits ∧
      ¬ Geometry.Meets .axrom (geometry 1 1 .vertical) .prgBelowTwoUnits) ∧
    (Geometry.Meets .nrom { geometry 2 1 .fourScreen with banksPpuRam := 2 } .prgBelowTwoUnits ∧
      ¬ Geometry.Meets .nrom { geometry 2 1 .fourScreen with banksPpuRam := 2 } .ppuRamTooSmall) ∧
    (Geometry.Meets .nrom { geometry 2 1 .vertical with trainer := some ⟨100, []⟩ } .ppuRamTooSmall ∧
      ¬ Geometry.Meets .nrom { geometry 2 1 .vertical with trainer := some ⟨100, []⟩ } .trainerLength) ∧
    (Geometry.Meets .latch { geometry 2 1 .vertical with split := 4 } .trainerLength ∧
      ¬ Geometry.Meets .latch { geometry 2 1 .vertical with split := 4 } .splitValue) ∧
    ∃ (s t : State) (i : Instr) (e : ConfigError), exec i s = .next t ∧ t.out.error = some (.config e) := by
  refine ⟨⟨State.reset, fun m0 h => by cases h; rfl⟩, ?_, ⟨⟨⟨1, rfl⟩, 0, rfl⟩, ?_⟩, ⟨⟨rfl, ?_, ?_⟩, ?_⟩,
    ⟨(fun h => by simp at h), ?_⟩, ⟨(fun h => by simp at h), ?_⟩, ⟨⟨by decide, (fun h => by cases h)⟩, ?_⟩,
    ⟨(fun t h => by cases h), ?_⟩, ?_⟩
  · rintro ⟨⟨k, hk⟩, -⟩
    exact three_is_no_power k hk
  · rintro ⟨h, -⟩
    exact absurd h (by decide)
  · intro c hc
    cases hc
    rfl
  · intro h
    cases h
  · intro h
    exact absurd (h (.inl rfl)) (by decide)
  · intro h
    exact absurd (h (.inl rfl)) (by decide)
  · rintro ⟨-, h⟩
    exact absurd (h rfl) (by decide)
  · intro h
    exact absurd (h _ rfl) (by decide)
  · intro h
    exact absurd (h rfl) (by decide)
  · exact ⟨State.reset, _, power (.other 9) (geometry 2 1 .vertical), .unknownVariant, rfl, rfl⟩

theorem witness_NoBlockNoOperation : ∃ (s : State) (i : Instr), s.inst = none ∧ ∀ c, i ≠ .poweron c :=
  ⟨⟨none, [], Output.quiet, 0⟩, .tick, rfl, fun _ h => by cases h⟩

theorem witness_FaultMarkIsTerminal :
    (∃ (s : State) (m : Mapper), s.inst = some m ∧ m.faulted = true) ∧
    (∃ (s t : State) (i : Instr) (kind : Bounds), exec i s = .next t ∧ t.out.error = some (.contract kind)) ∧
    (∃ (s t : State) (i : Instr) (e : ConfigError), exec i s = .next t ∧ t.out.error = some (.config e)) ∧
    ∃ (s t : State) (i : Instr) (got want : Nat), exec i s = .next t ∧ t.out.error = some (.restoreSize got want) :=
  ⟨⟨machine (Mapper.launch.setFaulted true), _, rfl, rfl⟩,
   ⟨State.reset, _, .map .cpu 63 2 0 true, .tableBounds, rfl, rfl⟩,
   ⟨State.reset, _, power (.other 9) (geometry 2 1 .vertical), .unknownVariant, rfl, rfl⟩,
   ⟨State.reset, _, .restore [], 0, 13088, rfl, rfl⟩⟩

theorem witness_MapWritesConsecutiveDescriptors :
    ∃ (s : State) (m : Mapper), s.Live m ∧ 51200 + 1024 * 2 ≤ m.cfg.storeLen ∧ 62 + 2 ≤ 64 ∧ 14 + 2 ≤ 16 :=
  ⟨_, _, demo_live .nrom, by decide, by decide, by decide⟩

theorem witness_UnmapClearsMappedOnly : ∃ (s : State) (m : Mapper), s.Live m ∧ 62 + 2 ≤ 64 ∧ 14 + 2 ≤ 16 :=
  ⟨_, _, demo_live .nrom, by decide, by decide⟩

theorem witness_MirrorCopiesTheSnapshot : ∃ (s : State) (m : Mapper), s.Live m ∧ 62 + 2 ≤ 64 ∧ 8 + 8 ≤ 16 :=
  ⟨_, _, demo_live .nrom, by decide, by decide⟩

/-- Modes of two banks, and the four-screen mode with four. -/
theorem witness_SetMirrorPointsTheNametablePages :
    (∃ (s : State) (m : Mapper) (b : Vector Nat 4), s.Live m ∧ b = #v[1, 1, 1, 1] ∧
      ∀ k : Fin 4, b[k] < m.cfg.banksPpuRam) ∧
    ∃ (s : State) (m : Mapper) (b : Vector Nat 4), s.Live m ∧ b = #v[0, 1, 2, 3] ∧
      ∀ k : Fin 4, b[k] < m.cfg.banksPpuRam :=
  ⟨⟨_, _, _, demo_live .nrom, rfl, by decide⟩,
   ⟨machine (block .irq (geometry 8 16 .fourScreen)), _, _, ⟨rfl, by decide⟩, rfl, by decide⟩⟩

theorem witness_RegionHelpersMapTheirRegion :
    ∃ (s : State) (m : Mapper), s.Live m ∧ 63 + 1 ≤ 64 ∧ 15 + 1 ≤ 16 ∧ 9 + 1 ≤ m.cfg.banksCpuRam ∧
      1 + 1 ≤ m.cfg.banksPpuRam ∧ 31 + 1 ≤ 16 * m.cfg.nPrg16 ∧ 7 + 1 ≤ 8 * m.cfg.nChr8 :=
  ⟨_, _, demo_live .nrom, by decide, by decide, by decide, by decide, by decide, by decide⟩

/-- The two bounds of a region helper, each just exceeded. -/
theorem witness_RegionHelpersBounds :
    ∃ (s : State) (m : Mapper), s.Live m ∧ 64 + 1 > 64 ∧ 16 + 1 > 16 ∧
      (9 + 2 > m.cfg.banksCpuRam ∧ 9 + 1 ≤ m.cfg.banksCpuRam) ∧
      (1 + 2 > m.cfg.banksPpuRam ∧ 1 + 1 ≤ m.cfg.banksPpuRam) ∧
      (31 + 2 > 16 * m.cfg.nPrg16 ∧ 31 + 1 ≤ 16 * m.cfg.nPrg16) ∧
      (7 + 2 > 8 * m.cfg.nChr8 ∧ 7 + 1 ≤ 8 * m.cfg.nChr8) :=
  ⟨_, _, demo_live .nrom, by decide, by decide, by decide, by decide, by decide, by decide⟩

/-- Both tables just exceeded, and the store by one byte. -/
theorem witness_MappingBoundsAreFatal :
    ∃ (s : State) (m : Mapper), s.Live m ∧ 64 + 1 > 64 ∧ 15 + 2 > 16 ∧ 63 + 1 ≤ 64 ∧
      52225 + 1024 * 1 > m.cfg.storeLen :=
  ⟨_, _, demo_live .nrom, by decide, by decide, by decide, by decide⟩

theorem witness_SetMirrorPointsTheNametablePages_violation :
    ∃ (s : State) (m : Mapper), s.Live m ∧ m.cfg.banksPpuRam < 4 := ⟨_, _, demo_live .nrom, by decide⟩

/-- A block whose descriptors all begin at the store's end, and an operation of another variant on it. -/
def astray (v : Variant) : Mapper :=
  ((demo v).setCputab (Vector.replicate 64 ⟨53248, false, true⟩)).setPputab (Vector.replicate 16 ⟨53248, false, true⟩)

theorem witness_OffRuleAccessesStop :
    (machine (astray .irq)).Live (astray .irq) ∧ ownerOf (.latchPrg 0#8) = some .latch ∧ (astray .irq).cfg.variant = .irq ∧
      (astray .latch).cfg.variant = .latch ∧ ((astray .irq).cpuPageAt 0x8000#16).mapped = true ∧
      ((astray .irq).cpuPageAt 0x8000#16).ro = false ∧
      (astray .irq).cfg.storeLen ≤ ((astray .irq).cpuPageAt 0x8000#16).off + (0x8000#16).toNat % 1024 ∧
      ((astray .irq).ppuPageAt 0x0000#14).mapped = true ∧ ((astray .irq).ppuPageAt 0x0000#14).ro = false ∧
      (astray .irq).cfg.storeLen ≤ ((astray .irq).ppuPageAt 0x0000#14).off + (0x0000#14).toNat % 1024 :=
  ⟨⟨rfl, by decide⟩, by decide, by decide, by decide, by decide, by decide, by decide, by decide, by decide, by decide⟩

/-- One operation of each form, one of them ending in a violation. -/
theorem witness_MappingOperationsTouchOnlyTheTables :
    (∀ i ∈ ([.map .cpu 64 1 0 true, .unmap .ppu 15 1, .mirror .cpu 0 2 2, .setmirror .vertical, .mapcpuram 0 1 9 true,
      .mapppuram 0 1 1 true, .mapprg 32 1 31, .mapchr 0 1 7] : List Instr), ∃ s t : State, exec i s = .next t) ∧
    (∃ s t : State, exec .shiftRemap s = .next t) ∧ (∃ s t : State, exec .irqRemap s = .next t) ∧
    ∃ s t : State, exec .latchRemap s = .next t := by
  refine ⟨fun i hi => ⟨machine (demo .nrom), next_of ?_⟩, ⟨machine (demo .shift), next_of (by decide)⟩,
    ⟨machine (demo .irq), next_of (by decide)⟩, machine (demo .latch), next_of (by decide)⟩
  revert i
  decide

/-- A mapped page and an open one, on either bus. -/
theorem witness_ReadsReturnTheStoreByteOrTheDraw :
    ∃ (s : State) (m : Mapper), s.Live m ∧ m.holds (m.cpuPageAt 0xFFFF#16) ∧ m.holds (m.cpuPageAt 0x2000#16) ∧
      m.holds (m.ppuPageAt 0x3FFF#14) :=
  ⟨_, _, demo_live .nrom, fun _ => by decide, fun _ => by decide, fun _ => by decide⟩

/-- A writable page, a read-only one and an open one. -/
theorem witness_WritesStoreOneByteOrNothing :
    ∃ (s : State) (m : Mapper), s.Live m ∧ Memory.wf m.store = true ∧
      (m.holds (m.cpuPageAt 0x7FFF#16) ∧ (m.cpuPageAt 0x7FFF#16).mapped = true ∧ (m.cpuPageAt 0x7FFF#16).ro = false) ∧
      (m.holds (m.cpuPageAt 0x8000#16) ∧ (m.cpuPageAt 0x8000#16).ro = true) ∧
      (m.holds (m.cpuPageAt 0x2000#16) ∧ (m.cpuPageAt 0x2000#16).mapped = false) ∧
      m.holds (m.ppuPageAt 0x3FFF#14) ∧ (m.ppuPageAt 0x3FFF#14).mapped = true ∧
      (m.ppuPageAt 0x3FFF#14).ro = false :=
  ⟨_, _, demo_live .nrom, (demo_ready .nrom).2.2.2, ⟨fun _ => by decide, by decide, by decide⟩,
    ⟨fun _ => by decide, by decide⟩, ⟨fun _ => by decide, by decide⟩, fun _ => by decide, by decide, by decide⟩

theorem witness_ReadBackAfterWrite :
    (∃ (s t u : State) (m : Mapper), s.Live m ∧ Memory.wf m.store = true ∧
      exec (.wrcpu 0x7FFF#16 0xC3#8) s = .next t ∧ (m.cpuPageAt 0x7FFF#16).mapped = true ∧
      (m.cpuPageAt 0x7FFF#16).ro = false ∧ exec (.rdcpu 0x7FFF#16) t = .next u) ∧
    (∃ (s t u : State) (m : Mapper), s.Live m ∧ Memory.wf m.store = true ∧
      exec (.wrppu 0x2000#14 0xAA#8) s = .next t ∧ (m.ppuPageAt 0x2000#14).mapped = true ∧
      (m.ppuPageAt 0x2000#14).ro = false ∧ exec (.rdppu 0x2000#14) t = .next u) ∧
    (∃ (s t u : State) (m : Mapper), s.LiveAs .irq m ∧ Memory.wf m.store = true ∧
      exec (.irqWrppu 0x2000#14 0xAA#8) s = .next t ∧ (m.ppuPageAt 0x2000#14).mapped = true ∧
      (m.ppuPageAt 0x2000#14).ro = false ∧ exec (.irqRdppu 0x2000#14) t = .next u) ∧
    (∃ (s t u : State) (m : Mapper), s.LiveAs .latch m ∧ m.cfg.legal = true ∧ m.regsLegal = true ∧
      Memory.wf m.store = true ∧ exec (.wrppu 0x2000#14 0xAA#8) s = .next t ∧ (m.ppuPageAt 0x2000#14).mapped = true ∧
      (m.ppuPageAt 0x2000#14).ro = false ∧ exec (.latchRdppu 0x2000#14) t = .next u) ∧
    (∃ (s t : State) (m : Mapper), s.Live m ∧ exec (.wrcpu 0x8000#16 0xFF#8) s = .next t ∧
      (m.cpuPageAt 0x8000#16).ro = true) ∧
    (∃ (s t : State) (m : Mapper), s.Live m ∧ exec (.wrppu 0x0000#14 0xFF#8) s = .next t ∧
      (m.ppuPageAt 0x0000#14).ro = true) ∧
    ∃ (s t u w : State) (m : Mapper), s.LiveAs .irq m ∧ exec (.irqWrppu 0x0000#14 0xFF#8) s = .next t ∧
      (m.ppuPageAt 0x0000#14).ro = true ∧ exec (.irqRdppu 0x1000#14) t = .next u ∧
      exec (.irqRdppu 0x1000#14) s = .next w := by
  obtain ⟨t1, u1, h1, h2⟩ := next2_of (i := .wrcpu 0x7FFF#16 0xC3#8) (j := .rdcpu 0x7FFF#16) (s := machine (demo .nrom))
    (by decide)
  obtain ⟨t2, u2, h3, h4⟩ := next2_of (i := .wrppu 0x2000#14 0xAA#8) (j := .rdppu 0x2000#14) (s := machine (demo .nrom))
    (by decide)
  obtain ⟨t3, h5⟩ := next_of (o := exec (.wrcpu 0x8000#16 0xFF#8) (machine (demo .nrom))) (by decide)
  obtain ⟨t4, h6⟩ := next_of (o := exec (.wrppu 0x0000#14 0xFF#8) (machine (demo .nrom))) (by decide)
  obtain ⟨t5, u5, h7, h8⟩ := next2_of (i := .irqWrppu 0x2000#14 0xAA#8) (j := .irqRdppu 0x2000#14)
    (s := machine (demo .irq)) (by decide)
  obtain ⟨t6, u6, h9, h10⟩ := next2_of (i := .wrppu 0x2000#14 0xAA#8) (j := .latchRdppu 0x2000#14)
    (s := machine (demo .latch)) (by decide)
  obtain ⟨t7, u7, h11, h12⟩ := next2_of (i := .irqWrppu 0x0000#14 0xFF#8) (j := .irqRdppu 0x1000#14)
    (s := machine (demo .irq)) (by decide)
  obtain ⟨w7, h13⟩ := next_of (o := exec (.irqRdppu 0x1000#14) (machine (demo .irq))) (by decide)
  have hl := demo_ready .latch
  exact ⟨⟨_, _, _, _, demo_live .nrom, (demo_ready .nrom).2.2.2, h1, by decide, by decide, h2⟩,
    ⟨_, _, _, _, demo_live .nrom, (demo_ready .nrom).2.2.2, h3, by decide, by decide, h4⟩,
    ⟨_, _, _, _, (demo_ready .irq).1, (demo_ready .irq).2.2.2, h7, by decide, by decide, h8⟩,
    ⟨_, _, _, _, hl.1, hl.2.1, hl.2.2.1, hl.2.2.2, h9, by decide, by decide, h10⟩,
    ⟨_, _, _, demo_live .nrom, h5, by decide⟩, ⟨_, _, _, demo_live .nrom, h6, by decide⟩,
    _, _, _, _, _, (demo_ready .irq).1, h11, by decide, h12, h13⟩

/-- The system RAM copies on one bus, the nametable copies on the other, and the two mirroring clauses at the last
offset of their range. -/
theorem witness_AliasedPagesShareBytes :
    (∃ (s t u : State) (m : Mapper), s.Live m ∧ Memory.wf m.store = true ∧
      exec (.wrcpu 0x1FFF#16 0xA5#8) s = .next t ∧ (m.cpuPageAt 0x1FFF#16).mapped = true ∧
      (m.cpuPageAt 0x1FFF#16).ro = false ∧ (m.cpuPageAt 0x07FF#16).mapped = true ∧
      (m.cpuPageAt 0x07FF#16).off = (m.cpuPageAt 0x1FFF#16).off ∧ exec (.rdcpu 0x07FF#16) t = .next u) ∧
    (∃ (s t u : State) (m : Mapper), s.Live m ∧ Memory.wf m.store = true ∧
      exec (.wrppu 0x3005#14 0x77#8) s = .next t ∧ (m.ppuPageAt 0x3005#14).mapped = true ∧
      (m.ppuPageAt 0x3005#14).ro = false ∧ (m.ppuPageAt 0x2805#14).mapped = true ∧
      (m.ppuPageAt 0x2805#14).off = (m.ppuPageAt 0x3005#14).off ∧ exec (.rdppu 0x2805#14) t = .next u) ∧
    (∃ (s t : State) (m : Mapper), s.Live m ∧ 2 ≤ m.cfg.banksPpuRam ∧ Memory.wf m.store = true ∧
      exec (.setmirror .vertical) s = .next t ∧
      (next2 (.wrppu (BitVec.ofNat 14 (0x2000 + 0x7FF)) 0x11#8) (.rdppu (BitVec.ofNat 14 (0x2000 + 0x7FF + 0x800))) t).isSome
        = true) ∧
    ∃ (s t : State) (m : Mapper), s.Live m ∧ 2 ≤ m.cfg.banksPpuRam ∧ Memory.wf m.store = true ∧
      exec (.setmirror .horizontal) s = .next t ∧
      (next2 (.wrppu (BitVec.ofNat 14 (0x2000 + 0x800 * 1 + 0x3FF)) 0x33#8)
        (.rdppu (BitVec.ofNat 14 (0x2000 + 0x800 * 1 + 0x3FF + 0x400))) t).isSome = true := by
  obtain ⟨t1, u1, h1, h2⟩ := next2_of (i := .wrcpu 0x1FFF#16 0xA5#8) (j := .rdcpu 0x07FF#16) (s := machine (demo .nrom))
    (by decide)
  obtain ⟨t2, u2, h3, h4⟩ := next2_of (i := .wrppu 0x3005#14 0x77#8) (j := .rdppu 0x2805#14) (s := machine (demo .nrom))
    (by decide)
  have key : ∀ (mode : Mirroring) (a b : PpuAddr) (v : Byte),
      ((next (exec (.setmirror mode) (machine (demo .nrom)))).bind fun t => next2 (.wrppu a v) (.rdppu b) t).isSome = true →
      ∃ t, exec (.setmirror mode) (machine (demo .nrom)) = .next t ∧ (next2 (.wrppu a v) (.rdppu b) t).isSome = true := by
    intro mode a b v h
    cases e : exec (.setmirror mode) (machine (demo .nrom)) with
    | next t => rw [e] at h; exact ⟨t, rfl, h⟩
    | fault _ => rw [e] at h; cases h
    | refused _ => rw [e] at h; cases h
  obtain ⟨t3, h5, h6⟩ := key .vertical (BitVec.ofNat 14 (0x2000 + 0x7FF)) (BitVec.ofNat 14 (0x2000 + 0x7FF + 0x800)) 0x11#8
    (by decide)
  obtain ⟨t4, h7, h8⟩ := key .horizontal (BitVec.ofNat 14 (0x2000 + 0x800 * 1 + 0x3FF))
    (BitVec.ofNat 14 (0x2000 + 0x800 * 1 + 0x3FF + 0x400)) 0x33#8 (by decide)
  exact ⟨⟨_, _, _, _, demo_live .nrom, (demo_ready .nrom).2.2.2, h1, by decide, by decide, by decide, by decide, h2⟩,
    ⟨_, _, _, _, demo_live .nrom, (demo_ready .nrom).2.2.2, h3, by decide, by decide, by decide, by decide, h4⟩,
    ⟨_, _, _, demo_live .nrom, by decide, (demo_ready .nrom).2.2.2, h5, h6⟩,
    _, _, _, demo_live .nrom, by decide, (demo_ready .nrom).2.2.2, h7, h8⟩

theorem witness_TickDoesNothing : ∃ (s : State) (m : Mapper), s.Live m := ⟨_, _, demo_live .nrom⟩

/-- The hypotheses of the statements about one variant's operations, for every variant: `UxromSelect`,
`CnromSelect`, `AxromSelect`, `GxromSelect`, `Unrom512Select`, `ShiftResetWrite`, `ShiftLoadsWriteTheirRegister`,
`IrqBankWrites`, `MirroringWrites`, `IrqControlWrites`, `IrqClockStep`, `LatchSelectWrites`,
`LatchRemapFollowsTheRegisters`. -/
theorem witness_of_variant (v : Variant) :
    ∃ (s : State) (m : Mapper), s.LiveAs v m ∧ m.cfg.legal = true ∧ m.regsLegal = true :=
  ⟨_, _, (demo_ready v).1, (demo_ready v).2.1, (demo_ready v).2.2.1⟩

theorem witness_UxromSelectSwitchesTheLowWindow : ∃ (s : State) (m : Mapper), s.LiveAs .uxrom m ∧ m.cfg.legal = true :=
  ⟨_, _, (demo_ready .uxrom).1, (demo_ready .uxrom).2.1⟩

theorem witness_CnromSelectSwitchesChr : ∃ (s : State) (m : Mapper), s.LiveAs .cnrom m ∧ m.cfg.legal = true :=
  ⟨_, _, (demo_ready .cnrom).1, (demo_ready .cnrom).2.1⟩

theorem witness_AxromSelectSwitchesPrgAndScreen : ∃ (s : State) (m : Mapper), s.LiveAs .axrom m ∧ m.cfg.legal = true :=
  ⟨_, _, (demo_ready .axrom).1, (demo_ready .axrom).2.1⟩

theorem witness_GxromSelectSwitchesPrgAndChr : ∃ (s : State) (m : Mapper), s.LiveAs .gxrom m ∧ m.cfg.legal = true :=
  ⟨_, _, (demo_ready .gxrom).1, (demo_ready .gxrom).2.1⟩

theorem witness_Unrom512SelectSwitchesAll : ∃ (s : State) (m : Mapper), s.LiveAs .unrom512 m ∧ m.cfg.legal = true :=
  ⟨_, _, (demo_ready .unrom512).1, (demo_ready .unrom512).2.1⟩

theorem witness_NromMappingIsFixed :
    (∃ (s t : State) (m : Mapper) (x : Txn) (rest : List Txn), s.Live m ∧ m.cfg.variant = .nrom ∧ s.port = x :: rest ∧
      wordKind x.word ≠ 5#3 ∧ wordKind x.word ≠ 7#3 ∧ step s = .next t) ∧
    ∃ (s : State) (m : Mapper) (x : Txn) (rest : List Txn) (a : CpuAddr) (v : Byte), s.inst = some m ∧ m.Inv ∧
      m.cfg.variant = .nrom ∧ s.port = x :: rest ∧ x.word = makeWord 2#3 a v ∧ 0x8000 ≤ a.toNat := by
  obtain ⟨t, h⟩ := next_of (o := step { machine (demo .nrom) with port := [word 0x26000AB#27] }) (by decide)
  exact ⟨⟨{ machine (demo .nrom) with port := [word 0x26000AB#27] }, t, demo .nrom, word 0x26000AB#27, [],
      demo_live .nrom, by decide, rfl, by decide, by decide, h⟩,
    ⟨{ machine (demo .nrom) with port := [word 0x28000FF#27] }, demo .nrom, word 0x28000FF#27, [], 0x8000#16, 0xFF#8,
      rfl, demo_inv_nrom, by decide, rfl, by decide, by decide⟩⟩

theorem witness_ShiftResetWrite : ∃ (s : State) (m : Mapper), s.LiveAs .shift m ∧ m.cfg.legal = true :=
  ⟨_, _, (demo_ready .shift).1, (demo_ready .shift).2.1⟩

/-- The fourth write of a group, and the fifth. -/
theorem witness_ShiftBitCollectsAndLoads :
    (∃ (s : State) (m : Mapper), s.LiveAs .shift m ∧ m.shift.cnt = 3#3 ∧ m.shift.cnt.toNat < 4) ∧
    ∃ (s : State) (m : Mapper), s.LiveAs .shift m ∧ m.shift.cnt = 4#3 ∧ 4 ≤ m.shift.cnt.toNat ∧ m.cfg.legal = true :=
  ⟨⟨shifted ⟨0x18#5, 3#3, 0x1E#5, 5#5, 2#5, 3#5⟩, _, ⟨⟨rfl, by decide⟩, by decide⟩, by decide, by decide⟩,
   ⟨shifted ⟨0x0C#5, 4#3, 0x1E#5, 5#5, 2#5, 3#5⟩, _, ⟨⟨rfl, by decide⟩, by decide⟩, by decide, by decide, by decide⟩⟩

theorem witness_ShiftLoadsWriteTheirRegister : ∃ (s : State) (m : Mapper), s.LiveAs .shift m :=
  ⟨_, _, (demo_ready .shift).1⟩

theorem witness_ShiftRemapFollowsTheRegisters :
    ∃ (s : State) (m : Mapper) (p pm cm mm n4 : Nat), s.LiveAs .shift m ∧ m.cfg.legal = true ∧
      p = m.shift.prg.toNat % 16 ∧ mm = m.shift.ctrl.toNat % 4 ∧ pm = m.shift.ctrl.toNat / 4 % 4 ∧
      cm = m.shift.ctrl.toNat / 16 ∧ n4 = 2 * m.cfg.nChr8 :=
  ⟨_, _, _, _, _, _, _, (demo_ready .shift).1, (demo_ready .shift).2.1, rfl, rfl, rfl, rfl, rfl⟩

theorem witness_FiveWritesLoadOneRegister :
    ∃ (s : State) (m : Mapper) (g1 g2 g3 g4 : List Instr), s.LiveAs .shift m ∧ m.cfg.legal = true ∧ m.TablesInStore ∧
      m.shift.cnt = 0#3 ∧ (∀ i ∈ g1 ++ g2 ++ g3 ++ g4, IsDefault i) :=
  ⟨_, _, [.tick, .wrcpu 0x6000#16 0xFF#8], [.rdcpu 0x8000#16], [.save], [.rdppu 0x2000#14, .wrppu 0x2000#14 0x11#8],
    (demo_ready .shift).1, (demo_ready .shift).2.1, ⟨by decide, by decide⟩, by decide, by simp [IsDefault]⟩

theorem witness_IrqBankWrites : ∃ (s : State) (m : Mapper), s.LiveAs .irq m ∧ m.cfg.legal = true :=
  ⟨_, _, (demo_ready .irq).1, (demo_ready .irq).2.1⟩

theorem witness_IrqRemapFollowsTheRegisters :
    ∃ (s : State) (m : Mapper) (n8 nc r6 r7 : Nat) (c1 c2 : Nat → Nat), s.LiveAs .irq m ∧ m.cfg.legal = true ∧
      n8 = 2 * m.cfg.nPrg16 ∧ nc = 8 * m.cfg.nChr8 ∧ r6 = m.irq.bank[6].toNat &&& (n8 - 1) ∧
      r7 = m.irq.bank[7].toNat &&& (n8 - 1) ∧ (∀ i : Fin 8, c1 i.val = m.irq.bank[i].toNat &&& (nc - 1)) ∧
      ∀ i : Fin 8, c2 i.val = (m.irq.bank[i].toNat &&& 0xFE) &&& (nc - 1) :=
  ⟨_, _, _, _, _, _, fun _ => 0, fun _ => 0, (demo_ready .irq).1, (demo_ready .irq).2.1, rfl, rfl, rfl, rfl,
    by decide, by decide⟩

theorem witness_MirroringWrites :
    (∃ (s : State) (m : Mapper), m.cfg.legal = true ∧ s.LiveAs .irq m ∧ m.cfg.mirroring0 = .fourScreen) ∧
    (∃ (s : State) (m : Mapper), m.cfg.legal = true ∧ s.LiveAs .irq m ∧ m.cfg.mirroring0 ≠ .fourScreen) ∧
    ∃ (s : State) (m : Mapper), m.cfg.legal = true ∧ s.LiveAs .latch m :=
  ⟨⟨machine (block .irq (geometry 8 16 .fourScreen)), _, by decide, ⟨⟨rfl, by decide⟩, by decide⟩, by decide⟩,
   ⟨_, _, (demo_ready .irq).2.1, (demo_ready .irq).1, by decide⟩, _, _, (demo_ready .latch).2.1, (demo_ready .latch).1⟩

theorem witness_IrqControlWrites : ∃ (s : State) (m : Mapper), s.LiveAs .irq m := ⟨_, _, (demo_ready .irq).1⟩

theorem witness_IrqClockStep : ∃ (s : State) (m : Mapper), s.LiveAs .irq m := ⟨_, _, (demo_ready .irq).1⟩

/-- A low period one tick short of the threshold, one at it, and a high line. -/
theorem witness_IrqDetector :
    (∃ (s : State) (m : Mapper), s.LiveAs .irq m ∧ m.irq.a12Low = true ∧
      m.irq.lowTicks.toNat + 1 = m.cfg.irqLowMin.toNat) ∧
    (∃ (s : State) (m : Mapper), s.LiveAs .irq m ∧ m.irq.a12Low = true ∧ m.irq.lowTicks = m.cfg.irqLowMin) ∧
    ∃ (s : State) (m : Mapper), s.LiveAs .irq m ∧ m.irq.a12Low = false :=
  ⟨⟨threshold (counting 0#8 0#8 false false true 2#8), _, ⟨⟨rfl, by decide⟩, by decide⟩, by decide, by decide⟩,
   ⟨threshold (counting 0#8 0#8 false false true 3#8), _, ⟨⟨rfl, by decide⟩, by decide⟩, by decide, by decide⟩,
   _, _, (demo_ready .irq).1, by decide⟩

theorem witness_IrqReadObservesAndReads :
    ∃ (s : State) (m : Mapper), s.LiveAs .irq m ∧ m.holds (m.ppuPageAt 0x1000#14) :=
  ⟨_, _, (demo_ready .irq).1, fun _ => by decide⟩

theorem witness_IrqWriteObservesAndWrites :
    ∃ (s : State) (m : Mapper), s.LiveAs .irq m ∧ Memory.wf m.store = true ∧ m.holds (m.ppuPageAt 0x3FFF#14) :=
  ⟨_, _, (demo_ready .irq).1, (demo_ready .irq).2.2.2, fun _ => by decide⟩

theorem witness_IrqPeriodIsReloadPlusOne : ∃ (s : State) (m : Mapper) (n : Nat), s.LiveAs .irq m ∧ 1 ≤ n :=
  ⟨_, _, 1, (demo_ready .irq).1, by decide⟩

/-- S5's raising access as a transaction. -/
theorem witness_OnlyTheCounterStepRaises :
    ∃ s t : State, s.port ≠ [] ∧ step s = .next t ∧ t.out.irq = true := by
  have key : (next (step { scanline (counting 1#8 4#8 true false true 0#8) with port := [word 0x3100000#27] })).map
      (·.out.irq) = some true := by decide
  cases e : step { scanline (counting 1#8 4#8 true false true 0#8) with port := [word 0x3100000#27] } with
  | next t =>
    rw [e] at key
    exact ⟨_, t, by simp, e, by simpa [next] using key⟩
  | fault _ => rw [e] at key; cases key
  | refused _ => rw [e] at key; cases key

theorem witness_LatchSelectWrites :
    ∃ (s : State) (m : Mapper), s.LiveAs .latch m ∧ m.cfg.legal = true ∧ m.regsLegal = true :=
  witness_of_variant .latch

theorem witness_LatchRemapFollowsTheRegisters :
    ∃ (s : State) (m : Mapper), s.LiveAs .latch m ∧ m.cfg.legal = true ∧ m.regsLegal = true :=
  witness_of_variant .latch

/-- The last address of each window, and the address just after the first window. -/
theorem witness_LatchReadFetchesThenTriggers :
    ∃ (s : State) (m : Mapper), s.LiveAs .latch m ∧ m.cfg.legal = true ∧ m.regsLegal = true ∧
      m.holds (m.ppuPageAt 0x0FDF#14) ∧ m.holds (m.ppuPageAt 0x0FE0#14) ∧ m.holds (m.ppuPageAt 0x1FEF#14) ∧
      (0x0FDF#14).toNat / 8 = 0x0FD8 / 8 ∧ (0x0FEF#14).toNat / 8 = 0x0FE8 / 8 ∧ (0x1FDF#14).toNat / 8 = 0x1FD8 / 8 ∧
      (0x1FEF#14).toNat / 8 = 0x1FE8 / 8 ∧ (0x0FE0#14).toNat / 8 ≠ 0x0FD8 / 8 ∧ (0x0FE0#14).toNat / 8 ≠ 0x0FE8 / 8 :=
  ⟨_, _, (demo_ready .latch).1, (demo_ready .latch).2.1, (demo_ready .latch).2.2.1, fun _ => by decide, fun _ => by decide,
    fun _ => by decide, by decide, by decide, by decide, by decide, by decide, by decide⟩

theorem witness_LatchTriggerChoosesTheBank :
    ∃ (s : State) (m : Mapper), s.inst = some m ∧ m.Inv ∧ m.cfg.variant = .latch :=
  ⟨machine (demo .latch), _, rfl, demo_inv_latch, by decide⟩

theorem witness_SaveLaysOutTheBuffer : ∃ (s : State) (m : Mapper), s.Live m := ⟨_, _, demo_live .irq⟩

theorem witness_RestoreOfWrongSizeChangesNothing :
    ∃ (s : State) (m : Mapper) (buf : List Byte), s.Live m ∧ buf.length ≠ saveSize m.cfg :=
  ⟨_, _, [], demo_live .nrom, by decide⟩

theorem witness_RestoreOfSaveIsIdentity :
    (∃ (s : State) (m0 m : Mapper), s.inst = some m ∧ m.Inv ∧ m0.Inv ∧ m.cfg = m0.cfg ∧ m.cfg.storeLen ≤ 2 ^ 64) ∧
    ∃ (s0 t0 : State) (m0 : Mapper) (buf : List Byte), m0.Inv ∧ s0.inst = some m0 ∧ exec .save s0 = .next t0 ∧
      t0.out.buffer = some buf := by
  have hf : (demo .irq).faulted = false := by decide
  refine ⟨⟨machine (demo .irq), demo .irq, demo .irq, rfl, demo_inv_irq, demo_inv_irq, rfl, by decide⟩,
    machine (demo .irq),
    (machine (demo .irq)).reply (demo .irq) { Output.quiet with buffer := some (saveBuffer (demo .irq)) },
    demo .irq, saveBuffer (demo .irq), demo_inv_irq, rfl, ?_, rfl⟩
  simp [exec, execSave, withBlock, machine, hf]

theorem witness_RestoreAcceptsOnlyWhatSavesBack :
    ∃ (s : State) (m : Mapper) (buf : List Byte), s.Live m ∧ buf.length = saveSize m.cfg :=
  ⟨_, _, List.replicate (saveSize (demo .nrom).cfg) 0#8, demo_live .nrom, List.length_replicate⟩

/-- A transaction on a block that meets the invariant, and a step that answers. -/
theorem witness_StepKeepsTheInvariant : ∃ s t : State, s.Inv ∧ s.inst ≠ none ∧ s.port ≠ [] ∧ step s = .next t := by
  obtain ⟨t, h⟩ := next_of (o := step { machine (demo .irq) with port := [word 0x2800046#27] }) (by decide)
  refine ⟨_, t, ?_, ?_, ?_, h⟩
  · intro m hm
    cases hm
    exact demo_inv_irq
  · simp [machine]
  · simp

theorem witness_InvariantGivesThePageMap : ∃ m : Mapper, m.Inv := ⟨_, demo_inv_latch⟩

theorem witness_EveryTransactionCompletesOrIsRefused :
    ∃ (s : State) (m : Mapper) (x : Txn) (rest : List Txn), s.inst = some m ∧ m.Inv ∧ s.port = x :: rest :=
  ⟨{ machine (demo .irq) with port := [word 0x3100000#27] }, _, _, _, rfl, demo_inv_irq, rfl⟩

theorem witness_ForeignRegistersAndConfigurationAreFixed :
    ∃ (s t : State) (m : Mapper) (i : Instr), s.inst = some m ∧ (∀ c, i ≠ .poweron c) ∧ exec i s = .next t := by
  obtain ⟨t, h⟩ := next_of (o := exec (.gxromSel 0x21#8) (machine (demo .gxrom))) (by decide)
  exact ⟨machine (demo .gxrom), t, demo .gxrom, .gxromSel 0x21#8, rfl, (fun _ h => by cases h), h⟩

theorem witness_OnlyTheListedOperationsWriteStoreAndTables :
    ∃ (s t : State) (m : Mapper) (i : Instr), s.inst = some m ∧ (∀ c, i ≠ .poweron c) ∧ (∀ buf, i ≠ .restore buf) ∧
      exec i s = .next t := by
  obtain ⟨t, h⟩ := next_of (o := exec (.irqWrppu 0x2000#14 0x11#8) (machine (demo .irq))) (by decide)
  exact ⟨machine (demo .irq), t, demo .irq, .irqWrppu 0x2000#14 0x11#8, rfl, (fun _ h => by cases h),
    (fun _ h => by cases h), h⟩

end Sys2Proof.Tests
end

/-! ## The scope of an operation (R6, R25)

What an operation leaves of the machine is told by one predicate on its outcome, `Leaves`, with one rule per
combinator of the model. Two blocks that agree in their configuration and in the registers the configured variant
does not have are `SameForeign`; every operation but `POWERON` leaves such a block. -/

namespace Sys2Proof.Machine

/-! ### The block an outcome leaves -/

/-- When the outcome of an operation on `s` is a next state, the waiting transactions are those of `s`, at most one
draw was taken, and the block left meets `P`. -/
def Leaves (s : State) (P : Mapper → Prop) (o : Host.Outcome State Fault Refusal) : Prop :=
  ∀ t, o = .next t → t.port = s.port ∧ (t.draws = s.draws ∨ t.draws = s.draws + 1) ∧ ∃ m, t.inst = some m ∧ P m

section Rules

variable {s : State} {m : Mapper} {P : Mapper → Prop}

theorem Leaves.fault (r : Fault) : Leaves s P (.fault r) := fun _ h => by cases h

theorem Leaves.refused (r : Refusal) : Leaves s P (.refused r) := fun _ h => by cases h

theorem Leaves.replyDraw (hP : P m) (o : Output) {d : Nat} (hd : d = s.draws ∨ d = s.draws + 1) :
    Leaves s P (.next (s.replyDraw m o d)) := by
  rintro _ ⟨⟩
  exact ⟨rfl, hd, m, rfl, hP⟩

theorem Leaves.reply (hP : P m) (o : Output) : Leaves s P (.next (s.reply m o)) :=
  Leaves.replyDraw hP o (.inl rfl)

theorem Leaves.raise (hP : P m) (e : OpError) : Leaves s P (.next (s.raise (some m) e)) :=
  Leaves.reply hP _

theorem Leaves.ite {c : Prop} [Decidable c] {o o' : Host.Outcome State Fault Refusal} (h : c → Leaves s P o)
    (h' : ¬ c → Leaves s P o') : Leaves s P (if c then o else o') := by
  split
  · exact h ‹_›
  · exact h' ‹_›

theorem Leaves.finishWith {r : ProcResult} (hP : P r.block) (hf : P (r.block.setFaulted true)) (o : Output) :
    Leaves s P (finishWith s o r) := by
  cases r with
  | done a => exact Leaves.reply hP o
  | violation k a => exact Leaves.raise hf _

theorem Leaves.withBlock {k : Mapper → Host.Outcome State Fault Refusal} (hm : s.inst = some m)
    (hk : Leaves s P (k m)) : Leaves s P (withBlock s k) := fun t ht => by
  obtain ⟨m', ⟨hm', -⟩, hk'⟩ := withBlock_next ht
  obtain rfl : m = m' := Option.some.inj (hm.symm.trans hm')
  exact hk t hk'

theorem Leaves.withVariant {v : Variant} {k : Mapper → Host.Outcome State Fault Refusal} (hm : s.inst = some m)
    (hk : m.cfg.variant = v → Leaves s P (k m)) : Leaves s P (withVariant v s k) :=
  Leaves.withBlock hm (Leaves.ite hk fun _ => Leaves.refused _)

/-- A read takes at most one draw (R143). -/
theorem Leaves.withRead {e : Bank} {intra : Nat} {k : Byte → Nat → Host.Outcome State Fault Refusal}
    (hk : ∀ b d, d = s.draws ∨ d = s.draws + 1 → Leaves s P (k b d)) :
    Leaves s P (withRead m e intra s.draws k) := by
  rcases withRead_cases m e intra s.draws k with ⟨-, -, h⟩ | ⟨-, h⟩ | ⟨-, -, h⟩ <;> rw [h]
  · exact hk _ _ (.inl rfl)
  · exact hk _ _ (.inr rfl)
  · exact Leaves.fault _

/-- A write leaves the block or changes its store (R142, R145). -/
theorem Leaves.withWrite {e : Bank} {intra : Nat} {v : Byte} {k : Mapper → Host.Outcome State Fault Refusal}
    (hk : Leaves s P (k m)) (hw : ∀ st, Leaves s P (k (m.setStore st))) :
    Leaves s P (withWrite m e intra v k) := by
  rcases withWrite_cases m e intra v k with ⟨-, h⟩ | ⟨-, -, -, h⟩ | ⟨-, -, -, h⟩ <;> rw [h]
  · exact hk
  · exact hw _
  · exact Leaves.fault _

end Rules

/-! ### The remaps write tables alone (R132) -/

theorem shiftRemapPrg_keeps (m : Mapper) : m.SameButTables (shiftRemapPrg m).block := by
  unfold shiftRemapPrg
  dsimp only
  split
  · exact mapPrg_keeps ..
  · exact mapPrg_keeps ..
  · exact andThen_keeps (mapPrg_keeps ..) fun _ _ => mapPrg_keeps ..
  · exact andThen_keeps (mapPrg_keeps ..) fun _ _ => mapPrg_keeps ..

theorem shiftRemapChr_keeps (m : Mapper) : m.SameButTables (shiftRemapChr m).block := by
  unfold shiftRemapChr
  split
  · exact andThen_keeps (mapChr_keeps ..) fun _ _ => mapChr_keeps ..
  · exact mapChr_keeps ..

theorem shiftRemap_keeps (m : Mapper) : m.SameButTables (shiftRemap m).block :=
  andThen_keeps (shiftRemapPrg_keeps m) fun _ _ =>
  andThen_keeps (shiftRemapChr_keeps _) fun _ _ => setMirror_keeps ..

theorem irqRemapPrg_keeps (m : Mapper) : m.SameButTables (irqRemapPrg m).block :=
  andThen_keeps (mapPrg_keeps ..) fun _ _ =>
  andThen_keeps (mapPrg_keeps ..) fun _ _ =>
  andThen_keeps (mapPrg_keeps ..) fun _ _ => mapPrg_keeps ..

theorem irqRemapChr_keeps (m : Mapper) : m.SameButTables (irqRemapChr m).block := by
  unfold irqRemapChr
  dsimp only
  split <;>
    exact andThen_keeps (mapChr_keeps ..) fun _ _ => andThen_keeps (mapChr_keeps ..) fun _ _ =>
      andThen_keeps (mapChr_keeps ..) fun _ _ => andThen_keeps (mapChr_keeps ..) fun _ _ =>
      andThen_keeps (mapChr_keeps ..) fun _ _ => mapChr_keeps ..

theorem irqRemap_keeps (m : Mapper) : m.SameButTables (irqRemap m).block :=
  andThen_keeps (irqRemapPrg_keeps m) fun a _ => irqRemapChr_keeps a

theorem latchRemap_keeps (m : Mapper) : m.SameButTables (latchRemap m).block :=
  andThen_keeps (mapPrg_keeps ..) fun _ _ =>
  andThen_keeps (mapPrg_keeps ..) fun _ _ =>
  andThen_keeps (mapChr_keeps ..) fun _ _ => mapChr_keeps ..

/-! ### Blocks with the same configuration and foreign registers -/

/-- The variant has none of the direct-mapped registers (R26). -/
abbrev LacksDirect (v : Variant) : Prop := v = .nrom ∨ v = .shift ∨ v = .irq ∨ v = .latch

/-- The configuration is the same, and so is every register the configured variant does not have (R6, R25). -/
structure Mapper.SameForeign (m m' : Mapper) : Prop where
  cfg : m'.cfg = m.cfg
  shift : m.cfg.variant ≠ .shift → m'.shift = m.shift
  irq : m.cfg.variant ≠ .irq → m'.irq = m.irq
  latch : m.cfg.variant ≠ .latch → m'.latch = m.latch
  direct : LacksDirect m.cfg.variant → m'.direct = m.direct

namespace Mapper.SameForeign

theorem refl (m : Mapper) : m.SameForeign m := ⟨rfl, fun _ => rfl, fun _ => rfl, fun _ => rfl, fun _ => rfl⟩

theorem trans {a b c : Mapper} (h : a.SameForeign b) (h' : b.SameForeign c) : a.SameForeign c := by
  obtain ⟨hc, hs, hi, hl, hd⟩ := h'
  rw [h.cfg] at hc hs hi hl hd
  exact ⟨hc, fun hv => (hs hv).trans (h.shift hv), fun hv => (hi hv).trans (h.irq hv),
    fun hv => (hl hv).trans (h.latch hv), fun hv => (hd hv).trans (h.direct hv)⟩

theorem of_tables {m m' : Mapper} (h : m.SameButTables m') : m.SameForeign m' :=
  ⟨h.cfg, fun _ => h.shift, fun _ => h.irq, fun _ => h.latch, fun _ => h.direct⟩

theorem setStore (m : Mapper) (st : Memory) : m.SameForeign (m.setStore st) :=
  ⟨rfl, fun _ => rfl, fun _ => rfl, fun _ => rfl, fun _ => rfl⟩

theorem setFaulted (m : Mapper) (b : Bool) : m.SameForeign (m.setFaulted b) :=
  ⟨rfl, fun _ => rfl, fun _ => rfl, fun _ => rfl, fun _ => rfl⟩

/-! A variant's own registers are not foreign to it. -/

variable {m : Mapper}

theorem setDirect {v : Variant} (hv : m.cfg.variant = v) (hd : ¬ LacksDirect v) (q : DirectRegs) :
    m.SameForeign (m.setDirect q) :=
  ⟨rfl, fun _ => rfl, fun _ => rfl, fun _ => rfl, fun h => absurd (hv ▸ h) hd⟩

theorem setShift (hv : m.cfg.variant = .shift) (q : ShiftRegs) : m.SameForeign (m.setShift q) :=
  ⟨rfl, fun h => absurd hv h, fun _ => rfl, fun _ => rfl, fun _ => rfl⟩

theorem setIrq (hv : m.cfg.variant = .irq) (q : IrqRegs) : m.SameForeign (m.setIrq q) :=
  ⟨rfl, fun _ => rfl, fun h => absurd hv h, fun _ => rfl, fun _ => rfl⟩

theorem setLatch (hv : m.cfg.variant = .latch) (q : LatchRegs) : m.SameForeign (m.setLatch q) :=
  ⟨rfl, fun _ => rfl, fun _ => rfl, fun h => absurd hv h, fun _ => rfl⟩

/-- The register bytes of a buffer go into the registers of the variant alone (R264, R266). -/
theorem of_withRegsAt (buf : List Byte) (i : Nat) (m : Mapper) : m.SameForeign (withRegsAt buf i m) := by
  unfold withRegsAt
  split <;> rename_i hv
  · exact refl m
  · exact setDirect hv (by decide) _
  · exact setDirect hv (by decide) _
  · exact setDirect hv (by decide) _
  · exact setDirect hv (by decide) _
  · exact setDirect hv (by decide) _
  · exact setShift hv _
  · exact setIrq hv _
  · exact setLatch hv _

theorem of_restored (buf : List Byte) (m : Mapper) : m.SameForeign (restored buf m) := by
  refine trans ?_ (of_withRegsAt ..)
  exact ⟨rfl, fun _ => rfl, fun _ => rfl, fun _ => rfl, fun _ => rfl⟩

end Mapper.SameForeign

/-! ### What the operations leave -/

section Operations

variable {s : State} {m : Mapper}

/-- An operation that may write own registers, then runs a procedure on the tables. -/
theorem leaves_finish {a : Mapper} {r : ProcResult} (ha : m.SameForeign a) (hr : a.SameButTables r.block) :
    Leaves s m.SameForeign (finish s r) :=
  have h : m.SameForeign r.block := ha.trans (.of_tables hr)
  Leaves.finishWith h (h.trans (.setFaulted ..)) _

/-- An operation that may write own registers and no table. -/
theorem leaves_done {a : Mapper} (ha : m.SameForeign a) (o : Output) :
    Leaves s m.SameForeign (finishWith s o (.done a)) := Leaves.reply ha o

/-- A mapping operation (R120 to R130). -/
theorem leaves_mapping (hm : s.inst = some m) {f : Mapper → ProcResult} (hf : m.SameButTables (f m).block) :
    Leaves s m.SameForeign (withBlock s fun m => finish s (f m)) :=
  Leaves.withBlock hm (leaves_finish (.refl m) hf)

/-- A default write, of the block with own registers written (R142, R145, R228). -/
theorem leaves_write {a : Mapper} (ha : m.SameForeign a) {e : Bank} {intra : Nat} {v : Byte} {o : Output} :
    Leaves s m.SameForeign (withWrite a e intra v fun m' => .next (s.reply m' o)) :=
  Leaves.withWrite (Leaves.reply ha o) fun _ => Leaves.reply (ha.trans (.setStore ..)) o

/-- A default read, of the block with own registers written (R141, R144, R223). -/
theorem leaves_read {a : Mapper} (ha : m.SameForeign a) {e : Bank} {intra : Nat} {o : Byte → Output} :
    Leaves s m.SameForeign (withRead a e intra s.draws fun b d => .next (s.replyDraw a (o b) d)) :=
  Leaves.withRead fun _ _ hd => Leaves.replyDraw ha _ hd

theorem triggerRemap_foreign (hv : m.cfg.variant = .latch) (a : PpuAddr) : m.SameForeign (triggerRemap m a).block := by
  unfold triggerRemap
  split
  · exact (Mapper.SameForeign.setLatch hv _).trans (.of_tables (latchRemap_keeps _))
  · exact .refl m

theorem leaves_restore (hm : s.inst = some m) (buf : List Byte) : Leaves s m.SameForeign (execRestore buf s) :=
  Leaves.withBlock hm <| Leaves.ite
    (fun _ => Leaves.ite (fun _ => Leaves.reply (.of_restored buf m) _) fun _ => Leaves.refused _)
    fun _ => Leaves.raise (.refl m) _

theorem leaves_shiftBit (hm : s.inst = some m) (target : BitVec 2) (bit : Bool) :
    Leaves s m.SameForeign (execShiftBit target bit s) :=
  Leaves.withVariant hm fun hv => Leaves.ite
    (fun _ => leaves_done (.setShift hv _) _)
    fun _ => leaves_finish (.setShift hv _) (shiftRemap_keeps _)

/-- The mirroring writes of `IRQ` and `LATCH` (R216, R248). -/
theorem leaves_mirrorWrite (hm : s.inst = some m) (v : Variant) (mode : Mirroring) :
    Leaves s m.SameForeign (withVariant v s fun m =>
      if m.cfg.mirroring0 = .fourScreen then finish s (.done m) else finish s (setMirror mode m)) :=
  Leaves.withVariant hm fun _ => Leaves.ite (fun _ => leaves_done (.refl m) _)
    fun _ => leaves_finish (.refl m) (setMirror_keeps ..)

/-- A register write of `LATCH` with its remap (R242 to R247). -/
theorem leaves_latchWrite (hm : s.inst = some m) {q : Mapper → LatchRegs} :
    Leaves s m.SameForeign (withVariant .latch s fun m => finish s (latchRemap (m.setLatch (q m)))) :=
  Leaves.withVariant hm fun hv => leaves_finish (.setLatch hv _) (latchRemap_keeps _)

/-- A read of `LATCH` and its trigger, the remap completing or not (R249). -/
theorem leaves_latchRead (hm : s.inst = some m) (a : PpuAddr) : Leaves s m.SameForeign (latchRead a s) :=
  Leaves.withVariant hm fun hv => Leaves.withRead fun b d hd => by
    have ht := triggerRemap_foreign hv a
    cases hr : triggerRemap m a with rw [hr] at ht
    | done m' => exact Leaves.replyDraw ht _ hd
    | violation k m' => exact Leaves.raise (ht.trans (.setFaulted ..)) _

end Operations

/-- Every operation but `POWERON` leaves the waiting transactions, takes at most one draw, and leaves a block with
the same configuration and foreign registers (R6, R25). -/
theorem exec_leaves_sameForeign {s : State} {m : Mapper} (i : Instr) (hm : s.inst = some m)
    (hi : ∀ c, i ≠ .poweron c) : Leaves s m.SameForeign (exec i s) := by
  cases i with
  | poweron c => exact absurd rfl (hi c)
  | tick => exact Leaves.withBlock hm (Leaves.reply (.refl m) _)
  | save => exact Leaves.withBlock hm (Leaves.reply (.refl m) _)
  | restore buf => exact leaves_restore hm buf
  | rdcpu a => exact Leaves.withBlock hm (leaves_read (.refl m))
  | rdppu a => exact Leaves.withBlock hm (leaves_read (.refl m))
  | wrcpu a v => exact Leaves.withBlock hm (leaves_write (.refl m))
  | wrppu a v => exact Leaves.withBlock hm (leaves_write (.refl m))
  -- direct-mapped family
  | uxromSel v => exact Leaves.withVariant hm fun hv => leaves_finish (.setDirect hv (by decide) _) (mapPrg_keeps ..)
  | cnromSel v => exact Leaves.withVariant hm fun hv => leaves_finish (.setDirect hv (by decide) _) (mapChr_keeps ..)
  | axromSel v =>
    exact Leaves.withVariant hm fun hv => leaves_finish (.setDirect hv (by decide) _) <|
      andThen_keeps (mapPrg_keeps ..) fun _ _ => setMirror_keeps ..
  | gxromSel v =>
    exact Leaves.withVariant hm fun hv => leaves_finish (.setDirect hv (by decide) _) <|
      andThen_keeps (mapPrg_keeps ..) fun _ _ => mapChr_keeps ..
  | unrom512Sel v =>
    exact Leaves.withVariant hm fun hv => leaves_finish (.setDirect hv (by decide) _) <|
      andThen_keeps (mapPrg_keeps ..) fun _ _ => andThen_keeps (mapChr_keeps ..) fun _ _ => setMirror_keeps ..
  -- serial-protocol variant
  | shiftReset => exact Leaves.withVariant hm fun hv => leaves_finish (.setShift hv _) (shiftRemap_keeps _)
  | shiftBit target bit => exact leaves_shiftBit hm target bit
  | shiftLdCtrl v => exact Leaves.withVariant hm fun hv => leaves_done (.setShift hv _) _
  | shiftLdChr0 v => exact Leaves.withVariant hm fun hv => leaves_done (.setShift hv _) _
  | shiftLdChr1 v => exact Leaves.withVariant hm fun hv => leaves_done (.setShift hv _) _
  | shiftLdPrg v => exact Leaves.withVariant hm fun hv => leaves_done (.setShift hv _) _
  | shiftRemap => exact Leaves.withVariant hm fun _ => leaves_finish (.refl m) (shiftRemap_keeps m)
  -- scanline-IRQ variant
  | irqBanksel v => exact Leaves.withVariant hm fun hv => leaves_finish (.setIrq hv _) (irqRemap_keeps _)
  | irqBankdata v => exact Leaves.withVariant hm fun hv => leaves_finish (.setIrq hv _) (irqRemap_keeps _)
  | irqMirror h => exact leaves_mirrorWrite hm .irq _
  | irqRamprot => exact Leaves.withVariant hm fun _ => leaves_done (.refl m) _
  | irqReloadval v => exact Leaves.withVariant hm fun hv => leaves_done (.setIrq hv _) _
  | irqReload => exact Leaves.withVariant hm fun hv => leaves_done (.setIrq hv _) _
  | irqDisable => exact Leaves.withVariant hm fun hv => leaves_done (.setIrq hv _) _
  | irqEnable => exact Leaves.withVariant hm fun hv => leaves_done (.setIrq hv _) _
  | irqRdppu a => exact Leaves.withVariant hm fun hv => leaves_read (.setIrq hv _)
  | irqWrppu a v => exact Leaves.withVariant hm fun hv => leaves_write (.setIrq hv _)
  | irqTick => exact Leaves.withVariant hm fun hv => leaves_done (.setIrq hv _) _
  | irqObserve h => exact Leaves.withVariant hm fun hv => leaves_done (.setIrq hv _) _
  | irqClock => exact Leaves.withVariant hm fun hv => leaves_done (.setIrq hv _) _
  | irqRemap => exact Leaves.withVariant hm fun _ => leaves_finish (.refl m) (irqRemap_keeps m)
  -- latch variant
  | latchPrg v => exact leaves_latchWrite hm
  | latchChr0 v => exact leaves_latchWrite hm
  | latchChr1 v => exact leaves_latchWrite hm
  | latchChr2 v => exact leaves_latchWrite hm
  | latchChr3 v => exact leaves_latchWrite hm
  | latchMirror h => exact leaves_mirrorWrite hm .latch _
  | latchRdppu a => exact leaves_latchRead hm a
  | latchTrig0Clr low => exact leaves_latchRead hm _
  | latchTrig0Set low => exact leaves_latchRead hm _
  | latchTrig1Clr low => exact leaves_latchRead hm _
  | latchTrig1Set low => exact leaves_latchRead hm _
  | latchRemap => exact Leaves.withVariant hm fun _ => leaves_finish (.refl m) (latchRemap_keeps m)
  -- mapping operations
  | map t page size absOff ro => exact leaves_mapping hm (mapProc_keeps ..)
  | unmap t page size => exact leaves_mapping hm (unmapProc_keeps ..)
  | mirror t page size stride => exact leaves_mapping hm (mirrorProc_keeps ..)
  | setmirror mode => exact leaves_mapping hm (setMirror_keeps ..)
  | mapcpuram page size bank ro => exact leaves_mapping hm (mapCpuRam_keeps ..)
  | mapppuram page size bank ro => exact leaves_mapping hm (mapPpuRam_keeps ..)
  | mapprg page size bank => exact leaves_mapping hm (mapPrg_keeps ..)
  | mapchr page size bank => exact leaves_mapping hm (mapChr_keeps ..)

/-- Settles O59: what every operation but `POWERON` leaves, with the parts of `SameForeign` written out. -/
theorem foreignRegistersAndConfigurationAreFixed : Obligations.ForeignRegistersAndConfigurationAreFixed := by
  intro s t m i hm hi ht
  obtain ⟨hport, hdraws, m', hm', hc, hs, hq, hl, hd⟩ := exec_leaves_sameForeign i hm hi t ht
  exact ⟨hport, hdraws, m', hm', hc, hs, hq, hl, hd⟩

end Sys2Proof.Machine

/-! ## Construction, the page map and the fault mark (R35 to R38)

A constructed block is `poweredOn`; a block that meets the invariant shows `cpuEntry` and `ppuEntry`. How an operation
ends is told by one predicate, `Ending`, with one rule per combinator of the model and one arm per operation. -/

namespace Sys2Proof.Machine

/-! ### The block of POWERON (R38) -/

/-- The block that `POWERON` of a configuration answers: the filled store, the registers of R38, the tables these
show. -/
abbrev poweredOn (cfg : Cfg) : Mapper := (freshMapper cfg).tabled (shownMode cfg.mirroring0 (freshMapper cfg))

/-- The control register of R38 selects one-screen mirroring (R199). -/
theorem shownMode_freshMapper (cfg : Cfg) : shownMode cfg.mirroring0 (freshMapper cfg) =
    if cfg.variant = .shift then .oneScreenLow else cfg.mirroring0 := by
  have hctrl : ctrlMirroring ShiftRegs.reset.ctrl = .oneScreenLow := by decide
  rw [← hctrl]
  rfl

section Store

variable {cfg : Cfg} (hl : cfg.legal = true)
include hl

theorem read_freshStore_prg {i : Nat} (hi : i < cfg.sizePrg) :
    Memory.read (freshStore cfg.toGeometry) i = imageByte cfg.prg i := by
  rw [read_freshStore hl, if_pos hi]

theorem read_freshStore_chr {i : Nat} (hi : i < cfg.sizeChr) :
    Memory.read (freshStore cfg.toGeometry) (cfg.chrBase + i) =
      match cfg.chr with
      | some c => imageByte c i
      | none => 0#8 := by
  have hbase : cfg.chrBase = cfg.sizePrg := rfl
  have hread := read_freshStore hl (cfg.chrBase + i)
  rw [if_neg (by omega), if_pos (by omega), Nat.add_sub_cancel_left] at hread
  exact hread

/-- The trainer stands 4096 bytes into work RAM (R313). -/
theorem read_freshStore_cpuRam (i : Nat) :
    Memory.read (freshStore cfg.toGeometry) (cfg.cpuRamBase + i) =
      match cfg.trainer with
      | some t =>
        if 10 ≤ cfg.banksCpuRam ∧ 2048 + 4096 ≤ i ∧ i < 2048 + 4096 + 512 then imageByte t (i - (2048 + 4096))
        else 0#8
      | none => 0#8 := by
  have hbase : cfg.cpuRamBase = cfg.sizePrg + cfg.sizeChr := rfl
  rw [read_freshStore hl, if_neg (by omega), if_neg (by omega)]
  cases cfg.trainer with
  | none => rfl
  | some t =>
    have hidx : cfg.cpuRamBase + i - (cfg.cpuRamBase + 2048 + 4096) = i - (2048 + 4096) := by omega
    simp only [hidx]
    exact ite_congr (propext (by omega)) (fun _ => rfl) fun _ => rfl

/-- No payload reaches PPU RAM: the trainer ends inside CPU RAM (R313). -/
theorem read_freshStore_ppuRam (i : Nat) :
    Memory.read (freshStore cfg.toGeometry) (cfg.ppuRamBase + i) = 0#8 := by
  have hbase : cfg.ppuRamBase = cfg.cpuRamBase + 1024 * cfg.banksCpuRam := rfl
  rw [hbase, Nat.add_assoc, read_freshStore_cpuRam hl]
  cases cfg.trainer with
  | none => rfl
  | some t => exact if_neg (by omega)

end Store

/-- Settles O8: the fields of `poweredOn`, the store region by region, the tables as `tabled` shows them. -/
theorem powerOnConstructsTheBlock : Obligations.PowerOnConstructsTheBlock := by
  intro s cfg hl hlive
  have hshows := Mapper.tabled_shows (shownMode cfg.mirroring0 (freshMapper cfg)) (freshMapper cfg)
  refine ⟨poweredOn cfg, poweron_done hl hlive, rfl, rfl, rfl, rfl, rfl, rfl,
    fun i hi => read_freshStore_prg hl hi, fun i hi => read_freshStore_chr hl hi,
    fun i _ => read_freshStore_cpuRam hl i, fun i _ => read_freshStore_ppuRam hl i,
    freshStore_wf _, freshStore_below hl, fun p => hshows.cpu p.val p.isLt, fun p => ?_⟩
  rw [← shownMode_freshMapper]
  exact hshows.ppu p.val p.isLt

/-! ### The page map (R71, R72) -/

section Entries

variable {m : Mapper} {p : Nat}

theorem cpuEntry_systemRam (h : p < 8) : cpuEntry m p =
    if 2 ≤ m.cfg.banksCpuRam then ⟨m.cfg.cpuRamBase + 1024 * (p % 2), false, true⟩ else Bank.unmapped := by
  rw [cpuEntry, if_pos h]

theorem cpuEntry_openBus (h8 : 8 ≤ p) (h24 : p < 24) : cpuEntry m p = Bank.unmapped := by
  rw [cpuEntry, if_neg (by omega), if_pos h24]

theorem cpuEntry_workRam (h24 : 24 ≤ p) (h32 : p < 32) : cpuEntry m p =
    if 10 ≤ m.cfg.banksCpuRam then ⟨m.cfg.cpuRamBase + 1024 * (2 + (p - 24)), false, true⟩ else Bank.unmapped := by
  have hoff : m.cfg.cpuRamBase + 1024 * (2 + (p - 24)) = m.cfg.cpuRamBase + 2048 + 1024 * (p - 24) := by omega
  rw [cpuEntry, if_neg (by omega), if_neg (by omega), if_pos h32, hoff]

/-- A PRG page is read-only and inside the PRG region. -/
theorem cpuEntry_inPrg (hl : m.cfg.legal = true) (hr : m.regsLegal = true) (h32 : 32 ≤ p) (h64 : p < 64) :
    (cpuEntry m p).mapped = true ∧ (cpuEntry m p).ro = true ∧ (cpuEntry m p).off + 1024 ≤ m.cfg.sizePrg := by
  have hsize : m.cfg.sizePrg = 1024 * m.cfg.banksPrg := rfl
  have hbank := shownPrg_lt hl hr p h32 h64
  rw [cpuEntry_prg m p h32]
  refine ⟨rfl, rfl, ?_⟩
  dsimp only
  omega

/-- A CHR page is inside the CHR region, and read-only exactly when CHR is ROM. -/
theorem ppuEntry_inChr (mode : Mirroring) (hl : m.cfg.legal = true) (hr : m.regsLegal = true) (h8 : p < 8) :
    (ppuEntry mode m p).mapped = true ∧ (ppuEntry mode m p).ro = m.cfg.chrReadOnly ∧
      m.cfg.chrBase ≤ (ppuEntry mode m p).off ∧ (ppuEntry mode m p).off + 1024 ≤ m.cfg.cpuRamBase := by
  have hbase : m.cfg.cpuRamBase = m.cfg.chrBase + 1024 * m.cfg.banksChr := rfl
  have hbank := shownChr_lt hl hr p h8
  rw [ppuEntry_chr mode m p h8]
  refine ⟨rfl, rfl, ?_, ?_⟩ <;> dsimp only <;> omega

end Entries

/-- Settles O57: a block that meets the invariant shows its registers in one mirroring mode, so each page is the entry
`cpuEntry` or `ppuEntry` gives. -/
theorem invariantGivesThePageMap : Obligations.InvariantGivesThePageMap := by
  intro m h
  obtain ⟨mode, -, hs⟩ := h.shows
  have hcpu : ∀ p : Fin 64, m.cputab[p] = cpuEntry m p.val := fun p => hs.cpu p.val p.isLt
  have hppu : ∀ p : Fin 16, m.pputab[p] = ppuEntry (shownMode mode m) m p.val := fun p => hs.ppu p.val p.isLt
  refine ⟨fun p hp => ?_, fun p _ => ?_, fun p h8 => ?_, fun p h8 h24 => ?_, fun p h24 h32 => ?_, fun p h32 => ?_,
    fun p h8 => ?_, shownMode mode m, fun p h8 => ?_⟩
  · obtain ⟨hin, halign, -⟩ := h.cpuBank p.val p.isLt hp
    exact ⟨hin, halign⟩
  · obtain ⟨-, hin, halign, -⟩ := h.ppuBank p.val p.isLt
    exact ⟨hin, halign⟩
  · rw [hcpu, cpuEntry_systemRam h8]
    rfl
  · rw [hcpu, cpuEntry_openBus h8 h24]
    rfl
  · rw [hcpu, cpuEntry_workRam h24 h32]
    rfl
  · rw [hcpu]
    exact cpuEntry_inPrg h.legal h.regs h32 p.isLt
  · rw [hppu]
    exact ppuEntry_inChr _ h.legal h.regs h8
  · rw [hppu, ppuEntry_nametable _ _ _ h8]
    cases shownMode mode m with
    | vertical => simp only [shownNametable, Nat.mod_mod_of_dvd p.val (show 2 ∣ 4 by decide)]
    | horizontal | oneScreenLow | oneScreenHigh | fourScreen => rfl

/-! ### How an operation ends (R36, R281 to R285) -/

/-- The four ways an operation on `s` ends that answers: it completes without an error, it takes a ContractViolation
(R282), a ConfigError (R281) or a RestoreSizeMismatch (R285). -/
inductive Ending (s : State) : State → Prop
  | completed {m : Mapper} {o : Output} (d : Nat) (hm : m.faulted = false) (ho : o.error = none) :
    Ending s (s.replyDraw m o d)
  | violated (m : Mapper) (kind : Bounds) : Ending s (s.raiseContract m kind)
  | rejected (e : ConfigError) : Ending s (s.raise none (.config e))
  | mismatched {m : Mapper} (hm : s.Live m) (got want : Nat) : Ending s (s.raise (some m) (.restoreSize got want))

/-- When the outcome of an operation on `s` is a next state, it is one of the four endings. -/
def Ends (s : State) (o : Host.Outcome State Fault Refusal) : Prop := ∀ t, o = .next t → Ending s t

section Rules

variable {s : State} {m : Mapper}

theorem Ending.ends {t : State} (h : Ending s t) : Ends s (.next t) := by
  rintro _ ⟨⟩
  exact h

theorem Ends.fault (r : Fault) : Ends s (.fault r) := fun _ h => by cases h

theorem Ends.refused (r : Refusal) : Ends s (.refused r) := fun _ h => by cases h

theorem Ends.replyDraw {o : Output} (d : Nat) (hm : m.faulted = false) (ho : o.error = none) :
    Ends s (.next (s.replyDraw m o d)) := (Ending.completed d hm ho).ends

theorem Ends.reply {o : Output} (hm : m.faulted = false) (ho : o.error = none) : Ends s (.next (s.reply m o)) :=
  Ends.replyDraw s.draws hm ho

theorem Ends.ite {c : Prop} [Decidable c] {o o' : Host.Outcome State Fault Refusal} (h : Ends s o) (h' : Ends s o') :
    Ends s (if c then o else o') := by
  split
  · exact h
  · exact h'

/-- A procedure that writes tables alone leaves the fault mark; a violation sets it (R132, R282). -/
theorem Ends.finish {r : ProcResult} (hr : m.SameButTables r.block) (hm : m.faulted = false) : Ends s (finish s r) := by
  cases r with
  | done a => exact Ends.reply (hr.faulted.trans hm) rfl
  | violation kind a => exact (Ending.violated a kind).ends

theorem Ends.withBlock {k : Mapper → Host.Outcome State Fault Refusal} (hk : ∀ m, s.Live m → Ends s (k m)) :
    Ends s (withBlock s k) := fun t ht => by
  obtain ⟨m, hm, hk'⟩ := withBlock_next ht
  exact hk m hm t hk'

theorem Ends.withVariant {v : Variant} {k : Mapper → Host.Outcome State Fault Refusal}
    (hk : ∀ m, m.faulted = false → Ends s (k m)) : Ends s (withVariant v s k) :=
  Ends.withBlock fun m hm => Ends.ite (hk m hm.2) (Ends.refused _)

theorem Ends.withRead {e : Bank} {intra : Nat} {k : Byte → Nat → Host.Outcome State Fault Refusal}
    (hk : ∀ b d, Ends s (k b d)) : Ends s (withRead m e intra s.draws k) := by
  rcases withRead_cases m e intra s.draws k with ⟨-, -, h⟩ | ⟨-, h⟩ | ⟨-, -, h⟩ <;> rw [h]
  · exact hk _ _
  · exact hk _ _
  · exact Ends.fault _

theorem Ends.withWrite {e : Bank} {intra : Nat} {v : Byte} {o : Output} (hm : m.faulted = false) (ho : o.error = none) :
    Ends s (withWrite m e intra v fun m' => .next (s.reply m' o)) := by
  rcases withWrite_cases m e intra v fun m' => .next (s.reply m' o) with ⟨-, h⟩ | ⟨-, -, -, h⟩ | ⟨-, -, -, h⟩ <;> rw [h]
  · exact Ends.reply hm ho
  · exact Ends.reply hm ho
  · exact Ends.fault _

end Rules

/-! ### How the operations end -/

theorem withRegsAt_faulted (buf : List Byte) (i : Nat) (m : Mapper) : (withRegsAt buf i m).faulted = m.faulted := by
  unfold withRegsAt
  split <;> rfl

section Operations

variable {s : State} {m : Mapper}

/-- A mapping operation (R120 to R130). -/
theorem ends_mapping {f : Mapper → ProcResult} (hf : ∀ m : Mapper, m.SameButTables (f m).block) :
    Ends s (withBlock s fun m => finish s (f m)) :=
  Ends.withBlock fun m hm => Ends.finish (hf m) hm.2

/-- A default read, of the block with own registers written (R141, R144, R223). -/
theorem ends_read {e : Bank} {intra : Nat} {o : Byte → Output} (hm : m.faulted = false) (ho : ∀ b, (o b).error = none) :
    Ends s (withRead m e intra s.draws fun b d => .next (s.replyDraw m (o b) d)) :=
  Ends.withRead fun b d => Ends.replyDraw d hm (ho b)

/-- An operation of a variant that writes registers and no table. -/
theorem ends_registers {v : Variant} {f : Mapper → Mapper} {o : Mapper → Output}
    (hf : ∀ m, (f m).faulted = m.faulted) (ho : ∀ m, (o m).error = none) :
    Ends s (withVariant v s fun m => finishWith s (o m) (.done (f m))) :=
  Ends.withVariant fun m hm => Ends.reply ((hf m).trans hm) (ho m)

/-- An operation of a variant that writes registers, then runs a procedure on the tables. -/
theorem ends_remap {v : Variant} {f : Mapper → Mapper} {r : Mapper → ProcResult}
    (hr : ∀ m, (f m).SameButTables (r m).block) (hf : ∀ m, (f m).faulted = m.faulted) :
    Ends s (withVariant v s fun m => finish s (r m)) :=
  Ends.withVariant fun m hm => Ends.finish (hr m) ((hf m).trans hm)

theorem ends_poweron (c : CfgIn) : Ends s (execPoweron c s) := by
  have hconstruct : Ends s (match checkCfg c with
      | .error e => .next (s.raise none (.config e))
      | .ok cfg => finish s (powerOn cfg)) := by
    cases hc : checkCfg c with
    | error e => exact (Ending.rejected e).ends
    | ok cfg =>
      dsimp only
      rw [powerOn_done (checkCfg_ok.mp hc).2.2]
      exact Ends.reply rfl rfl
  unfold execPoweron
  cases s.inst with
  | none => exact hconstruct
  | some m => exact Ends.ite (Ends.fault _) hconstruct

theorem ends_restore (buf : List Byte) : Ends s (execRestore buf s) :=
  Ends.withBlock fun _ hm => Ends.ite
    (Ends.ite (Ends.reply ((withRegsAt_faulted ..).trans hm.2) rfl) (Ends.refused _))
    (Ending.mismatched hm _ _).ends

/-- The mirroring writes of `IRQ` and `LATCH` (R216, R248). -/
theorem ends_mirrorWrite (v : Variant) (mode : Mirroring) :
    Ends s (withVariant v s fun m =>
      if m.cfg.mirroring0 = .fourScreen then finish s (.done m) else finish s (setMirror mode m)) :=
  Ends.withVariant fun m hm => Ends.ite (Ends.reply hm rfl) (Ends.finish (setMirror_keeps mode m) hm)

/-- A register write of `LATCH` with its remap (R242 to R247). -/
theorem ends_latchWrite {q : Mapper → LatchRegs} :
    Ends s (withVariant .latch s fun m => finish s (latchRemap (m.setLatch (q m)))) :=
  ends_remap (fun _ => latchRemap_keeps _) fun _ => rfl

/-- A read of `LATCH` and its trigger, the remap completing or not (R249). -/
theorem ends_latchRead (a : PpuAddr) : Ends s (latchRead a s) :=
  Ends.withVariant fun m hm => Ends.withRead fun b d => by
    have htrigger : ∃ q, (m.setLatch q).SameButTables (triggerRemap m a).block := by
      unfold triggerRemap
      split
      · exact ⟨_, latchRemap_keeps _⟩
      · exact ⟨m.latch, .refl m⟩
    obtain ⟨q, hq⟩ := htrigger
    cases hr : triggerRemap m a with rw [hr] at hq
    | done a' => exact Ends.replyDraw d (hq.faulted.trans hm) rfl
    | violation kind a' => exact (Ending.violated a' kind).ends

end Operations

/-- Every operation that answers ends in one of the four ways. -/
theorem exec_ends (i : Instr) (s : State) : Ends s (exec i s) := by
  cases i with
  | poweron c => exact ends_poweron c
  | tick => exact Ends.withBlock fun m hm => Ends.reply hm.2 rfl
  | save => exact Ends.withBlock fun m hm => Ends.reply hm.2 rfl
  | restore buf => exact ends_restore buf
  | rdcpu a => exact Ends.withBlock fun m hm => ends_read hm.2 fun _ => rfl
  | rdppu a => exact Ends.withBlock fun m hm => ends_read hm.2 fun _ => rfl
  | wrcpu a v => exact Ends.withBlock fun m hm => Ends.withWrite hm.2 rfl
  | wrppu a v => exact Ends.withBlock fun m hm => Ends.withWrite hm.2 rfl
  -- direct-mapped family
  | uxromSel v => exact ends_remap (fun _ => mapPrg_keeps ..) fun _ => rfl
  | cnromSel v => exact ends_remap (fun _ => mapChr_keeps ..) fun _ => rfl
  | axromSel v =>
    exact ends_remap (fun _ => andThen_keeps (mapPrg_keeps ..) fun _ _ => setMirror_keeps ..) fun _ => rfl
  | gxromSel v =>
    exact ends_remap (fun _ => andThen_keeps (mapPrg_keeps ..) fun _ _ => mapChr_keeps ..) fun _ => rfl
  | unrom512Sel v =>
    exact ends_remap (fun _ => andThen_keeps (mapPrg_keeps ..) fun _ _ =>
      andThen_keeps (mapChr_keeps ..) fun _ _ => setMirror_keeps ..) fun _ => rfl
  -- serial-protocol variant
  | shiftReset => exact ends_remap (fun _ => shiftRemap_keeps _) fun _ => rfl
  | shiftBit target bit =>
    exact Ends.withVariant fun m hm => Ends.ite (Ends.reply (m := m.setShift _) hm rfl)
      (Ends.finish (shiftRemap_keeps _) hm)
  | shiftLdCtrl v => exact ends_registers (fun _ => rfl) fun _ => rfl
  | shiftLdChr0 v => exact ends_registers (fun _ => rfl) fun _ => rfl
  | shiftLdChr1 v => exact ends_registers (fun _ => rfl) fun _ => rfl
  | shiftLdPrg v => exact ends_registers (fun _ => rfl) fun _ => rfl
  | shiftRemap => exact ends_remap shiftRemap_keeps fun _ => rfl
  -- scanline-IRQ variant
  | irqBanksel v => exact ends_remap (fun _ => irqRemap_keeps _) fun _ => rfl
  | irqBankdata v => exact ends_remap (fun _ => irqRemap_keeps _) fun _ => rfl
  | irqMirror h => exact ends_mirrorWrite .irq _
  | irqRamprot => exact ends_registers (fun _ => rfl) fun _ => rfl
  | irqReloadval v => exact ends_registers (fun _ => rfl) fun _ => rfl
  | irqReload => exact ends_registers (fun _ => rfl) fun _ => rfl
  | irqDisable => exact ends_registers (fun _ => rfl) fun _ => rfl
  | irqEnable => exact ends_registers (fun _ => rfl) fun _ => rfl
  | irqRdppu a => exact Ends.withVariant fun m hm => ends_read hm fun _ => rfl
  | irqWrppu a v => exact Ends.withVariant fun m hm => Ends.withWrite hm rfl
  | irqTick => exact ends_registers (fun _ => rfl) fun _ => rfl
  | irqObserve h => exact ends_registers (fun _ => rfl) fun _ => rfl
  | irqClock => exact ends_registers (fun _ => rfl) fun _ => rfl
  | irqRemap => exact ends_remap irqRemap_keeps fun _ => rfl
  -- latch variant
  | latchPrg v => exact ends_latchWrite
  | latchChr0 v => exact ends_latchWrite
  | latchChr1 v => exact ends_latchWrite
  | latchChr2 v => exact ends_latchWrite
  | latchChr3 v => exact ends_latchWrite
  | latchMirror h => exact ends_mirrorWrite .latch _
  | latchRdppu a => exact ends_latchRead a
  | latchTrig0Clr low => exact ends_latchRead _
  | latchTrig0Set low => exact ends_latchRead _
  | latchTrig1Clr low => exact ends_latchRead _
  | latchTrig1Set low => exact ends_latchRead _
  | latchRemap => exact ends_remap latchRemap_keeps fun _ => rfl
  -- mapping operations
  | map t page size absOff ro => exact ends_mapping fun _ => mapProc_keeps ..
  | unmap t page size => exact ends_mapping fun _ => unmapProc_keeps ..
  | mirror t page size stride => exact ends_mapping fun _ => mirrorProc_keeps ..
  | setmirror mode => exact ends_mapping fun _ => setMirror_keeps ..
  | mapcpuram page size bank ro => exact ends_mapping fun _ => mapCpuRam_keeps ..
  | mapppuram page size bank ro => exact ends_mapping fun _ => mapPpuRam_keeps ..
  | mapprg page size bank => exact ends_mapping fun _ => mapPrg_keeps ..
  | mapchr page size bank => exact ends_mapping fun _ => mapChr_keeps ..

/-! ### A block whose fault mark is set (R36) -/

theorem withBlock_faulted {s : State} {m : Mapper} (hm : s.inst = some m) (hf : m.faulted = true)
    (k : Mapper → Host.Outcome State Fault Refusal) : withBlock s k = .fault .faultedBlock := by
  simp [withBlock, hm, hf]

theorem execPoweron_faulted {s : State} {m : Mapper} (hm : s.inst = some m) (hf : m.faulted = true) (c : CfgIn) :
    execPoweron c s = .fault .faultedBlock := by
  simp [execPoweron, hm, hf]

/-- Every operation but `POWERON` acts on the constructed block (U6). -/
theorem exec_eq_withBlock (i : Instr) (s : State) (hi : ∀ c, i ≠ .poweron c) : ∃ k, exec i s = withBlock s k := by
  cases i
  case poweron c => exact absurd rfl (hi c)
  all_goals exact ⟨_, rfl⟩

theorem exec_faulted {s : State} {m : Mapper} (i : Instr) (hm : s.inst = some m) (hf : m.faulted = true) :
    exec i s = .fault .faultedBlock := by
  by_cases hi : ∃ c, i = .poweron c
  · obtain ⟨c, rfl⟩ := hi
    exact execPoweron_faulted hm hf c
  · obtain ⟨k, hk⟩ := exec_eq_withBlock i s fun c hc => hi ⟨c, hc⟩
    rw [hk, withBlock_faulted hm hf]

/-! ### What each ending leaves -/

section Endings

variable {s t : State} (h : Ending s t)
include h

theorem Ending.faulted_iff :
    (∃ m, t.inst = some m ∧ m.faulted = true) ↔ ∃ kind, t.out.error = some (.contract kind) := by
  cases h with
  | completed d hm ho => simp [hm, ho]
  | violated m kind => simp
  | rejected e => simp
  | mismatched hm got want => simp [hm.2]

theorem Ending.config {e : ConfigError} (he : t.out.error = some (.config e)) : t.inst = none := by
  cases h with
  | completed d hm ho => simp [ho] at he
  | violated m kind => simp at he
  | rejected e => rfl
  | mismatched hm got want => simp at he

theorem Ending.restoreSize {got want : Nat} (he : t.out.error = some (.restoreSize got want)) : t.inst = s.inst := by
  cases h with
  | completed d hm ho => simp [ho] at he
  | violated m kind => simp at he
  | rejected e => simp at he
  | mismatched hm got want => exact hm.1.symm

end Endings

/-- Settles O13: a faulted block stops every operation, and an operation that answers ends in one of the four ways of
`Ending`, each of which tells the fault mark and the block left. -/
theorem faultMarkIsTerminal : Obligations.FaultMarkIsTerminal :=
  ⟨fun _ _ i hm hf => exec_faulted i hm hf, fun s t i ht => (exec_ends i s t ht).faulted_iff,
    fun s t i _ ht => (exec_ends i s t ht).config, fun s t i _ _ ht => (exec_ends i s t ht).restoreSize⟩

end Sys2Proof.Machine

/-! ## Pages that name the same bytes (R83)

A write stores at the descriptor's offset plus the low ten address bits and a read takes its byte there, so two accesses
with equal offsets and equal low bits meet in one byte of the store. Mirroring gives two nametable pages the same
offset. -/

namespace Sys2Proof.Machine

/-! ### The model's address fields, in arithmetic (R14) -/

theorem cpuPage_val (a : CpuAddr) : (cpuPage a).val = a.toNat / 1024 := by
  have := a.isLt
  simp only [cpuPage, BitVec.val_toFin, BitVec.extractLsb'_toNat, Nat.shiftRight_eq_div_pow]
  omega

theorem ppuPage_val (a : PpuAddr) : (ppuPage a).val = a.toNat / 1024 := by
  have := a.isLt
  simp only [ppuPage, BitVec.val_toFin, BitVec.extractLsb'_toNat, Nat.shiftRight_eq_div_pow]
  omega

theorem cpuIntra_eq (a : CpuAddr) : cpuIntra a = a.toNat % 1024 := by
  simp [cpuIntra, BitVec.extractLsb'_toNat]

theorem ppuIntra_eq (a : PpuAddr) : ppuIntra a = a.toNat % 1024 := by
  simp [ppuIntra, BitVec.extractLsb'_toNat]

theorem cpuBank_eq (m : Mapper) (a : CpuAddr) : cpuBank m a = m.cpuPageAt a := by
  simp only [cpuBank, Mapper.cpuPageAt, Fin.getElem_fin, cpuPage_val]

theorem ppuBank_eq (m : Mapper) (a : PpuAddr) : ppuBank m a = m.ppuPageAt a := by
  simp only [ppuBank, Mapper.ppuPageAt, Fin.getElem_fin, ppuPage_val]

/-! ### Accesses of a page that complete (R141, R142, R144, R145) -/

section Accesses

variable {s t : State} {m : Mapper}

/-- A write of a mapped writable page that answers has stored its byte. -/
theorem withWrite_writable_next {e : Bank} {intra : Nat} {v : Byte}
    {k : Mapper → Host.Outcome State Fault Refusal} (he : e.mapped = true) (hr : e.ro = false)
    (h : withWrite m e intra v k = .next t) :
    k (m.setStore (Memory.write m.store (e.off + intra) v)) = .next t := by
  rcases withWrite_cases m e intra v k with ⟨hd, -⟩ | ⟨-, -, -, hw⟩ | ⟨-, -, -, hw⟩
  · simp [he, hr] at hd
  · exact hw.symm.trans h
  · simp [hw] at h

/-- A read of a mapped page that answers has returned the store byte. -/
theorem withRead_mapped_next {e : Bank} {intra draws : Nat} {k : Byte → Nat → Host.Outcome State Fault Refusal}
    (he : e.mapped = true) (h : withRead m e intra draws k = .next t) :
    k (Memory.read m.store (e.off + intra)) draws = .next t := by
  rcases withRead_cases m e intra draws k with ⟨-, -, hk⟩ | ⟨hu, -⟩ | ⟨-, -, hk⟩
  · exact hk.symm.trans h
  · simp [he] at hu
  · simp [hk] at h

theorem wrcpu_writable_next {a : CpuAddr} {v : Byte} (hm : s.Live m) (he : (m.cpuPageAt a).mapped = true)
    (hr : (m.cpuPageAt a).ro = false) (h : exec (.wrcpu a v) s = .next t) :
    t = s.reply (m.setStore (Memory.write m.store ((m.cpuPageAt a).off + a.toNat % 1024) v)) Output.quiet := by
  have hw := (withBlock_live hm _).symm.trans h
  rw [cpuBank_eq, cpuIntra_eq] at hw
  exact (Host.Outcome.next.inj (withWrite_writable_next he hr hw)).symm

theorem wrppu_writable_next {a : PpuAddr} {v : Byte} (hm : s.Live m) (he : (m.ppuPageAt a).mapped = true)
    (hr : (m.ppuPageAt a).ro = false) (h : exec (.wrppu a v) s = .next t) :
    t = s.reply (m.setStore (Memory.write m.store ((m.ppuPageAt a).off + a.toNat % 1024) v)) Output.quiet := by
  have hw := (withBlock_live hm _).symm.trans h
  rw [ppuWrite, ppuBank_eq, ppuIntra_eq] at hw
  exact (Host.Outcome.next.inj (withWrite_writable_next he hr hw)).symm

theorem rdcpu_mapped_data {a : CpuAddr} (hm : s.Live m) (he : (m.cpuPageAt a).mapped = true)
    (h : exec (.rdcpu a) s = .next t) :
    t.out.data = some (Memory.read m.store ((m.cpuPageAt a).off + a.toNat % 1024)) := by
  have hr := (withBlock_live hm _).symm.trans h
  rw [cpuRead, cpuBank_eq, cpuIntra_eq] at hr
  obtain rfl := Host.Outcome.next.inj (withRead_mapped_next he hr)
  rfl

theorem rdppu_mapped_data {a : PpuAddr} (hm : s.Live m) (he : (m.ppuPageAt a).mapped = true)
    (h : exec (.rdppu a) s = .next t) :
    t.out.data = some (Memory.read m.store ((m.ppuPageAt a).off + a.toNat % 1024)) := by
  have hr := (withBlock_live hm _).symm.trans h
  rw [ppuRead, ppuBank_eq, ppuIntra_eq] at hr
  obtain rfl := Host.Outcome.next.inj (withRead_mapped_next he hr)
  rfl

end Accesses

/-! ### A write, then a read through a page with the same offset -/

section SharedBytes

variable {s t u : State} {m : Mapper} {v : Byte}

theorem State.Live.reply_setStore (hm : s.Live m) (st : Memory) (o : Output) :
    (s.reply (m.setStore st) o).Live (m.setStore st) := by
  obtain ⟨-, hf⟩ := hm
  exact ⟨rfl, hf⟩

@[simp] theorem Mapper.setStore_cpuPageAt (m : Mapper) (st : Memory) (a : CpuAddr) :
    (m.setStore st).cpuPageAt a = m.cpuPageAt a := rfl

@[simp] theorem Mapper.setStore_ppuPageAt (m : Mapper) (st : Memory) (a : PpuAddr) :
    (m.setStore st).ppuPageAt a = m.ppuPageAt a := rfl

theorem Memory.read_write_same {st : Memory} (hw : Memory.wf st = true) (i : Nat) (v : Byte) :
    Memory.read (Memory.write st i v) i = v := by
  rw [Memory.read_write st i v i hw, if_pos rfl]

theorem rdcpu_after_wrcpu {a b : CpuAddr} (hm : s.Live m) (hw : Memory.wf m.store = true)
    (hwr : exec (.wrcpu a v) s = .next t) (he : (m.cpuPageAt a).mapped = true) (hr : (m.cpuPageAt a).ro = false)
    (hb : (m.cpuPageAt b).mapped = true) (hoff : (m.cpuPageAt b).off = (m.cpuPageAt a).off)
    (hlow : a.toNat % 1024 = b.toNat % 1024) (hrd : exec (.rdcpu b) t = .next u) : u.out.data = some v := by
  obtain rfl := wrcpu_writable_next hm he hr hwr
  rw [rdcpu_mapped_data (hm.reply_setStore _ _) (by simpa using hb) hrd, Mapper.setStore_cpuPageAt,
    Mapper.setStore_store, hoff, ← hlow, Memory.read_write_same hw]

theorem rdppu_after_wrppu {a b : PpuAddr} (hm : s.Live m) (hw : Memory.wf m.store = true)
    (hwr : exec (.wrppu a v) s = .next t) (he : (m.ppuPageAt a).mapped = true) (hr : (m.ppuPageAt a).ro = false)
    (hb : (m.ppuPageAt b).mapped = true) (hoff : (m.ppuPageAt b).off = (m.ppuPageAt a).off)
    (hlow : a.toNat % 1024 = b.toNat % 1024) (hrd : exec (.rdppu b) t = .next u) : u.out.data = some v := by
  obtain rfl := wrppu_writable_next hm he hr hwr
  rw [rdppu_mapped_data (hm.reply_setStore _ _) (by simpa using hb) hrd, Mapper.setStore_ppuPageAt,
    Mapper.setStore_store, hoff, ← hlow, Memory.read_write_same hw]

end SharedBytes

/-! ### Nametable pages that mirroring shares (R126) -/

theorem setmirror_live {s : State} {m : Mapper} {mode : Mirroring} (hm : s.Live m)
    (hb : modeBanks mode ≤ m.cfg.banksPpuRam) :
    exec (.setmirror mode) s = .next (s.reply (m.showing mode) Output.quiet) := by
  refine (withBlock_live hm _).trans ?_
  rw [setMirror_done hb, finish_done]

theorem Mapper.showing_ppuPageAt_nametable (mode : Mirroring) (m : Mapper) {a : PpuAddr} (ha : 0x2000 ≤ a.toNat) :
    (m.showing mode).ppuPageAt a =
      ⟨m.cfg.ppuRamBase + 1024 * shownNametable mode (a.toNat / 1024 % 4), false, true⟩ := by
  have h8 : 8 ≤ a.toNat / 1024 := by omega
  simp only [Mapper.ppuPageAt, Mapper.showing, Vector.getElem_ofFn, if_neg (Nat.not_lt.mpr h8)]
  exact ppuEntry_nametable mode m _ h8

/-- Two nametable addresses share a byte under `mode`: the same low ten bits, in pages that show the same bank. -/
def SharesNametable (mode : Mirroring) (a b : Nat) : Prop :=
  0x2000 ≤ a ∧ 0x2000 ≤ b ∧ a % 1024 = b % 1024 ∧
    shownNametable mode (a / 1024 % 4) = shownNametable mode (b / 1024 % 4)

theorem SharesNametable.symm {mode : Mirroring} {a b : Nat} (h : SharesNametable mode a b) :
    SharesNametable mode b a := by
  obtain ⟨ha, hb, hlow, hbank⟩ := h
  exact ⟨hb, ha, hlow.symm, hbank.symm⟩

theorem sharesNametable_vertical {x : Nat} : SharesNametable .vertical (0x2000 + x) (0x2000 + x + 0x800) := by
  refine ⟨by omega, by omega, by omega, ?_⟩
  simp only [shownNametable]
  omega

theorem sharesNametable_horizontal {half x : Nat} (hx : x < 0x400) :
    SharesNametable .horizontal (0x2000 + 0x800 * half + x) (0x2000 + 0x800 * half + x + 0x400) := by
  refine ⟨by omega, by omega, by omega, ?_⟩
  simp only [shownNametable]
  omega

/-- After `SETMIRROR` a byte written at one of two addresses that share it is read at the other. -/
theorem rdppu_after_wrppu_mirrored {s t u w : State} {m : Mapper} {mode : Mirroring} {a b : Nat} {v : Byte}
    (hm : s.Live m) (hset : exec (.setmirror mode) s = .next t) (hbanks : modeBanks mode ≤ m.cfg.banksPpuRam)
    (hw : Memory.wf m.store = true) (ha : a < 2 ^ 14) (hb : b < 2 ^ 14) (hab : SharesNametable mode a b)
    (hwr : exec (.wrppu (BitVec.ofNat 14 a) v) t = .next u) (hrd : exec (.rdppu (BitVec.ofNat 14 b)) u = .next w) :
    w.out.data = some v := by
  obtain rfl := Host.Outcome.next.inj ((setmirror_live hm hbanks).symm.trans hset)
  obtain ⟨hlow, hhigh, hintra, hbank⟩ := hab
  have hna : (BitVec.ofNat 14 a).toNat = a := Nat.mod_eq_of_lt ha
  have hnb : (BitVec.ofNat 14 b).toNat = b := Nat.mod_eq_of_lt hb
  have hpa := m.showing_ppuPageAt_nametable mode (a := BitVec.ofNat 14 a) (by rwa [hna])
  have hpb := m.showing_ppuPageAt_nametable mode (a := BitVec.ofNat 14 b) (by rwa [hnb])
  have hlive : (s.reply (m.showing mode) Output.quiet).Live (m.showing mode) := ⟨rfl, hm.2⟩
  refine rdppu_after_wrppu hlive hw hwr ?_ ?_ ?_ ?_ ?_ hrd
  · rw [hpa]
  · rw [hpa]
  · rw [hpb]
  · rw [hpa, hpb, hna, hnb, hbank]
  · rw [hna, hnb, hintra]

/-- Settles O24: an access is a store offset, and aliased pages, those `SETMIRROR` sets among them, have one offset. -/
theorem aliasedPagesShareBytes : Obligations.AliasedPagesShareBytes := by
  refine ⟨fun s t u m a b v => rdcpu_after_wrcpu, fun s t u m a b v => rdppu_after_wrppu,
    fun s t u w m x v hm hbanks hw hset hx => ?_, fun s t u w m half x v hm hbanks hw hset hhalf hx => ?_⟩
  · have hshare : SharesNametable .vertical (0x2000 + x) (0x2000 + x + 0x800) := sharesNametable_vertical
    exact ⟨rdppu_after_wrppu_mirrored hm hset hbanks hw (by omega) (by omega) hshare,
      rdppu_after_wrppu_mirrored hm hset hbanks hw (by omega) (by omega) hshare.symm⟩
  · have hshare : SharesNametable .horizontal (0x2000 + 0x800 * half + x) (0x2000 + 0x800 * half + x + 0x400) :=
      sharesNametable_horizontal hx
    exact ⟨rdppu_after_wrppu_mirrored hm hset hbanks hw (by omega) (by omega) hshare,
      rdppu_after_wrppu_mirrored hm hset hbanks hw (by omega) (by omega) hshare.symm⟩

end Sys2Proof.Machine

/-! ## What decode answers and refuses (R100 to R103) -/

namespace Sys2Proof

/-! ### Decode, by the kind of the word -/

theorem kind_cases (k : BitVec 3) :
    k = 0#3 ∨ k = 1#3 ∨ k = 2#3 ∨ k = 3#3 ∨ k = 4#3 ∨ k = 5#3 ∨ k = 6#3 ∨ k = 7#3 := by
  revert k
  decide

/-- The operation decode answers, one case for each kind code of R102. -/
theorem decode_ok_cases {v : Variant} {t : Txn} {i : Instr} (h : decode v t = .ok i) :
    (wordKind t.word = 0#3 ∧ i = decodeTick v) ∨
    (wordKind t.word = 1#3 ∧ i = .rdcpu (wordAddr t.word)) ∨
    (wordKind t.word = 2#3 ∧ i = decodeWrcpu v (wordAddr t.word) (wordData t.word)) ∨
    (wordKind t.word = 3#3 ∧ ∃ p, ppuAddr (wordAddr t.word) = some p ∧ i = decodeRdppu v p) ∨
    (wordKind t.word = 4#3 ∧ ∃ p, ppuAddr (wordAddr t.word) = some p ∧ i = decodeWrppu v p (wordData t.word)) ∨
    (wordKind t.word = 5#3 ∧ i = .poweron t.cfg) ∨
    (wordKind t.word = 6#3 ∧ i = .save) ∨
    (wordKind t.word = 7#3 ∧ i = .restore t.buf) := by
  cases hp : ppuAddr (wordAddr t.word)
  all_goals
    rcases kind_cases (wordKind t.word) with hk | hk | hk | hk | hk | hk | hk | hk <;>
      simp_all [decode_kind v t _ hk]

theorem ppuAddr_eq_none_iff (w : TxWord) : ppuAddr (wordAddr w) = none ↔ w.extractLsb' 22 2 ≠ 0#2 := by
  have hbits : (wordAddr w).extractLsb' 14 2 = w.extractLsb' 22 2 := by
    ext i hi
    rw [wordAddr, BitVec.getElem_extractLsb', BitVec.getLsbD_extractLsb', BitVec.getElem_extractLsb',
      decide_eq_true (by omega), Bool.true_and, show 8 + (14 + i) = 22 + i by omega]
  simp [ppuAddr, hbits]

/-- The one refusal is that of R103. -/
theorem decode_error_iff (v : Variant) (t : Txn) (e : DecodeError) :
    decode v t = .error e ↔
      (wordKind t.word = 3#3 ∨ wordKind t.word = 4#3) ∧ ppuAddr (wordAddr t.word) = none ∧
        e = .ppuAddressTooWide (wordAddr t.word) := by
  cases hp : ppuAddr (wordAddr t.word)
  all_goals
    rcases kind_cases (wordKind t.word) with hk | hk | hk | hk | hk | hk | hk | hk <;>
      simp [decode_kind v t _ hk, hk, hp, eq_comm]

/-- Settles O4, kind by kind. -/
theorem onlyWidePpuWordsAreRefused : Obligations.OnlyWidePpuWordsAreRefused := by
  refine ⟨fun v t e => ?_, fun v k a a' d d' cfg buf hk => ?_, fun v k a d d' cfg buf hk => ?_⟩
  · rw [decode_error_iff, ppuAddr_eq_none_iff]
    rfl
  · rw [decode_kind v ⟨makeWord k a d, cfg, buf⟩ k (wordKind_makeWord k a d),
      decode_kind v ⟨makeWord k a' d', cfg, buf⟩ k (wordKind_makeWord k a' d')]
    rcases hk with rfl | rfl | rfl | rfl <;> simp
  · rw [decode_kind v ⟨makeWord k a d, cfg, buf⟩ k (wordKind_makeWord k a d),
      decode_kind v ⟨makeWord k a d', cfg, buf⟩ k (wordKind_makeWord k a d')]
    rcases hk with rfl | rfl <;> simp

end Sys2Proof

/-! ## The opcode table and what decode selects from it (R104 to R112) -/

namespace Sys2Proof

/-! ### Masks and patterns, in arithmetic -/

/-- The mask of the bits from `k` up. -/
def highMask (k : Nat) : TxWord := BitVec.allOnes 27 <<< k

theorem and_highMask_eq_iff (w : TxWord) {k c : Nat} (hk : k ≤ 27) (hc : c < 2 ^ (27 - k)) :
    w &&& highMask k = BitVec.ofNat 27 (2 ^ k * c) ↔ w.toNat / 2 ^ k = c := by
  have hmask : ∀ i, i < 27 → (highMask k).getLsbD i = decide (k ≤ i) := by
    intro i hi
    rw [highMask, BitVec.getLsbD_shiftLeft, BitVec.getLsbD_allOnes, decide_eq_true hi,
      decide_eq_true (show i - k < 27 by omega), Bool.true_and, Bool.and_true]
    simp [← decide_not]
  rw [mask_iff, ← high_iff w k c hk hc]
  · refine forall₂_congr fun i hi => ?_
    rw [hmask i hi, decide_eq_true_eq]
  · intro i hi hm
    rw [hmask i hi, decide_eq_false_iff_not] at hm
    simp [BitVec.getLsbD_ofNat, Nat.testBit_two_pow_mul, hm]

/-- A mask of the bits from `k` up and of bit `j`. -/
theorem and_highMask_or_twoPow (w : TxWord) {k c : Nat} (j : Nat) (hk : k ≤ 27) (hc : c < 2 ^ (27 - k))
    (h : w.toNat / 2 ^ k = c) :
    w &&& (highMask k ||| BitVec.twoPow 27 j) =
      BitVec.ofNat 27 (2 ^ k * c) ||| if w.getLsbD j then BitVec.twoPow 27 j else 0#27 := by
  rw [BitVec.and_or_distrib_left, (and_highMask_eq_iff w hk hc).2 h, BitVec.and_twoPow]

/-! ### The rows of the table -/

/-- The row takes part in decode and the word matches it under its mask (R105). -/
def OpcodeRow.Matches (r : OpcodeRow) (w : TxWord) : Prop := r.cond = false ∧ w &&& r.mask = r.pattern

theorem rowApplies_iff (v : Variant) (w : TxWord) (r : OpcodeRow) :
    rowApplies v w r = true ↔ r.Matches w ∧ (r.format = none ∨ r.format = some v) := by
  simp only [rowApplies, OpcodeRow.Matches, Bool.and_eq_true, Bool.or_eq_true, Bool.not_eq_true',
    decide_eq_true_eq]
  exact and_right_comm

theorem anyRow_mem (k : BitVec 3) : anyRows[k.toNat]'k.isLt ∈ opcodeRows :=
  List.mem_append_left _ <| List.mem_append_left _ <| List.mem_append_left _ <| List.mem_append_left _ <|
    List.getElem_mem _

theorem directRow_mem (n : Fin 5) : directRows[n.val]'n.isLt ∈ opcodeRows :=
  List.mem_append_left _ <| List.mem_append_left _ <| List.mem_append_left _ <| List.mem_append_right _
    (List.getElem_mem _)

theorem shiftRow_mem (n : Fin 6) : shiftRows[n.val]'n.isLt ∈ opcodeRows :=
  List.mem_append_left _ <| List.mem_append_left _ <| List.mem_append_right _ (List.getElem_mem _)

theorem irqRow_mem (n : Fin 11) : irqRows[n.val]'n.isLt ∈ opcodeRows :=
  List.mem_append_left _ <| List.mem_append_right _ (List.getElem_mem _)

theorem latchRow_mem (n : Fin 11) : latchRows[n.val]'n.isLt ∈ opcodeRows :=
  List.mem_append_right _ (List.getElem_mem _)

/-- The number of bits set in the mask. -/
def OpcodeRow.maskBits (r : OpcodeRow) : Nat := (List.range 27).countP fun k => r.mask.getLsbD k

/-- `row` precedes `r` by R105: `r` is of format `any` and `row` is not, or the formats are equal and `row` has more
mask bits. -/
abbrev OpcodeRow.Outranks (row r : OpcodeRow) : Prop :=
  (r.format = none ∧ row.format ≠ none) ∨ (r.format = row.format ∧ r.maskBits < row.maskBits)

/-- Some word may match both rows under one variant. -/
abbrev OpcodeRow.Overlaps (r r' : OpcodeRow) : Prop :=
  r.cond = false ∧ r'.cond = false ∧ (r.format = none ∨ r'.format = none ∨ r.format = r'.format) ∧
    r.pattern &&& r'.mask = r'.pattern &&& r.mask

theorem OpcodeRow.Overlaps.symm {r r' : OpcodeRow} (h : r.Overlaps r') : r'.Overlaps r := by
  obtain ⟨hr, hr', hf, hp⟩ := h
  refine ⟨hr', hr, ?_, hp.symm⟩
  rcases hf with hf | hf | hf
  · exact .inr (.inl hf)
  · exact .inl hf
  · exact .inr (.inr hf.symm)

/-- Of two rows that may both apply one precedes the other: the rule of R105 never ties. -/
theorem opcodeRows_ranked :
    opcodeRows.Pairwise fun r r' => r.Overlaps r' → r.Outranks r' ∨ r'.Outranks r := by decide

theorem OpcodeRow.Overlaps.ranked {r r' : OpcodeRow} (hr : r ∈ opcodeRows) (hr' : r' ∈ opcodeRows) (hne : r ≠ r')
    (h : r.Overlaps r') : r.Outranks r' ∨ r'.Outranks r := by
  have hpairs : opcodeRows.Pairwise fun r r' => r ≠ r' → r.Overlaps r' → r.Outranks r' ∨ r'.Outranks r := by
    refine opcodeRows_ranked.imp ?_
    intro r r' hrank _
    exact hrank
  refine hpairs.forall_of_forall_of_flip (fun _ _ hne => absurd rfl hne) ?_ hr hr' hne h
  refine opcodeRows_ranked.imp ?_
  intro r r' hrank _ hover
  exact (hrank hover.symm).symm

theorem opcodeRows_kindMask : ∀ r ∈ opcodeRows, wordKind r.mask = BitVec.allOnes 3 := by decide

/-- The rows whose mask is the kind alone. -/
theorem opcodeRows_kindOnly : ∀ r ∈ opcodeRows, r.mask = highMask 24 →
    r.cond = false ∧ r.pattern = BitVec.ofNat 27 (2 ^ 24 * (wordKind r.pattern).toNat) := by decide

theorem opcodeRows_any : ∀ r ∈ opcodeRows, r.format = none → r.mask = highMask 24 := by decide

/-- The row of format `any` for each kind code (R102). -/
theorem anyRows_kind : ∀ k : BitVec 3,
    (anyRows[k.toNat]'k.isLt).format = none ∧ wordKind (anyRows[k.toNat]'k.isLt).pattern = k := by decide

/-- The kinds of word for which a variant has rows of its own. -/
theorem opcodeRows_ownKind : ∀ r ∈ opcodeRows, ∀ v ∈ r.format,
    wordKind r.pattern = 2#3 ∨ (wordKind r.pattern = 3#3 ∧ (v = .irq ∨ v = .latch)) ∨
      (v = .irq ∧ (wordKind r.pattern = 0#3 ∨ wordKind r.pattern = 4#3)) := by decide

/-- The addresses of a variant's own write rows are those `claimsWrite` names. -/
theorem opcodeRows_ownWrite : ∀ r ∈ opcodeRows, wordKind r.pattern = 2#3 → ∀ v ∈ r.format,
    claimsWrite v (wordAddr r.pattern) = true := by decide

/-- Among a variant's rows of one kind only `LATCH.RDPPU`, whose mask is the kind alone, has fewer mask bits than
another. -/
theorem opcodeRows_ownMaskBits : ∀ row ∈ opcodeRows, ∀ r ∈ opcodeRows, row.cond = false → r.cond = false →
    row.format ≠ none → r.format = row.format → wordKind r.pattern = wordKind row.pattern →
    (row.format = some .latch → row.mask ≠ highMask 24) → r.maskBits ≤ row.maskBits := by decide

/-- The latch variant's read rows are `LATCH.RDPPU` and the four trigger windows. -/
theorem opcodeRows_latchRead : ∀ r ∈ opcodeRows, r.format = some .latch → wordKind r.pattern = 3#3 →
    r.mask = highMask 24 ∨ (r.mask = highMask 11 ∧
      (r.pattern = 0x30FD800#27 ∨ r.pattern = 0x30FE800#27 ∨ r.pattern = 0x31FD800#27 ∨ r.pattern = 0x31FE800#27)) := by
  decide

theorem OpcodeRow.Matches.kind_eq {r : OpcodeRow} {w : TxWord} (hr : r ∈ opcodeRows) (h : r.Matches w) :
    wordKind r.pattern = wordKind w := by
  rw [← h.2, wordKind, BitVec.extractLsb'_and]
  exact (congrArg _ (opcodeRows_kindMask r hr)).trans BitVec.and_allOnes

theorem OpcodeRow.Matches.overlaps {r r' : OpcodeRow} {w : TxWord} (h : r.Matches w) (h' : r'.Matches w)
    (hf : r.format = none ∨ r'.format = none ∨ r.format = r'.format) : r.Overlaps r' :=
  ⟨h.1, h'.1, hf, by rw [← h.2, ← h'.2, BitVec.and_assoc, BitVec.and_assoc, BitVec.and_comm r.mask]⟩

/-- A row whose mask is the kind alone matches every word of its kind. -/
theorem OpcodeRow.Matches.of_kind {row : OpcodeRow} {w : TxWord} (hrow : row ∈ opcodeRows)
    (hmask : row.mask = highMask 24) (hk : wordKind row.pattern = wordKind w) : row.Matches w := by
  obtain ⟨hc, hp⟩ := opcodeRows_kindOnly row hrow hmask
  refine ⟨hc, ?_⟩
  rw [hmask, hp, hk, and_highMask_eq_iff w (by decide) (wordKind w).isLt, wordKind_toNat]

/-! ### The row the matching rule selects -/

/-- The matching rule of R105 selects the row of that name for the word: it applies, and it precedes every other row
that applies. -/
def Selects (v : Variant) (w : TxWord) (name : String) : Prop :=
  ∃ row ∈ opcodeRows, row.name = name ∧ rowApplies v w row = true ∧
    ∀ r ∈ opcodeRows, rowApplies v w r = true → r ≠ row →
      (r.format = none ∧ row.format = some v) ∨ (r.format = row.format ∧ r.maskBits < row.maskBits)

section Select

variable {v : Variant} {w : TxWord} {row : OpcodeRow} (hrow : row ∈ opcodeRows)
include hrow

/-- As the rule never ties, an applying row that no applying row precedes is the selected one. -/
theorem selects_of_not_outranked (hm : row.Matches w) (hf : row.format = none ∨ row.format = some v)
    (htop : ∀ r ∈ opcodeRows, rowApplies v w r = true → ¬ r.Outranks row) : Selects v w row.name := by
  refine ⟨row, hrow, rfl, (rowApplies_iff v w row).2 ⟨hm, hf⟩, fun r hr happ hne => ?_⟩
  obtain ⟨hrm, hrf⟩ := (rowApplies_iff v w r).1 happ
  have hover : r.Overlaps row := hrm.overlaps hm <| by
    rcases hf with hf | hf <;> rcases hrf with hrf | hrf <;> simp [hf, hrf]
  have hrank := (hover.ranked hr hrow hne).resolve_left (htop r hr happ)
  exact hrank.imp_left fun ⟨hn, hs⟩ => ⟨hn, hf.resolve_left hs⟩

/-- A row of the variant is selected when it matches, `LATCH.RDPPU` aside. -/
theorem selects_own (hm : row.Matches w) (hf : row.format = some v) (hmask : v = .latch → row.mask ≠ highMask 24) :
    Selects v w row.name := by
  refine selects_of_not_outranked hrow hm (.inr hf) fun r hr happ hrank => ?_
  obtain ⟨hrm, -⟩ := (rowApplies_iff v w r).1 happ
  obtain ⟨hnone, -⟩ | ⟨hrf, hlt⟩ := hrank
  · simp [hf] at hnone
  · have hle := opcodeRows_ownMaskBits row hrow r hr hm.1 hrm.1 (by simp [hf]) hrf.symm
      ((hrm.kind_eq hr).trans (hm.kind_eq hrow).symm) (by simpa [hf] using hmask)
    omega

end Select

/-! ### Words for which the variant has no row of its own -/

theorem OpcodeRow.Matches.wordAddr_le {r : OpcodeRow} {w : TxWord} (h : r.Matches w) :
    wordAddr r.pattern ≤ wordAddr w := by
  rw [← h.2, wordAddr, BitVec.extractLsb'_and, BitVec.le_def, BitVec.toNat_and]
  exact Nat.and_le_left

/-- The addresses a variant claims are an upper part of the address space. -/
theorem claimsWrite_mono {v : Variant} {a b : CpuAddr} (hab : a ≤ b) (h : claimsWrite v a = true) :
    claimsWrite v b = true := by
  have hb := b.isLt
  rw [BitVec.le_def] at hab
  cases v
  case nrom => cases h
  case latch =>
    simp only [claimsWrite, decide_eq_true_eq, BitVec.le_def] at h ⊢
    omega
  all_goals
    simp only [claimsWrite, getLsbD_toNat, decide_eq_true_eq] at h ⊢
    omega

section Any

variable {v : Variant} {w : TxWord} {k : BitVec 3} (hk : wordKind w = k)
include hk

/-- The row of format `any` is selected when no row of the variant matches. -/
theorem selects_any (hown : ∀ r ∈ opcodeRows, r.Matches w → r.format ≠ some v) :
    Selects v w (anyRows[k.toNat]'k.isLt).name := by
  obtain ⟨hnone, hkind⟩ := anyRows_kind k
  have hrow := anyRow_mem k
  have hmask := opcodeRows_any _ hrow hnone
  have hm : (anyRows[k.toNat]'k.isLt).Matches w := .of_kind hrow hmask (hkind.trans hk.symm)
  refine selects_of_not_outranked hrow hm (.inl hnone) fun r hr happ hrank => ?_
  obtain ⟨hrm, hrf⟩ := (rowApplies_iff v w r).1 happ
  have hrn := hrf.resolve_right (hown r hr hrm)
  obtain ⟨-, hne⟩ | ⟨-, hlt⟩ := hrank
  · exact hne hrn
  · simp [OpcodeRow.maskBits, hmask, opcodeRows_any r hr hrn] at hlt

/-- The row of format `any` is selected for the kinds the variant has no rows for (R106, R111). -/
theorem selects_any_of_kind (h2 : k ≠ 2#3) (h3 : k = 3#3 → v ≠ .irq ∧ v ≠ .latch)
    (h4 : k = 0#3 ∨ k = 4#3 → v ≠ .irq) : Selects v w (anyRows[k.toNat]'k.isLt).name := by
  refine selects_any hk fun r hr hrm hrf => ?_
  have hown := opcodeRows_ownKind r hr v hrf
  rw [hrm.kind_eq hr, hk] at hown
  obtain hwrite | ⟨hread, hv⟩ | ⟨hirq, hother⟩ := hown
  · exact h2 hwrite
  · exact hv.elim (h3 hread).1 (h3 hread).2
  · exact h4 hother hirq

/-- `WRCPU` is selected at the addresses the variant does not claim (R106, R107, R109, R110, R112). -/
theorem selects_any_of_unclaimed (h2 : k = 2#3) (hclaim : claimsWrite v (wordAddr w) = false) :
    Selects v w (anyRows[k.toNat]'k.isLt).name := by
  refine selects_any hk fun r hr hrm hrf => ?_
  have hpat := opcodeRows_ownWrite r hr ((hrm.kind_eq hr).trans (hk.trans h2)) v hrf
  simp [claimsWrite_mono hrm.wordAddr_le hpat] at hclaim

end Any

/-! ### Ticks and PPU writes (R106, R111) -/

section Words

variable {v : Variant} {w : TxWord}

theorem selects_own_of_kind {row : OpcodeRow} (hrow : row ∈ opcodeRows) (hmask : row.mask = highMask 24)
    (hk : wordKind w = wordKind row.pattern) (hf : row.format = some v) (hv : v ≠ .latch) :
    Selects v w row.name :=
  selects_own hrow (.of_kind hrow hmask hk.symm) hf fun h => absurd h hv

theorem selects_decodeTick (hk : wordKind w = 0#3) : Selects v w (mnemonic (decodeTick v)) := by
  by_cases hv : v = .irq
  · subst hv
    exact selects_own_of_kind (irqRow_mem 10) rfl hk rfl (by decide)
  · rw [decodeTick, if_neg hv]
    exact selects_any_of_kind hk (by decide) (by simp) fun _ => hv

theorem selects_decodeWrppu (p : PpuAddr) (d : Byte) (hk : wordKind w = 4#3) :
    Selects v w (mnemonic (decodeWrppu v p d)) := by
  by_cases hv : v = .irq
  · subst hv
    exact selects_own_of_kind (irqRow_mem 9) rfl hk rfl (by decide)
  · rw [decodeWrppu, if_neg hv]
    exact selects_any_of_kind hk (by decide) (by simp) fun _ => hv

/-! ### PPU reads and the trigger windows (R111) -/

section LatchRead

variable {p : PpuAddr} (hk : wordKind w = 3#3) (hp : ppuAddr (wordAddr w) = some p)
include hk hp

theorem and_triggerMask_iff {b : Nat} (hb : b < 0x800) :
    w &&& highMask 11 = BitVec.ofNat 27 (2 ^ 11 * (0x6000 + b)) ↔ p &&& 0x3FF8#14 = BitVec.ofNat 14 (8 * b) := by
  have hkind : w.toNat / 2 ^ 24 = 3 := by
    rw [← wordKind_toNat, hk]
    rfl
  have haddr := wordAddr_toNat w
  rw [ppuAddr_eq] at hp
  split at hp
  · cases hp
    rw [and_highMask_eq_iff w (by decide) (by omega), window_iff _ b hb, BitVec.toNat_ofNat]
    omega
  · cases hp

theorem selects_trigger {row : OpcodeRow} {b : Nat} (hrow : row ∈ opcodeRows) (hc : row.cond = false)
    (hf : row.format = some .latch) (hmask : row.mask = highMask 11)
    (hpat : row.pattern = BitVec.ofNat 27 (2 ^ 11 * (0x6000 + b))) (hb : b < 0x800)
    (hwin : p &&& 0x3FF8#14 = BitVec.ofNat 14 (8 * b)) : Selects .latch w row.name := by
  have hm : row.Matches w := ⟨hc, by rw [hmask, hpat, (and_triggerMask_iff hk hp hb).2 hwin]⟩
  refine selects_own hrow hm hf fun _ => ?_
  rw [hmask]
  decide

/-- No trigger row matches outside the windows. -/
theorem selects_latchRdppu (h0c : p &&& 0x3FF8#14 ≠ 0x0FD8#14) (h0s : p &&& 0x3FF8#14 ≠ 0x0FE8#14)
    (h1c : p &&& 0x3FF8#14 ≠ 0x1FD8#14) (h1s : p &&& 0x3FF8#14 ≠ 0x1FE8#14) : Selects .latch w "LATCH.RDPPU" := by
  have hrow : latchRows[6] ∈ opcodeRows := latchRow_mem 6
  refine selects_of_not_outranked hrow (.of_kind hrow rfl hk.symm) (.inr rfl) fun r hr happ hrank => ?_
  obtain ⟨hrm, -⟩ := (rowApplies_iff .latch w r).1 happ
  obtain ⟨hnone, -⟩ | ⟨hrf, hlt⟩ := hrank
  · cases hnone
  · obtain hmask | ⟨hmask, hpat⟩ := opcodeRows_latchRead r hr hrf.symm ((hrm.kind_eq hr).trans hk)
    · simp only [OpcodeRow.maskBits, hmask] at hlt
      exact absurd hlt (by decide)
    · have hmatch := hrm.2
      rw [hmask] at hmatch
      rcases hpat with hpat | hpat | hpat | hpat <;> rw [hpat] at hmatch
      · exact h0c ((and_triggerMask_iff hk hp (b := 0x1FB) (by decide)).1 hmatch)
      · exact h0s ((and_triggerMask_iff hk hp (b := 0x1FD) (by decide)).1 hmatch)
      · exact h1c ((and_triggerMask_iff hk hp (b := 0x3FB) (by decide)).1 hmatch)
      · exact h1s ((and_triggerMask_iff hk hp (b := 0x3FD) (by decide)).1 hmatch)

theorem selects_decodeLatchRead : Selects .latch w (mnemonic (decodeLatchRead p)) := by
  unfold decodeLatchRead
  split
  case isTrue h0c => exact selects_trigger hk hp (latchRow_mem 7) rfl rfl rfl rfl (b := 0x1FB) (by decide) h0c
  case isFalse h0c =>
  split
  case isTrue h0s => exact selects_trigger hk hp (latchRow_mem 8) rfl rfl rfl rfl (b := 0x1FD) (by decide) h0s
  case isFalse h0s =>
  split
  case isTrue h1c => exact selects_trigger hk hp (latchRow_mem 9) rfl rfl rfl rfl (b := 0x3FB) (by decide) h1c
  case isFalse h1c =>
  split
  case isTrue h1s => exact selects_trigger hk hp (latchRow_mem 10) rfl rfl rfl rfl (b := 0x3FD) (by decide) h1s
  case isFalse h1s => exact selects_latchRdppu hk hp h0c h0s h1c h1s

theorem selects_decodeRdppu : Selects v w (mnemonic (decodeRdppu v p)) := by
  by_cases hirq : v = .irq
  · subst hirq
    exact selects_own_of_kind (irqRow_mem 8) rfl hk rfl (by decide)
  · by_cases hlatch : v = .latch
    · subst hlatch
      exact selects_decodeLatchRead hk hp
    · rw [decodeRdppu, if_neg hirq, if_neg hlatch]
      exact selects_any_of_kind hk (by decide) (fun _ => ⟨hirq, hlatch⟩) (by simp)

end LatchRead

/-! ### CPU writes (R106, R107, R109, R110, R112) -/

theorem decodeWrcpu_of_unclaimed {a : CpuAddr} (d : Byte) (h : claimsWrite v a = false) :
    decodeWrcpu v a d = .wrcpu a d := by
  cases v
  case nrom => rfl
  case latch =>
    have ha : a.toNat < 0xA000 := by simpa [claimsWrite, BitVec.lt_def] using h
    simp only [decodeWrcpu, decodeLatchWrite]
    split
    case h_7 => rfl
    all_goals
      next hx =>
        simp only [BitVec.extractLsb'_toNat, Nat.shiftRight_eq_div_pow] at hx
        omega
  all_goals exact if_neg (ne_true_of_eq_false h)

section Writes

variable (hk : wordKind w = 2#3)
include hk

/-! The fields of a write word down to the bit a row's mask reaches, then the rows of each variant that reach so far. -/

theorem write_div_two_pow_24 : w.toNat / 2 ^ 24 = 2 := by
  rw [← wordKind_toNat, hk]
  rfl

theorem write_div_two_pow_20 : w.toNat / 2 ^ 20 = 0x20 + ((wordAddr w).extractLsb' 12 4).toNat := by
  have hkind := write_div_two_pow_24 hk
  simp only [BitVec.extractLsb'_toNat, wordAddr_toNat, Nat.shiftRight_eq_div_pow]
  omega

/-- The window of a write with address bit 15 set. -/
theorem write_div_two_pow_21 (ha : (wordAddr w).getLsbD 15 = true) :
    w.toNat / 2 ^ 21 = 0x14 + ((wordAddr w).extractLsb' 13 2).toNat := by
  have hkind := write_div_two_pow_24 hk
  simp only [getLsbD_toNat, wordAddr_toNat, decide_eq_true_eq] at ha
  simp only [BitVec.extractLsb'_toNat, wordAddr_toNat, Nat.shiftRight_eq_div_pow]
  omega

theorem write_div_two_pow_23 (ha : (wordAddr w).getLsbD 15 = true) : w.toNat / 2 ^ 23 = 5 := by
  have hwindow := write_div_two_pow_21 hk ha
  have hlt := ((wordAddr w).extractLsb' 13 2).isLt
  omega

theorem selects_directWrite {row : OpcodeRow} (ha : (wordAddr w).getLsbD 15 = true) (hrow : row ∈ opcodeRows)
    (hc : row.cond = false) (hf : row.format = some v) (hv : v ≠ .latch) (hmask : row.mask = highMask 23)
    (hpat : row.pattern = BitVec.ofNat 27 (2 ^ 23 * 5)) : Selects v w row.name := by
  refine selects_own hrow ⟨hc, ?_⟩ hf fun h => absurd h hv
  rw [hmask, hpat, and_highMask_eq_iff w (by decide) (by decide), write_div_two_pow_23 hk ha]

theorem selects_shiftWrite {row : OpcodeRow} (ha : (wordAddr w).getLsbD 15 = true) (hrow : row ∈ opcodeRows)
    (hc : row.cond = false) (hf : row.format = some .shift) (hmask : row.mask = highMask 23 ||| BitVec.twoPow 27 7)
    (hpat : row.pattern =
      BitVec.ofNat 27 (2 ^ 23 * 5) ||| if (wordData w).getLsbD 7 then BitVec.twoPow 27 7 else 0#27) :
    Selects .shift w row.name := by
  have hbit : (wordData w).getLsbD 7 = w.getLsbD 7 := by simp [wordData]
  refine selects_own hrow ⟨hc, ?_⟩ hf (by simp)
  rw [hmask, hpat, and_highMask_or_twoPow w 7 (by decide) (by decide) (write_div_two_pow_23 hk ha), hbit]

theorem selects_irqWrite {row : OpcodeRow} (ha : (wordAddr w).getLsbD 15 = true) (hrow : row ∈ opcodeRows)
    (hc : row.cond = false) (hf : row.format = some .irq) (hmask : row.mask = highMask 21 ||| BitVec.twoPow 27 8)
    (hpat : row.pattern = BitVec.ofNat 27 (2 ^ 21 * (0x14 + ((wordAddr w).extractLsb' 13 2).toNat)) |||
      if (wordAddr w).getLsbD 0 then BitVec.twoPow 27 8 else 0#27) : Selects .irq w row.name := by
  have hbit : (wordAddr w).getLsbD 0 = w.getLsbD 8 := by simp [wordAddr]
  have hx := ((wordAddr w).extractLsb' 13 2).isLt
  refine selects_own hrow ⟨hc, ?_⟩ hf (by simp)
  rw [hmask, hpat, and_highMask_or_twoPow w 8 (by decide) (by omega) (write_div_two_pow_21 hk ha), hbit]

theorem selects_latchWrite {row : OpcodeRow} (hrow : row ∈ opcodeRows)
    (hc : row.cond = false) (hf : row.format = some .latch) (hmask : row.mask = highMask 20)
    (hpat : row.pattern = BitVec.ofNat 27 (2 ^ 20 * (0x20 + ((wordAddr w).extractLsb' 12 4).toNat))) :
    Selects .latch w row.name := by
  have hx := ((wordAddr w).extractLsb' 12 4).isLt
  refine selects_own hrow ⟨hc, ?_⟩ hf fun _ => ?_
  · rw [hmask, hpat, and_highMask_eq_iff w (by decide) (by omega), write_div_two_pow_20 hk]
  · rw [hmask]
    decide

theorem selects_decodeIrqWrite (ha : (wordAddr w).getLsbD 15 = true) :
    Selects .irq w (mnemonic (decodeIrqWrite (wordAddr w) (wordData w))) := by
  unfold decodeIrqWrite
  split
  case h_1 hx hb => exact selects_irqWrite hk ha (irqRow_mem 0) rfl rfl rfl (by rw [hx, hb]; rfl)
  case h_2 hx hb => exact selects_irqWrite hk ha (irqRow_mem 1) rfl rfl rfl (by rw [hx, hb]; rfl)
  case h_3 hx hb => exact selects_irqWrite hk ha (irqRow_mem 2) rfl rfl rfl (by rw [hx, hb]; rfl)
  case h_4 hx hb => exact selects_irqWrite hk ha (irqRow_mem 3) rfl rfl rfl (by rw [hx, hb]; rfl)
  case h_5 hx hb => exact selects_irqWrite hk ha (irqRow_mem 4) rfl rfl rfl (by rw [hx, hb]; rfl)
  case h_6 hx hb => exact selects_irqWrite hk ha (irqRow_mem 5) rfl rfl rfl (by rw [hx, hb]; rfl)
  case h_7 hb h0 h1 h2 =>
    simp only [imp_false] at h0 h1 h2
    have hx : ((wordAddr w).extractLsb' 13 2).toNat = 3 := by omega
    exact selects_irqWrite hk ha (irqRow_mem 6) rfl rfl rfl (by rw [hx, hb]; rfl)
  case h_8 hb h0 h1 h2 =>
    simp only [imp_false] at h0 h1 h2
    have hx : ((wordAddr w).extractLsb' 13 2).toNat = 3 := by omega
    exact selects_irqWrite hk ha (irqRow_mem 7) rfl rfl rfl (by rw [hx, hb]; rfl)

theorem selects_decodeLatchWrite (hclaim : claimsWrite .latch (wordAddr w) = true) :
    Selects .latch w (mnemonic (decodeLatchWrite (wordAddr w) (wordData w))) := by
  unfold decodeLatchWrite
  split
  case h_1 hx => exact selects_latchWrite hk (latchRow_mem 0) rfl rfl rfl (by rw [hx]; rfl)
  case h_2 hx => exact selects_latchWrite hk (latchRow_mem 1) rfl rfl rfl (by rw [hx]; rfl)
  case h_3 hx => exact selects_latchWrite hk (latchRow_mem 2) rfl rfl rfl (by rw [hx]; rfl)
  case h_4 hx => exact selects_latchWrite hk (latchRow_mem 3) rfl rfl rfl (by rw [hx]; rfl)
  case h_5 hx => exact selects_latchWrite hk (latchRow_mem 4) rfl rfl rfl (by rw [hx]; rfl)
  case h_6 hx => exact selects_latchWrite hk (latchRow_mem 5) rfl rfl rfl (by rw [hx]; rfl)
  case h_7 hA hB hC hD hE hF =>
    simp only [claimsWrite, decide_eq_true_eq, BitVec.le_def, BitVec.toNat_ofNat] at hclaim
    simp only [BitVec.extractLsb'_toNat, Nat.shiftRight_eq_div_pow, imp_false] at hA hB hC hD hE hF
    omega

theorem selects_decodeWrcpu : Selects v w (mnemonic (decodeWrcpu v (wordAddr w) (wordData w))) := by
  cases hclaim : claimsWrite v (wordAddr w)
  case false =>
    rw [decodeWrcpu_of_unclaimed _ hclaim]
    exact selects_any_of_unclaimed hk rfl hclaim
  case true =>
    cases v
    case nrom => cases hclaim
    case latch => exact selects_decodeLatchWrite hk hclaim
    all_goals
      have ha : (wordAddr w).getLsbD 15 = true := hclaim
      simp only [decodeWrcpu, if_pos ha]
    case uxrom => exact selects_directWrite hk ha (directRow_mem 0) rfl rfl (by decide) rfl rfl
    case cnrom => exact selects_directWrite hk ha (directRow_mem 1) rfl rfl (by decide) rfl rfl
    case axrom => exact selects_directWrite hk ha (directRow_mem 2) rfl rfl (by decide) rfl rfl
    case gxrom => exact selects_directWrite hk ha (directRow_mem 3) rfl rfl (by decide) rfl rfl
    case unrom512 => exact selects_directWrite hk ha (directRow_mem 4) rfl rfl (by decide) rfl rfl
    case shift =>
      split
      case isTrue hd => exact selects_shiftWrite hk ha (shiftRow_mem 0) rfl rfl rfl (by rw [if_pos hd]; rfl)
      case isFalse hd => exact selects_shiftWrite hk ha (shiftRow_mem 1) rfl rfl rfl (by rw [if_neg hd]; rfl)
    case irq => exact selects_decodeIrqWrite hk ha

end Writes

end Words

/-- Settles O3: the row of the operation decode answers is the one selected, by the kind of the word and the variant. -/
theorem decodeSelectsTheMatchingRow : Obligations.DecodeSelectsTheMatchingRow := by
  intro v t i h
  change Selects v t.word (mnemonic i)
  rcases decode_ok_cases h with ⟨hk, rfl⟩ | ⟨hk, rfl⟩ | ⟨hk, rfl⟩ | ⟨hk, p, hp, rfl⟩ | ⟨hk, p, -, rfl⟩ | ⟨hk, rfl⟩ |
    ⟨hk, rfl⟩ | ⟨hk, rfl⟩
  · exact selects_decodeTick hk
  · exact selects_any_of_kind hk (by decide) (by simp) (by simp)
  · exact selects_decodeWrcpu hk
  · exact selects_decodeRdppu hk hp
  · exact selects_decodeWrppu p _ hk
  · exact selects_any_of_kind hk (by decide) (by simp) (by simp)
  · exact selects_any_of_kind hk (by decide) (by simp) (by simp)
  · exact selects_any_of_kind hk (by decide) (by simp) (by simp)

end Sys2Proof

/-! ## The mapping operations (R120 to R131)

A mapping operation runs one procedure on the block. Its outcome is the procedure's: the block with the table the
procedure made, or the contract violation of the first check that failed. -/

namespace Sys2Proof.Machine

section Mapping

variable {s : State} {m m' : Mapper} {t : BankTable} {page size bank off stride : Nat} {ro : Bool}

/-! ### From the procedure to the operation -/

theorem mapping_completes {f : Mapper → ProcResult} (hm : s.Live m) (hf : f m = .done m') :
    withBlock s (fun a => finish s (f a)) = .next (s.reply m' Output.quiet) := by
  rw [withBlock_live hm, hf, finish_done]

/-- A violation marks the block the procedure left (R282). -/
theorem mapping_violates {f : Mapper → ProcResult} {kind : Bounds} (hm : s.Live m) (hf : f m = .violation kind m') :
    withBlock s (fun a => finish s (f a)) = .next (s.raiseContract m' kind) := by
  rw [withBlock_live hm, hf, finish_violation]

/-! ### The checks that fail (R121, R122, R127 to R130) -/

theorem mapProc_tableBounds (hp : tableLen t < page + size) :
    mapProc t page size off ro m = .violation .tableBounds m := if_pos hp

theorem mapProc_storeBounds (hp : page + size ≤ tableLen t) (hs : m.cfg.storeLen < off + 1024 * size) :
    mapProc t page size off ro m = .violation .storeBounds m := by
  rw [mapProc, if_neg (Nat.not_lt.mpr hp), if_pos hs]

theorem unmapProc_tableBounds (hp : tableLen t < page + size) :
    unmapProc t page size m = .violation .tableBounds m := if_pos hp

theorem mirrorProc_tableBounds (hp : tableLen t < page + size) :
    mirrorProc t page size stride m = .violation .tableBounds m := if_pos hp

/-- The form the four region helpers share: a region of `count` banks is checked, then `MAP` runs. -/
def mapRegion (count : Nat) (t : BankTable) (page size bank off : Nat) (ro : Bool) (m : Mapper) : ProcResult :=
  if count < bank + size then .violation .storeBounds m else mapProc t page size off ro m

theorem mapCpuRam_eq : mapCpuRam page size bank ro m =
    mapRegion m.cfg.banksCpuRam .cpu page size bank (m.cfg.cpuRamBase + 1024 * bank) ro m := rfl

theorem mapPpuRam_eq : mapPpuRam page size bank ro m =
    mapRegion m.cfg.banksPpuRam .ppu page size bank (m.cfg.ppuRamBase + 1024 * bank) ro m := rfl

theorem mapPrg_eq : mapPrg page size bank m =
    mapRegion m.cfg.banksPrg .cpu page size bank (m.cfg.prgBase + 1024 * bank) true m := rfl

theorem mapChr_eq : mapChr page size bank m =
    mapRegion m.cfg.banksChr .ppu page size bank (m.cfg.chrBase + 1024 * bank) m.cfg.chrReadOnly m := rfl

theorem mapRegion_storeBounds {count : Nat} (hb : count < bank + size) :
    mapRegion count t page size bank off ro m = .violation .storeBounds m := if_pos hb

theorem mapRegion_tableBounds {count : Nat} (hb : bank + size ≤ count) (hp : tableLen t < page + size) :
    mapRegion count t page size bank off ro m = .violation .tableBounds m := by
  rw [mapRegion, if_neg (Nat.not_lt.mpr hb), mapProc_tableBounds hp]

/-- The entries of a mapping of consecutive banks of the region at `base`. -/
theorem mapRange_region_getElem {n : Nat} (tab : Vector Bank n) (base p : Nat) (h : p < n) :
    (mapRange tab page size (base + 1024 * bank) ro)[p] =
      if page ≤ p ∧ p < page + size then ⟨base + 1024 * (bank + (p - page)), ro, true⟩ else tab[p] := by
  rw [mapRange_getElem, Nat.mul_add, Nat.add_assoc]

/-- The same for the region at offset 0, which is PRG (R129). -/
theorem mapRange_prg_getElem {n : Nat} (tab : Vector Bank n) (p : Nat) (h : p < n) :
    (mapRange tab page size (1024 * bank) ro)[p] =
      if page ≤ p ∧ p < page + size then ⟨1024 * (bank + (p - page)), ro, true⟩ else tab[p] := by
  rw [mapRange_getElem, Nat.mul_add]

end Mapping

/-- Settles O14: the table `MAP` leaves is `mapRange`, whose entries are known. -/
theorem mapWritesConsecutiveDescriptors : Obligations.MapWritesConsecutiveDescriptors := by
  intro s m page size off ro hm hs
  exact ⟨fun hp => ⟨_, fun p => mapRange_getElem _ _ _ _ _ p.val p.isLt, mapping_completes hm (mapProc_cpu hp hs)⟩,
    fun hp => ⟨_, fun p => mapRange_getElem _ _ _ _ _ p.val p.isLt, mapping_completes hm (mapProc_ppu hp hs)⟩⟩

/-- Settles O15: the table `UNMAP` leaves is `unmapRange`, whose entries are known. -/
theorem unmapClearsMappedOnly : Obligations.UnmapClearsMappedOnly := by
  intro s m page size hm
  exact ⟨fun hp => ⟨_, fun p => unmapRange_getElem _ _ _ p.val p.isLt, mapping_completes hm (unmapProc_cpu hp)⟩,
    fun hp => ⟨_, fun p => unmapRange_getElem _ _ _ p.val p.isLt, mapping_completes hm (unmapProc_ppu hp)⟩⟩

/-- Settles O16: the table `MIRROR` leaves is `mirrorRange`, which copies from the table before it. -/
theorem mirrorCopiesTheSnapshot : Obligations.MirrorCopiesTheSnapshot := by
  intro s m page size stride hm
  exact ⟨fun hp => ⟨_, fun k hk hp' => mirrorRange_dest _ _ _ _ k hk hp',
      fun p => mirrorRange_other _ _ _ _ p.val p.isLt, mapping_completes hm (mirrorProc_cpu hp)⟩,
    fun hp => ⟨_, fun k hk hp' => mirrorRange_dest _ _ _ _ k hk hp',
      fun p => mirrorRange_other _ _ _ _ p.val p.isLt, mapping_completes hm (mirrorProc_ppu hp)⟩⟩

/-! ### `SETMIRROR`, page by page (R126) -/

/-- The block with its first `j` nametable pages, from page 8 up, at the banks of a mirroring mode. -/
def Mapper.nametablesTo (mode : Mirroring) (j : Nat) (m : Mapper) : Mapper :=
  m.setPputab (Vector.ofFn fun p : Fin 16 =>
    if 8 ≤ p.val ∧ p.val < 8 + j then ⟨m.cfg.ppuRamBase + 1024 * shownNametable mode (p.val - 8), false, true⟩
    else m.pputab[p])

@[simp] theorem Mapper.nametablesTo_cfg (mode : Mirroring) (j : Nat) (m : Mapper) :
    (m.nametablesTo mode j).cfg = m.cfg := rfl

theorem Mapper.nametablesTo_pputab (mode : Mirroring) (j : Nat) (m : Mapper) (p : Nat) (h : p < 16) :
    (m.nametablesTo mode j).pputab[p] =
      if 8 ≤ p ∧ p < 8 + j then ⟨m.cfg.ppuRamBase + 1024 * shownNametable mode (p - 8), false, true⟩
      else m.pputab[p] := by
  simp only [nametablesTo, Mapper.setPputab_pputab, Vector.getElem_ofFn, Fin.getElem_fin]

/-- Two blocks that are `m` but for their `PPUTAB` are equal when their `PPUTAB` entries are. -/
theorem Mapper.setPputab_ext (m : Mapper) {x y : Vector Bank 16} (h : ∀ (p : Nat) (hp : p < 16), x[p] = y[p]) :
    m.setPputab x = m.setPputab y := congrArg m.setPputab (Vector.ext h)

theorem Mapper.nametablesTo_zero (mode : Mirroring) (m : Mapper) : m.nametablesTo mode 0 = m := by
  refine m.setPputab_ext (y := m.pputab) fun p hp => ?_
  rw [Vector.getElem_ofFn, if_neg (by omega), Fin.getElem_fin]

/-- The mapping of nametable page `8 + j` by `SETMIRROR`. -/
def mapNametable (mode : Mirroring) (j : Nat) (m : Mapper) : ProcResult :=
  mapPpuRam (8 + j) 1 (shownNametable mode j) false m

theorem setMirror_eq (mode : Mirroring) (m : Mapper) :
    setMirror mode m = (mapNametable mode 0 (m.nametablesTo mode 0)).andThen fun m =>
      (mapNametable mode 1 m).andThen fun m => (mapNametable mode 2 m).andThen fun m =>
      (mapNametable mode 3 m).andThen fun m => mirrorProc .ppu 8 4 4 m := by
  rw [Mapper.nametablesTo_zero]
  cases mode <;> rfl

section Nametables

variable {mode : Mirroring} {m : Mapper} {j : Nat}

theorem mapNametable_done (hj : j < 8) (hb : shownNametable mode j < m.cfg.banksPpuRam) :
    mapNametable mode j (m.nametablesTo mode j) = .done (m.nametablesTo mode (j + 1)) := by
  refine (mapPpuRam_done (by omega) hb).trans (congrArg ProcResult.done
    (m.setPputab_ext (y := (m.nametablesTo mode (j + 1)).pputab) fun p hp => ?_))
  rw [mapRange_one, Mapper.nametablesTo_pputab, Mapper.nametablesTo_pputab, Mapper.nametablesTo_cfg]
  by_cases h : p = 8 + j
  · rw [if_pos h, if_pos (by omega), show p - 8 = j by omega]
  · have hiff : (8 ≤ p ∧ p < 8 + (j + 1)) ↔ (8 ≤ p ∧ p < 8 + j) := by omega
    simp only [if_neg h, hiff]

theorem mapNametable_storeBounds (hb : m.cfg.banksPpuRam ≤ shownNametable mode j) :
    mapNametable mode j (m.nametablesTo mode j) = .violation .storeBounds (m.nametablesTo mode j) :=
  mapPpuRam_eq.trans (mapRegion_storeBounds (Nat.lt_succ_of_le hb))

theorem Mapper.showing_pputab (mode : Mirroring) (m : Mapper) (p : Nat) (h : p < 16) :
    (m.showing mode).pputab[p] = if p < 8 then m.pputab[p] else ppuEntry mode m p := by
  simp only [showing, Vector.getElem_ofFn, Fin.getElem_fin]

/-- The four nametable pages mirrored to their copies are the whole mode. -/
theorem mirrorProc_nametables :
    mirrorProc .ppu 8 4 4 (m.nametablesTo mode 4) = .done (m.showing mode) := by
  refine (mirrorProc_ppu (by decide)).trans (congrArg ProcResult.done
    (m.setPputab_ext (y := (m.showing mode).pputab) fun p hp => ?_))
  simp only [mirrorRange_nametables, Mapper.nametablesTo_pputab, Mapper.showing_pputab]
  rcases Nat.lt_or_ge p 8 with h8 | h8
  · rw [if_neg (by omega), if_neg (by omega), if_pos h8]
  rw [if_neg (Nat.not_lt.mpr h8), ppuEntry_nametable mode m p h8]
  rcases Nat.lt_or_ge p 12 with h12 | h12
  · rw [if_neg (by omega), if_pos (by omega), show p % 4 = p - 8 by omega]
  · rw [if_pos h12, if_pos (by omega), show p % 4 = p - 4 - 8 by omega]

/-- `SETMIRROR` completes when each bank its mode names exists. -/
theorem setMirror_done_of_banks (hb : ∀ j, j < 4 → shownNametable mode j < m.cfg.banksPpuRam) :
    setMirror mode m = .done (m.showing mode) := by
  have hstep : ∀ j, j < 4 → mapNametable mode j (m.nametablesTo mode j) = .done (m.nametablesTo mode (j + 1)) :=
    fun j hj => mapNametable_done (by omega) (hb j hj)
  rw [setMirror_eq, hstep 0 (by decide), andThen_done, hstep 1 (by decide), andThen_done, hstep 2 (by decide),
    andThen_done, hstep 3 (by decide), andThen_done, mirrorProc_nametables]

/-- In four-screen mode page `8 + j` needs bank `j`: the pages before the first absent bank are mapped. -/
theorem setMirror_fourScreen_violation (hb : m.cfg.banksPpuRam < 4) :
    setMirror .fourScreen m = .violation .storeBounds (m.nametablesTo .fourScreen m.cfg.banksPpuRam) := by
  have hstep : ∀ j, j < m.cfg.banksPpuRam →
      mapNametable .fourScreen j (m.nametablesTo .fourScreen j) = .done (m.nametablesTo .fourScreen (j + 1)) :=
    fun j hj => mapNametable_done (by omega) hj
  have hstop : mapNametable .fourScreen m.cfg.banksPpuRam (m.nametablesTo .fourScreen m.cfg.banksPpuRam) =
      .violation .storeBounds (m.nametablesTo .fourScreen m.cfg.banksPpuRam) := mapNametable_storeBounds (Nat.le_refl _)
  rw [setMirror_eq]
  generalize m.cfg.banksPpuRam = banks at *
  have hcases : banks = 0 ∨ banks = 1 ∨ banks = 2 ∨ banks = 3 := by omega
  rcases hcases with rfl | rfl | rfl | rfl
  · rw [hstop, andThen_violation]
  · rw [hstep 0 (by decide), andThen_done, hstop, andThen_violation]
  · rw [hstep 0 (by decide), andThen_done, hstep 1 (by decide), andThen_done, hstop, andThen_violation]
  · rw [hstep 0 (by decide), andThen_done, hstep 1 (by decide), andThen_done, hstep 2 (by decide), andThen_done,
      hstop, andThen_violation]

end Nametables

/-- Settles O17: `SETMIRROR` goes through the mode's banks, and a four-screen mode stops at the first absent one. -/
theorem setMirrorPointsTheNametablePages : Obligations.SetMirrorPointsTheNametablePages := by
  refine ⟨fun s m mode b hm hmode hbanks => ?_, fun s m hm hb => ?_⟩
  · have hbank : ∀ k : Fin 4, b[k] = nametableBank mode k := by
      rw [hmode]
      cases mode <;> exact fun _ => rfl
    have hshown : ∀ k : Fin 4, b[k] = shownNametable mode k.val := fun k => (hbank k).trans (nametableBank_eq mode k)
    have hdone : setMirror mode m = .done (m.showing mode) :=
      setMirror_done_of_banks fun j hj => by
        rw [← hshown ⟨j, hj⟩]
        exact hbanks ⟨j, hj⟩
    refine ⟨(m.showing mode).pputab, fun p hp => ?_, fun k => ⟨?_, ?_⟩, mapping_completes hm hdone⟩
    · exact (m.showing_pputab mode p.val p.isLt).trans (if_pos hp)
    · rw [hshown, Mapper.showing_pputab, if_neg (by omega), ppuEntry_nametable _ _ _ (by omega),
        show (8 + k.val) % 4 = k.val by omega]
    · rw [hshown, Mapper.showing_pputab, if_neg (by omega), ppuEntry_nametable _ _ _ (by omega),
        show (12 + k.val) % 4 = k.val by omega]
  · exact ⟨_, fun p => m.nametablesTo_pputab .fourScreen _ p.val p.isLt,
      mapping_violates hm (setMirror_fourScreen_violation hb)⟩

/-- Settles O18: each helper completes as `MAP` of its region, or fails at the region's check before the table's. -/
theorem regionHelpersMapTheirRegion : Obligations.RegionHelpersMapTheirRegion := by
  intro s m page size bank ro hm fatal
  refine ⟨fun hp hb => ⟨_, ?_, mapping_completes hm (mapCpuRam_done hp hb)⟩,
    fun hp hb => ⟨_, ?_, mapping_completes hm (mapPpuRam_done hp hb)⟩,
    fun hp hb => ⟨_, ?_, mapping_completes hm (mapPrg_done hp hb)⟩,
    fun hp hb => ⟨_, ?_, mapping_completes hm (mapChr_done hp hb)⟩,
    fun hb => mapping_violates hm (mapCpuRam_eq.trans (mapRegion_storeBounds hb)),
    fun hb hp => mapping_violates hm (mapCpuRam_eq.trans (mapRegion_tableBounds hb hp)),
    fun hb => mapping_violates hm (mapPpuRam_eq.trans (mapRegion_storeBounds hb)),
    fun hb hp => mapping_violates hm (mapPpuRam_eq.trans (mapRegion_tableBounds hb hp)),
    fun hb => mapping_violates hm (mapPrg_eq.trans (mapRegion_storeBounds hb)),
    fun hb hp => mapping_violates hm (mapPrg_eq.trans (mapRegion_tableBounds hb hp)),
    fun hb => mapping_violates hm (mapChr_eq.trans (mapRegion_storeBounds hb)),
    fun hb hp => mapping_violates hm (mapChr_eq.trans (mapRegion_tableBounds hb hp))⟩
  · exact fun p => mapRange_region_getElem _ _ p.val p.isLt
  · exact fun p => mapRange_region_getElem _ _ p.val p.isLt
  · exact fun p => mapRange_prg_getElem _ p.val p.isLt
  · exact fun p => mapRange_region_getElem _ _ p.val p.isLt

/-- Settles O19: the table check comes first, then the store check of `MAP`; a failed check leaves the block. -/
theorem mappingBoundsAreFatal : Obligations.MappingBoundsAreFatal := by
  intro s m tb page size off stride ro hm len fatal
  have hlen : len = tableLen tb := rfl
  rw [hlen]
  exact ⟨fun hp => mapping_violates hm (mapProc_tableBounds hp),
    fun hp hs => mapping_violates hm (mapProc_storeBounds hp hs),
    fun hp => mapping_violates hm (unmapProc_tableBounds hp),
    fun hp => mapping_violates hm (mirrorProc_tableBounds hp)⟩

end Sys2Proof.Machine

/-! ## The default bus operations (R141 to R147)

Each access of the block is one `withRead` or `withWrite` of the page its address names. A read that answers returns
`pageByte`, whatever the operation around it does to registers and tables, so two states whose blocks agree in
configuration, store and tables answer every read alike. -/

namespace Sys2Proof.Machine

/-! ### What the shared read and write do on a page (R74, R75) -/

section Pages

variable {m : Mapper} {e : Bank} {intra draws : Nat} {v : Byte}

/-- A read that answers has continued with the byte of the page and the draw counter after it. -/
theorem withRead_next {t : State} {k : Byte → Nat → Host.Outcome State Fault Refusal}
    (h : withRead m e intra draws k = .next t) :
    k (m.pageByte e intra draws) (drawsAfter e draws) = .next t := by
  rcases withRead_cases m e intra draws k with ⟨he, -, hk⟩ | ⟨he, hk⟩ | ⟨-, -, hk⟩
  · simpa [Mapper.pageByte, drawsAfter, he] using hk.symm.trans h
  · simpa [Mapper.pageByte, drawsAfter, he] using hk.symm.trans h
  · simp [hk] at h

/-- A read of a page that is unmapped or inside the store continues. -/
theorem withRead_of_holds (he : m.holds e) (hi : intra < 1024) (k : Byte → Nat → Host.Outcome State Fault Refusal) :
    withRead m e intra draws k = k (m.pageByte e intra draws) (drawsAfter e draws) := by
  rcases withRead_cases m e intra draws k with ⟨hmap, -, hk⟩ | ⟨hmap, hk⟩ | ⟨hmap, hout, -⟩
  · simp [hk, Mapper.pageByte, drawsAfter, hmap]
  · simp [hk, Mapper.pageByte, drawsAfter, hmap]
  · have hin := he hmap
    omega

theorem withWrite_readOnly (hr : e.ro = true) (k : Mapper → Host.Outcome State Fault Refusal) :
    withWrite m e intra v k = k m := by
  rcases withWrite_cases m e intra v k with ⟨-, hk⟩ | ⟨-, hro, -⟩ | ⟨-, hro, -⟩
  · exact hk
  · simp [hr] at hro
  · simp [hr] at hro

theorem Mapper.storeAfter_discarded (h : e.mapped = false ∨ e.ro = true) : m.StoreAfter e intra v m.store := by
  refine ⟨id, fun ⟨hmap, hro⟩ => ?_, fun _ => rfl⟩
  simp [hmap, hro] at h

theorem Mapper.storeAfter_written (hmap : e.mapped = true) (hro : e.ro = false) (hw : Memory.wf m.store = true) :
    m.StoreAfter e intra v (Memory.write m.store (e.off + intra) v) :=
  ⟨Memory.write_wf m.store _ v, fun _ i => Memory.read_write m.store _ v i hw, fun h => absurd ⟨hmap, hro⟩ h⟩

/-- A write of a page that is unmapped or inside the store continues with the store of R142. -/
theorem withWrite_of_holds (hw : Memory.wf m.store = true) (he : m.holds e) (hi : intra < 1024)
    (k : Mapper → Host.Outcome State Fault Refusal) :
    ∃ st, m.StoreAfter e intra v st ∧ withWrite m e intra v k = k (m.setStore st) := by
  rcases withWrite_cases m e intra v k with ⟨hd, hk⟩ | ⟨hmap, hro, -, hk⟩ | ⟨hmap, -, hout, -⟩
  · exact ⟨m.store, Mapper.storeAfter_discarded hd, hk⟩
  · exact ⟨_, Mapper.storeAfter_written hmap hro hw, hk⟩
  · have hin := he hmap
    omega

end Pages

/-! ### The operations on a live block, as accesses of a page (R141, R142, R144, R145, R223, R228) -/

section Operations

variable {s : State} {m : Mapper}

theorem State.reply_live (hm : s.Live m) (o : Output) : s.reply m o = { s with out := o } := by
  rw [State.reply, ← hm.1]

theorem State.replyDraw_live (hm : s.Live m) (o : Output) (d : Nat) :
    s.replyDraw m o d = { s with out := o, draws := d } := by
  rw [State.replyDraw, ← hm.1]

theorem State.LiveAs.reply_setStore {v : Variant} (hm : s.LiveAs v m) (st : Memory) (o : Output) :
    (s.reply (m.setStore st) o).LiveAs v (m.setStore st) := by
  obtain ⟨hlive, hv⟩ := hm
  exact ⟨hlive.reply_setStore st o, hv⟩

/-- An observation and a write of the store leave a live block of `IRQ`. -/
theorem State.LiveAs.reply_observe (hm : s.LiveAs .irq m) (h : Bool) (st : Memory) (o : Output) :
    (s.reply ((observeBlock m h).1.setStore st) o).LiveAs .irq ((observeBlock m h).1.setStore st) := by
  obtain ⟨⟨-, hf⟩, hv⟩ := hm
  exact ⟨⟨rfl, hf⟩, hv⟩

/-- An operation that leaves the block alone leaves a machine on which every operation does the same. -/
theorem exec_reply_live (hm : s.Live m) (o : Output) (i : Instr) : exec i (s.reply m o) = exec i s := by
  rw [State.reply_live hm, exec_setOut]

theorem exec_rdcpu_live (hm : s.Live m) (a : CpuAddr) :
    exec (.rdcpu a) s = withRead m (m.cpuPageAt a) (a.toNat % 1024) s.draws fun b d =>
      .next (s.replyDraw m (Output.ofRead b false) d) := by
  rw [← cpuBank_eq, ← cpuIntra_eq]
  exact withBlock_live hm _

theorem exec_rdppu_live (hm : s.Live m) (a : PpuAddr) :
    exec (.rdppu a) s = withRead m (m.ppuPageAt a) (a.toNat % 1024) s.draws fun b d =>
      .next (s.replyDraw m (Output.ofRead b false) d) := by
  rw [← ppuBank_eq, ← ppuIntra_eq]
  exact withBlock_live hm _

theorem exec_wrcpu_live (hm : s.Live m) (a : CpuAddr) (v : Byte) :
    exec (.wrcpu a v) s = withWrite m (m.cpuPageAt a) (a.toNat % 1024) v fun m' =>
      .next (s.reply m' Output.quiet) := by
  rw [← cpuBank_eq, ← cpuIntra_eq]
  exact withBlock_live hm _

theorem exec_wrppu_live (hm : s.Live m) (a : PpuAddr) (v : Byte) :
    exec (.wrppu a v) s = withWrite m (m.ppuPageAt a) (a.toNat % 1024) v fun m' =>
      .next (s.reply m' Output.quiet) := by
  rw [← ppuBank_eq, ← ppuIntra_eq]
  exact withBlock_live hm _

/-- The observation changes registers alone, so the page is that of the block the read starts with. -/
theorem exec_irqRdppu_live (hm : s.LiveAs .irq m) (a : PpuAddr) :
    exec (.irqRdppu a) s =
      withRead (observeBlock m (a.getLsbD 12)).1 (m.ppuPageAt a) (a.toNat % 1024) s.draws fun b d =>
        .next (s.replyDraw (observeBlock m (a.getLsbD 12)).1
          (Output.ofRead b (observeBlock m (a.getLsbD 12)).2) d) := by
  rw [← ppuBank_eq, ← ppuIntra_eq]
  exact withVariant_live hm _

theorem exec_irqWrppu_live (hm : s.LiveAs .irq m) (a : PpuAddr) (v : Byte) :
    exec (.irqWrppu a v) s =
      withWrite (observeBlock m (a.getLsbD 12)).1 (m.ppuPageAt a) (a.toNat % 1024) v fun m' =>
        .next (s.reply m' (Output.ofIrq (observeBlock m (a.getLsbD 12)).2)) := by
  rw [← ppuBank_eq, ← ppuIntra_eq]
  exact withVariant_live hm _

end Operations

/-- Settles O21: on a page that holds, `withRead` continues with the byte and the draw counter. -/
theorem readsReturnTheStoreByteOrTheDraw : Obligations.ReadsReturnTheStoreByteOrTheDraw := by
  refine ⟨fun s m a hm he => ?_, fun s m a hm he => ?_⟩
  · rw [exec_rdcpu_live hm, withRead_of_holds he (Nat.mod_lt _ (by decide)), State.replyDraw_live hm]
    rfl
  · rw [exec_rdppu_live hm, withRead_of_holds he (Nat.mod_lt _ (by decide)), State.replyDraw_live hm]
    rfl

/-- Settles O22: on a page that holds, `withWrite` continues with the block and the store of R142. -/
theorem writesStoreOneByteOrNothing : Obligations.WritesStoreOneByteOrNothing := by
  refine ⟨fun s m a v hm hw he => ?_, fun s m a v hm hw he => ?_⟩
  · rw [exec_wrcpu_live hm]
    exact withWrite_of_holds hw he (Nat.mod_lt _ (by decide)) _
  · rw [exec_wrppu_live hm]
    exact withWrite_of_holds hw he (Nat.mod_lt _ (by decide)) _

/-- Settles O25: `TICK` replies with the block it found. -/
theorem tickDoesNothing : Obligations.TickDoesNothing := fun s m hm => by
  have htick : exec .tick s = .next (s.reply m Output.quiet) := withBlock_live hm _
  rw [htick, State.reply_live hm]
  rfl

/-! ### The byte a read returns -/

section Reads

variable {s t : State} {m : Mapper}

theorem rdcpu_data (hm : s.Live m) {a : CpuAddr} (h : exec (.rdcpu a) s = .next t) :
    t.out.data = some (m.pageByte (m.cpuPageAt a) (a.toNat % 1024) s.draws) := by
  rw [exec_rdcpu_live hm] at h
  obtain rfl := Host.Outcome.next.inj (withRead_next h)
  rfl

theorem rdppu_data (hm : s.Live m) {a : PpuAddr} (h : exec (.rdppu a) s = .next t) :
    t.out.data = some (m.pageByte (m.ppuPageAt a) (a.toNat % 1024) s.draws) := by
  rw [exec_rdppu_live hm] at h
  obtain rfl := Host.Outcome.next.inj (withRead_next h)
  rfl

theorem irqRdppu_data (hm : s.LiveAs .irq m) {a : PpuAddr} (h : exec (.irqRdppu a) s = .next t) :
    t.out.data = some (m.pageByte (m.ppuPageAt a) (a.toNat % 1024) s.draws) := by
  rw [exec_irqRdppu_live hm] at h
  obtain rfl := Host.Outcome.next.inj (withRead_next h)
  rfl

/-- A trigger's remap completes: the latches select among registers that hold masked values (R31, R246). -/
theorem triggerRemap_done (hl : m.cfg.legal = true) (hv : m.cfg.variant = .latch) (hr : m.regsLegal = true)
    (a : PpuAddr) : ∃ m', triggerRemap m a = .done m' := by
  obtain ⟨-, -, -, hlatch⟩ := regsLegal_iff.mp hr
  unfold triggerRemap
  split
  · exact ⟨_, latchRemap_done hl hv (latchLegal_latch hlatch hv _)⟩
  · exact ⟨m, rfl⟩

/-- The byte comes through the mapping the read starts with, whatever its trigger remaps (R249). -/
theorem latchRdppu_data {a : PpuAddr} (hm : s.LiveAs .latch m) (h : exec (.latchRdppu a) s = .next t)
    (hl : m.cfg.legal = true) (hr : m.regsLegal = true) :
    t.out.data = some (m.pageByte (m.ppuPageAt a) (a.toNat % 1024) s.draws) := by
  obtain ⟨m', hdone⟩ := triggerRemap_done hl hm.2 hr a
  have hread := (withVariant_live hm _).symm.trans h
  rw [ppuRead, ppuBank_eq, ppuIntra_eq, hdone] at hread
  obtain rfl := Host.Outcome.next.inj (withRead_next hread)
  rfl

end Reads

/-! ### A write, then a read at the same address (R147) -/

section ReadBack

variable {s t u : State} {m : Mapper} {a : PpuAddr} {v : Byte}

theorem Mapper.pageByte_setStore_write {e : Bank} (he : e.mapped = true) (hw : Memory.wf m.store = true)
    (k draws : Nat) : (m.setStore (Memory.write m.store (e.off + k) v)).pageByte e k draws = v := by
  rw [Mapper.pageByte, if_pos he, Mapper.setStore_store, Memory.read_write_same hw]

theorem irqRdppu_after_irqWrppu (hm : s.LiveAs .irq m) (hw : Memory.wf m.store = true)
    (hwr : exec (.irqWrppu a v) s = .next t) (he : (m.ppuPageAt a).mapped = true) (hr : (m.ppuPageAt a).ro = false)
    (hrd : exec (.irqRdppu a) t = .next u) : u.out.data = some v := by
  rw [exec_irqWrppu_live hm] at hwr
  obtain rfl := Host.Outcome.next.inj (withWrite_writable_next he hr hwr)
  rw [irqRdppu_data (hm.reply_observe _ _ _) hrd]
  exact congrArg some (Mapper.pageByte_setStore_write (m := (observeBlock m (a.getLsbD 12)).1) he hw _ _)

theorem latchRdppu_after_wrppu (hm : s.LiveAs .latch m) (hl : m.cfg.legal = true) (hregs : m.regsLegal = true)
    (hw : Memory.wf m.store = true) (hwr : exec (.wrppu a v) s = .next t) (he : (m.ppuPageAt a).mapped = true)
    (hr : (m.ppuPageAt a).ro = false) (hrd : exec (.latchRdppu a) t = .next u) : u.out.data = some v := by
  obtain rfl := wrppu_writable_next hm.1 he hr hwr
  rw [latchRdppu_data (hm.reply_setStore _ _) hrd hl hregs]
  exact congrArg some (Mapper.pageByte_setStore_write he hw _ _)

end ReadBack

/-! ### A write to a read-only page (R147) -/

section ReadOnly

variable {s t : State} {m : Mapper} {v : Byte}

theorem wrcpu_readOnly_next (hm : s.Live m) {a : CpuAddr} (hr : (m.cpuPageAt a).ro = true)
    (h : exec (.wrcpu a v) s = .next t) : t = s.reply m Output.quiet := by
  rw [exec_wrcpu_live hm, withWrite_readOnly hr] at h
  exact (Host.Outcome.next.inj h).symm

theorem wrppu_readOnly_next (hm : s.Live m) {a : PpuAddr} (hr : (m.ppuPageAt a).ro = true)
    (h : exec (.wrppu a v) s = .next t) : t = s.reply m Output.quiet := by
  rw [exec_wrppu_live hm, withWrite_readOnly hr] at h
  exact (Host.Outcome.next.inj h).symm

theorem irqWrppu_readOnly_next (hm : s.LiveAs .irq m) {a : PpuAddr} (hr : (m.ppuPageAt a).ro = true)
    (h : exec (.irqWrppu a v) s = .next t) :
    t = s.reply (observeBlock m (a.getLsbD 12)).1 (Output.ofIrq (observeBlock m (a.getLsbD 12)).2) := by
  rw [exec_irqWrppu_live hm, withWrite_readOnly hr] at h
  exact (Host.Outcome.next.inj h).symm

/-- An observation changes no byte that a read of either bus returns. -/
theorem read_data_after_observe (hm : s.LiveAs .irq m) {h : Bool} {o : Output} {i : Instr}
    (hi : (∃ b, i = .rdcpu b) ∨ (∃ b, i = .rdppu b) ∨ (∃ b, i = .irqRdppu b)) {u w : State}
    (hu : exec i (s.reply (observeBlock m h).1 o) = .next u) (hw : exec i s = .next w) : u.out.data = w.out.data := by
  have hobserved : (s.reply (observeBlock m h).1 o).LiveAs .irq (observeBlock m h).1 :=
    hm.reply_observe h m.store o
  rcases hi with ⟨b, rfl⟩ | ⟨b, rfl⟩ | ⟨b, rfl⟩
  · exact (rdcpu_data hobserved.1 hu).trans (rdcpu_data hm.1 hw).symm
  · exact (rdppu_data hobserved.1 hu).trans (rdppu_data hm.1 hw).symm
  · exact (irqRdppu_data hobserved hu).trans (irqRdppu_data hm hw).symm

end ReadOnly

/-- Settles O23: the read finds the byte the write stored; a discarded default write leaves the block, and a discarded
`IRQ.WRPPU` leaves its store and its tables. -/
theorem readBackAfterWrite : Obligations.ReadBackAfterWrite := by
  refine ⟨fun s t u m a v hm hw hwr he hr => rdcpu_after_wrcpu hm hw hwr he hr he rfl rfl,
    fun s t u m a v hm hw hwr he hr => rdppu_after_wrppu hm hw hwr he hr he rfl rfl,
    fun s t u m a v => irqRdppu_after_irqWrppu, fun s t u m a v => latchRdppu_after_wrppu,
    fun s t m a v i hm hwr hr => ?_, fun s t m a v i hm hwr hr => ?_, fun s t m a v i hm hwr hr hi u w hu hw => ?_⟩
  · obtain rfl := wrcpu_readOnly_next hm hr hwr
    exact exec_reply_live hm _ i
  · obtain rfl := wrppu_readOnly_next hm hr hwr
    exact exec_reply_live hm _ i
  · obtain rfl := irqWrppu_readOnly_next hm hr hwr
    exact read_data_after_observe hm hi hu hw

end Sys2Proof.Machine

/-! ## The selects of the direct-mapped family (R164, R168, R172, R176, R180)

Each select completes with a masked register and the tables its procedures make. What is left to say is what those
tables hold, window by window, and which bits of the byte each selection takes. -/

namespace Sys2Proof.Machine

section Selects

variable {p : Nat}

/-- A window of 32 pages from page 32 reaches the end of `CPUTAB`. -/
theorem wholePrgWindow_getElem (t : Vector Bank 64) (bank : Nat) (h : p < 64) :
    (mapRange t 32 32 (1024 * bank) true)[p] =
      if 32 ≤ p then ⟨1024 * (bank + (p - 32)), true, true⟩ else t[p] := by
  have hiff : (32 ≤ p ∧ p < 32 + 32) ↔ 32 ≤ p := and_iff_left h
  simp only [prgWindow_getElem, hiff]

/-- A window of 8 pages from page 0 is the CHR half of `PPUTAB`. -/
theorem chrPages_getElem (t : Vector Bank 16) (base bank : Nat) (ro : Bool) (h : p < 16) :
    (mapRange t 0 8 (base + 1024 * bank) ro)[p] = if p < 8 then ⟨base + 1024 * (bank + p), ro, true⟩ else t[p] := by
  have hiff : (0 ≤ p ∧ p < 0 + 8) ↔ p < 8 := by omega
  simp only [chrWindow_getElem, hiff, Nat.sub_zero]

/-- A one-screen mode shows one PPU RAM bank at all nametable pages (R126). -/
theorem shownNametable_oneScreen (high : Bool) (k : Nat) :
    shownNametable (oneScreen high) k = if high then 1 else 0 := by
  cases high <;> rfl

theorem Mapper.showing_oneScreen_pputab (m : Mapper) (high : Bool) (h : p < 16) :
    (m.showing (oneScreen high)).pputab[p] =
      if p < 8 then m.pputab[p] else ⟨m.cfg.ppuRamBase + 1024 * (if high then 1 else 0), false, true⟩ := by
  rw [Mapper.showing_pputab]
  split
  · rfl
  · rw [ppuEntry_nametable _ _ _ (by omega), shownNametable_oneScreen]

/-- A mirroring mode sets `PPUTAB` alone (R126). -/
theorem Mapper.showing_eq_setPputab (m : Mapper) (mode : Mirroring) :
    m.showing mode = m.setPputab (m.showing mode).pputab := rfl

/-- The block after a select that moves both tables, field by field. -/
theorem Mapper.setDirect_tables (m : Mapper) (q : DirectRegs) (ct : Vector Bank 64) (pt : Vector Bank 16) :
    ((m.setDirect q).setCputab ct).setPputab pt = { m with direct := q, cputab := ct, pputab := pt } := rfl

end Selects

/-- Settles O26: the low window of 16 pages takes the masked unit. -/
theorem uxromSelectSwitchesTheLowWindow : Obligations.UxromSelectSwitchesTheLowWindow := fun _ _ v hm hl =>
  ⟨_, fun p => prgWindow_getElem _ 32 16 _ p.val p.isLt, uxromSel_done v hm hl⟩

/-- Settles O27: the CHR pages take the masked unit. -/
theorem cnromSelectSwitchesChr : Obligations.CnromSelectSwitchesChr := fun _ _ v hm hl =>
  ⟨_, fun p => chrPages_getElem _ _ _ _ p.isLt, cnromSel_done v hm hl⟩

/-- Settles O28: the whole PRG window takes the bank of bits 2:0, and bit 4 sets the one-screen mode. -/
theorem axromSelectSwitchesPrgAndScreen : Obligations.AxromSelectSwitchesPrgAndScreen := by
  intro s m v hm hl
  have hprg : field v 0 3 = v.toNat % 8 := by simp only [field_toNat, Nat.reducePow, Nat.div_one]
  have hdone := axromSel_done v hm hl
  rw [Mapper.showing_eq_setPputab, Mapper.setDirect_tables, hprg] at hdone
  refine ⟨_, _, fun p => wholePrgWindow_getElem _ _ p.isLt, fun p => ?_, hdone⟩
  refine (Mapper.showing_oneScreen_pputab _ _ p.isLt).trans ?_
  simp only [Mapper.setCputab_pputab, Mapper.setDirect_pputab, Mapper.setCputab_cfg, Mapper.setDirect_cfg,
    Fin.getElem_fin, ← Nat.not_lt, ite_not]

/-- Settles O29: the whole PRG window takes the bank of bits 5:4, the CHR pages the bank of bits 1:0. -/
theorem gxromSelectSwitchesPrgAndChr : Obligations.GxromSelectSwitchesPrgAndChr := by
  intro s m v hm hl
  have hprg : field v 4 2 = v.toNat / 16 % 4 := by simp only [field_toNat, Nat.reducePow]
  have hchr : field v 0 2 = v.toNat % 4 := by simp only [field_toNat, Nat.reducePow, Nat.div_one]
  have hdone := gxromSel_done v hm hl
  rw [Mapper.setDirect_tables, hprg, hchr] at hdone
  exact ⟨_, _, fun p => wholePrgWindow_getElem _ _ p.isLt, fun p => chrPages_getElem _ _ _ _ p.isLt, hdone⟩

/-- Settles O30: the low PRG window takes the bank of bits 4:0, the CHR pages that of bits 6:5, and bit 7 sets the
one-screen mode on the pages above them. -/
theorem unrom512SelectSwitchesAll : Obligations.Unrom512SelectSwitchesAll := by
  intro s m v hm hl
  have hprg : field v 0 5 = v.toNat % 32 := by simp only [field_toNat, Nat.reducePow, Nat.div_one]
  have hchr : field v 5 2 = v.toNat / 32 % 4 := by simp only [field_toNat, Nat.reducePow]
  have hdone := unrom512Sel_done v hm hl
  rw [Mapper.showing_eq_setPputab, Mapper.setPputab_setPputab, Mapper.setDirect_tables, hprg, hchr] at hdone
  refine ⟨_, _, fun p => prgWindow_getElem _ 32 16 _ p.val p.isLt, fun p => ?_, hdone⟩
  refine (Mapper.showing_oneScreen_pputab _ _ p.isLt).trans ?_
  exact ite_congr rfl (fun h8 => (chrPages_getElem _ _ _ _ p.isLt).trans (if_pos h8)) fun _ => rfl

end Sys2Proof.Machine

/-! ## The serial-protocol variant (R191 to R200)

The remap completes with the block its registers lay out, so every operation of the variant is told by the registers it
leaves. A group of five writes is told by one predicate, `Collecting`, with one rule per operation that can stand in it. -/

namespace Sys2Proof.Machine

/-! ### The registers -/

theorem shiftIn_eq_ofNat (sr : BitVec 5) (bit : Bool) :
    shiftIn sr bit = BitVec.ofNat 5 (sr.toNat / 2 + if bit then 16 else 0) := by
  rw [← shiftIn_toNat, BitVec.ofNat_toNat, BitVec.setWidth_eq]

/-- A load and the clearing of `sr` and `cnt`, register by register. -/
theorem ShiftRegs.load_cleared (q : ShiftRegs) (target : BitVec 2) (value : BitVec 5) :
    { q.load target value with sr := 0#5, cnt := 0#3 } =
      (match target.toNat with
        | 0 => { q with sr := 0#5, cnt := 0#3, ctrl := value }
        | 1 => { q with sr := 0#5, cnt := 0#3, chr0 := value }
        | 2 => { q with sr := 0#5, cnt := 0#3, chr1 := value }
        | _ => { q with sr := 0#5, cnt := 0#3, prg := value }) := by
  rw [ShiftRegs.load]
  generalize target.toNat = n
  match n with
  | 0 => rfl
  | 1 => rfl
  | 2 => rfl
  | _ + 3 => rfl

/-- Five bits shifted in from the top: the first ends at bit 0, and nothing of the old `sr` is left (R194). -/
theorem shiftIn_five (sr : BitVec 5) (v0 v1 v2 v3 v4 : Bool) :
    shiftIn (shiftIn (shiftIn (shiftIn (shiftIn sr v0) v1) v2) v3) v4 =
      BitVec.ofNat 5 (16 * v4.toNat + 8 * v3.toNat + 4 * v2.toNat + 2 * v1.toNat + v0.toNat) := by
  have hbit : ∀ b : Bool, (if b then 16 else 0) = 16 * b.toNat := by decide
  rw [shiftIn_eq_ofNat]
  simp only [shiftIn_toNat, hbit]
  refine congrArg (BitVec.ofNat 5) ?_
  have hsr := sr.isLt
  omega

@[simp] theorem ShiftRegs.collect_cnt (q : ShiftRegs) (bit : Bool) : (q.collect bit).cnt = q.cnt + 1#3 := rfl

/-! ### The operations on a live block (R193 to R199) -/

section Operations

variable {s : State} {m : Mapper}

theorem State.LiveAs.reply_setShift {v : Variant} (hm : s.LiveAs v m) (q : ShiftRegs) (o : Output) :
    (s.reply (m.setShift q) o).LiveAs v (m.setShift q) := by
  obtain ⟨⟨-, hf⟩, hv⟩ := hm
  exact ⟨⟨rfl, hf⟩, hv⟩

/-- An operation that ends in the remap completes with the tables its registers show (R199). -/
theorem finish_shiftRemap (hl : m.cfg.legal = true) (hv : m.cfg.variant = .shift) (s : State) :
    finish s (shiftRemap m) =
      .next (s.reply (m.laidOut.showing (ctrlMirroring m.shift.ctrl)) Output.quiet) := by
  rw [shiftRemap_done hl hv, finish_done]

theorem exec_shiftBit_collects {target : BitVec 2} {bit : Bool} (hm : s.LiveAs .shift m)
    (hcnt : m.shift.cnt.toNat < 4) :
    exec (.shiftBit target bit) s = .next (s.reply (m.setShift (m.shift.collect bit)) Output.quiet) :=
  (withVariant_live hm _).trans (if_pos (BitVec.lt_def.mpr hcnt))

theorem exec_shiftBit_loads {target : BitVec 2} {bit : Bool} (hm : s.LiveAs .shift m) (hl : m.cfg.legal = true)
    (hcnt : 4 ≤ m.shift.cnt.toNat) :
    exec (.shiftBit target bit) s = .next (s.reply ((m.setShift (m.shift.fifth target bit)).laidOut.showing
      (ctrlMirroring (m.shift.fifth target bit).ctrl)) Output.quiet) := by
  have hfifth : ¬ m.shift.cnt < 4#3 := fun h => Nat.not_lt.mpr hcnt (BitVec.lt_def.mp h)
  exact ((withVariant_live hm _).trans (if_neg hfifth)).trans
    (finish_shiftRemap (m := m.setShift (m.shift.fifth target bit)) hl hm.2 s)

end Operations

/-- Settles O34: each load is its one register write. -/
theorem shiftLoadsWriteTheirRegister : Obligations.ShiftLoadsWriteTheirRegister := fun _ _ _ hm =>
  ⟨withVariant_live hm _, withVariant_live hm _, withVariant_live hm _, withVariant_live hm _⟩

theorem exec_shiftRemap {s : State} {m : Mapper} (hm : s.LiveAs .shift m) (hl : m.cfg.legal = true) :
    exec .shiftRemap s = .next (s.reply (m.laidOut.showing (ctrlMirroring m.shift.ctrl)) Output.quiet) :=
  (withVariant_live hm _).trans (finish_shiftRemap hl hm.2 s)

/-- Settles O32: the reset write's registers, then the remap. -/
theorem shiftResetWrite : Obligations.ShiftResetWrite := fun s m hm hl =>
  (withVariant_live hm _).trans (finish_shiftRemap (m := m.setShift m.shift.resetWrite) hl hm.2 s)

/-- Settles O33: a write below `cnt = 4` collects its bit, any other loads and remaps. -/
theorem shiftBitCollectsAndLoads : Obligations.ShiftBitCollectsAndLoads := by
  intro s m target bit hm
  refine ⟨fun hcnt => ?_, fun hcnt hl value q hvalue hq => ?_⟩
  · rw [exec_shiftBit_collects hm hcnt, ShiftRegs.collect, shiftIn_eq_ofNat]
    rfl
  · have hfifth : q = m.shift.fifth target bit := by
      rw [ShiftRegs.fifth, shiftIn_eq_ofNat, ← hvalue]
      exact hq.trans (m.shift.load_cleared target value).symm
    rw [exec_shiftBit_loads hm hl hcnt, hfifth]
    rfl

/-! ### What the remap shows, in arithmetic (R28, R199) -/

theorem ctrlPrgMode_eq (ctrl : BitVec 5) : ctrlPrgMode ctrl = ctrl.toNat / 4 % 4 := by
  rw [ctrlPrgMode, BitVec.extractLsb'_toNat, Nat.shiftRight_eq_div_pow]

theorem ctrlChrMode_iff (ctrl : BitVec 5) : ctrlChrMode ctrl = true ↔ ctrl.toNat / 16 ≠ 0 := by
  revert ctrl
  decide

/-- The nametable page of quadrant `k` under the mirroring field of `ctrl` (R28, R126). -/
theorem shownNametable_ctrlMirroring (ctrl : BitVec 5) (k : Nat) :
    shownNametable (ctrlMirroring ctrl) k =
      if ctrl.toNat % 4 = 0 then 0 else if ctrl.toNat % 4 = 1 then 1 else if ctrl.toNat % 4 = 2 then k % 2 else k / 2 := by
  have hfield : (ctrl.extractLsb' 0 2).toNat = ctrl.toNat % 4 := by simp
  rw [ctrlMirroring, hfield]
  have hlt : ctrl.toNat % 4 < 4 := Nat.mod_lt _ (by decide)
  generalize ctrl.toNat % 4 = n at hlt ⊢
  match n, hlt with
  | 0, _ => rfl
  | 1, _ => rfl
  | 2, _ => rfl
  | 3, _ => rfl

/-- The PRG banks from page 32, counted from the start of the window (R199). -/
theorem shiftPrgBank_window (g : Geometry) (mode x k : Nat) :
    shiftPrgBank g mode x (32 + k) =
      if mode < 2 then 32 * (x / 2 &&& (g.nPrg16 / 2 - 1)) + k
      else if mode = 2 then (if k < 16 then k else 16 * (x &&& (g.nPrg16 - 1)) + (k - 16))
      else (if k < 16 then 16 * (x &&& (g.nPrg16 - 1)) + k else 16 * (g.nPrg16 - 1) + (k - 16)) := by
  have hlow : 32 + k < 48 ↔ k < 16 := by omega
  have hhigh : 32 + k - 48 = k - 16 := by omega
  simp only [shiftPrgBank, maskTo, Nat.add_sub_cancel_left, hlow, hhigh]

section Shown

variable {m : Mapper}

theorem shownPrg_shift (hv : m.cfg.variant = .shift) (k : Nat) :
    shownPrg m (32 + k) =
      shiftPrgBank m.cfg.toGeometry (m.shift.ctrl.toNat / 4 % 4) (m.shift.prg.toNat % 16) (32 + k) := by
  have hprg : (m.shift.prg.extractLsb' 0 4).toNat = m.shift.prg.toNat % 16 := by simp
  simp only [shownPrg, hv, ctrlPrgMode_eq, hprg]

theorem shownChr_shift (hv : m.cfg.variant = .shift) (k : Nat) :
    shownChr m k =
      if m.shift.ctrl.toNat / 16 = 0 then 8 * (m.shift.chr0.toNat / 2 &&& (m.cfg.nChr8 - 1)) + k
      else if k < 4 then 4 * (m.shift.chr0.toNat &&& (2 * m.cfg.nChr8 - 1)) + k
      else 4 * (m.shift.chr1.toNat &&& (2 * m.cfg.nChr8 - 1)) + (k - 4) := by
  simp only [shownChr, hv, maskTo, ctrlChrMode_iff, ite_not]

end Shown

/-- The layout with its nametable pages changes the two tables alone. -/
theorem Mapper.laidOut_showing_eq (mode : Mirroring) (m : Mapper) :
    m.laidOut.showing mode = { m with cputab := m.laidOut.cputab, pputab := (m.laidOut.showing mode).pputab } := by
  simp only [Mapper.showing, Mapper.laidOut]

/-- Settles O35: the tables are those of the layout, read window by window. -/
theorem shiftRemapFollowsTheRegisters : Obligations.ShiftRemapFollowsTheRegisters := by
  rintro s m _ _ _ _ _ hm hl rfl rfl rfl rfl rfl
  have hexec := exec_shiftRemap hm hl
  rw [Mapper.laidOut_showing_eq] at hexec
  refine ⟨m.laidOut.cputab, (m.laidOut.showing (ctrlMirroring m.shift.ctrl)).pputab, fun k hk => ?_, fun k hk => ?_,
    fun k hk => ?_, fun k hk => ?_, hexec⟩
  · exact (m.laidOut_cputab k.val k.isLt).trans (if_pos hk)
  · rw [Mapper.laidOut_cputab, if_neg (by omega), shownPrg_shift hm.2, shiftPrgBank_window]
  · rw [Mapper.showing_pputab, if_pos hk, Mapper.laidOut_pputab, if_pos hk, shownChr_shift hm.2]
  · have hquadrant : (8 + k) % 4 = k % 4 := by omega
    rw [Mapper.showing_pputab, if_neg (by omega), ppuEntry_nametable _ _ _ (by omega), hquadrant,
      shownNametable_ctrlMirroring, Nat.mod_mod_of_dvd k (by decide), Mapper.laidOut_cfg]

/-! ### Runs of operations -/

theorem execAll_cons_next {i : Instr} {is : List Instr} {s t : State} (h : exec i s = .next t) :
    execAll (i :: is) s = execAll is t := by
  rw [execAll, h]

/-- A run continues where its first part ended. -/
theorem execAll_append_next {is : List Instr} {s t : State} (h : execAll is s = .next t) (js : List Instr) :
    execAll (is ++ js) s = execAll js t := by
  induction is generalizing s with
  | nil => rw [List.nil_append, Host.Outcome.next.inj h]
  | cons i is ih =>
    cases hi : exec i s with
    | next u =>
      rw [execAll_cons_next hi] at h
      rw [List.cons_append, execAll_cons_next hi, ih h]
    | fault f => simp [execAll, hi] at h
    | refused r => simp [execAll, hi] at h

/-- A write of a page that is unmapped or inside the store continues with a block that differs in its store alone. -/
theorem withWrite_setStore_of_holds {m : Mapper} {e : Bank} {intra : Nat} (v : Byte) (he : m.holds e)
    (hi : intra < 1024) (k : Mapper → Host.Outcome State Fault Refusal) :
    ∃ st, withWrite m e intra v k = k (m.setStore st) := by
  rcases withWrite_cases m e intra v k with ⟨-, hk⟩ | ⟨-, -, -, hk⟩ | ⟨hmap, -, hout, -⟩
  · exact ⟨m.store, hk⟩
  · exact ⟨_, hk⟩
  · have hin := he hmap
    omega

theorem Mapper.TablesInStore.holds_cpuPageAt {m : Mapper} (ht : m.TablesInStore) (a : CpuAddr) :
    m.holds (m.cpuPageAt a) := by
  obtain ⟨hcpu, -⟩ := ht
  exact hcpu ⟨a.toNat / 1024, by have := a.isLt; omega⟩

theorem Mapper.TablesInStore.holds_ppuPageAt {m : Mapper} (ht : m.TablesInStore) (a : PpuAddr) :
    m.holds (m.ppuPageAt a) := by
  obtain ⟨-, hppu⟩ := ht
  exact hppu ⟨a.toNat / 1024, by have := a.isLt; omega⟩

theorem State.LiveAs.replyDraw {v : Variant} {s : State} {m : Mapper} (hm : s.LiveAs v m) (o : Output) (d : Nat) :
    (s.replyDraw m o d).LiveAs v m := by
  obtain ⟨⟨-, hf⟩, hv⟩ := hm
  exact ⟨⟨rfl, hf⟩, hv⟩

/-- The operation is not a default write of either bus. -/
def WritesNoByte (i : Instr) : Prop := (∀ a v, i ≠ .wrcpu a v) ∧ ∀ a v, i ≠ .wrppu a v

/-- A default operation completes on a block whose pages lie inside the store, and changes of it the store alone,
by a write (R141 to R146). -/
theorem exec_default {v : Variant} {s : State} {m : Mapper} {i : Instr} (hm : s.LiveAs v m) (ht : m.TablesInStore)
    (hi : IsDefault i) :
    ∃ t st, exec i s = .next t ∧ t.LiveAs v (m.setStore st) ∧ (WritesNoByte i → st = m.store) := by
  have hintra : ∀ n, n % 1024 < 1024 := fun n => Nat.mod_lt n (by decide)
  rcases hi with rfl | rfl | ⟨a, rfl⟩ | ⟨a, b, rfl⟩ | ⟨a, rfl⟩ | ⟨a, b, rfl⟩
  · exact ⟨_, m.store, withBlock_live hm.1 _, hm.reply_setStore m.store _, fun _ => rfl⟩
  · exact ⟨_, m.store, withBlock_live hm.1 _, hm.reply_setStore m.store _, fun _ => rfl⟩
  · rw [exec_rdcpu_live hm.1, withRead_of_holds (ht.holds_cpuPageAt a) (hintra _)]
    exact ⟨_, m.store, rfl, hm.replyDraw _ _, fun _ => rfl⟩
  · obtain ⟨st, hst⟩ := withWrite_setStore_of_holds b (ht.holds_cpuPageAt a) (hintra a.toNat)
      fun m' => .next (s.reply m' Output.quiet)
    rw [exec_wrcpu_live hm.1, hst]
    exact ⟨_, st, rfl, hm.reply_setStore st _, fun h => absurd rfl (h.1 a b)⟩
  · rw [exec_rdppu_live hm.1, withRead_of_holds (ht.holds_ppuPageAt a) (hintra _)]
    exact ⟨_, m.store, rfl, hm.replyDraw _ _, fun _ => rfl⟩
  · obtain ⟨st, hst⟩ := withWrite_setStore_of_holds b (ht.holds_ppuPageAt a) (hintra a.toNat)
      fun m' => .next (s.reply m' Output.quiet)
    rw [exec_wrppu_live hm.1, hst]
    exact ⟨_, st, rfl, hm.reply_setStore st _, fun h => absurd rfl (h.2 a b)⟩

/-! ### A group of five writes (R191, R194, R200) -/

/-- The run `is` from `s` completes, and of block `m` it has changed the serial registers to `q` and otherwise at most
the store, the store only by a default write. -/
def Collecting (s : State) (m : Mapper) (is : List Instr) (q : ShiftRegs) : Prop :=
  ∃ t st, execAll is s = .next t ∧ t.LiveAs .shift ((m.setStore st).setShift q) ∧
    ((∀ i ∈ is, WritesNoByte i) → st = m.store)

section Collecting

variable {s : State} {m : Mapper} {is : List Instr} {q : ShiftRegs}

theorem Collecting.nil (hm : s.LiveAs .shift m) : Collecting s m [] m.shift :=
  ⟨s, m.store, rfl, hm, fun _ => rfl⟩

theorem Collecting.bit (h : Collecting s m is q) (target : BitVec 2) (bit : Bool) (hcnt : q.cnt.toNat < 4) :
    Collecting s m (is ++ [.shiftBit target bit]) (q.collect bit) := by
  obtain ⟨t, st, hrun, hlive, hst⟩ := h
  have hbit := exec_shiftBit_collects (target := target) (bit := bit) hlive hcnt
  refine ⟨_, st, ?_, hlive.reply_setShift _ Output.quiet, fun hw => hst fun i hi => hw i (List.mem_append_left _ hi)⟩
  rw [execAll_append_next hrun, execAll_cons_next hbit]
  rfl

theorem Collecting.default (h : Collecting s m is q) (ht : m.TablesInStore) {i : Instr} (hi : IsDefault i) :
    Collecting s m (is ++ [i]) q := by
  obtain ⟨t, st, hrun, hlive, hst⟩ := h
  obtain ⟨u, st', hexec, hlive', hst'⟩ := exec_default hlive ht hi
  refine ⟨u, st', ?_, hlive', fun hw => ?_⟩
  · rw [execAll_append_next hrun, execAll_cons_next hexec]
    rfl
  · rw [hst' (hw i (by simp))]
    exact hst fun j hj => hw j (List.mem_append_left _ hj)

theorem Collecting.gap (h : Collecting s m is q) (ht : m.TablesInStore) {gap : List Instr}
    (hg : ∀ i ∈ gap, IsDefault i) : Collecting s m (is ++ gap) q := by
  induction gap generalizing is with
  | nil => rwa [List.append_nil]
  | cons i gap ih =>
    obtain ⟨hi, hrest⟩ := List.forall_mem_cons.mp hg
    rw [List.append_cons]
    exact ih (h.default ht hi) hrest

end Collecting

@[simp] theorem writesNoByte_shiftBit (target : BitVec 2) (bit : Bool) : WritesNoByte (.shiftBit target bit) :=
  ⟨fun _ _ => Instr.noConfusion, fun _ _ => Instr.noConfusion⟩

/-- Settles O36: four writes collect across the gaps, and the fifth loads the value collected. -/
theorem fiveWritesLoadOneRegister : Obligations.FiveWritesLoadOneRegister := by
  intro s m a0 a1 a2 a3 a4 v0 v1 v2 v3 v4 g1 g2 g3 g4 value q hm hl ht hcnt hdef hvalue hq
  simp only [List.forall_mem_append] at hdef ⊢
  obtain ⟨⟨⟨hg1, hg2⟩, hg3⟩, hg4⟩ := hdef
  have hfirst := ((Collecting.nil hm).bit a0 v0 (by simp [hcnt])).gap ht hg1
  have hsecond := (hfirst.bit a1 v1 (by simp [hcnt])).gap ht hg2
  have hthird := (hsecond.bit a2 v2 (by simp [hcnt])).gap ht hg3
  have hfourth := (hthird.bit a3 v3 (by simp [hcnt])).gap ht hg4
  obtain ⟨t, st, hrun, hlive, hst⟩ := hfourth
  obtain ⟨r, hr⟩ : ∃ r, r = (((m.shift.collect v0).collect v1).collect v2).collect v3 := ⟨_, rfl⟩
  rw [← hr] at hlive
  have hfifth : q = r.fifth a4 v4 := by
    have hload : r.fifth a4 v4 = { r.load a4 value with sr := 0#5, cnt := 0#3 } := by
      rw [hvalue, ← shiftIn_five m.shift.sr, hr]
      rfl
    rw [hload, ShiftRegs.load_cleared, hr]
    exact hq
  have hbit := exec_shiftBit_loads (target := a4) (bit := v4) hlive hl (by simp [hr, hcnt])
  refine ⟨_, st, (execAll_append_next hrun _).trans (execAll_cons_next hbit), ?_, fun hw => hst ?_⟩
  · rw [hfifth]
    rfl
  · simp only [List.forall_mem_append, List.forall_mem_singleton, List.nil_append, writesNoByte_shiftBit, true_and,
      and_true]
    exact hw

end Sys2Proof.Machine

/-! ## The scanline-IRQ variant (R212 to R230)

The counter and the detector are told by their registers alone: a clock satisfies `Clocks` and an observation
`Observes`, whatever the operation around them. The period of the counter is one invariant along a run of clocks:
clock by clock, the number of clocks and the counter together stay a multiple of the reload value plus one. -/

namespace Sys2Proof.Machine

/-! ### The registers (R212, R213, R224, R226, R227) -/

section Registers

variable {q : IrqRegs}

theorem IrqRegs.clock_reloads (h : q.reloadPending = true ∨ q.counter = 0#8) :
    q.clock = ({ q with counter := q.reload, reloadPending := false }, false) := if_pos h

theorem IrqRegs.clock_decrements (hp : q.reloadPending = false) {n : Nat} (hn : q.counter.toNat = n + 1) :
    q.clock = ({ q with counter := BitVec.ofNat 8 n }, decide (n = 0) && q.enable) := by
  have hlt : n < 256 := by have := q.counter.isLt; omega
  have hcount : ¬ (q.reloadPending = true ∨ q.counter = 0#8) := by
    rintro (h | h)
    · simp [hp] at h
    · simp [h] at hn
  have hdec : q.counter - 1#8 = BitVec.ofNat 8 n := by bv_omega
  have hzero : BitVec.ofNat 8 n = 0#8 ↔ n = 0 := by
    rw [← BitVec.toNat_inj, BitVec.toNat_ofNat, BitVec.toNat_ofNat, Nat.mod_eq_of_lt hlt]
  rw [IrqRegs.clock, if_neg hcount, hdec]
  simp only [hzero]

/-- The model's clock is the relation of R226. -/
theorem IrqRegs.clock_clocks (q : IrqRegs) : q.Clocks q.clock.1 q.clock.2 := by
  refine ⟨fun h => ?_, fun hp n hn => ?_⟩
  · rw [IrqRegs.clock_reloads h]
    exact ⟨rfl, rfl⟩
  · rw [IrqRegs.clock_decrements hp hn]
    exact ⟨rfl, rfl⟩

/-- The model's observation is the relation of R224. -/
theorem IrqRegs.observe_observes (q : IrqRegs) (lowMin : Byte) (h : Bool) :
    q.Observes lowMin h (q.observe lowMin h).1 (q.observe lowMin h).2 := by
  refine ⟨fun hh hq => ?_, fun hh hq => ?_, fun hh hq => ?_, fun hh hq hshort => ?_, fun hh hq hlong => ?_⟩
  · simp [IrqRegs.observe, hh, hq]
  · simp [IrqRegs.observe, hh, hq]
  · simp [IrqRegs.observe, hh, hq]
  · simp [IrqRegs.observe, hh, hq, BitVec.le_def, Nat.not_le.mpr hshort]
  · have hrise : q.observe lowMin h = ({ q.clock.1 with a12Low := false }, q.clock.2) := by
      simp [IrqRegs.observe, hh, hq, BitVec.le_def, hlong]
    rw [hrise]
    exact ⟨_, q.clock_clocks, rfl⟩

theorem IrqRegs.tick_counts {lowMin : Byte} (hlow : q.a12Low = true) (hlt : q.lowTicks.toNat < lowMin.toNat) :
    q.tick lowMin = { q with lowTicks := BitVec.ofNat 8 (q.lowTicks.toNat + 1) } := by
  have hnext : q.lowTicks + 1#8 = BitVec.ofNat 8 (q.lowTicks.toNat + 1) := BitVec.eq_of_toNat_eq (by simp)
  rw [IrqRegs.tick, if_pos ⟨hlow, BitVec.lt_def.mpr hlt⟩, hnext]

theorem IrqRegs.tick_idle {lowMin : Byte} (h : q.a12Low = false ∨ lowMin.toNat ≤ q.lowTicks.toNat) :
    q.tick lowMin = q := by
  refine if_neg fun ⟨hlow, hlt⟩ => ?_
  rcases h with h | h
  · simp [h] at hlow
  · exact Nat.not_lt.mpr h (BitVec.lt_def.mp hlt)

theorem IrqRegs.select_eq (q : IrqRegs) (v : Byte) :
    q.select v =
      { q with bankSelect := BitVec.ofNat 3 (v.toNat % 8), prgMode := v.getLsbD 6, chrMode := v.getLsbD 7 } := by
  have hlow : v.extractLsb' 0 3 = BitVec.ofNat 3 (v.toNat % 8) := BitVec.eq_of_toNat_eq (by simp)
  rw [IrqRegs.select, hlow]

theorem IrqRegs.setBank_getElem (q : IrqRegs) (v : Byte) (k : Fin 8) :
    (q.setBank v).bank[k] = if k.val = q.bankSelect.toNat then v else q.bank[k] := by
  simp only [IrqRegs.setBank, Fin.getElem_fin, Vector.getElem_set, eq_comm]

end Registers

/-! ### The operations on a live block -/

section Operations

variable {s : State} {m : Mapper}

theorem State.LiveAs.reply_setIrq {v : Variant} (hm : s.LiveAs v m) (q : IrqRegs) (o : Output) :
    (s.reply (m.setIrq q) o).LiveAs v (m.setIrq q) := by
  obtain ⟨⟨-, hf⟩, hv⟩ := hm
  exact ⟨⟨rfl, hf⟩, hv⟩

/-- An operation that ends in the remap completes with the tables its registers show (R214, R215). -/
theorem finish_irqRemap (hl : m.cfg.legal = true) (hv : m.cfg.variant = .irq) (s : State) :
    finish s (irqRemap m) = .next (s.reply m.laidOut Output.quiet) := by
  rw [irqRemap_done hl hv, finish_done]

theorem exec_irqRemap (hm : s.LiveAs .irq m) (hl : m.cfg.legal = true) :
    exec .irqRemap s = .next (s.reply m.laidOut Output.quiet) :=
  (withVariant_live hm _).trans (finish_irqRemap hl hm.2 s)

theorem exec_irqReload (hm : s.LiveAs .irq m) :
    exec .irqReload s =
      .next (s.reply (m.setIrq { m.irq with counter := 0#8, reloadPending := true }) Output.quiet) :=
  withVariant_live hm _

theorem exec_irqClock (hm : s.LiveAs .irq m) :
    exec .irqClock s = .next (s.reply (m.setIrq m.irq.clock.1) (Output.ofIrq m.irq.clock.2)) :=
  withVariant_live hm _

theorem exec_irqTick (hm : s.LiveAs .irq m) :
    exec .irqTick s = .next (s.reply (m.setIrq (m.irq.tick m.cfg.irqLowMin)) Output.quiet) :=
  withVariant_live hm _

/-- The mirroring write of `IRQ` and of `LATCH`: its two modes need two banks of PPU RAM, which every configuration
has (R10 e, R126). -/
theorem mirrorWrite_live {v : Variant} (hm : s.LiveAs v m) (hl : m.cfg.legal = true) (h : Bool) :
    (withVariant v s fun m =>
      if m.cfg.mirroring0 = .fourScreen then finish s (.done m) else finish s (setMirror (horizontalOr h) m)) =
    .next (s.reply (if m.cfg.mirroring0 = .fourScreen then m else m.showing (horizontalOr h)) Output.quiet) := by
  have hmode : horizontalOr h ≠ .fourScreen := by cases h <;> decide
  have hmirror : setMirror (horizontalOr h) m = .done (m.showing (horizontalOr h)) :=
    setMirror_done (Cfg.legal_mode hl _ fun h4 => absurd h4 hmode)
  rw [withVariant_live hm, hmirror]
  split <;> exact finish_done s _

end Operations

/-- Settles O40: each write is its one register update. -/
theorem irqControlWrites : Obligations.IrqControlWrites := fun _ _ _ hm =>
  ⟨withVariant_live hm _, withVariant_live hm _, exec_irqReload hm, withVariant_live hm _, withVariant_live hm _⟩

/-- Settles O41: the registers after the clock are in the relation of R226. -/
theorem irqClockStep : Obligations.IrqClockStep := fun _ m hm =>
  ⟨m.irq.clock.1, m.irq.clock.2, m.irq.clock_clocks, exec_irqClock hm⟩

/-- Settles O42: the registers after the observation are in the relation of R224, and a tick counts or leaves the
block. -/
theorem irqDetector : Obligations.IrqDetector := by
  intro s m hm
  refine ⟨fun h => ⟨_, _, m.irq.observe_observes m.cfg.irqLowMin h, withVariant_live hm _⟩,
    fun hlow hlt => ?_, fun h => ?_⟩
  · rw [exec_irqTick hm, IrqRegs.tick_counts hlow hlt]
    rfl
  · rw [exec_irqTick hm, IrqRegs.tick_idle h]
    rfl

/-- Settles O43: the observation changes registers alone, so the read finds the page and the store of the block. -/
theorem irqReadObservesAndReads : Obligations.IrqReadObservesAndReads := by
  intro s m a hm he
  refine ⟨_, _, m.irq.observe_observes m.cfg.irqLowMin (a.getLsbD 12), ?_⟩
  exact (exec_irqRdppu_live hm a).trans
    (withRead_of_holds (m := (observeBlock m (a.getLsbD 12)).1) he (Nat.mod_lt _ (by decide)) _)

/-- Settles O44: the observation changes registers alone, so the write finds the page and the store of the block. -/
theorem irqWriteObservesAndWrites : Obligations.IrqWriteObservesAndWrites := by
  intro s m a v hm hw he
  obtain ⟨st, hst, hwrite⟩ := withWrite_of_holds (m := (observeBlock m (a.getLsbD 12)).1) (v := v) hw he
    (Nat.mod_lt a.toNat (by decide))
    fun m' => .next (s.reply m' (Output.ofIrq (observeBlock m (a.getLsbD 12)).2))
  exact ⟨_, _, st, m.irq.observe_observes m.cfg.irqLowMin (a.getLsbD 12), hst,
    (exec_irqWrppu_live hm a v).trans hwrite⟩

/-- Settles O39: both writes are one body, which sets one of two modes that every configuration has the banks for. -/
theorem mirroringWrites : Obligations.MirroringWrites := fun _ _ h hl =>
  ⟨fun hm => mirrorWrite_live hm hl h, fun hm => mirrorWrite_live hm hl h⟩

/-- Settles O37: each write is its register update, then the remap. -/
theorem irqBankWrites : Obligations.IrqBankWrites := by
  intro s m v hm hl
  refine ⟨?_, (m.irq.setBank v).bank, m.irq.setBank_getElem v, ?_⟩
  · rw [← IrqRegs.select_eq]
    exact (withVariant_live hm _).trans (finish_irqRemap (m := m.setIrq (m.irq.select v)) hl hm.2 s)
  · exact (withVariant_live hm _).trans (finish_irqRemap (m := m.setIrq (m.irq.setBank v)) hl hm.2 s)

/-! ### What the remap shows, in arithmetic (R214, R215) -/

section Shown

variable {m : Mapper}

/-- The 8 KiB window `w` shows one bank of the PRG, page by page (R214). -/
theorem Mapper.laidOut_irq_cputab (hv : m.cfg.variant = .irq) (w k : Nat) (hw : w < 4) (hk : k < 8) :
    m.laidOut.cputab[32 + 8 * w + k]'(by omega) =
      ⟨1024 * (8 * irqPrgUnit m.cfg.toGeometry m.irq w + k), true, true⟩ := by
  have hwindow : (32 + 8 * w + k - 32) / 8 = w := by omega
  have hpage : (32 + 8 * w + k) % 8 = k := by omega
  rw [Mapper.laidOut_cputab, if_neg (by omega)]
  simp only [shownPrg, hv, hwindow, hpage]

/-- The CHR pages show the banks of CHR mode 0, its halves swapped in mode 1 (R215). -/
theorem Mapper.laidOut_irq_pputab (hv : m.cfg.variant = .irq) (k : Nat) (hk : k < 8) :
    m.laidOut.pputab[k] = ⟨m.cfg.chrBase + 1024 *
      irqChrBank m.cfg.toGeometry m.irq (if m.irq.chrMode then (k + 4) % 8 else k), m.cfg.chrReadOnly, true⟩ := by
  rw [Mapper.laidOut_pputab, if_pos hk]
  simp only [shownChr, hv]

theorem chrPair_eq (g : Geometry) (q : IrqRegs) (i : Fin 8) :
    chrPair g q i = (q.bank[i].toNat &&& 0xFE) &&& (8 * g.nChr8 - 1) := by
  rw [chrPair, BitVec.toNat_and]
  rfl

end Shown

/-- Settles O38: the tables are those of the layout, read window by window. -/
theorem irqRemapFollowsTheRegisters : Obligations.IrqRemapFollowsTheRegisters := by
  rintro s m _ _ _ _ c1 c2 hm hl rfl rfl rfl rfl hc1 hc2
  have hsingle : ∀ i, chrSingle m.cfg.toGeometry m.irq i = c1 i.val := fun i => (hc1 i).symm
  have hpair : ∀ i, chrPair m.cfg.toGeometry m.irq i = c2 i.val := fun i => (chrPair_eq _ _ i).trans (hc2 i).symm
  have hprg := m.laidOut_irq_cputab hm.2
  refine ⟨m.laidOut.cputab, m.laidOut.pputab, fun k hk => ?_, fun k hk => ?_, fun k hk => ?_, fun k hk => ?_,
    exec_irqRemap hm hl⟩
  · exact (m.laidOut_cputab k.val k.isLt).trans (if_pos hk)
  · exact ⟨hprg 0 k (by decide) hk, hprg 1 k (by decide) hk, hprg 2 k (by decide) hk, hprg 3 k (by decide) hk⟩
  · rw [Mapper.laidOut_irq_pputab hm.2 k hk]
    have hlt : (if m.irq.chrMode then (k + 4) % 8 else k) < 8 := by split <;> omega
    generalize (if m.irq.chrMode then (k + 4) % 8 else k) = page at hlt ⊢
    refine congrArg (fun bank => (⟨m.cfg.chrBase + 1024 * bank, m.cfg.chrReadOnly, true⟩ : Bank)) ?_
    match page, hlt with
    | 0, _ => exact hpair 0
    | 1, _ => exact congrArg (· + 1) (hpair 0)
    | 2, _ => exact hpair 1
    | 3, _ => exact congrArg (· + 1) (hpair 1)
    | 4, _ => exact hsingle 2
    | 5, _ => exact hsingle 3
    | 6, _ => exact hsingle 4
    | 7, _ => exact hsingle 5
  · exact (m.laidOut_pputab k.val k.isLt).trans (if_neg (Nat.not_lt.mpr hk))

/-! ### The period of the counter (R229, R230) -/

/-- Registers `q` stand `n` clocks after a forced reload of registers `q0`: `n` plus the counter is a multiple of the
reload value plus one. -/
structure IrqRegs.ClocksAfterReload (q0 : IrqRegs) (n : Nat) (q : IrqRegs) : Prop where
  reload : q.reload = q0.reload
  enable : q.enable = q0.enable
  /-- a reload is pending only while the counter is 0 -/
  pending : q.reloadPending = true → q.counter.toNat = 0
  counter_le : q.counter.toNat ≤ q0.reload.toNat
  dvd : q0.reload.toNat + 1 ∣ n + q.counter.toNat

section Period

variable {q0 q : IrqRegs} {n : Nat}

theorem IrqRegs.clocksAfterReload_zero (q0 : IrqRegs) :
    q0.ClocksAfterReload 0 { q0 with counter := 0#8, reloadPending := true } :=
  ⟨rfl, rfl, fun _ => rfl, Nat.zero_le _, Nat.dvd_zero _⟩

namespace IrqRegs.ClocksAfterReload

/-- One more clock; it raises exactly when it leaves the counter at 0, with the flag enabled and a reload value that is
not 0. -/
theorem clock (h : q0.ClocksAfterReload n q) :
    q0.ClocksAfterReload (n + 1) q.clock.1 ∧
      q.clock.2 = (q0.enable && decide (1 ≤ q0.reload.toNat) && decide (q.clock.1.counter.toNat = 0)) := by
  obtain ⟨hreload, henable, hpending, hle, hdvd⟩ := h
  cases hcounter : q.counter.toNat with
  | zero =>
    rw [IrqRegs.clock_reloads (.inr (BitVec.eq_of_toNat_eq hcounter)), hreload]
    rw [hcounter] at hdvd
    refine ⟨⟨rfl, henable, nofun, Nat.le_refl _, ?_⟩, ?_⟩
    · rw [Nat.add_assoc, Nat.add_comm 1]
      exact Nat.dvd_add hdvd (Nat.dvd_refl _)
    · cases q0.reload.toNat <;> simp
  | succ c =>
    have hidle : q.reloadPending = false := Bool.eq_false_iff.mpr fun hp => by simp [hpending hp] at hcounter
    have hc : (BitVec.ofNat 8 c).toNat = c := Nat.mod_eq_of_lt (by have := q.counter.isLt; omega)
    rw [IrqRegs.clock_decrements hidle hcounter]
    rw [hcounter] at hle hdvd
    refine ⟨⟨hreload, henable, fun hp => by simp [hidle] at hp, ?_, ?_⟩, ?_⟩
    · exact Nat.le_trans (Nat.le_of_eq hc) (Nat.le_of_succ_le hle)
    · rwa [hc, Nat.add_assoc, Nat.add_comm 1]
    · rw [hc, henable, decide_eq_true (Nat.le_of_add_left_le hle), Bool.and_true, Bool.and_comm]

/-- The counter is 0 after each multiple of the reload value plus one. -/
theorem counter_eq_zero_iff (h : q0.ClocksAfterReload n q) :
    q.counter.toNat = 0 ↔ n % (q0.reload.toNat + 1) = 0 := by
  rw [← Nat.dvd_iff_mod_eq_zero]
  refine ⟨fun h0 => by simpa [h0] using h.dvd, fun hn => ?_⟩
  exact Nat.eq_zero_of_dvd_of_lt ((Nat.dvd_add_right hn).mp h.dvd) (Nat.lt_succ_of_le h.counter_le)

theorem counter_eq (h : q0.ClocksAfterReload (n + 1) q) :
    q.counter.toNat = q0.reload.toNat - n % (q0.reload.toNat + 1) := by
  have hle := h.counter_le
  obtain ⟨periods, hperiods⟩ := h.dvd
  cases periods with
  | zero => omega
  | succ periods =>
    have hn : n = (q0.reload.toNat + 1) * periods + (q0.reload.toNat - q.counter.toNat) := by
      rw [Nat.mul_succ] at hperiods
      omega
    rw [hn, Nat.mul_add_mod, Nat.mod_eq_of_lt (by omega), Nat.sub_sub_self hle]

end IrqRegs.ClocksAfterReload

section Run

variable {s t : State} {m m' : Mapper}

theorem execAll_reload_clocks_succ (hrun : execAll (.irqReload :: List.replicate n .irqClock) s = .next t)
    (hlive : t.LiveAs .irq m') :
    execAll (.irqReload :: List.replicate (n + 1) .irqClock) s =
      .next (t.reply (m'.setIrq m'.irq.clock.1) (Output.ofIrq m'.irq.clock.2)) := by
  rw [List.replicate_succ', ← List.cons_append, execAll_append_next hrun]
  exact execAll_cons_next (exec_irqClock hlive)

/-- A forced reload and `n` clocks complete, and keep the invariant of the period. -/
theorem execAll_reload_clocks (hm : s.LiveAs .irq m) (n : Nat) :
    ∃ t m', execAll (.irqReload :: List.replicate n .irqClock) s = .next t ∧ t.LiveAs .irq m' ∧
      m.irq.ClocksAfterReload n m'.irq := by
  induction n with
  | zero => exact ⟨_, _, execAll_cons_next (exec_irqReload hm), hm.reply_setIrq _ _, m.irq.clocksAfterReload_zero⟩
  | succ n ih =>
    obtain ⟨t, m', hrun, hlive, hcount⟩ := ih
    exact ⟨_, _, execAll_reload_clocks_succ hrun hlive, hlive.reply_setIrq _ _, hcount.clock.1⟩

end Run

end Period

/-- Settles O45: the clocks before the last keep the invariant of the period, which gives the last one's counter and
output. -/
theorem irqPeriodIsReloadPlusOne : Obligations.IrqPeriodIsReloadPlusOne := by
  intro s m n hm hn
  obtain ⟨k, rfl⟩ := Nat.exists_eq_add_of_le' hn
  obtain ⟨t, m', hrun, hlive, hcount⟩ := execAll_reload_clocks hm k
  obtain ⟨hnext, hraised⟩ := hcount.clock
  refine ⟨_, _, execAll_reload_clocks_succ hrun hlive, rfl, hnext.counter_eq, ?_⟩
  simp only [← hnext.counter_eq_zero_iff]
  exact hraised

end Sys2Proof.Machine

/-! ## The latch variant (R242 to R251)

Every select, trigger and remap ends in `LATCH.REMAP`, which completes on registers that hold masked values and lays
the block out by them. A read goes through the mapping it starts with and then takes its trigger, so the bank a
trigger chooses shows in the next read. -/

namespace Sys2Proof.Machine

/-! ### The remap and the selects (R242 to R247) -/

section Selects

variable {s : State} {m : Mapper}

theorem Mapper.latchLegal_of_regsLegal (hr : m.regsLegal = true) : latchLegal m.cfg m.latch = true := by
  obtain ⟨-, -, -, hq⟩ := regsLegal_iff.mp hr
  exact hq

/-- An operation that ends in the remap completes with the tables its registers show (R246). -/
theorem finish_latchRemap (hl : m.cfg.legal = true) (hv : m.cfg.variant = .latch)
    (hq : latchLegal m.cfg m.latch = true) (s : State) :
    finish s (latchRemap m) = .next (s.reply m.laidOut Output.quiet) := by
  rw [latchRemap_done hl hv hq, finish_done]

theorem exec_latchRemap (hm : s.LiveAs .latch m) (hl : m.cfg.legal = true) (hr : m.regsLegal = true) :
    exec .latchRemap s = .next (s.reply m.laidOut Output.quiet) :=
  (withVariant_live hm _).trans (finish_latchRemap hl hm.2 (Mapper.latchLegal_of_regsLegal hr) s)

/-- A select writes the byte, masked to the 4 KiB banks of CHR, to its one register (R243 to R245, R247). -/
theorem LatchRegs.select_eq (q : LatchRegs) (g : Geometry) (k : Fin 4) (v : Byte) {sel : Vector Byte 4}
    (hsel : ∀ j : Fin 4, sel[j] =
      if j = k then BitVec.ofNat 8 (v.toNat &&& (g.banksChr / 4 - 1)) else q.selected[j]) :
    q.select g k v = { q with selected := sel } := by
  have hbanks : g.banksChr / 4 = chrBanks4 g := by
    unfold Geometry.banksChr chrBanks4
    omega
  refine congrArg (fun sel => { q with selected := sel }) (Vector.ext fun j hj => ?_)
  have hj' := hsel ⟨j, hj⟩
  rw [hbanks] at hj'
  simp only [Vector.getElem_set, maskReg, maskTo, Fin.getElem_fin, Fin.ext_iff, eq_comm] at hj' ⊢
  exact hj'

end Selects

/-- Settles O47: each write is its register update, then the remap. -/
theorem latchSelectWrites : Obligations.LatchSelectWrites := by
  intro s m v hm hl hr
  have hq := Mapper.latchLegal_of_regsLegal hr
  have hremap : ∀ q : LatchRegs, latchLegal m.cfg q = true →
      finish s (latchRemap (m.setLatch q)) = .next (s.reply (m.setLatch q).laidOut Output.quiet) :=
    fun q hq => finish_latchRemap (m := m.setLatch q) hl hm.2 hq s
  refine ⟨(withVariant_live hm _).trans (hremap _ (latchLegal_prg hl hm.2 hq v)), fun k sel hsel => ?_⟩
  have hselect := hremap _ (latchLegal_select hl hm.2 hq k v)
  rw [← Mapper.setLatch, ← LatchRegs.select_eq m.latch m.cfg.toGeometry k v hsel]
  match k, hselect with
  | 0, hselect | 1, hselect | 2, hselect | 3, hselect => exact (withVariant_live hm _).trans hselect

section Shown

variable {m : Mapper}

/-- The switchable window shows the selected unit, the rest of PRG its last banks (R246). -/
theorem shownPrg_latch (hv : m.cfg.variant = .latch) (k : Nat) :
    shownPrg m (32 + k) = if k < m.cfg.split then m.cfg.split * m.latch.prgSel.toNat + k
      else m.cfg.banksPrg - (32 - m.cfg.split) + (k - m.cfg.split) := by
  simp only [shownPrg, hv, Nat.add_lt_add_iff_left, Nat.add_sub_cancel_left, Nat.add_sub_add_left]

/-- Each half of CHR shows the 4 KiB bank its latch chooses (R240, R246). -/
theorem shownChr_latch (hv : m.cfg.variant = .latch) {k : Nat} (hk : k < 4) :
    shownChr m k = 4 * latchBank0 m.latch + k ∧ shownChr m (4 + k) = 4 * latchBank1 m.latch + k := by
  have hhigh : ¬ 4 + k < 4 := by omega
  simp only [shownChr, hv, if_pos hk, if_neg hhigh, Nat.add_sub_cancel_left, and_self]

end Shown

/-- Settles O48: the tables are those of the layout, read window by window. -/
theorem latchRemapFollowsTheRegisters : Obligations.LatchRemapFollowsTheRegisters := by
  intro s m hm hl hr
  refine ⟨m.laidOut.cputab, m.laidOut.pputab, fun k hk => ?_, fun k hk => ?_, fun k hk => ?_, fun k hk => ?_,
    exec_latchRemap hm hl hr⟩
  · exact (m.laidOut_cputab k.val k.isLt).trans (if_pos hk)
  · rw [Mapper.laidOut_cputab, if_neg (by omega), shownPrg_latch hm.2]
  · obtain ⟨hlow, hhigh⟩ := shownChr_latch hm.2 hk
    constructor
    · rw [Mapper.laidOut_pputab, if_pos (by omega), hlow]
      rfl
    · rw [Mapper.laidOut_pputab, if_pos (by omega), hhigh]
      rfl
  · exact (m.laidOut_pputab k.val k.isLt).trans (if_neg (Nat.not_lt.mpr hk))

/-! ### The trigger windows, in arithmetic (R249) -/

theorem triggeredLatches_eq (l : Vector Bool 2) (a : PpuAddr) :
    triggeredLatches l a =
      if a.toNat / 8 = 0x1FB then some (l.set 0 false)
      else if a.toNat / 8 = 0x1FD then some (l.set 0 true)
      else if a.toNat / 8 = 0x3FB then some (l.set 1 false)
      else if a.toNat / 8 = 0x3FD then some (l.set 1 true)
      else none := by
  simp only [← window_iff a 0x1FB (by decide), ← window_iff a 0x1FD (by decide), ← window_iff a 0x3FB (by decide),
    ← window_iff a 0x3FD (by decide)]
  rfl

/-- The address of a trigger row is that of the read: the window, then the low three bits (R111). -/
theorem triggerAddr_of_window {a : PpuAddr} {window : BitVec 11} (hw : a.toNat / 8 = window.toNat) :
    triggerAddr window (BitVec.ofNat 3 (a.toNat % 8)) = a := by
  apply BitVec.eq_of_toNat_eq
  rw [triggerAddr, BitVec.toNat_append, BitVec.toNat_ofNat, ← hw, Nat.mod_mod_of_dvd _ (by decide),
    ← Nat.shiftLeft_add_eq_or_of_lt (Nat.mod_lt _ (by decide)), Nat.shiftLeft_eq]
  omega

/-! ### A read and its trigger (R249, R251) -/

section Reads

variable {s : State} {m m' : Mapper} {a : PpuAddr} {l : Vector Bool 2}

theorem triggerRemap_trigger (hl : m.cfg.legal = true) (hv : m.cfg.variant = .latch) (hr : m.regsLegal = true)
    (ht : triggeredLatches m.latch.latch a = some l) :
    triggerRemap m a = .done (m.setLatch { m.latch with latch := l }).laidOut := by
  rw [triggerRemap, ht]
  exact latchRemap_done hl hv (latchLegal_latch (Mapper.latchLegal_of_regsLegal hr) hv l)

theorem triggerRemap_noTrigger (ht : triggeredLatches m.latch.latch a = none) : triggerRemap m a = .done m := by
  rw [triggerRemap, ht]

/-- The state after a PPU read at `a` of block `m` that leaves block `m'` (R144). -/
def State.afterPpuRead (s : State) (m : Mapper) (a : PpuAddr) (m' : Mapper) : State :=
  s.replyDraw m' (Output.ofRead (m.pageByte (m.ppuPageAt a) (a.toNat % 1024) s.draws) false)
    (drawsAfter (m.ppuPageAt a) s.draws)

/-- A read on a page that holds completes with the byte of that page and with the block its trigger leaves. -/
theorem latchRead_of_holds (hm : s.LiveAs .latch m) (he : m.holds (m.ppuPageAt a)) (ht : triggerRemap m a = .done m') :
    latchRead a s = .next (s.afterPpuRead m a m') := by
  refine (withVariant_live hm _).trans ?_
  rw [ppuRead, ppuBank_eq, ppuIntra_eq, withRead_of_holds he (Nat.mod_lt _ (by decide)), ht]
  rfl

/-- The read in a trigger window, and the trigger row's own read. -/
theorem latchRead_in_window (hm : s.LiveAs .latch m) (hl : m.cfg.legal = true) (hr : m.regsLegal = true)
    (he : m.holds (m.ppuPageAt a)) {window : BitVec 11} (hw : a.toNat / 8 = window.toNat)
    (ht : triggeredLatches m.latch.latch a = some l) :
    latchRead a s = .next (s.afterPpuRead m a (m.setLatch { m.latch with latch := l }).laidOut) ∧
      latchRead (triggerAddr window (BitVec.ofNat 3 (a.toNat % 8))) s =
        .next (s.afterPpuRead m a (m.setLatch { m.latch with latch := l }).laidOut) := by
  rw [triggerAddr_of_window hw]
  have hread := latchRead_of_holds hm he (triggerRemap_trigger hl hm.2 hr ht)
  exact ⟨hread, hread⟩

end Reads

/-- Settles O49: each window sets its latch, and outside the windows no trigger fires. -/
theorem latchReadFetchesThenTriggers : Obligations.LatchReadFetchesThenTriggers := by
  intro s m a hm hl hr he after flip
  have htrig := triggeredLatches_eq m.latch.latch a
  refine ⟨fun hw => ?_, fun hw => ?_, fun hw => ?_, fun hw => ?_, fun h0c h0s h1c h1s => ?_⟩
  · exact latchRead_in_window hm hl hr he (window := 0x1FB#11) hw (by rw [htrig, hw]; rfl)
  · exact latchRead_in_window hm hl hr he (window := 0x1FD#11) hw (by rw [htrig, hw]; rfl)
  · exact latchRead_in_window hm hl hr he (window := 0x3FB#11) hw (by rw [htrig, hw]; rfl)
  · exact latchRead_in_window hm hl hr he (window := 0x3FD#11) hw (by rw [htrig, hw]; rfl)
  · have hnone : triggeredLatches m.latch.latch a = none := by
      rw [htrig, if_neg h0c, if_neg h0s, if_neg h1c, if_neg h1s]
    exact latchRead_of_holds hm he (triggerRemap_noTrigger hnone)

/-! ### A trigger, then a read (R250) -/

section TriggerThenRead

variable {s : State} {m : Mapper} {a : PpuAddr} {l : Vector Bool 2}

/-- Every PPU page of a block that meets the invariant lies inside the store (R35). -/
theorem Mapper.Inv.holds_ppuPageAt (h : m.Inv) (a : PpuAddr) : m.holds (m.ppuPageAt a) := fun _ => by
  have hpage : a.toNat / 1024 < 16 := by
    have := a.isLt
    omega
  obtain ⟨-, hstore, -⟩ := h.ppuBank _ hpage
  exact hstore

/-- New latches with the windows laid out again keep the invariant. -/
theorem Mapper.Inv.relatched (h : m.Inv) (hv : m.cfg.variant = .latch) (l : Vector Bool 2) :
    (m.setLatch { m.latch with latch := l }).laidOut.Inv :=
  h.laidOut rfl rfl rfl rfl rfl rfl
    (regsLegal_setLatch h.regs (latchLegal_latch (Mapper.latchLegal_of_regsLegal h.regs) hv l)) (by rw [hv]; decide)

@[simp] theorem Mapper.laidOut_store (m : Mapper) : m.laidOut.store = m.store := by simp only [Mapper.laidOut]

/-- The bank a trigger of the first half shows does not depend on what the latch held (R249, R250). -/
theorem shownChr_trigger0 (hv : m.cfg.variant = .latch) (x : Bool) :
    shownChr (m.setLatch { m.latch with latch := m.latch.latch.set 0 x }) 0 =
      4 * (if x then m.latch.selected[0] else m.latch.selected[1]).toNat := by
  obtain ⟨hshown, -⟩ := shownChr_latch (m := m.setLatch { m.latch with latch := m.latch.latch.set 0 x }) (k := 0) hv
    (by decide)
  rw [hshown, latchBank0, Mapper.setLatch_latch, Vector.getElem_set_self]
  rfl

/-- The same for the second half. -/
theorem shownChr_trigger1 (hv : m.cfg.variant = .latch) (x : Bool) :
    shownChr (m.setLatch { m.latch with latch := m.latch.latch.set 1 x }) 4 =
      4 * (if x then m.latch.selected[2] else m.latch.selected[3]).toNat := by
  obtain ⟨-, hshown⟩ := shownChr_latch (m := m.setLatch { m.latch with latch := m.latch.latch.set 1 x }) (k := 0) hv
    (by decide)
  rw [hshown, latchBank1, Mapper.setLatch_latch, Vector.getElem_set_self]
  rfl

/-- A read in the pattern tables of a laid-out block returns the byte of the CHR bank the registers show (R72). -/
theorem Mapper.laidOut_pageByte (m : Mapper) (ha : a.toNat < 0x2000) (draws : Nat) :
    m.laidOut.pageByte (m.laidOut.ppuPageAt a) (a.toNat % 1024) draws =
      Memory.read m.store (m.cfg.chrBase + 1024 * shownChr m (a.toNat / 1024) + a.toNat % 1024) := by
  have hpage : m.laidOut.ppuPageAt a =
      ⟨m.cfg.chrBase + 1024 * shownChr m (a.toNat / 1024), m.cfg.chrReadOnly, true⟩ := by
    rw [Mapper.ppuPageAt, Mapper.laidOut_pputab, if_pos (by omega)]
  rw [hpage, Mapper.pageByte, if_pos rfl, Mapper.laidOut_store]

/-- A read in a trigger window and then one outside them in the pattern tables: the second returns the byte of the 4 KiB
CHR bank that the new latches show in its first page. -/
theorem latchRdppu_after_trigger (hs : s.inst = some m) (h : m.Inv) (hv : m.cfg.variant = .latch) {b : PpuAddr}
    (ha : triggeredLatches m.latch.latch a = some l) (hb : triggeredLatches l b = none) (hchr : b.toNat < 0x2000)
    {bank : Byte} (hbank : shownChr (m.setLatch { m.latch with latch := l }) (b.toNat / 1024) = 4 * bank.toNat) :
    ∃ t, execAll [.latchRdppu a, .latchRdppu b] s = .next t ∧
      t.out.data = some (Memory.read m.store (m.cfg.chrBase + 4096 * bank.toNat + b.toNat % 1024)) := by
  have hm : s.LiveAs .latch m := ⟨⟨hs, h.live⟩, hv⟩
  have hinv := h.relatched hv l
  generalize hflip : (m.setLatch { m.latch with latch := l }).laidOut = m' at hinv
  have hfirst : exec (.latchRdppu a) s = .next (s.afterPpuRead m a m') :=
    latchRead_of_holds hm (h.holds_ppuPageAt a) (hflip ▸ triggerRemap_trigger h.legal hv h.regs ha)
  have hm' : (s.afterPpuRead m a m').LiveAs .latch m' := ⟨⟨rfl, hinv.live⟩, hflip ▸ hv⟩
  have hsecond : exec (.latchRdppu b) (s.afterPpuRead m a m') =
      .next ((s.afterPpuRead m a m').afterPpuRead m' b m') :=
    latchRead_of_holds hm' (hinv.holds_ppuPageAt b) (hflip ▸ triggerRemap_noTrigger hb)
  refine ⟨_, (execAll_cons_next hfirst).trans (execAll_cons_next hsecond), ?_⟩
  have hoffset : 4096 * bank.toNat = 1024 * (4 * bank.toNat) := by omega
  rw [← hflip, hoffset, ← hbank]
  exact congrArg some (Mapper.laidOut_pageByte _ hchr _)

end TriggerThenRead

/-- Settles O50: the latch a trigger writes does not depend on what it held, and chooses the bank of its half. -/
theorem latchTriggerChoosesTheBank : Obligations.LatchTriggerChoosesTheBank := by
  intro s m hs h hv first second k hcase
  rcases hcase with ⟨rfl, rfl, rfl⟩ | ⟨rfl, rfl, rfl⟩ | ⟨rfl, rfl, rfl⟩ | ⟨rfl, rfl, rfl⟩
  · exact latchRdppu_after_trigger hs h hv rfl rfl (by decide) (shownChr_trigger0 hv false)
  · exact latchRdppu_after_trigger hs h hv rfl rfl (by decide) (shownChr_trigger0 hv true)
  · exact latchRdppu_after_trigger hs h hv rfl rfl (by decide) (shownChr_trigger1 hv false)
  · exact latchRdppu_after_trigger hs h hv rfl rfl (by decide) (shownChr_trigger1 hv true)

end Sys2Proof.Machine

/-! ## Save and restore (R262 to R268)

The buffer of `SAVE` is known byte by byte, and a restore reads each of its parts back: the tables and the store of a
saved block come back whole, its own registers by the register bytes, and the foreign ones because the registers of two
legal blocks of one configuration agree there. -/

namespace Sys2Proof.Machine

/-! ### The operations on a live block -/

section Operations

variable {s : State} {m : Mapper}

theorem exec_save_live (hm : s.Live m) :
    exec .save s = .next (s.reply m ⟨none, false, some (saveBuffer m), none⟩) :=
  withBlock_live hm _

/-- A restore of a right-sized buffer reads the block or refuses the buffer (R266, R268). -/
theorem exec_restore_live (hm : s.Live m) {buf : List Byte} (hlen : buf.length = saveSize m.cfg) :
    exec (.restore buf) s =
      if ownBuffer buf m then .next (s.reply (restored buf m) Output.quiet) else .refused .foreignBuffer :=
  (withBlock_live hm _).trans (if_pos hlen)

end Operations

theorem ownBuffer_iff {buf : List Byte} {m : Mapper} :
    ownBuffer buf m = true ↔ saveBuffer (restored buf m) = buf ∧ (restored buf m).coherent = true := by
  simp only [ownBuffer, Bool.and_eq_true, decide_eq_true_eq]

/-! ### What `SAVE` returns (R262 to R265) -/

/-- The ten bytes of a descriptor at their places (R263), wherever they stand in a buffer. -/
theorem bankBytes_at {buf : List Byte} {i : Nat} {e : Bank} (h : ∀ k, k < 10 → buf[i + k]? = (bankBytes e)[k]?) :
    (∀ k, k < 8 → buf[i + k]? = some (BitVec.ofNat 8 (e.off / 256 ^ k))) ∧
      buf[i + 8]? = some (flagByte e.ro) ∧ buf[i + 9]? = some (flagByte e.mapped) :=
  ⟨fun k hk => (h k (by omega)).trans (bankBytes_off e k hk), (h 8 (by omega)).trans (bankBytes_ro e),
    (h 9 (by omega)).trans (bankBytes_mapped e)⟩

theorem latch_selected_toList (q : LatchRegs) :
    q.selected.toList = [q.selected[0], q.selected[1], q.selected[2], q.selected[3]] :=
  List.ext_getElem (by simp) fun i hi _ => by
    rw [Vector.length_toList] at hi
    interval_cases i <;> simp

/-- Settles O51: the parts of the buffer stand at their places, and the register bytes are its end. -/
theorem saveLaysOutTheBuffer : Obligations.SaveLaysOutTheBuffer := by
  intro s m hm
  refine ⟨saveBuffer m, (exec_save_live hm).trans (by rw [State.reply_live hm]), ?_,
    fun p => bankBytes_at fun k hk => saveBuffer_cpu m p k p.isLt hk,
    fun p => bankBytes_at fun k hk => saveBuffer_ppu m p k p.isLt hk, ?_⟩
  · rw [saveBuffer_length]
    unfold saveSize regCount
    cases m.cfg.variant <;> rfl
  · rintro _ rfl
    refine ⟨saveBuffer_chr m, saveBuffer_cpuRam m, saveBuffer_ppuRam m, (saveBuffer_regs m).trans ?_⟩
    rw [regBytes, latch_selected_toList]
    cases m.cfg.variant <;> rfl

/-! ### The registers read back (R25, R264, R266) -/

/-! The registers a variant does not have stand at their values of R38 in every legal block. -/

theorem shiftLegal_foreign {c : Cfg} (hv : c.variant ≠ .shift) {q : ShiftRegs} (h : shiftLegal c q = true) :
    q = ShiftRegs.reset := by
  unfold shiftLegal at h
  split at h
  · exact absurd ‹_› hv
  all_goals exact of_decide_eq_true h

theorem irqLegal_foreign {c : Cfg} (hv : c.variant ≠ .irq) {q : IrqRegs} (h : irqLegal c q = true) :
    q = IrqRegs.reset := by
  unfold irqLegal at h
  split at h
  · exact absurd ‹_› hv
  all_goals exact of_decide_eq_true h

theorem latchLegal_foreign {c : Cfg} (hv : c.variant ≠ .latch) {q : LatchRegs} (h : latchLegal c q = true) :
    q = LatchRegs.reset := by
  unfold latchLegal at h
  split at h
  · exact absurd ‹_› hv
  all_goals exact of_decide_eq_true h

theorem directLegal_foreign {c : Cfg} (hv : LacksDirect c.variant) {q : DirectRegs} (h : directLegal c q = true) :
    q = DirectRegs.reset := by
  rcases hv with hv | hv | hv | hv <;> simpa only [directLegal, hv, decide_eq_true_eq] using h

/-- Legal blocks of one configuration agree on the registers their variant does not have. -/
theorem Mapper.SameForeign.of_regsLegal {m m0 : Mapper} (hc : m.cfg = m0.cfg) (hr : m.regsLegal = true)
    (hr0 : m0.regsLegal = true) : m.SameForeign m0 := by
  obtain ⟨hd, hs, hi, hl⟩ := regsLegal_iff.mp hr
  obtain ⟨hd0, hs0, hi0, hl0⟩ := regsLegal_iff.mp hr0
  rw [← hc] at hd0 hs0 hi0 hl0
  exact ⟨hc.symm, fun hv => (shiftLegal_foreign hv hs0).trans (shiftLegal_foreign hv hs).symm,
    fun hv => (irqLegal_foreign hv hi0).trans (irqLegal_foreign hv hi).symm,
    fun hv => (latchLegal_foreign hv hl0).trans (latchLegal_foreign hv hl).symm,
    fun hv => (directLegal_foreign hv hd0).trans (directLegal_foreign hv hd).symm⟩

theorem withRegsAt_drop (buf : List Byte) (i : Nat) (m : Mapper) :
    withRegsAt buf i m = withRegsAt (buf.drop i) 0 m := by
  have hbyte (k : Nat) : byteAt (buf.drop i) k = byteAt buf (i + k) := by
    simp only [byteAt, List.getD_eq_getElem?_getD, List.getElem?_drop]
  simp only [withRegsAt, flagAt, hbyte, Nat.zero_add, Nat.add_zero, Nat.add_assoc]

/-! The register bytes of a saved block, read back into the registers of its variant. -/

/-- A flag byte is 0x00 for false alone (R263). -/
@[simp] theorem flagByte_eq_zero_iff (b : Bool) : flagByte b = 0#8 ↔ b = false := by cases b <;> decide

/-- The bytes of a register array, read back from where they stand. -/
theorem ofFn_byteAt {n : Nat} {buf pre post : List Byte} {v : Vector Byte n} (h : buf = pre ++ v.toList ++ post) :
    (Vector.ofFn fun k : Fin n => byteAt buf (pre.length + k.val)) = v := by
  refine Vector.ext fun k hk => ?_
  rw [Vector.getElem_ofFn, byteAt_eq _ _ v[k]]
  rw [h, List.append_assoc, List.getElem?_append_right (by omega), Nat.add_sub_cancel_left,
    List.getElem?_append_left (by simpa using hk)]
  simp [hk]

section OwnRegisters

variable {m m0 : Mapper} (hc : m.cfg = m0.cfg)

include hc

theorem withRegsAt_regBytes_direct (hv : ¬ LacksDirect m.cfg.variant) (hd : directLegal m.cfg m.direct = true)
    (hd0 : directLegal m.cfg m0.direct = true) : (withRegsAt (regBytes m0) 0 m).direct = m0.direct := by
  cases hw : m.cfg.variant with
  | nrom | shift | irq | latch => exact absurd (by simp [LacksDirect, hw]) hv
  | uxrom =>
    have hchr := ((directLegal_uxrom hw _).mp hd).2.trans ((directLegal_uxrom hw _).mp hd0).2.symm
    simp [withRegsAt, regBytes, ← hc, hw, byteAt, hchr]
  | cnrom =>
    have hprg := ((directLegal_cnrom hw _).mp hd).1.trans ((directLegal_cnrom hw _).mp hd0).1.symm
    simp [withRegsAt, regBytes, ← hc, hw, byteAt, hprg]
  | axrom =>
    have hchr := ((directLegal_axrom hw _).mp hd).2.trans ((directLegal_axrom hw _).mp hd0).2.symm
    simp [withRegsAt, regBytes, ← hc, hw, byteAt, hchr]
  | gxrom | unrom512 => simp [withRegsAt, regBytes, ← hc, hw, byteAt]

theorem withRegsAt_regBytes_shift (hv : m.cfg.variant = .shift) :
    (withRegsAt (regBytes m0) 0 m).shift = m0.shift := by
  simp [withRegsAt, regBytes, regByte, ← hc, hv, byteAt]

theorem withRegsAt_regBytes_irq (hv : m.cfg.variant = .irq) :
    (withRegsAt (regBytes m0) 0 m).irq = m0.irq := by
  have hbank : (Vector.ofFn fun k : Fin 8 => byteAt (regBytes m0) (0 + k.val)) = m0.irq.bank :=
    ofFn_byteAt (pre := []) (by simp only [regBytes, ← hc, hv]; rfl)
  simp only [withRegsAt, hv, Mapper.setIrq_irq, hbank]
  simp [regBytes, regByte, ← hc, hv, flagAt, byteAt]

theorem withRegsAt_regBytes_latch (hv : m.cfg.variant = .latch) :
    (withRegsAt (regBytes m0) 0 m).latch = m0.latch := by
  have hbytes : regBytes m0 = [m0.latch.prgSel] ++ m0.latch.selected.toList ++
      [flagByte m0.latch.latch[0], flagByte m0.latch.latch[1]] := by simp only [regBytes, ← hc, hv]
  have hselected : (Vector.ofFn fun k : Fin 4 => byteAt (regBytes m0) (0 + 1 + k.val)) = m0.latch.selected :=
    ofFn_byteAt hbytes
  have hlatch : (Vector.ofFn fun k : Fin 2 => flagAt (regBytes m0) (0 + 5 + k.val)) = m0.latch.latch :=
    Vector.ext fun k hk => by interval_cases k <;> simp [hbytes, flagAt, byteAt]
  simp only [withRegsAt, hv, Mapper.setLatch_latch, hselected, hlatch]
  simp [hbytes, byteAt]

end OwnRegisters

/-! ### A saved block read back (R267) -/

section ReadBack

variable {m m0 : Mapper}

/-- Blocks equal in every component of R20 are equal. -/
theorem Mapper.eq_of_components {a b : Mapper} (hcfg : a.cfg = b.cfg) (hstore : a.store = b.store)
    (hcpu : a.cputab = b.cputab) (hppu : a.pputab = b.pputab) (hdirect : a.direct = b.direct)
    (hshift : a.shift = b.shift) (hirq : a.irq = b.irq) (hlatch : a.latch = b.latch)
    (hfaulted : a.faulted = b.faulted) : a = b := by
  cases a
  cases b
  congr

/-- The register bytes of a legal block, read into another of its configuration, give its register files whole: its
own registers by the bytes, the foreign ones because the two blocks agree there. -/
theorem withRegsAt_regBytes (hc : m.cfg = m0.cfg) (hr : m.regsLegal = true) (hr0 : m0.regsLegal = true) :
    (withRegsAt (regBytes m0) 0 m).direct = m0.direct ∧ (withRegsAt (regBytes m0) 0 m).shift = m0.shift ∧
      (withRegsAt (regBytes m0) 0 m).irq = m0.irq ∧ (withRegsAt (regBytes m0) 0 m).latch = m0.latch := by
  have hforeign := Mapper.SameForeign.of_regsLegal hc hr hr0
  have hkept := Mapper.SameForeign.of_withRegsAt (regBytes m0) 0 m
  refine ⟨?_, ?_, ?_, ?_⟩
  · by_cases hv : LacksDirect m.cfg.variant
    · exact (hkept.direct hv).trans (hforeign.direct hv).symm
    · exact withRegsAt_regBytes_direct hc hv (regsLegal_iff.mp hr).1 (hc ▸ (regsLegal_iff.mp hr0).1)
  · by_cases hv : m.cfg.variant = .shift
    · exact withRegsAt_regBytes_shift hc hv
    · exact (hkept.shift hv).trans (hforeign.shift hv).symm
  · by_cases hv : m.cfg.variant = .irq
    · exact withRegsAt_regBytes_irq hc hv
    · exact (hkept.irq hv).trans (hforeign.irq hv).symm
  · by_cases hv : m.cfg.variant = .latch
    · exact withRegsAt_regBytes_latch hc hv
    · exact (hkept.latch hv).trans (hforeign.latch hv).symm

/-- The register files of a saved block, read back. -/
theorem restored_regs (hc : m.cfg = m0.cfg) (hr : m.regsLegal = true) (hr0 : m0.regsLegal = true) :
    (restored (saveBuffer m0) m).direct = m0.direct ∧ (restored (saveBuffer m0) m).shift = m0.shift ∧
      (restored (saveBuffer m0) m).irq = m0.irq ∧ (restored (saveBuffer m0) m).latch = m0.latch := by
  have hregs := saveBuffer_regs m0
  rw [← hc] at hregs
  rw [restored, withRegsAt_drop, hregs]
  exact withRegsAt_regBytes hc hr hr0

theorem Mapper.Inv.coherent (h : m.Inv) : m.coherent = true := by
  obtain ⟨-, -, hcoherent, -⟩ := h
  exact hcoherent

/-- The buffer of a block that meets the invariant reads back as that block (R267). -/
theorem restored_saveBuffer (h0 : m0.Inv) (h : m.Inv) (hc : m.cfg = m0.cfg) (hlen : m.cfg.storeLen ≤ 2 ^ 64) :
    restored (saveBuffer m0) m = m0 := by
  obtain ⟨hcpu, hppu⟩ := restored_tables (m := m) h0 (hc ▸ hlen)
  obtain ⟨hdirect, hshift, hirq, hlatch⟩ := restored_regs hc h.regs h0.regs
  exact Mapper.eq_of_components ((restored_cfg _ m).trans hc)
    ((restored_store _ m).trans (storeFrom_saveBuffer h0 h hc)) hcpu hppu hdirect hshift hirq hlatch
    ((restored_faulted _ m).trans (h.live.trans h0.live.symm))

end ReadBack

/-- Settles O53: the buffer reads back as the saved block, which saves as it and is coherent. -/
theorem restoreOfSaveIsIdentity : Obligations.RestoreOfSaveIsIdentity := by
  intro s m0 m hs h h0 hc hlen
  have hlive : s.Live m := ⟨hs, h.live⟩
  have hback := restored_saveBuffer h0 h hc hlen
  have hown : ownBuffer (saveBuffer m0) m = true := by
    rw [ownBuffer_iff, hback]
    exact ⟨rfl, h0.coherent⟩
  have hrestore : exec (.restore (saveBuffer m0)) s = .next (s.reply m0 Output.quiet) := by
    rw [exec_restore_live hlive (by rw [saveBuffer_length, hc]), if_pos hown, hback]
  refine ⟨hrestore, fun s0 t0 buf hs0 hsave hbuf => ?_⟩
  cases (exec_save_live ⟨hs0, h0.live⟩).symm.trans hsave
  cases hbuf
  exact hrestore

/-- Settles O54: a buffer the restore accepts is one it checked to save back, and the rest of the block is not read
from it. -/
theorem restoreAcceptsOnlyWhatSavesBack : Obligations.RestoreAcceptsOnlyWhatSavesBack := by
  intro s m buf hm hlen
  rw [exec_restore_live hm hlen]
  by_cases hown : ownBuffer buf m = true
  · obtain ⟨hsaves, hcoherent⟩ := ownBuffer_iff.mp hown
    have hfaulted : (restored buf m).faulted = false := (restored_faulted buf m).trans hm.2
    have hrom (i : Nat) (hi : i < m.cfg.cpuRamBase) (hchr : m.cfg.chrReadOnly = false → i < m.cfg.chrBase) :
        Memory.read (restored buf m).store i = Memory.read m.store i := by
      rw [restored_store, read_storeFrom_rom _ _ _ i hi hchr]
    refine .inr ⟨restored buf m, _, if_pos hown, restored_cfg buf m, hfaulted, hcoherent,
      fun h => restored_inv h buf hcoherent, fun i hi => hrom i (Nat.lt_add_right _ hi) fun _ => hi,
      fun hro i hi => hrom i hi fun hrw => ?_, exec_save_live ⟨rfl, hfaulted⟩, congrArg some hsaves⟩
    rw [hro] at hrw
    cases hrw
  · exact .inl (if_neg hown)

end Sys2Proof.Machine

/-! ## Decode and encode (R101 to R115)

Decode is told by kind; what it answers for a tick, a PPU read, a CPU write and a PPU write is one function each, and
these are where the variants differ. -/

namespace Sys2Proof

/-! ### The operations decode answers under a variant -/

/-- The two operations with a side operand, which build the block anew (R102). -/
def loadsBlock (i : Instr) : Bool :=
  match i with
  | .poweron _ | .restore _ => true
  | _ => false

/-- An operation of the variant that acts on the block as it stands. -/
structure Acts (v : Variant) (i : Instr) : Prop where
  wellFormed : wellFormed v i = true
  loadsNothing : loadsBlock i = false

theorem Acts.ne_poweron {v : Variant} {i : Instr} (h : Acts v i) (c : CfgIn) : i ≠ .poweron c := by
  rintro rfl
  cases h.loadsNothing

section Acts

variable {v : Variant}

theorem decodeTick_acts : Acts v (decodeTick v) := by
  unfold decodeTick
  split
  case isTrue hv => exact ⟨decide_eq_true hv, rfl⟩
  case isFalse hv => exact ⟨decide_eq_true hv, rfl⟩

theorem decodeWrppu_acts (p : PpuAddr) (d : Byte) : Acts v (decodeWrppu v p d) := by
  unfold decodeWrppu
  split
  case isTrue hv => exact ⟨decide_eq_true hv, rfl⟩
  case isFalse hv => exact ⟨decide_eq_true hv, rfl⟩

theorem decodeLatchRead_acts (p : PpuAddr) : Acts .latch (decodeLatchRead p) := by
  unfold decodeLatchRead
  split
  · exact ⟨rfl, rfl⟩
  split
  · exact ⟨rfl, rfl⟩
  split
  · exact ⟨rfl, rfl⟩
  split
  · exact ⟨rfl, rfl⟩
  · refine ⟨?_, rfl⟩
    simp [wellFormed, isTrigger, *]

theorem decodeRdppu_acts (p : PpuAddr) : Acts v (decodeRdppu v p) := by
  unfold decodeRdppu
  split
  case isTrue hv => exact ⟨decide_eq_true hv, rfl⟩
  case isFalse hirq =>
    split
    case isTrue hv => exact hv ▸ decodeLatchRead_acts p
    case isFalse hlatch => exact ⟨by simp [wellFormed, hirq, hlatch], rfl⟩

theorem decodeIrqWrite_acts (a : CpuAddr) (d : Byte) : Acts .irq (decodeIrqWrite a d) := by
  unfold decodeIrqWrite
  split <;> exact ⟨rfl, rfl⟩

theorem decodeLatchWrite_acts {a : CpuAddr} (d : Byte) (ha : claimsWrite .latch a = true) :
    Acts .latch (decodeLatchWrite a d) := by
  unfold decodeLatchWrite
  split
  case h_7 hA hB hC hD hE hF =>
    simp only [claimsWrite, decide_eq_true_eq, BitVec.le_def, BitVec.toNat_ofNat] at ha
    simp only [BitVec.extractLsb'_toNat, Nat.shiftRight_eq_div_pow, imp_false] at hA hB hC hD hE hF
    omega
  all_goals exact ⟨rfl, rfl⟩

/-- A CPU write is one of the variant's register writes where the variant claims the address, and the default write
elsewhere (R106, R107, R109, R110, R112). -/
theorem decodeWrcpu_acts (a : CpuAddr) (d : Byte) : Acts v (decodeWrcpu v a d) := by
  cases hclaim : claimsWrite v a with
  | false =>
    rw [decodeWrcpu_of_unclaimed d hclaim]
    exact ⟨by simp [wellFormed, hclaim], rfl⟩
  | true =>
    cases v
    case nrom => cases hclaim
    case latch => exact decodeLatchWrite_acts d hclaim
    all_goals
      have hbit : a.getLsbD 15 = true := hclaim
      simp only [decodeWrcpu, if_pos hbit]
    case irq => exact decodeIrqWrite_acts a d
    case shift => split <;> exact ⟨rfl, rfl⟩
    all_goals exact ⟨rfl, rfl⟩

/-- Every transaction but `POWERON` and `RESTORE` presents an operation that acts on the block as it stands. -/
theorem decode_ok_acts {t : Txn} {i : Instr} (h : decode v t = .ok i) :
    (wordKind t.word = 5#3 ∧ i = .poweron t.cfg) ∨ (wordKind t.word = 7#3 ∧ i = .restore t.buf) ∨ Acts v i := by
  rcases decode_ok_cases h with ⟨-, rfl⟩ | ⟨-, rfl⟩ | ⟨-, rfl⟩ | ⟨-, p, -, rfl⟩ | ⟨-, p, -, rfl⟩ | ⟨hk, rfl⟩ |
    ⟨-, rfl⟩ | ⟨hk, rfl⟩
  · exact .inr (.inr decodeTick_acts)
  · exact .inr (.inr ⟨rfl, rfl⟩)
  · exact .inr (.inr (decodeWrcpu_acts _ _))
  · exact .inr (.inr (decodeRdppu_acts p))
  · exact .inr (.inr (decodeWrppu_acts p _))
  · exact .inl ⟨hk, rfl⟩
  · exact .inr (.inr ⟨rfl, rfl⟩)
  · exact .inr (.inl ⟨hk, rfl⟩)

end Acts

/-- Settles O2: the operations that act on the block are the variant's by the cases of decode, and every variant has
`POWERON` and `RESTORE`. -/
theorem decodedOperationIsWellFormed : Obligations.DecodedOperationIsWellFormed := by
  intro v t i h
  rcases decode_ok_acts h with ⟨-, rfl⟩ | ⟨-, rfl⟩ | ⟨hw, -⟩
  · rfl
  · rfl
  · exact hw

/-! ### Decode of an encoded operation -/

section Encode

variable {v : Variant}

theorem wordKind_plainTxn (k : BitVec 3) (a : CpuAddr) (d : Byte) : wordKind (plainTxn k a d).word = k :=
  wordKind_makeWord k a d

theorem decode_plainTxn_tick (a : CpuAddr) (d : Byte) : decode v (plainTxn 0#3 a d) = .ok (decodeTick v) :=
  decode_kind v (plainTxn 0#3 a d) 0#3 (wordKind_plainTxn ..)

theorem decode_plainTxn_rdcpu (a : CpuAddr) (d : Byte) : decode v (plainTxn 1#3 a d) = .ok (.rdcpu a) := by
  rw [decode_kind v (plainTxn 1#3 a d) 1#3 (wordKind_plainTxn ..)]
  simp [plainTxn]

theorem decode_plainTxn_wrcpu (a : CpuAddr) (d : Byte) :
    decode v (plainTxn 2#3 a d) = .ok (decodeWrcpu v a d) := by
  rw [decode_kind v (plainTxn 2#3 a d) 2#3 (wordKind_plainTxn ..)]
  simp [plainTxn]

theorem decode_plainTxn_rdppu (p : PpuAddr) (d : Byte) :
    decode v (plainTxn 3#3 (ppuField p) d) = .ok (decodeRdppu v p) := by
  rw [decode_kind v (plainTxn 3#3 (ppuField p) d) 3#3 (wordKind_plainTxn ..)]
  simp [plainTxn]

theorem decode_plainTxn_wrppu (p : PpuAddr) (d : Byte) :
    decode v (plainTxn 4#3 (ppuField p) d) = .ok (decodeWrppu v p d) := by
  rw [decode_kind v (plainTxn 4#3 (ppuField p) d) 4#3 (wordKind_plainTxn ..)]
  simp [plainTxn]

/-- The transaction of an operation decodes to it under the variant. -/
def RoundTrips (v : Variant) (i : Instr) : Prop := ∃ t, encode i = some t ∧ decode v t = .ok i

theorem roundTrips_wrcpu {i : Instr} {a : CpuAddr} {d : Byte} (he : encode i = some (plainTxn 2#3 a d))
    (hd : decodeWrcpu v a d = i) : RoundTrips v i :=
  ⟨_, he, hd ▸ decode_plainTxn_wrcpu a d⟩

theorem roundTrips_rdppu {i : Instr} {p : PpuAddr} {d : Byte} (he : encode i = some (plainTxn 3#3 (ppuField p) d))
    (hd : decodeRdppu v p = i) : RoundTrips v i :=
  ⟨_, he, hd ▸ decode_plainTxn_rdppu p d⟩

theorem roundTrips_wrppu {i : Instr} {p : PpuAddr} {d : Byte} (he : encode i = some (plainTxn 4#3 (ppuField p) d))
    (hd : decodeWrppu v p d = i) : RoundTrips v i :=
  ⟨_, he, hd ▸ decode_plainTxn_wrppu p d⟩

theorem roundTrips_tick {i : Instr} (he : encode i = some (plainTxn 0#3 0#16 0#8)) (hd : decodeTick v = i) :
    RoundTrips v i :=
  ⟨_, he, hd ▸ decode_plainTxn_tick _ _⟩

theorem decodeRdppu_latch {p : PpuAddr} (h : isTrigger p = false) : decodeRdppu .latch p = .latchRdppu p := by
  simp only [isTrigger, Bool.or_eq_false_iff, decide_eq_false_iff_not] at h
  obtain ⟨⟨⟨h0c, h0s⟩, h1c⟩, h1s⟩ := h
  exact (if_neg h0c).trans ((if_neg h0s).trans ((if_neg h1c).trans (if_neg h1s)))

end Encode

/-- Settles O1, operation by operation: its word has the kind and the address its decode looks for. -/
theorem decodeOfEncodeIsIdentity : Obligations.DecodeOfEncodeIsIdentity := by
  intro v i hw
  change RoundTrips v i
  cases i with
  | tick => exact roundTrips_tick rfl (if_neg (of_decide_eq_true hw))
  | irqTick => exact roundTrips_tick rfl (if_pos (of_decide_eq_true hw))
  | rdcpu a => exact ⟨_, rfl, decode_plainTxn_rdcpu a _⟩
  | wrcpu a d => exact roundTrips_wrcpu rfl (decodeWrcpu_of_unclaimed d (by simpa [wellFormed] using hw))
  | rdppu p =>
    simp only [wellFormed, Bool.and_eq_true, decide_eq_true_eq] at hw
    exact roundTrips_rdppu rfl ((if_neg hw.1).trans (if_neg hw.2))
  | irqRdppu p => exact roundTrips_rdppu rfl (if_pos (of_decide_eq_true hw))
  | latchRdppu p =>
    simp only [wellFormed, Bool.and_eq_true, decide_eq_true_eq, Bool.not_eq_true'] at hw
    obtain ⟨rfl, htrigger⟩ := hw
    exact roundTrips_rdppu rfl (decodeRdppu_latch htrigger)
  | wrppu p d => exact roundTrips_wrppu rfl (if_neg (of_decide_eq_true hw))
  | irqWrppu p d => exact roundTrips_wrppu rfl (if_pos (of_decide_eq_true hw))
  | poweron c => exact ⟨_, rfl, decode_kind v ⟨makeWord 5#3 0#16 0#8, c, []⟩ 5#3 (wordKind_makeWord ..)⟩
  | save => exact ⟨_, rfl, decode_kind v (plainTxn 6#3 0#16 0#8) 6#3 (wordKind_plainTxn ..)⟩
  | restore buf =>
    exact ⟨_, rfl, decode_kind v ⟨makeWord 7#3 0#16 0#8, Config.launchIn, buf⟩ 7#3 (wordKind_makeWord ..)⟩
  | uxromSel d | cnromSel d | axromSel d | gxromSel d | unrom512Sel d | shiftReset | irqBanksel d | irqBankdata d
  | irqRamprot | irqReloadval d | irqReload | irqDisable | irqEnable | latchPrg d | latchChr0 d | latchChr1 d
  | latchChr2 d | latchChr3 d =>
    obtain rfl := of_decide_eq_true hw
    exact roundTrips_wrcpu rfl rfl
  | irqMirror h | latchMirror h =>
    obtain rfl := of_decide_eq_true hw
    exact roundTrips_wrcpu rfl (by cases h <;> rfl)
  | shiftBit target bit =>
    obtain rfl := of_decide_eq_true hw
    exact roundTrips_wrcpu rfl (by revert target bit; decide)
  | latchTrig0Clr low | latchTrig0Set low | latchTrig1Clr low | latchTrig1Set low =>
    obtain rfl := of_decide_eq_true hw
    exact roundTrips_rdppu rfl (by revert low; decide)
  | shiftLdCtrl | shiftLdChr0 | shiftLdChr1 | shiftLdPrg | map | unmap | mirror | setmirror | mapcpuram | mapppuram
  | mapprg | mapchr | shiftRemap | irqRemap | irqObserve | irqClock | latchRemap => cases hw

/-- Settles O5: the twelve words, each with the fields that name its operation. -/
theorem sampleWordsDecode : Obligations.SampleWordsDecode :=
  ⟨rfl, rfl, rfl, rfl, rfl, rfl, rfl, rfl, rfl, rfl, rfl, rfl⟩

end Sys2Proof

/-! ## Steps, and the operations that stop (R24, R25, R100, R104, R281)

A step is one operation on the state in which its transaction has been taken; the operations stop where there is no block
to act on, where the block is another variant's, and where a descriptor leads past the store. -/

namespace Sys2Proof.Machine

/-! ### What a step does (R100, R104) -/

section Step

variable {s t : State} {x : Txn} {rest : List Txn} {i : Instr}

theorem step_idle (hp : s.port = []) : step s = .next s := by
  simp [step, fetch, hp]

theorem step_ready (hp : s.port = x :: rest) (hd : decode s.variant x = .ok i) :
    step s = exec i { s with port := rest } := by
  simp [step, fetch, hp, hd]

theorem step_refused (hp : s.port = x :: rest) {a : CpuAddr}
    (hd : decode s.variant x = .error (.ppuAddressTooWide a)) : step s = .refused (.ppuAddressTooWide a) := by
  simp [step, fetch, hp, hd]

/-- A step that answers is idle, or is the operation of the transaction it took. -/
theorem step_next (h : step s = .next t) :
    (s.port = [] ∧ t = s) ∨ ∃ x rest i, s.port = x :: rest ∧ decode s.variant x = .ok i ∧
      exec i { s with port := rest } = .next t := by
  cases hp : s.port with
  | nil =>
    rw [step_idle hp] at h
    exact .inl ⟨rfl, (Host.Outcome.next.inj h).symm⟩
  | cons x rest =>
    cases hd : decode s.variant x with
    | ok i => exact .inr ⟨x, rest, i, rfl, hd, (step_ready hp hd).symm.trans h⟩
    | error e =>
      obtain ⟨a⟩ := e
      rw [step_refused hp hd] at h
      cases h

theorem variant_of_inst {m : Mapper} (hm : s.inst = some m) : s.variant = m.cfg.variant := by
  rw [State.variant, hm]

/-- `POWERON` is decoded alike under every variant (R102, R104). -/
theorem decode_poweron {v : Variant} {c : CfgIn} (h : decode v x = .ok (.poweron c)) (w : Variant) :
    decode w x = .ok (.poweron c) := by
  rcases decode_ok_acts h with ⟨hk, hc⟩ | ⟨-, hb⟩ | ha
  · rw [hc]
    exact decode_kind w x 5#3 hk
  · cases hb
  · exact absurd rfl (ha.ne_poweron c)

end Step

/-- Settles O6: the cases of a step, under the variant of the block. -/
theorem stepRunsTheNextTransaction : Obligations.StepRunsTheNextTransaction :=
  ⟨fun _ _ _ _ _ hm hp hd => step_ready hp (variant_of_inst hm ▸ hd),
    fun _ _ _ _ _ hm hp hd => step_refused hp (variant_of_inst hm ▸ hd),
    fun _ _ _ _ _ _ hp hd => step_ready hp (decode_poweron hd _),
    fun _ hp => step_idle hp⟩

/-! ### Operations that stop -/

/-- Without a block every operation but `POWERON` stops (U6). -/
theorem exec_noBlock {s : State} (i : Instr) (hs : s.inst = none) (hi : ∀ c, i ≠ .poweron c) :
    exec i s = .refused .noBlock := by
  obtain ⟨k, hk⟩ := exec_eq_withBlock i s hi
  rw [hk, withBlock, hs]

/-- Settles O11: an operation that acts on the block stops without one. -/
theorem noBlockNoOperation : Obligations.NoBlockNoOperation := fun _ i => exec_noBlock i

/-- An operation but `POWERON` that answers acted on a live block. -/
theorem live_of_exec_next {s t : State} {i : Instr} (hi : ∀ c, i ≠ .poweron c) (h : exec i s = .next t) :
    ∃ m, s.Live m := by
  obtain ⟨k, hk⟩ := exec_eq_withBlock i s hi
  obtain ⟨m, hm, -⟩ := withBlock_next (hk.symm.trans h)
  exact ⟨m, hm⟩

/-- An operation that belongs to a variant acts on a block of that variant (R25). -/
theorem exec_eq_withVariant {i : Instr} {v : Variant} (h : ownerOf i = some v) (s : State) :
    ∃ k, exec i s = withVariant v s k := by
  cases i <;> cases h <;> exact ⟨_, rfl⟩

section Outside

variable {m : Mapper} {e : Bank} {intra : Nat} (he : e.mapped = true) (hout : m.cfg.storeLen ≤ e.off + intra)
include he hout

theorem withRead_outside (draws : Nat) (k : Byte → Nat → Host.Outcome State Fault Refusal) :
    withRead m e intra draws k = .fault .outsideStore := by
  rcases withRead_cases m e intra draws k with ⟨-, hin, -⟩ | ⟨hu, -⟩ | ⟨-, -, hk⟩
  · omega
  · simp [he] at hu
  · exact hk

theorem withWrite_outside (hr : e.ro = false) (v : Byte) (k : Mapper → Host.Outcome State Fault Refusal) :
    withWrite m e intra v k = .fault .outsideStore := by
  rcases withWrite_cases m e intra v k with ⟨hd, -⟩ | ⟨-, -, hin, -⟩ | ⟨-, -, -, hk⟩
  · simp [he, hr] at hd
  · omega
  · exact hk

end Outside

theorem exec_latchRdppu_live {s : State} {m : Mapper} (hm : s.LiveAs .latch m) (a : PpuAddr) :
    exec (.latchRdppu a) s = withRead m (m.ppuPageAt a) (a.toNat % 1024) s.draws fun b d =>
      match triggerRemap m a with
      | .done m' => .next (s.replyDraw m' (Output.ofRead b false) d)
      | .violation kind m' => .next (s.raiseContract m' kind) := by
  rw [← ppuBank_eq, ← ppuIntra_eq]
  exact withVariant_live hm _

/-- Settles O12: the owner of an operation is the variant it asks for, and every access is a read or a write through
its page. -/
theorem offRuleAccessesStop : Obligations.OffRuleAccessesStop := by
  refine fun s m hm => ⟨fun i v hi hv => ?_, fun a he hout => ⟨?_, fun hr v => ?_⟩,
    fun a he hout => ⟨?_, fun hv => ?_, fun hv => ?_, fun hr v => ⟨?_, fun hv => ?_⟩⟩⟩
  · obtain ⟨k, hk⟩ := exec_eq_withVariant hi s
    rw [hk, withVariant, withBlock_live hm, if_neg hv]
  · rw [exec_rdcpu_live hm, withRead_outside he hout]
  · rw [exec_wrcpu_live hm, withWrite_outside he hout hr]
  · rw [exec_rdppu_live hm, withRead_outside he hout]
  · rw [exec_irqRdppu_live ⟨hm, hv⟩]
    exact withRead_outside (m := (observeBlock m (a.getLsbD 12)).1) he hout _ _
  · rw [exec_latchRdppu_live ⟨hm, hv⟩, withRead_outside he hout]
  · rw [exec_wrppu_live hm, withWrite_outside he hout hr]
  · rw [exec_irqWrppu_live ⟨hm, hv⟩]
    exact withWrite_outside (m := (observeBlock m (a.getLsbD 12)).1) he hout hr _ _

/-! ### A RESTORE of the wrong size (R285) -/

theorem exec_restore_wrongSize {s : State} {m : Mapper} (hm : s.Live m) {buf : List Byte}
    (hlen : buf.length ≠ saveSize m.cfg) :
    exec (.restore buf) s = .next (s.raise (some m) (.restoreSize buf.length (saveSize m.cfg))) :=
  (withBlock_live hm _).trans (if_neg hlen)

/-- Settles O52: the size is tested first, and the block is left as it is. -/
theorem restoreOfWrongSizeChangesNothing : Obligations.RestoreOfWrongSizeChangesNothing := by
  intro s m buf hm hlen
  rw [exec_restore_wrongSize hm hlen, State.raise, ← hm.1]
  rfl

end Sys2Proof.Machine

/-! ## POWERON (R10, R38, R281, R293, R310 to R323)

`POWERON` of a configuration is one function of it: the block `poweredOn` when the check of R10 accepts, no block and the
error otherwise. -/

namespace Sys2Proof.Machine

/-- The state `POWERON` leaves: the constructed block, or none and the constraint that is broken (R261, R281). -/
def State.afterPoweron (s : State) (c : CfgIn) : State :=
  match checkCfg c with
  | .error e => s.raise none (.config e)
  | .ok cfg => s.reply (poweredOn cfg) Output.quiet

section Poweron

variable {s t : State} {c : CfgIn}

theorem State.afterPoweron_error {e : ConfigError} (h : checkCfg c = .error e) :
    s.afterPoweron c = s.raise none (.config e) := by
  rw [State.afterPoweron, h]

theorem State.afterPoweron_ok {cfg : Cfg} (h : checkCfg c = .ok cfg) :
    s.afterPoweron c = s.reply (poweredOn cfg) Output.quiet := by
  rw [State.afterPoweron, h]

/-- Where no faulted block stands, `POWERON` answers. -/
theorem exec_poweron (hs : ∀ m0, s.inst = some m0 → m0.faulted = false) :
    exec (.poweron c) s = .next (s.afterPoweron c) := by
  have hconstruct : (match checkCfg c with
      | .error e => .next (s.raise none (.config e))
      | .ok cfg => finish s (powerOn cfg)) = Host.Outcome.next (s.afterPoweron c) := by
    cases hc : checkCfg c with
    | error e => rw [State.afterPoweron_error hc]
    | ok cfg =>
      dsimp only
      rw [State.afterPoweron_ok hc, powerOn_done (checkCfg_ok.mp hc).2.2, finish_done]
  cases hi : s.inst with
  | none =>
    change execPoweron c s = _
    rw [execPoweron, hi]
    exact hconstruct
  | some m =>
    change execPoweron c s = _
    rw [execPoweron, hi]
    exact (if_neg (by simp [hs m hi])).trans hconstruct

theorem exec_poweron_next (h : exec (.poweron c) s = .next t) : t = s.afterPoweron c := by
  refine (Host.Outcome.next.inj ((exec_poweron fun m0 hm0 => ?_).symm.trans h)).symm
  cases hf : m0.faulted with
  | false => rfl
  | true =>
    rw [exec_faulted _ hm0 hf] at h
    cases h

end Poweron

/-! ### The reset state (R39, R310) -/

/-- The block of the launch configuration. -/
theorem poweredOn_launch : poweredOn Config.launch = Mapper.launch := by
  have hcpu : (poweredOn Config.launch).cputab = Mapper.launch.cputab := by decide
  have hppu : (poweredOn Config.launch).pputab = Mapper.launch.pputab := by decide
  exact Mapper.eq_of_components rfl rfl hcpu hppu rfl rfl rfl rfl rfl

theorem launch_legal : Config.launch.legal = true := by decide

/-- Settles O7: `POWERON` of the launch configuration answers its block. -/
theorem resetIsTheLaunchPowerOn : Obligations.ResetIsTheLaunchPowerOn := by
  have hcheck : checkCfg Config.launchIn = .ok Config.launch := checkCfg_ok.mpr ⟨rfl, rfl, launch_legal⟩
  have hs : ∀ m0, (none : Option Mapper) = some m0 → m0.faulted = false := by simp
  unfold Obligations.ResetIsTheLaunchPowerOn
  rw [exec_poweron hs, State.afterPoweron_ok hcheck, poweredOn_launch]
  rfl

/-- Settles O55: the block of the reset state is a constructed one. -/
theorem resetMeetsTheInvariant : Obligations.ResetMeetsTheInvariant := by
  intro m hm
  obtain rfl : Mapper.launch = m := Option.some.inj hm
  rw [← poweredOn_launch]
  exact powerOn_inv launch_legal

/-! ### The constraints of R10, in the order of R293 -/

/-- The check of one constraint, as the model writes it. -/
def constraintCheck (v : Variant) (g : Geometry) (e : ConfigError) : Bool :=
  match e with
  | .unknownVariant => true
  | .sizeNotPowerOfTwo => g.sizesOk
  | .payloadLength => g.payloadsOk
  | .prgAboveTwoUnits => g.prgMaxOk v
  | .prgBelowTwoUnits => g.prgMinOk v
  | .ppuRamTooSmall => g.ppuRamOk
  | .trainerLength => g.trainerOk
  | .splitValue => g.splitOk v

theorem isPowerOfTwo_iff (n : Nat) : isPowerOfTwo n = true ↔ ∃ k, n = 2 ^ k := by
  simp only [isPowerOfTwo, Bool.and_eq_true, decide_eq_true_eq]
  exact Nat.ne_zero_and_sub_one_eq_zero_iff_isPowerOfTwo

/-- Each check says what R10 says. -/
theorem constraintCheck_iff (v : Variant) (g : Geometry) (e : ConfigError) :
    constraintCheck v g e = true ↔ Geometry.Meets v g e := by
  cases e with
  | unknownVariant => simp [constraintCheck, Geometry.Meets]
  | sizeNotPowerOfTwo => simp [constraintCheck, Geometry.Meets, Geometry.sizesOk, isPowerOfTwo_iff]
  | payloadLength =>
    have hprg : g.sizePrg = 16384 * g.nPrg16 := by unfold Geometry.sizePrg Geometry.banksPrg; omega
    have hchr : g.sizeChr = 8192 * g.nChr8 := by unfold Geometry.sizeChr Geometry.banksChr; omega
    cases hc : g.chr <;> simp [constraintCheck, Geometry.Meets, Geometry.payloadsOk, hc, hprg, hchr]
  | prgAboveTwoUnits => cases v <;> simp [constraintCheck, Geometry.Meets, Geometry.prgMaxOk]
  | prgBelowTwoUnits => cases v <;> simp [constraintCheck, Geometry.Meets, Geometry.prgMinOk]
  | ppuRamTooSmall => simp [constraintCheck, Geometry.Meets, Geometry.ppuRamOk, Decidable.imp_iff_not_or]
  | trainerLength => cases ht : g.trainer <;> simp [constraintCheck, Geometry.Meets, Geometry.trainerOk, ht]
  | splitValue => cases v <;> simp [constraintCheck, Geometry.Meets, Geometry.splitOk]

/-- The model reports the first check of the order that fails (R293). -/
theorem broken_eq_find (v : Variant) (g : Geometry) :
    g.broken v = configOrder.find? fun e => !constraintCheck v g e := by
  simp only [Geometry.broken, configOrder, List.find?_cons, constraintCheck, List.find?_nil]
  cases g.sizesOk <;> cases g.payloadsOk <;> cases g.prgMaxOk v <;> cases g.prgMinOk v <;> cases g.ppuRamOk <;>
    cases g.trainerOk <;> cases g.splitOk v <;> rfl

theorem checkCfg_firstBroken {v : Variant} {g : Geometry} {before after : List ConfigError} {e : ConfigError}
    (horder : configOrder = before ++ e :: after) (hbefore : ∀ x ∈ before, Geometry.Meets v g x)
    (he : ¬ Geometry.Meets v g e) :
    checkCfg { toGeometry := g, tag := .known v } = .error e := by
  have hbroken : g.broken v = some e := by
    rw [broken_eq_find, List.find?_eq_some_iff_append]
    refine ⟨?_, before, after, horder, fun x hx => ?_⟩
    · rwa [Bool.not_eq_true', ← Bool.not_eq_true, constraintCheck_iff]
    · rw [Bool.not_not, constraintCheck_iff]
      exact hbefore x hx
  simp only [checkCfg, hbroken]

/-- Settles O10: the check reports the first broken constraint, and an operation but `POWERON` leaves a block, which a
`ConfigError` does not. -/
theorem powerOnReportsTheFirstBrokenConstraint : Obligations.PowerOnReportsTheFirstBrokenConstraint := by
  refine ⟨fun s g tag hs => ?_, fun s g v before after e hs horder hbefore he => ?_, fun s t i e ht he => ?_⟩
  · rw [exec_poweron hs, State.afterPoweron_error rfl]
    rfl
  · rw [exec_poweron hs, State.afterPoweron_error (checkCfg_firstBroken horder hbefore he)]
    rfl
  · by_contra hi
    have hne : ∀ c, i ≠ .poweron c := fun c hc => hi ⟨c, hc⟩
    obtain ⟨m, hm, -⟩ := live_of_exec_next hne ht
    obtain ⟨-, -, m', hm', -⟩ := exec_leaves_sameForeign i hm hne t ht
    have hnone := (exec_ends i s t ht).config he
    rw [hm'] at hnone
    cases hnone

/-! ### The tables right after POWERON (R314 to R323) -/

section ResetTables

variable {cfg : Cfg} {k : Nat}

theorem maskTo_zero (count : Nat) : maskTo 0 count = 0 := Nat.zero_and _

/-- R314: system RAM with its copies, open bus, work RAM. -/
theorem cpuEntry_ramPages {m : Mapper} {p : Nat} (hram : m.cfg.banksCpuRam = 10) (hp : p < 32) :
    cpuEntry m p =
      if p < 8 then ⟨m.cfg.cpuRamBase + 1024 * (p % 2), false, true⟩
      else if p < 24 then ⟨0, false, false⟩
      else ⟨m.cfg.cpuRamBase + 2048 + 1024 * (p - 24), false, true⟩ := by
  simp [cpuEntry, hram, hp, Bank.unmapped]

/-- R315, R317: the whole PRG, one 16 KiB unit twice. -/
theorem shownPrg_freshMapper_whole (hv : cfg.variant = .nrom ∨ cfg.variant = .cnrom) :
    shownPrg (freshMapper cfg) (32 + k) = if cfg.nPrg16 = 2 then k else k % 16 := by
  have hcfg : (freshMapper cfg).cfg = cfg := rfl
  rcases hv with hv | hv <;> simp only [shownPrg, hcfg, hv, Nat.add_sub_cancel_left]

/-- R316, R320: the first 16 KiB unit and the last one. -/
theorem shownPrg_freshMapper_selected (hv : cfg.variant = .uxrom ∨ cfg.variant = .unrom512) :
    shownPrg (freshMapper cfg) (32 + k) = if k < 16 then k else 16 * (cfg.nPrg16 - 1) + (k - 16) := by
  have hcfg : (freshMapper cfg).cfg = cfg := rfl
  have hsel : (freshMapper cfg).direct.selPrg.toNat = 0 := rfl
  rcases hv with hv | hv <;> simp only [shownPrg, hcfg, hv, hsel] <;> split_ifs <;> omega

/-- R318, R319: the first 32 KiB. -/
theorem shownPrg_freshMapper_pair (hv : cfg.variant = .axrom ∨ cfg.variant = .gxrom) :
    shownPrg (freshMapper cfg) (32 + k) = k := by
  have hcfg : (freshMapper cfg).cfg = cfg := rfl
  have hsel : (freshMapper cfg).direct.selPrg.toNat = 0 := rfl
  rcases hv with hv | hv <;> simp only [shownPrg, hcfg, hv, hsel] <;> omega

/-- R323: the first switchable window, and the end of PRG. -/
theorem shownPrg_freshMapper_latch (hv : cfg.variant = .latch) :
    shownPrg (freshMapper cfg) (32 + k) =
      if k < cfg.split then k else cfg.banksPrg - (32 - cfg.split) + (k - cfg.split) := by
  have hsel : (freshMapper cfg).latch.prgSel.toNat = 0 := rfl
  refine (shownPrg_latch (m := freshMapper cfg) hv k).trans ?_
  rw [hsel, Nat.mul_zero, Nat.zero_add]
  rfl

/-- R315 to R320: the first 8 KiB of CHR. -/
theorem shownChr_freshMapper_direct (hv : cfg.variant ≠ .shift ∧ cfg.variant ≠ .irq ∧ cfg.variant ≠ .latch) :
    shownChr (freshMapper cfg) k = k := by
  have hcfg : (freshMapper cfg).cfg = cfg := rfl
  have hsel : (freshMapper cfg).direct.selChr.toNat = 0 := rfl
  cases h : cfg.variant <;> simp_all [shownChr]

/-- R321: `ctrl` is 0x0C and `prg` is 0, so the first 16 KiB unit is switchable and the last one fixed. -/
theorem shownPrg_freshMapper_shift (hv : cfg.variant = .shift) :
    shownPrg (freshMapper cfg) (32 + k) = if k < 16 then k else 16 * (cfg.nPrg16 - 1) + (k - 16) := by
  have hctrl : ShiftRegs.reset.ctrl.toNat / 4 % 4 = 3 := by decide
  have hprg : ShiftRegs.reset.prg.toNat % 16 = 0 := by decide
  refine (shownPrg_shift (m := freshMapper cfg) hv k).trans ?_
  change shiftPrgBank cfg.toGeometry (ShiftRegs.reset.ctrl.toNat / 4 % 4) (ShiftRegs.reset.prg.toNat % 16) (32 + k) = _
  rw [hctrl, hprg, shiftPrgBank_window]
  simp

/-- R322: 8 KiB banks 0, 0 and the last two. -/
theorem shownPrg_freshMapper_irq (hv : cfg.variant = .irq) (hk : k < 32) :
    shownPrg (freshMapper cfg) (32 + k) =
      if k < 8 then k else if k < 16 then k - 8
      else if k < 24 then 8 * (2 * cfg.nPrg16 - 2) + (k - 16)
      else 8 * (2 * cfg.nPrg16 - 1) + (k - 24) := by
  have hcfg : (freshMapper cfg).cfg = cfg := rfl
  have hunit (w : Nat) : irqPrgUnit cfg.toGeometry IrqRegs.reset w =
      if w = 0 ∨ w = 1 then 0 else if w = 2 then 2 * cfg.nPrg16 - 2 else 2 * cfg.nPrg16 - 1 := by
    by_cases h0 : w = 0 <;> by_cases h1 : w = 1 <;> simp [irqPrgUnit, IrqRegs.reset, maskTo_zero, h0, h1]
  have hshown : shownPrg (freshMapper cfg) (32 + k) =
      8 * irqPrgUnit cfg.toGeometry IrqRegs.reset ((32 + k - 32) / 8) + (32 + k) % 8 := by
    simp only [shownPrg, hcfg, hv]
    rfl
  rw [hshown, hunit]
  split_ifs <;> omega

/-- R322: 1 KiB banks 0, 1, 0, 1 and four times 0. -/
theorem shownChr_freshMapper_irq (hv : cfg.variant = .irq) (hk : k < 8) :
    shownChr (freshMapper cfg) k = if k < 4 then k % 2 else 0 := by
  have hcfg : (freshMapper cfg).cfg = cfg := rfl
  have hshown : shownChr (freshMapper cfg) k = irqChrBank cfg.toGeometry IrqRegs.reset k := by
    simp only [shownChr, hcfg, hv]
    rfl
  rw [hshown]
  simp only [irqChrBank, IrqRegs.reset, Vector.getElem_replicate, BitVec.zero_and, BitVec.toNat_ofNat,
    Nat.zero_mod, maskTo_zero]
  split_ifs <;> omega

/-- R323: the latches are false, and both select bank 0. -/
theorem shownChr_freshMapper_latch (hv : cfg.variant = .latch) (hk : k < 8) :
    shownChr (freshMapper cfg) k = k % 4 := by
  have hcfg : (freshMapper cfg).cfg = cfg := rfl
  have h0 : latchBank0 LatchRegs.reset = 0 := by decide
  have h1 : latchBank1 LatchRegs.reset = 0 := by decide
  have hshown : shownChr (freshMapper cfg) k =
      if k < 4 then 4 * latchBank0 LatchRegs.reset + k else 4 * latchBank1 LatchRegs.reset + (k - 4) := by
    simp only [shownChr, hcfg, hv]
    rfl
  rw [hshown, h0, h1]
  split_ifs <;> omega

/-- R321: `ctrl` is 0x0C and `chr0` is 0, one 8 KiB bank. -/
theorem shownChr_freshMapper_shift (hv : cfg.variant = .shift) : shownChr (freshMapper cfg) k = k := by
  have hctrl : ShiftRegs.reset.ctrl.toNat / 16 = 0 := by decide
  refine (shownChr_shift (m := freshMapper cfg) hv k).trans ((if_pos hctrl).trans ?_)
  change 8 * (0 / 2 &&& (cfg.nChr8 - 1)) + k = k
  simp

end ResetTables

/-- Settles O9: the tables of `poweredOn` show the registers of R38, which select what the variant's reset rule names. -/
theorem powerOnTablesByVariant : Obligations.PowerOnTablesByVariant := by
  intro s t cfg m hl ht hm
  have hcheck : checkCfg { toGeometry := cfg.toGeometry, tag := .known cfg.variant } = .ok cfg :=
    checkCfg_ok.mpr ⟨rfl, rfl, hl⟩
  obtain rfl := (exec_poweron_next ht).trans (State.afterPoweron_ok hcheck)
  obtain rfl := Option.some.inj hm
  have hcpu (p : Nat) (hp : p < 64) : (poweredOn cfg).cputab[p] = cpuEntry (freshMapper cfg) p :=
    Vector.getElem_ofFn ..
  have hppu (p : Nat) (hp : p < 16) : (poweredOn cfg).pputab[p] =
      ppuEntry (if cfg.variant = .shift then .oneScreenLow else cfg.mirroring0) (freshMapper cfg) p := by
    rw [← shownMode_freshMapper]
    exact Vector.getElem_ofFn ..
  refine ⟨rfl, rfl, rfl, rfl, fun hram p hp => ?_, fun hv p hp => ?_, fun k hk => ?_, fun k hk => ?_, fun hv p hp => ?_⟩
  · rw [Fin.getElem_fin, hcpu]
    exact cpuEntry_ramPages (m := freshMapper cfg) hram hp
  · rw [Fin.getElem_fin, hppu, if_neg hv, ppuEntry_nametable _ _ _ hp]
    cases cfg.mirroring0 with
    | vertical => simp only [shownNametable, Nat.mod_mod_of_dvd p.val (show 2 ∣ 4 by decide)]; rfl
    | horizontal | oneScreenLow | oneScreenHigh | fourScreen => rfl
  · rw [hcpu, cpuEntry_prg _ _ (by omega)]
    refine congrArg (fun bank => (⟨1024 * bank, true, true⟩ : Bank)) ?_
    cases hv : cfg.variant with
    | nrom => exact shownPrg_freshMapper_whole (.inl hv)
    | cnrom => exact shownPrg_freshMapper_whole (.inr hv)
    | uxrom => exact shownPrg_freshMapper_selected (.inl hv)
    | unrom512 => exact shownPrg_freshMapper_selected (.inr hv)
    | axrom => exact shownPrg_freshMapper_pair (.inl hv)
    | gxrom => exact shownPrg_freshMapper_pair (.inr hv)
    | shift => exact shownPrg_freshMapper_shift hv
    | irq => exact shownPrg_freshMapper_irq hv hk
    | latch => exact shownPrg_freshMapper_latch hv
  · rw [hppu, ppuEntry_chr _ _ _ hk]
    refine congrArg (fun bank => (⟨cfg.chrBase + 1024 * bank, cfg.chrReadOnly, true⟩ : Bank)) ?_
    cases hv : cfg.variant with
    | shift => exact shownChr_freshMapper_shift hv
    | irq => exact shownChr_freshMapper_irq hv hk
    | latch => exact shownChr_freshMapper_latch hv hk
    | nrom | uxrom | cnrom | axrom | gxrom | unrom512 =>
      exact shownChr_freshMapper_direct (by rw [hv]; decide)
  · rw [Fin.getElem_fin, hppu, if_pos hv, ppuEntry_nametable _ _ _ hp]
    rfl

end Sys2Proof.Machine

/-! ## The invariant along a step (R35, R103, R268, R286)

An operation of the variant on a block that meets the invariant completes and leaves a block that meets it: one rule per
combinator of the model, one arm per operation a transaction presents. `POWERON` and `RESTORE` build the block anew, and
are the two that can end in an error. -/

namespace Sys2Proof.Machine

/-! ### Completion -/

/-- The operation on `s` completes: it reports no error and leaves a block that meets the invariant. -/
def Completes (s : State) (o : Host.Outcome State Fault Refusal) : Prop :=
  ∃ m out d, o = .next (s.replyDraw m out d) ∧ out.error = none ∧ m.Inv

section Rules

variable {s : State} {m : Mapper}

theorem Completes.replyDraw {out : Output} (h : m.Inv) (hout : out.error = none) (d : Nat) :
    Completes s (.next (s.replyDraw m out d)) := ⟨m, out, d, rfl, hout, h⟩

theorem Completes.reply {out : Output} (h : m.Inv) (hout : out.error = none) : Completes s (.next (s.reply m out)) :=
  Completes.replyDraw h hout s.draws

theorem Completes.of_reply {o : Host.Outcome State Fault Refusal} (ho : o = .next (s.reply m Output.quiet))
    (h : m.Inv) : Completes s o :=
  ho ▸ Completes.reply h rfl

theorem Completes.finish {r : ProcResult} (hr : r = .done m) (h : m.Inv) : Completes s (finish s r) :=
  hr ▸ Completes.reply h rfl

theorem Completes.withBlock {k : Mapper → Host.Outcome State Fault Refusal} (hm : s.Live m)
    (hk : Completes s (k m)) : Completes s (withBlock s k) := by
  rwa [withBlock_live hm]

theorem Completes.withVariant {v : Variant} {k : Mapper → Host.Outcome State Fault Refusal} (hm : s.LiveAs v m)
    (hk : Completes s (k m)) : Completes s (withVariant v s k) := by
  rwa [withVariant_live hm]

/-- A read through a page of a block that meets the invariant (R141, R144, R223). -/
theorem Completes.withRead {e : Bank} {intra draws : Nat} {out : Byte → Output} (h : m.Inv) (he : m.holds e)
    (hi : intra < 1024) (hout : ∀ b, (out b).error = none) :
    Completes s (withRead m e intra draws fun b d => .next (s.replyDraw m (out b) d)) := by
  rw [withRead_of_holds he hi]
  exact Completes.replyDraw h (hout _) _

theorem writeThrough_of_holds {e : Bank} {intra : Nat} (v : Byte) (he : m.holds e) (hi : intra < 1024) :
    ∃ m', writeThrough m e intra v = some m' := by
  cases hmap : e.mapped with
  | false => exact ⟨m, by simp [writeThrough, translate, hmap]⟩
  | true =>
    have hin : e.off + intra < m.cfg.storeLen := by
      have := he hmap
      omega
    cases hro : e.ro with
    | true => exact ⟨m, by simp [writeThrough, translate, hmap, hro]⟩
    | false => exact ⟨_, by simp only [writeThrough, translate, hmap, hro, hin, if_true]; rfl⟩

theorem Completes.withWrite {e : Bank} {intra : Nat} {v : Byte} {out : Output} (he : m.holds e) (hi : intra < 1024)
    (hw : ∀ m', writeThrough m e intra v = some m' → m'.Inv) (hout : out.error = none) :
    Completes s (withWrite m e intra v fun m' => .next (s.reply m' out)) := by
  obtain ⟨m', hm'⟩ := writeThrough_of_holds v he hi
  rw [Machine.withWrite, hm']
  exact Completes.reply (hw m' hm') hout

end Rules

/-! ### What the invariant gives an access and a register write -/

section Invariant

variable {m : Mapper} (h : m.Inv)
include h

/-- Every CPU page of a block that meets the invariant is unmapped or inside the store (R35). -/
theorem Mapper.Inv.holds_cpuPageAt (a : CpuAddr) : m.holds (m.cpuPageAt a) := fun hmap => by
  obtain ⟨hstore, -⟩ := h.cpuBank (a.toNat / 1024) (by have := a.isLt; omega) hmap
  exact hstore

theorem Mapper.Inv.holds_cpuBank (a : CpuAddr) : m.holds (Machine.cpuBank m a) := by
  rw [cpuBank_eq]
  exact h.holds_cpuPageAt a

theorem Mapper.Inv.holds_ppuBank (a : PpuAddr) : m.holds (Machine.ppuBank m a) := by
  rw [ppuBank_eq]
  exact h.holds_ppuPageAt a

theorem Mapper.Inv.shiftRegs : shiftLegal m.cfg m.shift = true := by
  obtain ⟨-, hs, -⟩ := regsLegal_iff.mp h.regs
  exact hs

theorem Mapper.Inv.irqRegs : irqLegal m.cfg m.irq = true := by
  obtain ⟨-, -, hi, -⟩ := regsLegal_iff.mp h.regs
  exact hi

/-- The registers of `IRQ` written, and the windows laid out again (R212, R213). -/
theorem Mapper.Inv.irqLaidOut (hv : m.cfg.variant = .irq) {q : IrqRegs} (hq : irqLegal m.cfg q = true) :
    (m.setIrq q).laidOut.Inv :=
  h.laidOut rfl rfl rfl rfl rfl rfl (regsLegal_setIrq h.regs hq) (by rw [hv]; decide)

/-- The registers of `LATCH` written, and the windows laid out again (R242 to R247). -/
theorem Mapper.Inv.latchLaidOut (hv : m.cfg.variant = .latch) {q : LatchRegs} (hq : latchLegal m.cfg q = true) :
    (m.setLatch q).laidOut.Inv :=
  h.laidOut rfl rfl rfl rfl rfl rfl (regsLegal_setLatch h.regs hq) (by rw [hv]; decide)

/-- A serial register written, with no load (R194). -/
theorem Mapper.Inv.collected (hv : m.cfg.variant = .shift) (bit : Bool) (hcnt : m.shift.cnt < 4#3) :
    (m.setShift (m.shift.collect bit)).Inv :=
  h.sameSelection ⟨rfl, rfl, rfl, rfl, rfl, rfl, rfl, rfl, rfl, rfl, rfl, rfl⟩ rfl rfl
    (regsLegal_setShift h.regs (shiftLegal_collect hv h.shiftRegs bit hcnt))

/-- A mirroring write of `IRQ` and `LATCH` (R216, R248). -/
theorem Mapper.Inv.mirrored (hv : m.cfg.variant = .irq ∨ m.cfg.variant = .latch) (horizontal : Bool) :
    (if m.cfg.mirroring0 = .fourScreen then m else m.showing (horizontalOr horizontal)).Inv := by
  split
  · exact h
  · rename_i h0
    exact h.showing rfl rfl rfl h.regs (.inr ⟨hv, h0, by cases horizontal <;> simp [horizontalOr]⟩) fun _ _ hs => hs

end Invariant

/-- The detector and the reload mark alone bound what the registers of `IRQ` can hold (R29). -/
theorem irqLegal_congr {c : Cfg} (hv : c.variant = .irq) {q q' : IrqRegs} (h : irqLegal c q = true)
    (hlow : q'.lowTicks = q.lowTicks) (hpending : q'.reloadPending = q.reloadPending)
    (hcounter : q'.counter = q.counter) : irqLegal c q' = true := by
  rw [irqLegal_iff hv] at h ⊢
  rwa [hlow, hpending, hcounter]

theorem IrqRegs.tick_selection (q : IrqRegs) (lowMin : Byte) :
    (q.tick lowMin).bank = q.bank ∧ (q.tick lowMin).prgMode = q.prgMode ∧ (q.tick lowMin).chrMode = q.chrMode := by
  unfold IrqRegs.tick
  split <;> exact ⟨rfl, rfl, rfl⟩

/-! ### The operations complete -/

section Operations

variable {s : State} {m : Mapper} (h : m.Inv)
include h

/-- `IRQ` registers that select no bank (R219 to R222, R227). -/
theorem completes_irqWrite (hm : s.LiveAs .irq m) {q : Mapper → IrqRegs} (hbank : (q m).bank = m.irq.bank)
    (hprg : (q m).prgMode = m.irq.prgMode) (hchr : (q m).chrMode = m.irq.chrMode)
    (hq : irqLegal m.cfg (q m) = true) :
    Completes s (withVariant .irq s fun m => finish s (.done (m.setIrq (q m)))) :=
  Completes.withVariant hm (Completes.finish rfl (irq_same h hbank hprg hchr hq))

theorem completes_irqRemap (hm : s.LiveAs .irq m) {q : Mapper → IrqRegs} (hq : irqLegal m.cfg (q m) = true) :
    Completes s (withVariant .irq s fun m => finish s (irqRemap (m.setIrq (q m)))) :=
  Completes.withVariant hm (Completes.finish (irqRemap_done h.legal hm.2) (h.irqLaidOut hm.2 hq))

theorem completes_latchRemap (hm : s.LiveAs .latch m) {q : Mapper → LatchRegs} (hq : latchLegal m.cfg (q m) = true) :
    Completes s (withVariant .latch s fun m => finish s (latchRemap (m.setLatch (q m)))) :=
  Completes.withVariant hm (Completes.finish (latchRemap_done h.legal hm.2 hq) (h.latchLaidOut hm.2 hq))

/-- The reset write and a fifth write clear the serial register and remap (R193, R194). -/
theorem completes_shiftRemap (hv : m.cfg.variant = .shift) {q : ShiftRegs} (hsr : q.sr = 0#5) (hcnt : q.cnt = 0#3) :
    Completes s (finish s (shiftRemap (m.setShift q))) :=
  have hq : shiftLegal m.cfg q = true := shiftLegal_cleared hv q hsr hcnt
  Completes.finish (shiftRemap_done h.legal hv)
    (h.shiftRemap hv rfl rfl rfl rfl rfl (regsLegal_setShift h.regs hq))

theorem completes_shiftBit (hm : s.LiveAs .shift m) (target : BitVec 2) (bit : Bool) :
    Completes s (execShiftBit target bit s) := by
  refine Completes.withVariant hm ?_
  split
  case isTrue hcnt => exact Completes.finish rfl (h.collected hm.2 bit hcnt)
  case isFalse => exact completes_shiftRemap h hm.2 rfl rfl

/-- A read of `LATCH` and its trigger (R249). -/
theorem completes_latchRead (hm : s.LiveAs .latch m) (a : PpuAddr) : Completes s (latchRead a s) := by
  cases ht : triggeredLatches m.latch.latch a with
  | none =>
    rw [latchRead_of_holds hm (h.holds_ppuPageAt a) (triggerRemap_noTrigger ht)]
    exact Completes.replyDraw h rfl _
  | some l =>
    rw [latchRead_of_holds hm (h.holds_ppuPageAt a) (triggerRemap_trigger h.legal hm.2 h.regs ht)]
    exact Completes.replyDraw (h.relatched hm.2 l) rfl _

/-! The selects of the direct-mapped family: the masked selections are in range (R16). -/

theorem completes_uxromSel (hm : s.LiveAs .uxrom m) (v : Byte) : Completes s (execUxromSel v s) := by
  refine .of_reply (uxromSel_done v hm h.legal) (uxromSel_inv h hm.2 (maskReg_toNat _ v.isLt) ?_ rfl)
  exact maskTo_lt _ (Cfg.legal_prg h.legal)

theorem completes_cnromSel (hm : s.LiveAs .cnrom m) (v : Byte) : Completes s (execCnromSel v s) := by
  refine .of_reply (cnromSel_done v hm h.legal) (cnromSel_inv h hm.2 (maskReg_toNat _ v.isLt) ?_ rfl)
  exact maskTo_lt _ (Cfg.legal_chr h.legal)

theorem completes_axromSel (hm : s.LiveAs .axrom m) (v : Byte) : Completes s (execAxromSel v s) := by
  have hprg := maskTo_lt (field v 0 3) (Cfg.legal_prgPairs h.legal (.inl hm.2))
  refine .of_reply (axromSel_done v hm h.legal) (axromSel_inv h hm.2 ?_ hprg ?_ ?_ _)
  · exact maskReg_toNat _ (field_lt_256 v 0 3)
  · exact (maskTo_le ..).trans_lt (field_lt v 0 3)
  · rfl

theorem completes_gxromSel (hm : s.LiveAs .gxrom m) (v : Byte) : Completes s (execGxromSel v s) := by
  refine .of_reply (gxromSel_done v hm h.legal) (gxromSel_inv h hm.2 (maskReg_toNat _ (field_lt_256 v 4 2)) ?_ ?_
    (maskReg_toNat _ (field_lt_256 v 0 2)) ?_ ?_)
  · exact maskTo_lt _ (Cfg.legal_prgPairs h.legal (.inr hm.2))
  · exact (maskTo_le ..).trans_lt (field_lt v 4 2)
  · exact maskTo_lt _ (Cfg.legal_chr h.legal)
  · exact (maskTo_le ..).trans_lt (field_lt v 0 2)

theorem completes_unrom512Sel (hm : s.LiveAs .unrom512 m) (v : Byte) : Completes s (execUnrom512Sel v s) := by
  refine .of_reply (unrom512Sel_done v hm h.legal) (unrom512Sel_inv h hm.2 (maskReg_toNat _ (field_lt_256 v 0 5)) ?_ ?_
    (maskReg_toNat _ (field_lt_256 v 5 2)) ?_ ?_ _)
  · exact maskTo_lt _ (Cfg.legal_prg h.legal)
  · exact (maskTo_le ..).trans_lt (field_lt v 0 5)
  · exact maskTo_lt _ (Cfg.legal_chr h.legal)
  · exact (maskTo_le ..).trans_lt (field_lt v 5 2)

end Operations

/-- Every operation of the variant that acts on the block as it stands completes, from the invariant. -/
theorem exec_completes {s : State} {m : Mapper} {i : Instr} (hs : s.inst = some m) (h : m.Inv)
    (hi : Acts m.cfg.variant i) : Completes s (exec i s) := by
  have hlive : s.Live m := ⟨hs, h.live⟩
  obtain ⟨hw, hload⟩ := hi
  have hvariant {v : Variant} (hv : decide (m.cfg.variant = v) = true) : s.LiveAs v m := ⟨hlive, of_decide_eq_true hv⟩
  cases i with
  | poweron c => cases hload
  | restore buf => cases hload
  | tick => exact .withBlock hlive (.reply h rfl)
  | save => exact .withBlock hlive (.reply h rfl)
  | rdcpu a => exact .withBlock hlive (.withRead h (h.holds_cpuBank a) (cpuIntra_lt a) fun _ => rfl)
  | rdppu a => exact .withBlock hlive (.withRead h (h.holds_ppuBank a) (ppuIntra_lt a) fun _ => rfl)
  | wrcpu a v =>
    exact .withBlock hlive (.withWrite (h.holds_cpuBank a) (cpuIntra_lt a) (fun _ => cpuWrite_inv h a v) rfl)
  | wrppu a v =>
    exact .withBlock hlive (.withWrite (h.holds_ppuBank a) (ppuIntra_lt a) (fun _ => ppuWrite_inv h a v) rfl)
  -- direct-mapped family
  | uxromSel v => exact completes_uxromSel h (hvariant hw) v
  | cnromSel v => exact completes_cnromSel h (hvariant hw) v
  | axromSel v => exact completes_axromSel h (hvariant hw) v
  | gxromSel v => exact completes_gxromSel h (hvariant hw) v
  | unrom512Sel v => exact completes_unrom512Sel h (hvariant hw) v
  -- serial-protocol variant
  | shiftReset => exact .withVariant (hvariant hw) (completes_shiftRemap h (of_decide_eq_true hw) rfl rfl)
  | shiftBit target bit => exact completes_shiftBit h (hvariant hw) target bit
  -- scanline-IRQ variant
  | irqBanksel v =>
    exact completes_irqRemap h (hvariant hw) (irqLegal_congr (of_decide_eq_true hw) h.irqRegs rfl rfl rfl)
  | irqBankdata v =>
    exact completes_irqRemap h (hvariant hw) (irqLegal_congr (of_decide_eq_true hw) h.irqRegs rfl rfl rfl)
  | irqMirror horizontal =>
    exact .of_reply (mirrorWrite_live (hvariant hw) h.legal horizontal)
      (h.mirrored (.inl (of_decide_eq_true hw)) horizontal)
  | irqRamprot => exact .withVariant (hvariant hw) (.finish rfl h)
  | irqReloadval v =>
    exact completes_irqWrite h (hvariant hw) rfl rfl rfl
      (irqLegal_congr (of_decide_eq_true hw) h.irqRegs rfl rfl rfl)
  | irqReload =>
    have hv : m.cfg.variant = .irq := of_decide_eq_true hw
    obtain ⟨hlow, -⟩ := (irqLegal_iff hv).mp h.irqRegs
    exact completes_irqWrite h (hvariant hw) rfl rfl rfl ((irqLegal_iff hv).mpr ⟨hlow, fun _ => rfl⟩)
  | irqDisable =>
    exact completes_irqWrite h (hvariant hw) rfl rfl rfl
      (irqLegal_congr (of_decide_eq_true hw) h.irqRegs rfl rfl rfl)
  | irqEnable =>
    exact completes_irqWrite h (hvariant hw) rfl rfl rfl
      (irqLegal_congr (of_decide_eq_true hw) h.irqRegs rfl rfl rfl)
  | irqRdppu a =>
    have hobs := observe_inv h (of_decide_eq_true hw) (a.getLsbD 12)
    exact .withVariant (hvariant hw) (.withRead hobs (hobs.holds_ppuBank a) (ppuIntra_lt a) fun _ => rfl)
  | irqWrppu a v =>
    have hobs := observe_inv h (of_decide_eq_true hw) (a.getLsbD 12)
    exact .withVariant (hvariant hw)
      (.withWrite (hobs.holds_ppuBank a) (ppuIntra_lt a) (fun _ => ppuWrite_inv hobs a v) rfl)
  | irqTick =>
    obtain ⟨hbank, hprg, hchr⟩ := m.irq.tick_selection m.cfg.irqLowMin
    exact completes_irqWrite h (hvariant hw) hbank hprg hchr (irqLegal_tick (of_decide_eq_true hw) h.irqRegs)
  -- latch variant
  | latchPrg v =>
    exact completes_latchRemap h (hvariant hw) 
      (latchLegal_prg h.legal (of_decide_eq_true hw) (Mapper.latchLegal_of_regsLegal h.regs) v)
  | latchChr0 v | latchChr1 v | latchChr2 v | latchChr3 v =>
    exact completes_latchRemap h (hvariant hw)
      (latchLegal_select h.legal (of_decide_eq_true hw) (Mapper.latchLegal_of_regsLegal h.regs) _ v)
  | latchMirror horizontal =>
    exact .of_reply (mirrorWrite_live (hvariant hw) h.legal horizontal)
      (h.mirrored (.inr (of_decide_eq_true hw)) horizontal)
  | latchRdppu a => exact completes_latchRead h (hvariant (Bool.and_elim_left hw)) a
  | latchTrig0Clr low | latchTrig0Set low | latchTrig1Clr low | latchTrig1Set low =>
    exact completes_latchRead h (hvariant hw) _
  -- no transaction presents these
  | shiftLdCtrl | shiftLdChr0 | shiftLdChr1 | shiftLdPrg | map | unmap | mirror | setmirror | mapcpuram | mapppuram
  | mapprg | mapchr | shiftRemap | irqRemap | irqObserve | irqClock | latchRemap => cases hw

/-! ### POWERON and RESTORE, which build the block anew -/

theorem State.Inv.of_inst {t : State} {m : Mapper} (ht : t.inst = some m) (h : m.Inv) : t.Inv := fun m' hm' => by
  obtain rfl := Option.some.inj (ht.symm.trans hm')
  exact h

theorem State.afterPoweron_inv (s : State) (c : CfgIn) : (s.afterPoweron c).Inv := by
  cases hc : checkCfg c with
  | error e =>
    rw [State.afterPoweron_error hc]
    intro m hm
    simp at hm
  | ok cfg =>
    rw [State.afterPoweron_ok hc]
    exact .of_inst rfl (powerOn_inv (checkCfg_ok.mp hc).2.2)

/-- The only error of `POWERON` is a `ConfigError` (R281). -/
theorem State.afterPoweron_out_error {s : State} {c : CfgIn} {e : OpError}
    (he : (s.afterPoweron c).out.error = some e) : ∃ which, e = .config which := by
  cases hc : checkCfg c with
  | error which =>
    rw [State.afterPoweron_error hc] at he
    exact ⟨which, (Option.some.inj he).symm⟩
  | ok cfg =>
    rw [State.afterPoweron_ok hc] at he
    cases he

/-- A `RESTORE` of a live block reports the wrong size, takes the buffer, or refuses it (R266, R268, R285). -/
theorem exec_restore_cases {s : State} {m : Mapper} (hm : s.Live m) (buf : List Byte) :
    exec (.restore buf) s = .next (s.raise (some m) (.restoreSize buf.length (saveSize m.cfg))) ∨
    ((restored buf m).coherent = true ∧ exec (.restore buf) s = .next (s.reply (restored buf m) Output.quiet)) ∨
    (buf.length = saveSize m.cfg ∧ exec (.restore buf) s = .refused .foreignBuffer) := by
  by_cases hlen : buf.length = saveSize m.cfg
  · rw [exec_restore_live hm hlen]
    by_cases hown : ownBuffer buf m = true
    · obtain ⟨-, hcoherent⟩ := ownBuffer_iff.mp hown
      exact .inr (.inl ⟨hcoherent, if_pos hown⟩)
    · exact .inr (.inr ⟨hlen, if_neg hown⟩)
  · exact .inl (exec_restore_wrongSize hm hlen)

/-! ### The step -/

/-- Settles O56: the operation of the transaction completes with the invariant; `POWERON` leaves a constructed block or
none, and `RESTORE` the block as it was or a coherent one with its ROM (R23, R35). -/
theorem stepKeepsTheInvariant : Obligations.StepKeepsTheInvariant := by
  intro s t h ht
  rcases step_next ht with ⟨-, rfl⟩ | ⟨x, rest, i, -, hd, he⟩
  · exact h
  rcases decode_ok_acts hd with ⟨-, rfl⟩ | ⟨-, rfl⟩ | hi
  · rw [exec_poweron_next he]
    exact State.afterPoweron_inv _ _
  · obtain ⟨m, hm⟩ := live_of_exec_next (by simp) he
    have hinv := h m hm.1
    rcases exec_restore_cases hm x.buf with hr | ⟨hcoherent, hr⟩ | ⟨-, hr⟩ <;> rw [hr] at he <;> cases he
    · exact .of_inst rfl hinv
    · exact .of_inst rfl (restored_inv hinv x.buf hcoherent)
  · obtain ⟨m, hm⟩ := live_of_exec_next hi.ne_poweron he
    have hs : s.inst = some m := hm.1
    rw [variant_of_inst hs] at hi
    obtain ⟨m', out, d, hnext, -, hinv⟩ := exec_completes hm.1 (h m hs) hi
    cases hnext.symm.trans he
    exact .of_inst rfl hinv

/-- The two errors a transaction can end in from the invariant: a `ConfigError` of `POWERON` and a
`RestoreSizeMismatch` of `RESTORE` (R281, R285). -/
def HostError (x : Txn) (e : OpError) : Prop :=
  (wordKind x.word = 5#3 ∧ ∃ c, e = .config c) ∨ (wordKind x.word = 7#3 ∧ ∃ got want, e = .restoreSize got want)

theorem HostError.ne_contract {x : Txn} {e : OpError} (h : HostError x e) (kind : Bounds) : e ≠ .contract kind := by
  rcases h with ⟨-, c, rfl⟩ | ⟨-, got, want, rfl⟩ <;> simp

/-- Settles O58: a word with a wide address is refused, and every other transaction runs its operation, which completes
but for the errors of `POWERON` and `RESTORE` and for a foreign buffer. -/
theorem everyTransactionCompletesOrIsRefused : Obligations.EveryTransactionCompletesOrIsRefused := by
  intro s m x rest hs h hp
  have hlive : State.Live { s with port := rest } m := ⟨hs, h.live⟩
  have hanswers (t : State) (ht : step s = .next t) (he : ∀ e, t.out.error = some e → HostError x e) :
      ∃ t, step s = .next t ∧ (∀ kind, t.out.error ≠ some (.contract kind)) ∧
        ∀ e, t.out.error = some e → HostError x e :=
    ⟨t, ht, fun kind hk => (he _ hk).ne_contract kind rfl, he⟩
  cases hd : decode s.variant x with
  | error e =>
    obtain ⟨hk, hwide, rfl⟩ := (decode_error_iff _ x e).mp hd
    refine .inr (.inl ⟨hk, fun hz => ?_, step_refused hp hd⟩)
    simp [ppuAddr, hz] at hwide
  | ok i =>
    have hstep := step_ready hp hd
    rcases decode_ok_acts hd with ⟨hk, rfl⟩ | ⟨hk, rfl⟩ | hi
    · refine .inl (hanswers _ (hstep.trans (exec_poweron fun m0 hm0 => ?_)) fun e he => ?_)
      · obtain rfl := Option.some.inj (hs.symm.trans hm0)
        exact h.live
      · exact .inl ⟨hk, State.afterPoweron_out_error he⟩
    · rcases exec_restore_cases hlive x.buf with hr | ⟨-, hr⟩ | ⟨hlen, hr⟩
      · exact .inl (hanswers _ (hstep.trans hr) fun e he => .inr ⟨hk, _, _, (Option.some.inj he).symm⟩)
      · exact .inl (hanswers _ (hstep.trans hr) fun e he => by cases he)
      · exact .inr (.inr ⟨hk, hlen, hstep.trans hr⟩)
    · rw [variant_of_inst hs] at hi
      obtain ⟨m', out, d, hnext, hout, -⟩ := exec_completes hlive.1 h hi
      exact .inl (hanswers _ (hstep.trans hnext) fun e he => by simp [hout] at he)

end Sys2Proof.Machine

/-! ## What an operation writes and raises (R37, R132, R161, R291)

`writesStore`, `observesA12` and `keepsTables` list the operations of the access summary; each list is met by one case
analysis over the operations. -/

namespace Sys2Proof.Machine

/-! ### The mapping operations and the remaps (R132) -/

/-- The machine after an operation on block `m` that wrote tables alone: nothing returned, nothing raised, no draw. -/
def OnlyTablesWritten (s : State) (m : Mapper) (t : State) : Prop :=
  t.out.data = none ∧ t.out.irq = false ∧ t.port = s.port ∧ t.draws = s.draws ∧
    ∃ m', t.inst = some m' ∧ m'.cfg = m.cfg ∧ m'.store = m.store ∧ m'.direct = m.direct ∧ m'.shift = m.shift ∧
      m'.irq = m.irq ∧ m'.latch = m.latch

section Tables

variable {s t : State} {m : Mapper} {f : Mapper → ProcResult}

/-- Whether the procedure completes or ends in a violation, what it leaves differs in the tables alone. -/
theorem finish_onlyTables {r : ProcResult} (hr : m.SameButTables r.block) (h : finish s r = .next t) :
    OnlyTablesWritten s m t := by
  cases r with
  | done a =>
    cases h
    exact ⟨rfl, rfl, rfl, rfl, a, rfl, hr.cfg, hr.store, hr.direct, hr.shift, hr.irq, hr.latch⟩
  | violation kind a =>
    cases h
    exact ⟨rfl, rfl, rfl, rfl, a.setFaulted true, rfl, hr.cfg, hr.store, hr.direct, hr.shift, hr.irq, hr.latch⟩

theorem mapping_onlyTables (hs : s.inst = some m) (hf : ∀ a : Mapper, a.SameButTables (f a).block)
    (h : withBlock s (fun a => finish s (f a)) = .next t) : OnlyTablesWritten s m t := by
  obtain ⟨a, ⟨ha, -⟩, hk⟩ := withBlock_next h
  obtain rfl := Option.some.inj (hs.symm.trans ha)
  exact finish_onlyTables (hf m) hk

theorem remap_onlyTables {v : Variant} (hs : s.inst = some m) (hf : ∀ a : Mapper, a.SameButTables (f a).block)
    (h : withVariant v s (fun a => finish s (f a)) = .next t) : OnlyTablesWritten s m t := by
  obtain ⟨a, ⟨⟨ha, -⟩, -⟩, hk⟩ := withVariant_next h
  obtain rfl := Option.some.inj (hs.symm.trans ha)
  exact finish_onlyTables (hf m) hk

end Tables

/-- Settles O20: each of the operations runs a procedure that writes tables alone. -/
theorem mappingOperationsTouchOnlyTheTables : Obligations.MappingOperationsTouchOnlyTheTables := by
  intro s t m i hs ht hi
  rcases hi with ⟨tb, page, size, off, ro, rfl⟩ | ⟨tb, page, size, rfl⟩ | ⟨tb, page, size, stride, rfl⟩ | ⟨mode, rfl⟩ |
    ⟨page, size, bank, ro, rfl⟩ | ⟨page, size, bank, ro, rfl⟩ | ⟨page, size, bank, rfl⟩ | ⟨page, size, bank, rfl⟩ |
    rfl | rfl | rfl
  · exact mapping_onlyTables hs (fun _ => mapProc_keeps ..) ht
  · exact mapping_onlyTables hs (fun _ => unmapProc_keeps ..) ht
  · exact mapping_onlyTables hs (fun _ => mirrorProc_keeps ..) ht
  · exact mapping_onlyTables hs (fun _ => setMirror_keeps ..) ht
  · exact mapping_onlyTables hs (fun _ => mapCpuRam_keeps ..) ht
  · exact mapping_onlyTables hs (fun _ => mapPpuRam_keeps ..) ht
  · exact mapping_onlyTables hs (fun _ => mapPrg_keeps ..) ht
  · exact mapping_onlyTables hs (fun _ => mapChr_keeps ..) ht
  · exact remap_onlyTables hs shiftRemap_keeps ht
  · exact remap_onlyTables hs irqRemap_keeps ht
  · exact remap_onlyTables hs latchRemap_keeps ht

/-! ### Who writes the store and who raises (R37, R290, R291) -/

/-- The operations that write the store of the block they act on (R37). -/
def writesStore (i : Instr) : Bool :=
  match i with
  | .wrcpu _ _ | .wrppu _ _ | .irqWrppu _ _ | .restore _ => true
  | _ => false

/-- The operations of `IRQ` that can clock its counter (R223, R224, R226, R228). -/
def clocksCounter (i : Instr) : Bool :=
  match i with
  | .irqRdppu _ | .irqWrppu _ _ | .irqObserve _ | .irqClock => true
  | _ => false

/-- When the outcome of operation `i` on block `m` is a next state, the interrupt is raised only where the counter can
be clocked, and the store is written only by a store operation. -/
def Within (i : Instr) (m : Mapper) (o : Host.Outcome State Fault Refusal) : Prop :=
  ∀ t, o = .next t → (clocksCounter i = false → t.out.irq = false) ∧
    ∃ m', t.inst = some m' ∧ (writesStore i = false → m'.store = m.store)

section Rules

variable {i : Instr} {s : State} {m a : Mapper}

theorem Within.fault (r : Fault) : Within i m (.fault r) := fun _ h => by cases h

theorem Within.refused (r : Refusal) : Within i m (.refused r) := fun _ h => by cases h

theorem Within.replyDraw {out : Output} {d : Nat} (ha : writesStore i = false → a.store = m.store)
    (ho : clocksCounter i = false → out.irq = false) : Within i m (.next (s.replyDraw a out d)) := by
  rintro _ ⟨⟩
  exact ⟨ho, a, rfl, ha⟩

theorem Within.reply {out : Output} (ha : writesStore i = false → a.store = m.store)
    (ho : clocksCounter i = false → out.irq = false) : Within i m (.next (s.reply a out)) :=
  Within.replyDraw (d := s.draws) ha ho

theorem Within.ite {c : Prop} [Decidable c] {o o' : Host.Outcome State Fault Refusal} (h : Within i m o)
    (h' : Within i m o') : Within i m (if c then o else o') := by
  split
  · exact h
  · exact h'

/-- A procedure writes tables alone, of the block with its registers written (R132). -/
theorem Within.finish {r : ProcResult} (hr : a.SameButTables r.block) (ha : a.store = m.store) :
    Within i m (finish s r) := by
  have hstore : r.block.store = m.store := hr.store.trans ha
  cases r with
  | done b => exact Within.reply (fun _ => hstore) fun _ => rfl
  | violation kind b => exact Within.reply (a := b.setFaulted true) (fun _ => hstore) fun _ => rfl

theorem Within.withBlock {k : Mapper → Host.Outcome State Fault Refusal} (hs : s.inst = some m)
    (hk : Within i m (k m)) : Within i m (withBlock s k) := fun t ht => by
  obtain ⟨b, ⟨hb, -⟩, hk'⟩ := withBlock_next ht
  obtain rfl := Option.some.inj (hs.symm.trans hb)
  exact hk t hk'

theorem Within.withVariant {v : Variant} {k : Mapper → Host.Outcome State Fault Refusal} (hs : s.inst = some m)
    (hk : Within i m (k m)) : Within i m (withVariant v s k) :=
  Within.withBlock hs (Within.ite hk (Within.refused _))

theorem Within.withRead {e : Bank} {intra draws : Nat} {k : Byte → Nat → Host.Outcome State Fault Refusal}
    (hk : ∀ b d, Within i m (k b d)) : Within i m (withRead a e intra draws k) := fun t ht =>
  hk _ _ t (withRead_next ht)

theorem withWrite_next {t : State} {e : Bank} {intra : Nat} {v : Byte}
    {k : Mapper → Host.Outcome State Fault Refusal} (h : withWrite a e intra v k = .next t) :
    ∃ st, k (a.setStore st) = .next t := by
  rcases withWrite_cases a e intra v k with ⟨-, hk⟩ | ⟨-, -, -, hk⟩ | ⟨-, -, -, hk⟩
  · exact ⟨a.store, hk.symm.trans h⟩
  · exact ⟨_, hk.symm.trans h⟩
  · rw [hk] at h
    cases h

theorem Within.withWrite {e : Bank} {intra : Nat} {v : Byte} {out : Output} (hi : writesStore i = true)
    (ho : clocksCounter i = false → out.irq = false) :
    Within i m (withWrite a e intra v fun m' => .next (s.reply m' out)) := fun t ht => by
  obtain ⟨st, hk⟩ := withWrite_next ht
  exact Within.reply (fun hn => by simp [hi] at hn) ho t hk

end Rules

section Operations

variable {i : Instr} {s : State} {m : Mapper} (hs : s.inst = some m)
include hs

/-- An operation of a variant that writes its registers, then runs a procedure on the tables. -/
theorem within_remap {v : Variant} {f : Mapper → Mapper} {r : Mapper → ProcResult}
    (hr : ∀ a, (f a).SameButTables (r a).block) (hf : ∀ a, (f a).store = a.store) :
    Within i m (withVariant v s fun a => finish s (r a)) :=
  Within.withVariant hs (Within.finish (hr m) (hf m))

/-- An operation of a variant that writes its registers. -/
theorem within_registers {v : Variant} {f : Mapper → Mapper} (hf : ∀ a, (f a).store = a.store) :
    Within i m (withVariant v s fun a => finish s (.done (f a))) :=
  within_remap hs (f := f) (fun _ => .refl _) hf

theorem within_mapping {f : Mapper → ProcResult} (hf : ∀ a : Mapper, a.SameButTables (f a).block) :
    Within i m (withBlock s fun a => finish s (f a)) :=
  Within.withBlock hs (Within.finish (hf m) rfl)

/-- An operation of `IRQ` that can clock the counter (R224, R226). -/
theorem within_clock (hi : clocksCounter i = true) {q : Mapper → IrqRegs} {out : Mapper → Output} :
    Within i m (withVariant .irq s fun a => finishWith s (out a) (.done (a.setIrq (q a)))) :=
  Within.withVariant hs (Within.reply (a := m.setIrq (q m)) (fun _ => rfl) fun hn => by simp [hi] at hn)

theorem within_mirrorWrite (v : Variant) (mode : Mirroring) :
    Within i m (withVariant v s fun a =>
      if a.cfg.mirroring0 = .fourScreen then finish s (.done a) else finish s (setMirror mode a)) :=
  Within.withVariant hs (Within.ite (Within.finish (.refl m) rfl) (Within.finish (setMirror_keeps mode m) rfl))

theorem within_latchRead (a : PpuAddr) : Within i m (latchRead a s) :=
  Within.withVariant hs <| Within.withRead fun b d => by
    have htrigger : ∃ q, (m.setLatch q).SameButTables (triggerRemap m a).block := by
      unfold triggerRemap
      split
      · exact ⟨_, latchRemap_keeps _⟩
      · exact ⟨m.latch, .refl m⟩
    obtain ⟨q, hq⟩ := htrigger
    have hstore : (triggerRemap m a).block.store = m.store := hq.store
    cases hr : triggerRemap m a with rw [hr] at hstore
    | done m' => exact Within.replyDraw (fun _ => hstore) fun _ => rfl
    | violation kind m' => exact Within.reply (a := m'.setFaulted true) (fun _ => hstore) fun _ => rfl

end Operations

/-- Every operation but `POWERON` raises and writes within the two lists. -/
theorem exec_within {s : State} {m : Mapper} (i : Instr) (hs : s.inst = some m) (hi : ∀ c, i ≠ .poweron c) :
    Within i m (exec i s) := by
  cases i with
  | poweron c => exact absurd rfl (hi c)
  | tick => exact .withBlock hs (.reply (fun _ => rfl) fun _ => rfl)
  | save => exact .withBlock hs (.reply (fun _ => rfl) fun _ => rfl)
  | restore buf =>
    exact .withBlock hs (.ite (.ite (.reply nofun fun _ => rfl) (.refused _)) (.reply nofun fun _ => rfl))
  | rdcpu a => exact .withBlock hs (.withRead fun _ _ => .replyDraw (fun _ => rfl) fun _ => rfl)
  | rdppu a => exact .withBlock hs (.withRead fun _ _ => .replyDraw (fun _ => rfl) fun _ => rfl)
  | wrcpu a v => exact .withBlock hs (.withWrite rfl fun _ => rfl)
  | wrppu a v => exact .withBlock hs (.withWrite rfl fun _ => rfl)
  -- direct-mapped family
  | uxromSel v => exact within_remap hs (fun _ => mapPrg_keeps ..) fun _ => rfl
  | cnromSel v => exact within_remap hs (fun _ => mapChr_keeps ..) fun _ => rfl
  | axromSel v =>
    exact within_remap hs (fun _ => andThen_keeps (mapPrg_keeps ..) fun _ _ => setMirror_keeps ..) fun _ => rfl
  | gxromSel v =>
    exact within_remap hs (fun _ => andThen_keeps (mapPrg_keeps ..) fun _ _ => mapChr_keeps ..) fun _ => rfl
  | unrom512Sel v =>
    exact within_remap hs (fun _ => andThen_keeps (mapPrg_keeps ..) fun _ _ =>
      andThen_keeps (mapChr_keeps ..) fun _ _ => setMirror_keeps ..) fun _ => rfl
  -- serial-protocol variant
  | shiftReset => exact within_remap hs (fun _ => shiftRemap_keeps _) fun _ => rfl
  | shiftBit target bit =>
    exact .withVariant hs (.ite (.finish (.refl _) rfl) (.finish (shiftRemap_keeps _) rfl))
  | shiftLdCtrl v | shiftLdChr0 v | shiftLdChr1 v | shiftLdPrg v => exact within_registers hs fun _ => rfl
  | shiftRemap => exact within_remap hs shiftRemap_keeps fun _ => rfl
  -- scanline-IRQ variant
  | irqBanksel v => exact within_remap hs (fun _ => irqRemap_keeps _) fun _ => rfl
  | irqBankdata v => exact within_remap hs (fun _ => irqRemap_keeps _) fun _ => rfl
  | irqMirror horizontal => exact within_mirrorWrite hs .irq _
  | irqRamprot | irqReloadval v | irqReload | irqDisable | irqEnable | irqTick =>
    exact within_registers hs fun _ => rfl
  | irqRdppu a => exact .withVariant hs (.withRead fun _ _ => .replyDraw (fun _ => rfl) nofun)
  | irqWrppu a v => exact .withVariant hs (.withWrite rfl nofun)
  | irqObserve h => exact within_clock hs rfl
  | irqClock => exact within_clock hs rfl
  | irqRemap => exact within_remap hs irqRemap_keeps fun _ => rfl
  -- latch variant
  | latchPrg v | latchChr0 v | latchChr1 v | latchChr2 v | latchChr3 v =>
    exact within_remap hs (fun _ => latchRemap_keeps _) fun _ => rfl
  | latchMirror horizontal => exact within_mirrorWrite hs .latch _
  | latchRdppu a => exact within_latchRead hs a
  | latchTrig0Clr low | latchTrig0Set low | latchTrig1Clr low | latchTrig1Set low => exact within_latchRead hs _
  | latchRemap => exact within_remap hs latchRemap_keeps fun _ => rfl
  -- mapping operations
  | map t page size absOff ro => exact within_mapping hs fun _ => mapProc_keeps ..
  | unmap t page size => exact within_mapping hs fun _ => unmapProc_keeps ..
  | mirror t page size stride => exact within_mapping hs fun _ => mirrorProc_keeps ..
  | setmirror mode => exact within_mapping hs fun _ => setMirror_keeps ..
  | mapcpuram page size bank ro => exact within_mapping hs fun _ => mapCpuRam_keeps ..
  | mapppuram page size bank ro => exact within_mapping hs fun _ => mapPpuRam_keeps ..
  | mapprg page size bank => exact within_mapping hs fun _ => mapPrg_keeps ..
  | mapchr page size bank => exact within_mapping hs fun _ => mapChr_keeps ..

/-! ### Who changes no table (R37) -/

/-- The operations of the access summary that change no table. -/
def keepsTables (i : Instr) : Bool :=
  match i with
  | .tick | .irqTick | .save | .rdcpu _ | .wrcpu _ _ | .rdppu _ | .wrppu _ _ | .irqRdppu _ | .irqWrppu _ _
  | .irqRamprot | .irqReloadval _ | .irqReload | .irqDisable | .irqEnable | .irqClock | .irqObserve _ => true
  | _ => false

/-- Both tables are the same. -/
def Mapper.SameTables (m m' : Mapper) : Prop := m'.cputab = m.cputab ∧ m'.pputab = m.pputab

theorem Mapper.SameTables.setStore {m a : Mapper} (h : m.SameTables a) (st : Memory) : m.SameTables (a.setStore st) := h

theorem exec_keepsTables {s : State} {m : Mapper} {i : Instr} (hs : s.inst = some m) (hi : keepsTables i = true) :
    Leaves s m.SameTables (exec i s) := by
  have hsame : m.SameTables m := ⟨rfl, rfl⟩
  have hread {a : Mapper} (ha : m.SameTables a) {e : Bank} {intra : Nat} {out : Byte → Output} :
      Leaves s m.SameTables (withRead a e intra s.draws fun b d => .next (s.replyDraw a (out b) d)) :=
    Leaves.withRead fun _ _ hd => Leaves.replyDraw ha _ hd
  have hwrite {a : Mapper} (ha : m.SameTables a) {e : Bank} {intra : Nat} {v : Byte} {out : Output} :
      Leaves s m.SameTables (withWrite a e intra v fun m' => .next (s.reply m' out)) :=
    Leaves.withWrite (Leaves.reply ha _) fun st => Leaves.reply (ha.setStore st) _
  cases i with
  | tick | save => exact Leaves.withBlock hs (Leaves.reply hsame _)
  | rdcpu a | rdppu a => exact Leaves.withBlock hs (hread hsame)
  | wrcpu a v | wrppu a v => exact Leaves.withBlock hs (hwrite hsame)
  | irqRdppu a => exact Leaves.withVariant hs fun _ => hread (a := (observeBlock m (a.getLsbD 12)).1) ⟨rfl, rfl⟩
  | irqWrppu a v => exact Leaves.withVariant hs fun _ => hwrite (a := (observeBlock m (a.getLsbD 12)).1) ⟨rfl, rfl⟩
  | irqTick | irqRamprot | irqReloadval v | irqReload | irqDisable | irqEnable | irqClock | irqObserve h =>
    exact Leaves.withVariant hs fun _ => Leaves.reply ⟨rfl, rfl⟩ _
  | _ => cases hi

/-- Settles O60: the two lists are those of `writesStore` and `keepsTables`. -/
theorem onlyTheListedOperationsWriteStoreAndTables : Obligations.OnlyTheListedOperationsWriteStoreAndTables := by
  intro s t m i hs hpower hrestore ht
  obtain ⟨-, m', hm', hstore⟩ := exec_within i hs hpower t ht
  refine ⟨m', hm', fun hcpu hppu hirq => hstore ?_, fun hi => ?_⟩
  · cases i with
    | wrcpu a v => exact absurd rfl (hcpu a v)
    | wrppu a v => exact absurd rfl (hppu a v)
    | irqWrppu a v => exact absurd rfl (hirq a v)
    | restore buf => exact absurd rfl (hrestore buf)
    | _ => rfl
  · have hkeeps : keepsTables i = true := by
      rcases hi with rfl | rfl | rfl | ⟨a, rfl⟩ | ⟨a, v, rfl⟩ | ⟨a, rfl⟩ | ⟨a, v, rfl⟩ | ⟨a, rfl⟩ | ⟨a, v, rfl⟩ | rfl |
        ⟨v, rfl⟩ | rfl | rfl | rfl | rfl | ⟨h, rfl⟩ <;> rfl
    obtain ⟨-, -, m'', hm'', htables⟩ := exec_keepsTables hs hkeeps t ht
    obtain rfl := Option.some.inj (hm'.symm.trans hm'')
    exact htables

/-! ### NROM (R161) -/

/-- Under `NROM` every transaction but `POWERON` and `RESTORE` presents a default operation (R106). -/
theorem decode_nrom_keepsTables {x : Txn} {i : Instr} (h : decode .nrom x = .ok i) (h5 : wordKind x.word ≠ 5#3)
    (h7 : wordKind x.word ≠ 7#3) : keepsTables i = true := by
  rcases decode_ok_cases h with ⟨-, rfl⟩ | ⟨-, rfl⟩ | ⟨-, rfl⟩ | ⟨-, p, -, rfl⟩ | ⟨-, p, -, rfl⟩ | ⟨hk, -⟩ | ⟨-, rfl⟩ |
    ⟨hk, -⟩
  case inr.inr.inr.inr.inr.inl => exact absurd hk h5
  case inr.inr.inr.inr.inr.inr.inr => exact absurd hk h7
  all_goals rfl

/-- A CPU page from 0x8000 up is read-only (R71). -/
theorem Mapper.Inv.cpuPageAt_prg_ro {m : Mapper} (h : m.Inv) {a : CpuAddr} (ha : 0x8000 ≤ a.toNat) :
    (m.cpuPageAt a).ro = true := by
  have hpage : a.toNat / 1024 < 64 := by
    have := a.isLt
    omega
  obtain ⟨mode, -, hshows⟩ := h.shows
  obtain ⟨-, hro, -⟩ := cpuEntry_inPrg (p := a.toNat / 1024) h.legal h.regs (by omega) hpage
  rw [Mapper.cpuPageAt, hshows.cpu _ hpage]
  exact hro

/-- Settles O31: the operations `NROM` decodes to change no table, and a write to a read-only page is discarded. -/
theorem nromMappingIsFixed : Obligations.NromMappingIsFixed := by
  refine ⟨fun s t m x rest hm hv hp h5 h7 ht => ?_, fun s m x rest a v hs h hv hp hx ha => ?_⟩
  · have hvar : s.variant = .nrom := (variant_of_inst hm.1).trans hv
    rcases step_next ht with ⟨hnil, -⟩ | ⟨y, rest', i, hp', hd, he⟩
    · rw [hp] at hnil
      cases hnil
    · cases hp.symm.trans hp'
      have hkeeps := decode_nrom_keepsTables (hvar ▸ hd) h5 h7
      obtain ⟨-, -, m', hm', hcpu, hppu⟩ :=
        exec_keepsTables (s := { s with port := rest }) hm.1 hkeeps t he
      exact ⟨m', hm', hcpu, hppu⟩
  · have hvar : s.variant = .nrom := (variant_of_inst hs).trans hv
    have hd : decode s.variant x = .ok (.wrcpu a v) := by
      rw [hvar, decode_kind .nrom x 2#3 (by rw [hx, wordKind_makeWord]), hx, wordAddr_makeWord, wordData_makeWord]
      rfl
    have hlive : State.Live { s with port := rest } m := ⟨hs, h.live⟩
    rw [step_ready hp hd, exec_wrcpu_live hlive, withWrite_readOnly (h.cpuPageAt_prg_ro ha), State.reply_live hlive]
    rfl

/-! ### The interrupt (R226, R291) -/

/-- The counter raises in the step from 1 to 0 alone (R226). -/
theorem IrqRegs.clock_raises {q : IrqRegs} (h : q.clock.2 = true) :
    q.reloadPending = false ∧ q.counter = 1#8 ∧ q.enable = true := by
  unfold IrqRegs.clock at h
  split at h
  · cases h
  · rename_i hn
    simp only [Bool.and_eq_true, decide_eq_true_eq] at h
    obtain ⟨hzero, henable⟩ := h
    exact ⟨by simpa using fun hp => hn (.inl hp), by bv_omega, henable⟩

/-- An observation raises only where it ends a long low period and clocks the counter (R224). -/
theorem IrqRegs.observe_raises {q : IrqRegs} {lowMin : Byte} {high : Bool} (h : (q.observe lowMin high).2 = true) :
    high = true ∧ q.a12Low = true ∧ lowMin.toNat ≤ q.lowTicks.toNat ∧ q.clock.2 = true := by
  cases high <;> cases hlow : q.a12Low <;> simp only [IrqRegs.observe, hlow] at h
  · cases h
  · cases h
  · cases h
  · by_cases hticks : lowMin ≤ q.lowTicks
    · simp only [hticks, if_true] at h
      exact ⟨rfl, rfl, hticks, h⟩
    · simp [hticks] at h

/-- An access of `IRQ` raises when its observation does (R223, R228). -/
theorem irqAccess_raises {s t : State} {m : Mapper} {i : Instr} {a : PpuAddr} (hm : s.LiveAs .irq m)
    (hi : i = .irqRdppu a ∨ ∃ v, i = .irqWrppu a v) (ht : exec i s = .next t) (hirq : t.out.irq = true) :
    (m.irq.observe m.cfg.irqLowMin (a.getLsbD 12)).2 = true := by
  rcases hi with rfl | ⟨v, rfl⟩
  · rw [exec_irqRdppu_live hm] at ht
    cases withRead_next ht
    exact hirq
  · rw [exec_irqWrppu_live hm] at ht
    obtain ⟨st, hk⟩ := withWrite_next ht
    cases hk
    exact hirq

/-- A `POWERON` raises no interrupt, completed or refused. -/
theorem State.afterPoweron_irq (s : State) (c : CfgIn) : (s.afterPoweron c).out.irq = false := by
  cases hc : checkCfg c with
  | error e =>
    rw [State.afterPoweron_error hc]
    rfl
  | ok cfg =>
    rw [State.afterPoweron_ok hc]
    rfl

/-- Settles O46: only the operations that clock the counter raise, a transaction presents two of them, and these raise
with their observation. -/
theorem onlyTheCounterStepRaises : Obligations.OnlyTheCounterStepRaises := by
  intro s t hport ht hirq
  rcases step_next ht with ⟨hnil, -⟩ | ⟨x, rest, i, hp, hd, he⟩
  · exact absurd hnil hport
  have hne : ∀ c, i ≠ .poweron c := by
    rintro c rfl
    rw [exec_poweron_next he, State.afterPoweron_irq] at hirq
    cases hirq
  obtain ⟨m, hm⟩ := live_of_exec_next hne he
  have hs : s.inst = some m := hm.1
  have hclocks : clocksCounter i = true := by
    by_contra hn
    obtain ⟨hquiet, -⟩ := exec_within i hm.1 hne t he
    rw [hquiet (by simpa using hn)] at hirq
    cases hirq
  have haccess : ∃ a, s.variant = .irq ∧ (i = .irqRdppu a ∨ ∃ v, i = .irqWrppu a v) := by
    have hw := decodedOperationIsWellFormed s.variant x i hd
    cases i with
    | irqRdppu a => exact ⟨a, of_decide_eq_true hw, .inl rfl⟩
    | irqWrppu a v => exact ⟨a, of_decide_eq_true hw, .inr ⟨v, rfl⟩⟩
    | irqObserve h => cases hw
    | irqClock => cases hw
    | _ => cases hclocks
  obtain ⟨a, hvar, hi⟩ := haccess
  have hv : m.cfg.variant = .irq := (variant_of_inst hs).symm.trans hvar
  obtain ⟨hhigh, hlow, hticks, hclock⟩ := IrqRegs.observe_raises (irqAccess_raises ⟨hm, hv⟩ hi he hirq)
  obtain ⟨hpending, hcounter, henable⟩ := IrqRegs.clock_raises hclock
  rw [hvar] at hd
  refine ⟨m, x, rest, a, hs, hp, hv, ?_, hhigh, hlow, hticks, hpending, hcounter, henable⟩
  rcases hi with rfl | ⟨v, rfl⟩
  · exact .inl hd
  · exact .inr ⟨v, hd⟩

end Sys2Proof.Machine
